-- ==== Sys2Proof/Word.lean ====
section
/-! DEFINITION. The word types of the machine (R2, R3): bytes, 64-bit values, 32-lane masks. -/

namespace Sys2Proof

/-- One byte of memory. -/
abbrev Byte := BitVec 8

/-- A 64-bit value: queue entries, scalars, addresses, instruction words (R49, R59, R151). -/
abbrev Word := BitVec 64

/-- A 32-bit mask with one bit for each lane (R25). -/
abbrev LaneMask := BitVec 32

end Sys2Proof
end

