-- ==== Sys2Proof/Syntax.lean ====
section
/-! DEFINITION. The abstract syntax of hs-eec9a338566a: one constructor of Instr for every row of spec/opcode_table.json,
the 178 Melta instructions with ERET_M beside ERET, and the 123 events of the module. -/

namespace Sys2Proof

/-- Type codes of TY and of every tag (Table 07-12, R163). -/
inductive Ty where
  | raw | i32 | n32 | i64 | n64 | f16 | bf16 | f32 | f64 | e4m3 | e5m2 | q4n | sign | addr | bool | poison
  deriving DecidableEq, Repr, Inhabited

/-- The two PC slots of a warp (R25). -/
inductive PcSlot where
  | a | b
  deriving DecidableEq, Repr, Inhabited

/-- Rounding modes of RM that a word may carry (Table 04-3, R73). -/
inductive Rm where
  | rne | rtz | rdn | rup | sr
  deriving DecidableEq, Repr, Inhabited

/-- Memory scopes (Table 06-1, R116). -/
inductive Scope where
  | wp | bk | gg | die | pkg | sys
  deriving DecidableEq, Repr, Inhabited

/-- Memory orders of format M (Table 06-2, R121). -/
inductive Ord where
  | plain | acq | rel | acqrel
  deriving DecidableEq, Repr, Inhabited

/-- Kinds of FENCE (R126, Table 07-1). -/
inductive FenceKind where
  | xp | acq | rel | full
  deriving DecidableEq, Repr, Inhabited

/-- Branch and selection conditions (Table 07-9, R159). -/
inductive Cond where
  | al | eq | ne | lt | ge | le | gt | ult | uge | ule | ugt | neg | nneg | ovf | novf
  deriving DecidableEq, Repr, Inhabited

/-- Cache policies of CP (Table 07-1, R233): they change only timing. -/
inductive Cp where
  | dflt | str | nc
  deriving DecidableEq, Repr, Inhabited

/-- The 7-bit operand field (Table 03-6, R60). An immediate carries the IMM14 bits of its word (R61). -/
inductive Src where
  | age (n : BitVec 5)
  | frame (n : BitVec 5)
  | scalar (n : BitVec 5)
  | zero
  | one
  | laneNum
  | warpNum
  | tileLane
  | tileId
  | imm (v : BitVec 14)
  deriving DecidableEq, Repr, Inhabited

/-- Integer and float comparison codes (Table 09-1). -/
inductive Cmp where
  | eq | ne | lt | le | gt | ge | un | ord
  deriving DecidableEq, Repr, Inhabited

/-- SHFL operations (Table 09-1, R223). -/
inductive ShflOp where
  | idx | up | down | xor
  deriving DecidableEq, Repr, Inhabited

/-- REDUX and SCAN operations (Table 09-1, R224). -/
inductive RedOp where
  | add | min | max | and | or | xor
  deriving DecidableEq, Repr, Inhabited

/-- VOTE operations (R225). -/
inductive VoteOp where
  | conj | disj | same | each | odd
  deriving DecidableEq, Repr, Inhabited

/-- MATCH operations (R226). -/
inductive MatchOp where
  | dup | same | lead
  deriving DecidableEq, Repr, Inhabited

/-- Atomic operations (Table 10-2, R237). -/
inductive AtomOp where
  | add | min | max | and | or | xor | exch
  deriving DecidableEq, Repr, Inhabited

/-- CCTL operations (R236). -/
inductive CctlOp where
  | inv | invall | clean
  deriving DecidableEq, Repr, Inhabited

/-- Bank modes (Table 05-1, R88). -/
inductive BankMode where
  | off | cache | scratch | fifo
  deriving DecidableEq, Repr, Inhabited

/-- Spaces of a Sluice card (Table 05-4). -/
inductive SluiceSpace where
  | global | scratch | bplane | remote
  deriving DecidableEq, Repr, Inhabited

/-- Special functions (Table 09-6, R217). -/
inductive SpecialFn where
  | rcp | rsq | exp2 | log2 | sin | cos | tanh
  deriving DecidableEq, Repr, Inhabited

/-- Theodolite predicates (Table 12-1, R272). -/
inductive Predicate where
  | ori2 | ori3 | incir | insph | segx
  deriving DecidableEq, Repr, Inhabited

/-- Special registers that RDSR reads (Table 08-2, R176). -/
inductive SpecialReg where
  | mode | fflags | tile | cnt | stakepc | stakerec | seal | divdepth | calldepth | rngctr | gpstat | gtime
  | wp (j : BitVec 4)
  | lanenum | warpnum | tilelane | tileid
  deriving DecidableEq, Repr, Inhabited

/-- Special registers that WRSR writes (Table 08-2, access RW). -/
inductive WritableReg where
  | mode | fflags | rngctr
  deriving DecidableEq, Repr, Inhabited

/-- Common head of a pushing instruction: mask register, zeroing of masked-off lanes, type (R152). -/
structure VHead where
  ms : BitVec 3
  mz : Bool
  ty : Ty
  deriving DecidableEq, Repr, Inhabited

/-- Second operand of format S: a scalar or the immediate imm16 (R157). -/
inductive SOp2 where
  | reg (n : BitVec 5)
  | imm (v : BitVec 16)
  deriving DecidableEq, Repr, Inhabited

/-- Fields of a two-operand scalar instruction (R157, R199). -/
structure SArgs where
  ty : Ty
  sd : BitVec 5
  sa : BitVec 5
  b : SOp2
  ccw : BitVec 4
  deriving DecidableEq, Repr, Inhabited

/-- Fields common to the per-lane memory instructions (R158). -/
structure MArgs where
  la : BitVec 4
  ms : BitVec 3
  mz : Bool
  ty : Ty
  addr : Src
  off : BitVec 16
  deriving DecidableEq, Repr, Inhabited

/-- Fields of a Sluice issue (R161, R245). An omitted barrier or write pointer is none (NOBAR, NOWP). -/
structure SluiceArgs where
  la : BitVec 4
  sx : BitVec 5
  sy : BitVec 5
  bar : Option (BitVec 5)
  wp : Option (BitVec 4)
  port : BitVec 4
  deriving DecidableEq, Repr, Inhabited

/-- Fields of an MMA or MMAQ (R162, R262). -/
structure MmaArgs where
  shape : BitVec 5
  adesc : BitVec 6
  bdesc : BitVec 6
  acc : BitVec 2
  overwrite : Bool
  af : BitVec 4
  bf : BitVec 4
  deriving DecidableEq, Repr, Inhabited

/-- Fields of a region instruction of the stream: ACCLD, ACCST, QSTORE (R260, R264, R265). -/
structure RegionArgs where
  shape : BitVec 5
  desc : BitVec 6
  acc : BitVec 2
  af : BitVec 4
  row : BitVec 2
  col : BitVec 2
  deriving DecidableEq, Repr, Inhabited

/-- Fields of a Theodolite predicate (R272). -/
structure PredArgs where
  la : BitVec 4
  ms : BitVec 3
  mz : Bool
  ty : Ty
  sos : Bool
  nf : Bool
  a : Src
  b : Src
  deriving DecidableEq, Repr, Inhabited

/-- A Datum command as the mailbox header names it (Table 19-6, R348). -/
structure DtmCmd where
  pf : Fin 2
  dest : Bool
  seq : BitVec 32
  handle : Word
  bodyAddr : Word
  bodyLen : BitVec 32
  outLen : BitVec 32
  outAddr : Word
  p0 : Word
  p1 : Word
  p2 : Word
  deriving DecidableEq, Repr, Inhabited

/-- Who an uncorrectable error stops (R37, R341, R402, R426). An error of a memory array, of the 64-byte word at a package address, stops
nobody until an agent consumes the word (R419). -/
inductive ErrOwner where
  | gang (id : Nat)
  | partition (p : Nat)
  | allVfs
  | word (addr : Nat) (corrected : Bool)
  deriving DecidableEq, Repr, Inhabited

/-- Where a register access goes: BAR0 of a PF or of a VF; `bound` where it comes over the VF's IDE stream from a TDI bound to it (R331). -/
inductive RegTarget where
  | pf (n : Fin 2)
  | vf (number : Nat) (bound : Bool)
  deriving DecidableEq, Repr, Inhabited

/-- How a host request through VF BAR2 comes: its link, and whether it comes over the VF's IDE stream from a TDI bound to it (R331). -/
structure HostPath where
  link : Nat
  bound : Bool
  deriving DecidableEq, Repr, Inhabited

/-- Where a PTP message comes from: source, fabric port, transport (Table 22-4). -/
structure PtpSource where
  src : BitVec 2
  port : BitVec 4
  xport : BitVec 2
  deriving DecidableEq, Repr, Inhabited

/-- What a PTP message tells, in ns: the master's time and the path delay measured (R414). -/
structure PtpTime where
  master : Word
  delay : BitVec 32
  deriving DecidableEq, Repr, Inhabited

/-- One modified or pushed line that a Cadastre message carries (R398): its physical address and bytes. -/
structure LineData where
  line : Nat
  bytes : List Byte
  deriving DecidableEq, Repr, Inhabited

/-- The instructions and events of the opcode table, family by family. -/
inductive Instr where
  -- group 0x0, control (08, R178-R192)
  | nop
  | bra (off : BitVec 24)
  | brc (cond : Cond) (off : BitVec 24)
  | brz (ms : BitVec 3) (off : BitVec 24)
  | brnz (ms : BitVec 3) (off : BitVec 24)
  | brd (ms : BitVec 3) (jid : BitVec 6) (off : BitVec 24)
  | join (jid : BitVec 6) (c : BitVec 6) (pi : BitVec 24)
  | call (nargs nres : BitVec 5) (off : BitVec 24)
  | calli (nargs nres target : BitVec 5)
  | ret
  | loop (k : BitVec 5) (off : BitVec 24)
  | exit
  | stake (k : BitVec 12)
  | yield (n : BitVec 10)
  | svc (n : BitVec 5)
  | bkpt (k : BitVec 5)
  | launch (sy sx : BitVec 5)
  | waitdep
  | trig
  | eret
  | eretM (ms : BitVec 3)
  | abort
  -- group 0x1, the queue (08, R177, R193-R198)
  | save (ms : BitVec 3) (a : Src) (dst : BitVec 5)
  | dup (ms : BitVec 3) (mz : Bool) (a : Src)
  | pushi (h : VHead) (v : BitVec 32)
  | qperm (pi : BitVec 24)
  | settag (h : VHead) (a : Src)
  | tile (log2w : BitVec 3)
  | setmode (val wen : BitVec 8)
  | lane2s (ms : BitVec 3) (a b : Src) (k : BitVec 5)
  | rdsr (ms : BitVec 3) (mz : Bool) (r : SpecialReg)
  | wrsr (ms : BitVec 3) (a : Src) (r : WritableReg)
  -- group 0x2, scalars (08, R199-R202)
  | sadd (x : SArgs)
  | ssub (x : SArgs)
  | smul (x : SArgs)
  | smulh (x : SArgs)
  | sand (x : SArgs)
  | sor (x : SArgs)
  | sxor (x : SArgs)
  | sshl (x : SArgs)
  | sshr (x : SArgs)
  | ssar (x : SArgs)
  | smin (x : SArgs)
  | smax (x : SArgs)
  | scmp (ty : Ty) (sa : BitVec 5) (b : SOp2) (ccw : BitVec 4)
  | smov (ty : Ty) (sd sa : BitVec 5) (ccw : BitVec 4)
  | smovi (ty : Ty) (sd sa : BitVec 5) (v : BitVec 16) (ccw : BitVec 4)
  | ssel (cond : Cond) (ty : Ty) (sd sa : BitVec 5) (b : SOp2)
  | sclz (ty : Ty) (sd sa : BitVec 5) (ccw : BitVec 4)
  | spopc (ty : Ty) (sd sa : BitVec 5) (ccw : BitVec 4)
  | sbfe (x : SArgs)
  | sld (ty : Ty) (sd sa : BitVec 5) (off : BitVec 16)
  | sst (ty : Ty) (sd sa : BitVec 5) (off : BitVec 16)
  -- group 0x3, vector integer (09, R208-R210)
  | iadd (h : VHead) (sat : Bool) (a b : Src)
  | isub (h : VHead) (sat : Bool) (a b : Src)
  | imul (h : VHead) (sat : Bool) (a b : Src)
  | imulh (h : VHead) (a b : Src)
  | imad (h : VHead) (sat : Bool) (a b c : Src)
  | ineg (h : VHead) (sat : Bool) (a : Src)
  | iabs (h : VHead) (sat : Bool) (a : Src)
  | imin (h : VHead) (a b : Src)
  | imax (h : VHead) (a b : Src)
  | and (h : VHead) (a b : Src)
  | or (h : VHead) (a b : Src)
  | xor (h : VHead) (a b : Src)
  | not (h : VHead) (a : Src)
  | shl (h : VHead) (sat : Bool) (a b : Src)
  | shr (h : VHead) (a b : Src)
  | sar (h : VHead) (a b : Src)
  | rotl (h : VHead) (a b : Src)
  | bfe (h : VHead) (a b : Src)
  | bfi (h : VHead) (a b c : Src)
  | popc (h : VHead) (a : Src)
  | clz (h : VHead) (a : Src)
  | brev (h : VHead) (a : Src)
  | icmp (h : VHead) (cc : Cmp) (a b : Src)
  | sel (h : VHead) (a b c : Src)
  | lea (ms : BitVec 3) (mz : Bool) (a b c : Src)
  -- group 0x4, vector floating point (09, R211-R214)
  | fadd (h : VHead) (rm : Rm) (na nb : Bool) (a b : Src)
  | fsub (h : VHead) (rm : Rm) (na nb : Bool) (a b : Src)
  | fmul (h : VHead) (rm : Rm) (na nb : Bool) (a b : Src)
  | ffma (h : VHead) (rm : Rm) (na nb nc : Bool) (a b c : Src)
  | fmin (h : VHead) (na nb : Bool) (a b : Src)
  | fmax (h : VHead) (na nb : Bool) (a b : Src)
  | fabs (h : VHead) (a : Src)
  | fcmp (h : VHead) (cc : Cmp) (a b : Src)
  | fclass (h : VHead) (a : Src)
  | frnd (h : VHead) (rm : Rm) (na : Bool) (a : Src)
  | fscale (h : VHead) (rm : Rm) (na : Bool) (a b : Src)
  | fdiv (la : BitVec 4) (h : VHead) (rm : Rm) (na nb : Bool) (a b : Src)
  | fsqrt (la : BitVec 4) (h : VHead) (rm : Rm) (na : Bool) (a : Src)
  -- group 0x5, conversion, special functions, random numbers, bit streams (09, R215-R221)
  | cvt (h : VHead) (rm : Rm) (dty : Ty) (a : Src)
  | cvtsr (h : VHead) (dty : Ty) (a b : Src)
  | frcp (la : BitVec 4) (h : VHead) (a : Src)
  | frsq (la : BitVec 4) (h : VHead) (a : Src)
  | fexp2 (la : BitVec 4) (h : VHead) (a : Src)
  | flog2 (la : BitVec 4) (h : VHead) (a : Src)
  | fsin (la : BitVec 4) (h : VHead) (a : Src)
  | fcos (la : BitVec 4) (h : VHead) (a : Src)
  | ftanh (la : BitVec 4) (h : VHead) (a : Src)
  | rng (h : VHead) (k : BitVec 5)
  | bsinit (ms : BitVec 3) (a b : Src) (n : BitVec 5)
  | bsrd (ms : BitVec 3) (mz : Bool) (n : BitVec 5) (b c : Src)
  -- group 0x6, lane exchange and masks (09, R222-R228)
  | shfl (la : BitVec 4) (h : VHead) (op : ShflOp) (a b : Src)
  | vote (ms : BitVec 3) (op : VoteOp) (a : Src) (c : BitVec 3)
  | redux (la : BitVec 4) (h : VHead) (op : RedOp) (rm : Rm) (a : Src)
  | scan (la : BitVec 4) (h : VHead) (excl : Bool) (op : RedOp) (rm : Rm) (a : Src)
  | matchLanes (ms : BitVec 3) (ty : Ty) (op : MatchOp) (a : Src) (c : BitVec 3)
  | mset (ms : BitVec 3) (a : Src) (c : BitVec 3)
  | mand (a b c : BitVec 3)
  | mor (a b c : BitVec 3)
  | mxor (a b c : BitVec 3)
  | mnot (a c : BitVec 3)
  | mpopc (a : BitVec 3) (k : BitVec 5)
  | mfirst (a : BitVec 3) (k : BitVec 5)
  | mfroms (k : BitVec 5) (c : BitVec 3)
  | mtos (a : BitVec 3) (k : BitVec 5)
  -- group 0x7, memory (10, R233-R236)
  | ld (m : MArgs) (cp : Cp)
  | ld2 (m : MArgs) (cp : Cp)
  | st (m : MArgs) (data : Src) (cp : Cp)
  | st2 (m : MArgs) (data : Src) (cp : Cp)
  | lds (m : MArgs) (cp : Cp)
  | sts (m : MArgs) (data : Src) (cp : Cp)
  | ldb (m : MArgs) (k : BitVec 5) (stale : Bool)
  | lda (m : MArgs) (scope : Scope) (cp : Cp)
  | stl (m : MArgs) (data : Src) (scope : Scope) (cp : Cp)
  | pref (m : MArgs) (cp : Cp)
  | cctl (m : MArgs) (op : CctlOp)
  -- group 0x8, atomics and rounds (10, R237-R239)
  | atom (m : MArgs) (data : Src) (scope : Scope) (ord : Ord) (op : AtomOp)
  | atomc (m : MArgs) (data : Src) (scope : Scope) (ord : Ord) (cmp : BitVec 5)
  | atomf (m : MArgs) (data : Src) (scope : Scope) (ord : Ord) (op : AtomOp)
  | red (m : MArgs) (data : Src) (scope : Scope) (ord : Ord) (op : AtomOp)
  | atoms (m : MArgs) (data : Src) (scope : Scope) (ord : Ord) (op : AtomOp)
  | atomsc (m : MArgs) (data : Src) (scope : Scope) (ord : Ord) (cmp : BitVec 5)
  | radv (m : MArgs) (scope : Scope)
  | rdround (m : MArgs)
  -- group 0x9, fences, barriers, FIFOs, banks (10, R240-R244)
  | fence (kind : FenceKind) (scope : Scope) (ms : BitVec 3)
  | barinit (id sx sy : BitVec 5)
  | bararv (id : BitVec 5) (n : BitVec 8)
  | barwt (id sx : BitVec 5)
  | barexp (id sy : BitVec 5)
  | fqput (ms : BitVec 3) (ty : Ty) (a : Src) (k : BitVec 3)
  | fqget (h : VHead) (k : BitVec 3)
  | bankcfg (bank : BitVec 8) (mode : BankMode)
  -- group 0xA, Sluice and descriptors (10, R245-R249)
  | scopy (j : SluiceArgs) (src dst : SluiceSpace)
  | scopy2 (j : SluiceArgs) (src dst : SluiceSpace)
  | stcopy (j : SluiceArgs) (toDesc : Bool) (other : SluiceSpace) (desc : BitVec 6)
  | sgath (j : SluiceArgs) (src dst : SluiceSpace) (esz : BitVec 2) (idxScratch : Bool)
  | sscat (j : SluiceArgs) (src dst : SluiceSpace) (esz : BitVec 2) (idxScratch : Bool)
  | sfill (j : SluiceArgs) (dst : SluiceSpace) (esz : BitVec 2)
  | swait (wp : BitVec 4) (sx : BitVec 5)
  | squery (sy sx : BitVec 5)
  | tdset (desc : BitVec 6) (w : BitVec 4) (sx : BitVec 5)
  | tdget (sy : BitVec 5) (desc : BitVec 6) (w : BitVec 4)
  | tdinv (desc : BitVec 6)
  -- group 0xD, system (10, R250-R251)
  | invpg (ms : BitVec 3) (addr : Src) (off : BitVec 16)
  | invall (ms : BitVec 3)
  | pmrd (sd : BitVec 5) (n : SOp2)
  | pmcfg (sa : BitVec 5) (n : BitVec 16)
  | trace (sa : BitVec 5) (t : BitVec 16)
  -- group 0xB, the matrix stream, and APOP (11)
  | mma (x : MmaArgs)
  | mmaq (x : MmaArgs)
  | accz (acc : BitVec 2)
  | accld (x : RegionArgs)
  | accst (x : RegionArgs) (flag : Bool)
  | qstore (x : RegionArgs) (adapt : Bool)
  | mdrain (shape : BitVec 5) (acc : BitVec 2) (row col : BitVec 2)
  | mbararv (id : BitVec 5)
  | mbarwt (id : BitVec 5)
  | mloop (count : BitVec 12) (off : BitVec 24)
  | mjmp (off : BitVec 24)
  | mend
  | apop (la : BitVec 4) (ms : BitVec 3) (ty : Ty)
  -- group 0xC, the Theodolite (12)
  | ori2 (p : PredArgs)
  | ori3 (p : PredArgs)
  | incir (p : PredArgs)
  | insph (p : PredArgs)
  | segx (p : PredArgs)
  | gpclr (ms : BitVec 3)
  -- a word in an unassigned cell of Table 07-14 (R170)
  | illegalOpcode (w : Word)
  -- events: results, wakes and engines
  | accessPerformed (id : Nat)
  | resultArrival (warp rid : Nat)
  | slotAged (warp : Nat) (slot : PcSlot)
  | yieldExpiry (warp : Nat) (slot : PcSlot)
  | barwtWake (warp : Nat) (slot : PcSlot)
  | mbarwtWake (block : Nat)
  | fqputLand (warp : Nat) (slot : PcSlot)
  | fqgetWake (warp : Nat) (slot : PcSlot)
  | swaitWake (warp : Nat) (slot : PcSlot)
  | apopWake (warp : Nat) (slot : PcSlot)
  | waitdepRelease (warp : Nat) (slot : PcSlot)
  | bankcfgDrainEnd (warp : Nat) (slot : PcSlot)
  | faultRecordWrite (vf : Nat)
  | theodoliteStageEnd (warp rid : Nat) (lane : BitVec 5)
  | matrixStep (block : Nat)
  | sluiceChunkStart (block job : Nat)
  | sluiceChunkLand (block job chunk : Nat)
  | sluiceJobFault (block job chunk : Nat) (failure : BitVec 3)
  | footprintEntryGrant (die cluster : Nat)
  -- events: dispatcher
  | launchCompletion (vf launch : Nat)
  | gangPlace (part : Nat)
  | coopWaitExpiry (part : Nat)
  | uncorrectableError (detail : BitVec 4) (owner : ErrOwner) (aux : Word)
  | switchTick (part : Nat)
  | dieSavedReport (part die : Nat)
  | saveDeadline (part : Nat)
  | graceExpiry (part : Nat)
  | forceSaveComplete (part die : Nat)
  | laneSwap (die stack channel lane : Nat)
  | cacheLineExpiry (block : Nat) (line : Word)
  -- events of the module's own clocks (20, 22, 23)
  | tokenRefill (n : Nat)
  | sample (part : Nat)
  | counterRefresh (part : Nat)
  | logDrain
  -- events: Cadastre messages (21)
  | rd (die line : Nat)
  | data (die line : Nat) (bytes : List Byte) (f : BitVec 32)
  | wreq (die page sub : Nat)
  | grant (die page : Nat) (mask : BitVec 16)
  | inv (die page : Nat) (mask : BitVec 16)
  | revoke (die page : Nat) (mask : BitVec 16)
  | notice (die line remain : Nat) (dirty : Option (List Byte))
  | wb (die line : Nat) (bytes : List Byte)
  | radvreq (die page warp rid : Nat)
  | flush (die page : Nat)
  | advance (die page : Nat) (round : BitVec 32) (map : BitVec 512) (pushed : List LineData)
  | iack (die page : Nat)
  | rvack (die page : Nat) (lines : List LineData)
  | wback (die line : Nat)
  | fack (die page : Nat) (lines : List LineData)
  | advack (die page : Nat)
  | gone (die page : Nat)
  | radvdone (page warp rid : Nat) (round : BitVec 32)
  -- events that the links, the ordering points, the dispatcher and the Datum raise themselves (18, 19, 21)
  | linkFailover (link : Nat)
  | packetDelivery (src dst seq : Nat)
  | pieceAck (link seq piece : Nat)
  | inboundRead (vf : Nat) (path : HostPath) (offset len : Nat)
  | inboundWrite (vf : Nat) (path : HostPath) (offset : Nat) (bytes : List Byte) (relaxed : Bool)
  | hifSqDb (vf : Nat) (val : Word)
  | trnPresent (vf : Nat) (val : Word)
  | submitNoop (vf : Nat)
  | submitLaunch (vf : Nat)
  | submitRegistration (vf : Nat)
  | completionWrite (vf : Nat)
  | vfPause (c : DtmCmd)
  | checkpoint
  -- events: the other Datum commands that stop a VF (19)
  | vfMigrateStop (c : DtmCmd)
  | vfDestroy (c : DtmCmd)
  -- events: chain links (21)
  | flitCrcError (link : Nat)
  | retrainEnd (link flits : Nat)
  -- events: host links and rings (18, 20, 22)
  | hifCqHead (vf : Nat) (val : Word)
  | hifRingCfg (vf : Nat) (val : Word)
  | inbErrClear (vf : Nat) (val : Word)
  | trnFqCfg (vf : Nat) (val : Word)
  | trnFqHead (vf : Nat) (val : Word)
  | ringCfg (vf : Nat) (trc : Bool) (val : Word)
  | ringDropClear (vf : Nat) (trc : Bool) (val : Word)
  -- events: SPDM and TDISP (19, R343, R344)
  | getVersion (pf : Fin 2)
  | getCapabilities (pf : Fin 2)
  | negotiateAlgorithms (pf : Fin 2)
  | getDigests (pf : Fin 2)
  | getCertificate (pf : Fin 2) (certSlot : Nat)
  | challenge (pf : Fin 2) (nonce : List Byte)
  | getMeasurements (pf : Fin 2) (nonce : List Byte)
  | keyExchange (pf : Fin 2) (session : Nat)
  | finish (pf : Fin 2) (session : Nat)
  | heartbeat (pf : Fin 2) (session : Nat)
  | keyUpdate (pf : Fin 2) (session : Nat)
  | endSession (pf : Fin 2) (session : Nat)
  | ideKm (pf : Fin 2) (session : Nat) (handle : Word)
  | lockInterface (pf : Fin 2) (session : Nat) (handle : Word)
  | startInterface (pf : Fin 2) (session : Nat) (handle : Word)
  -- events: Datum commands (19, Table 19-8)
  | vfCreate (c : DtmCmd)
  | vfPolicy (c : DtmCmd)
  | vfSegment (c : DtmCmd)
  | vfSlice (c : DtmCmd)
  | vfResume (c : DtmCmd)
  | vfEvict (c : DtmCmd)
  | vfRestore (c : DtmCmd)
  | vfMigrateBegin (c : DtmCmd)
  | vfMigrateRound (c : DtmCmd)
  | vfMigrateFinish (c : DtmCmd)
  | partSet (c : DtmCmd)
  | attest (c : DtmCmd)
  -- events: cores, meters, counters and registers (19 to 22)
  | coreRemove (die core : Nat)
  | coreReturn (die core : Nat)
  | schLateClear (part : Nat) (val : Word)
  | qosBucket (n : Nat) (val : Word)
  | fwlDropClear (val : Word)
  | cdsStatClear (die : Nat) (val : Word)
  | lnkStatClear (link : Nat) (val : Word)
  | ptpMessage (domain : BitVec 8) (source : PtpSource) (time : PtpTime)
  | holdover
  -- events: reliability, management, power (23)
  | hbmTransferRetry (die stack channel lane : Nat) (good : Bool)
  | sensorPoll (index : Nat) (value : BitVec 32)
  | hostCompletionTimeout (warp rid : Nat)
  | firmwareUpdate
  | firmwareRecovery
  | powerOn
  | registerWrite (target : RegTarget) (offset : Nat) (val : Word)
  | pfBar2Write (pf : Fin 2) (addr : Nat) (bytes : List Byte)
  | powerLoss
  | moduleReset
  deriving DecidableEq, Repr, Inhabited

end Sys2Proof
end

