-- ==== Sys2Proof/Config.lean ====
section
/-! DEFINITION. What an implementation of hs-eec9a338566a fixes and the spec leaves open: free values, which no proof can see. -/

namespace Sys2Proof.Config

/-- Any value the spec leaves open, drawn afresh at each count of State.freeCount (log entry 2). -/
opaque freeValue : Nat → Word

/-- The f32 result of a special function inside the bound of Table 09-6: a fixed function of the argument's bits and of
ftz (R217), whose value the spec does not fix (log entry 6). -/
opaque specialValue : SpecialFn → Bool → BitVec 32 → BitVec 32

/-- Whether stage 1 decides a lane whose exact value lies between the bound that must decide and the bound that cannot
(R277): the spec fixes it per stepping without giving it (log entry 7). The operands are the predicate and coordinates. -/
opaque stage1Decides : Predicate → List Word → Bool

/-- SM3 (R342, R350): the spec names the hash and does not define it (log entry 9). -/
opaque sm3 : List Byte → List Byte

/-- The device's SM2 signature over bytes (R342, R343) (log entry 9). -/
opaque sm2Sign : List Byte → List Byte

/-- Whether SM2 verifies a signature over bytes under a key (R343, R430) (log entry 9). -/
opaque sm2Verify : List Byte → List Byte → Bool

/-- Block encryption of a context, checkpoint or link payload under a key number and a tweak (R354, R361) (log entry 9). -/
opaque encrypt : Nat → Nat → List Byte → List Byte

/-- Decryption, as `encrypt` (log entry 9). -/
opaque decrypt : Nat → Nat → List Byte → List Byte

/-- The n-th 64-bit draw of the Datum's random generator (R350) (log entry 9). -/
opaque datumRandom : Nat → Word

/-- Measured image n that a firmware image carries: 1 Datum, 2 dispatcher, 3 Saltern, 4 microcode (R342, R430) (log entry 20). -/
opaque imageBlock : List Byte → Nat → List Byte

/-- VF keys, as draw numbers by key ID, wrapped under the key that is derived from the device identity key and FWDIGEST (R423) (log
entry 37). -/
opaque wrapKeys : List Byte → List (Nat × Nat) → List Byte

/-- The offset in PF BAR0 of the PF's MSI-X table, which Table 18-2 does not place (R330) (log entry 33). -/
opaque pfMsixAt : Nat

/-- The version that a firmware image carries, and whether Leniskad's signature on it verifies (R430) (log entry 20). -/
opaque imageVersion : List Byte → BitVec 32
opaque imageSigned : List Byte → Bool

/-- The hash that chooses among a line's L2 slices (R358): it changes capacity and timing only. -/
opaque sliceHash : Nat → Nat

/-- Whether a chain to Leniskad's root, as the host supplies it, certifies a device's SM2 key (R369) (log entry 9). -/
opaque certified : List Byte → Bool

/-- Whether a 64 KiB page of package memory is the Datum's own (R356): the spec does not say where that is (log entry 23). -/
opaque datumPage : Nat → Bool

/-- The stack of its die, 0 or 1, and LOC in an array-log record, of the HBM word at a package address: stack, channel, bank and row have no
places in an address in the spec (R420) (log entry 22). -/
opaque arrayStack : Nat → Bool
opaque arrayLoc : Nat → BitVec 32

/-- Whether an array log or a link log that holds so many entries is full (R420) (log entry 22). -/
opaque logFull : Nat → Bool

/-- Certificate chain, firmware image and other fixed byte strings that the device stores (R342, R343), by number. -/
opaque storedBytes : Nat → List Byte

end Sys2Proof.Config
end

