-- ==== Sys2Proof/Machine/Bits.lean ====
section
/-! DEFINITION. Bit fields, sign extension, byte order, the codes of types and small tables that the decoder and the machine share. -/

namespace Sys2Proof

/-- Bits lo + n − 1 to lo of a word. -/
def fld {m : Nat} (w : BitVec m) (lo n : Nat) : BitVec n := w.extractLsb' lo n

/-- Sign extension to 64 bits. -/
def sx64 {n : Nat} (v : BitVec n) : Word := v.signExtend 64

/-- Zero extension to 64 bits. -/
def zx64 {n : Nat} (v : BitVec n) : Word := v.zeroExtend 64

/-- 0 or 1. -/
def ofBool (b : Bool) : Word := if b then 1 else 0

/-- The n low bytes of v, lowest address first (R3). -/
def toBytes : Nat → Nat → List Byte
  | 0, _ => []
  | n + 1, v => BitVec.ofNat 8 v :: toBytes n (v / 256)

/-- The number that bytes hold, lowest address first (R3). -/
def ofBytes : List Byte → Nat
  | [] => 0
  | b :: bs => b.toNat + 256 * ofBytes bs

/-- Exactly n bytes: cut, or filled with zeros. -/
def fit (n : Nat) (bs : List Byte) : List Byte := (bs ++ List.replicate (n - bs.length) 0).take n

/-- ⌈a / b⌉. -/
def ceilDiv (a b : Nat) : Nat := (a + b - 1) / b

/-- Replaces element n of a list; a list that has no element n stays as it is. -/
def setAt {α : Type} : List α → Nat → α → List α
  | [], _, _ => []
  | _ :: xs, 0, v => v :: xs
  | x :: xs, n + 1, v => x :: setAt xs n v

/-- Applies f to element n of a list. -/
def modAt {α : Type} : List α → Nat → (α → α) → List α
  | [], _, _ => []
  | x :: xs, 0, f => f x :: xs
  | x :: xs, n + 1, f => x :: modAt xs n f

/-- Applies f to each element for which p holds. -/
def mapIf {α : Type} (p : α → Bool) (f : α → α) (xs : List α) : List α := xs.map fun x => if p x then f x else x

/-- The lane numbers 0 to 31. -/
def lanes32 : List Nat := List.range 32

/-- Whether lane l is in a mask. -/
def inMask (m : LaneMask) (l : Nat) : Bool := m.getLsbD l

/-- The mask of the lanes for which p holds. -/
def maskOf (p : Nat → Bool) : LaneMask := lanes32.foldl (fun m l => if p l then m ||| BitVec.ofNat 32 (2 ^ l) else m) 0

/-- The lanes of a mask in ascending order. -/
def lanesOf (m : LaneMask) : List Nat := lanes32.filter (inMask m)

/-- The lowest lane of a mask, 32 when it is empty. -/
def lowLane (m : LaneMask) : Nat := (lanesOf m).headD 32

/-- The mask of one lane; none for a lane number of 32. -/
def laneBit (l : Nat) : LaneMask := BitVec.ofNat 32 (2 ^ l)

/-- Number of one bits of a natural number below 2^n. -/
def popNat : Nat → Nat → Nat
  | 0, _ => 0
  | n + 1, v => v % 2 + popNat n (v / 2)

/-- Code of a type (Table 07-12). -/
def tyCode : Ty → BitVec 4
  | .raw => 0 | .i32 => 1 | .n32 => 2 | .i64 => 3 | .n64 => 4 | .f16 => 5 | .bf16 => 6 | .f32 => 7
  | .f64 => 8 | .e4m3 => 9 | .e5m2 => 10 | .q4n => 11 | .sign => 12 | .addr => 13 | .bool => 14 | .poison => 15

/-- Type of a code (Table 07-12). -/
def tyOf (c : BitVec 4) : Ty :=
  match c.toNat with
  | 0 => .raw | 1 => .i32 | 2 => .n32 | 3 => .i64 | 4 => .n64 | 5 => .f16 | 6 => .bf16 | 7 => .f32
  | 8 => .f64 | 9 => .e4m3 | 10 => .e5m2 | 11 => .q4n | 12 => .sign | 13 => .addr | 14 => .bool | _ => .poison

/-- Memory width in bytes of a type in group 0x7 (Table 07-12); 0 where the type has none. -/
def memWidth : Ty → Nat
  | .raw | .i64 | .n64 | .f64 | .addr => 8
  | .i32 | .n32 | .f32 => 4
  | .f16 | .bf16 => 2
  | .e4m3 | .e5m2 | .sign | .bool => 1
  | .q4n | .poison => 0

/-- Integer types of width 32; every other integer type and raw have width 64 (R199, R208). -/
def intWidth : Ty → Nat
  | .i32 | .n32 => 32
  | _ => 64

/-- Signed integer types (R70). -/
def isSigned : Ty → Bool
  | .i32 | .i64 => true
  | _ => false

/-- i32, n32, i64, n64. -/
def isInt : Ty → Bool
  | .i32 | .n32 | .i64 | .n64 => true
  | _ => false

/-- f16, bf16, f32, f64. -/
def isFloat : Ty → Bool
  | .f16 | .bf16 | .f32 | .f64 => true
  | _ => false

/-- The numeric tags of R57. -/
def isNumeric (t : Ty) : Bool := isInt t || isFloat t

/-! ## Legal TY of Table 07-13 -/

def tyRaw (t : Ty) : Bool := t == .raw
def tyScalar (t : Ty) : Bool := t == .raw || isInt t
def tyPushi (t : Ty) : Bool := tyScalar t || t == .f32
def tyAny (t : Ty) : Bool := t != .poison
def tySpecial (t : Ty) : Bool := t == .f16 || t == .bf16 || t == .f32
def tyConv (t : Ty) : Bool := isNumeric t || t == .e4m3 || t == .e5m2 || t == .q4n || t == .bool || t == .sign
def tyRng (t : Ty) : Bool := t == .n32 || t == .n64
def tyMem (t : Ty) : Bool := memWidth t != 0
def tyMem2 (t : Ty) : Bool := memWidth t == 4 || memWidth t == 8
def tyAtomF (t : Ty) : Bool := t == .f32 || t == .f64
def tyRed (t : Ty) : Bool := isInt t || tyAtomF t
def tyApop (t : Ty) : Bool := t == .f32 || t == .i32

/-- Tag of the DATA operand of a store of type t: the i8 element expects i32 (R232). -/
def dataTag (t : Ty) : Ty := if t == .sign then .i32 else t

/-- Destinations of CVT (Table 07-7, R215). -/
def cvtDst (t : Ty) : Bool := isNumeric t || t == .e4m3 || t == .e5m2 || t == .q4n

/-- Destinations that stochastic rounding admits (R73, R215). -/
def srDst (t : Ty) : Bool := t == .f16 || t == .bf16 || t == .e4m3 || t == .e5m2

/-- Space pairs of Table 05-5. -/
def sluicePair : SluiceSpace → SluiceSpace → Bool
  | .global, _ => true
  | .scratch, .remote => false
  | .scratch, _ => true
  | .remote, .global => true
  | _, _ => false

/-- Atomic operations an instruction accepts with its type (Table 10-2). -/
def atomOpInt : AtomOp → Bool := fun _ => true
def atomOpFloat : AtomOp → Bool
  | .add | .min | .max | .exch => true
  | _ => false
def atomOpRed (t : Ty) : AtomOp → Bool
  | .add | .min | .max => true
  | .and | .or | .xor => !tyAtomF t
  | .exch => false

/-- Value bits in the form of Table 03-4, as SETTAG reshapes them (R196). -/
def reshape (t : Ty) (v : Word) : Word :=
  match t with
  | .i32 => sx64 (fld v 0 32)
  | .n32 | .f32 => zx64 (fld v 0 32)
  | .f16 | .bf16 => zx64 (fld v 0 16)
  | .e4m3 | .e5m2 => zx64 (fld v 0 8)
  | .q4n => zx64 (fld v 0 4)
  | .sign => if v = 0 then 0 else if v.msb then -1 else 1
  | .bool => ofBool (v != 0)
  | .poison => 0
  | .raw | .i64 | .n64 | .f64 | .addr => v

/-- Value bits of a computed result in the form of Table 03-4: a sign value keeps its 64-bit integer (R55). -/
def formOf (t : Ty) (v : Word) : Word := if t = .sign then v else reshape t v

/-- 48-bit canonical: bits 63:47 are all equal (R43, R231). -/
def canonical (a : Word) : Bool := fld a 47 17 == 0 || fld a 47 17 == BitVec.allOnes 17

/-- Address arithmetic of R231: value + signed 16-bit offset. -/
def addOff (a : Word) (off : BitVec 16) : Word := a + sx64 off

end Sys2Proof
end

