-- ==== Sys2Proof/Machine/Fp.lean ====
section
/-! DEFINITION. Number formats, rounding and conversions (04, R70 to R78): exact values are dyadic rationals, computed
without rounding and rounded once. -/

namespace Sys2Proof.Machine

/-- A floating-point value: a NaN with its fraction left-aligned in 52 bits, an infinity, or ±mant·2^exp exactly. -/
inductive FVal where
  | nan (sign quiet : Bool) (frac : Nat)
  | inf (sign : Bool)
  | fin (sign : Bool) (mant : Nat) (exp : Int)
  deriving DecidableEq, Repr, Inhabited

/-- The five IEEE flags in the order of Table 02-8: bit 0 invalid, 1 divide by zero, 2 overflow, 3 underflow, 4 inexact. -/
abbrev Flags := BitVec 5

def fIV : Flags := 1
def fDZ : Flags := 2
def fOF : Flags := 4
def fUF : Flags := 8
def fNX : Flags := 16

/-- Exponent and fraction widths (Table 04-1). -/
def expBits : Ty → Nat
  | .f64 => 11 | .f32 | .bf16 => 8 | .f16 | .e5m2 => 5 | .e4m3 => 4 | _ => 0

def fracBits : Ty → Nat
  | .f64 => 52 | .f32 => 23 | .f16 => 10 | .bf16 => 7 | .e4m3 => 3 | .e5m2 => 2 | _ => 0

def fpWidth (t : Ty) : Nat := 1 + expBits t + fracBits t

def bias (t : Ty) : Nat := 2 ^ (expBits t - 1) - 1

/-- Exponent of the least significant bit of a subnormal. -/
def eMin (t : Ty) : Int := 1 - (bias t : Int) - (fracBits t : Int)

/-- The biased exponent of infinities and NaNs; e4m3 has none and uses it for finite values (Table 04-1). -/
def eTop (t : Ty) : Nat := 2 ^ expBits t - 1

/-- The value of an encoding (R71). -/
def unpack (t : Ty) (v : Word) : FVal :=
  let n := v.toNat % 2 ^ fpWidth t
  let f := n % 2 ^ fracBits t
  let e := n / 2 ^ fracBits t % 2 ^ expBits t
  let s := n / 2 ^ (fpWidth t - 1) == 1
  let special := if t == .e4m3 then e == 15 && f == 7 else e == eTop t
  if special then
    if t == .e4m3 then .nan s true (f * 2 ^ 49)
    else if f == 0 then .inf s
    else .nan s (t == .e5m2 || f / 2 ^ (fracBits t - 1) == 1) (f * 2 ^ (52 - fracBits t))
  else if e == 0 then .fin s f (eMin t)
  else .fin s (f + 2 ^ fracBits t) (eMin t + (e : Int) - 1)

/-- Packs sign, biased exponent and fraction. -/
def packBits (t : Ty) (s : Bool) (e f : Nat) : Word :=
  BitVec.ofNat 64 ((if s then 2 ^ (fpWidth t - 1) else 0) + e * 2 ^ fracBits t + f)

/-- Canonical NaNs (Table 04-2). -/
def canonNaN : Ty → Word
  | .f64 => 0x7FF8000000000000 | .f32 => 0x7FC00000 | .f16 => 0x7E00 | .bf16 => 0x7FC0 | .e4m3 => 0x7F | .e5m2 => 0x7E
  | _ => 0

/-- A NaN carried into a format: the NaN rows of Table 04-4, with the quiet bit set. -/
def packNaN (t : Ty) (s : Bool) (frac : Nat) : Word :=
  match t with
  | .e4m3 => if s then 0xFF else 0x7F
  | .e5m2 => if s then 0xFE else 0x7E
  | _ => packBits t s (eTop t) (frac / 2 ^ (52 - fracBits t) ||| 2 ^ (fracBits t - 1))

def packInf (t : Ty) (s : Bool) : Word := packBits t s (eTop t) 0

/-- The largest finite magnitude (Table 04-1). -/
def packMax (t : Ty) (s : Bool) : Word :=
  if t == .e4m3 then packBits t s 15 6 else packBits t s (eTop t - 1) (2 ^ fracBits t - 1)

/-- Largest finite value as mantissa and exponent. -/
def maxMant (t : Ty) : Nat := if t == .e4m3 then 14 else 2 ^ (fracBits t + 1) - 1
def maxExp (t : Ty) : Int :=
  if t == .e4m3 then 5 else (eMin t) + (eTop t : Int) - 2

def bitLen (n : Nat) : Nat := if n = 0 then 0 else Nat.log2 n + 1

/-- a·2^ea < b·2^eb, exactly. -/
def magLt (a : Nat) (ea : Int) (b : Nat) (eb : Int) : Bool :=
  let e := min ea eb
  decide (a * 2 ^ (ea - e).toNat < b * 2 ^ (eb - e).toNat)

/-- Rounds m·2^e to a multiple of 2^q in mode rm (Table 04-3); u is the draw of sr (R75). Answers the multiple and
whether it is inexact. -/
def roundAt (rm : Rm) (u : BitVec 32) (s : Bool) (m : Nat) (e q : Int) : Nat × Bool :=
  if q ≤ e then (m * 2 ^ (e - q).toNat, false)
  else
    let d := (q - e).toNat
    let n := m / 2 ^ d
    let r := m % 2 ^ d
    let up := match rm with
      | .rne => decide (2 ^ d < 2 * r) || (decide (2 ^ d = 2 * r) && n % 2 == 1)
      | .rtz => false
      | .rdn => s && r != 0
      | .rup => !s && r != 0
      | .sr => r != 0 && decide (u.toNat * 2 ^ d < r * 2 ^ 32)
    (if up then n + 1 else n, r != 0)

/-- Whether an overflowing result of mode rm is the largest finite value (IEEE 754; R74). -/
def overflowsToMax (rm : Rm) (s : Bool) : Bool :=
  match rm with
  | .rne | .sr => false
  | .rtz => true
  | .rdn => !s
  | .rup => s

/-- Rounds the exact value ±m·2^e to format t in mode rm (R74 to R77). Tininess is detected after rounding. -/
def roundTo (t : Ty) (rm : Rm) (u : BitVec 32) (ftz : Bool) (s : Bool) (m : Nat) (e : Int) : Word × Flags :=
  if m = 0 then (packBits t s 0 0, 0)
  else
    let narrow := t == .e4m3 || t == .e5m2
    let tooBig := magLt (maxMant t) (maxExp t) m e
    let rm := if tooBig && rm == .sr then .rne else rm
    let p : Int := (fracBits t : Int) + 1
    let q0 : Int := e + (bitLen m : Int) - p
    let q := max q0 (eMin t)
    let (n, inexact) := roundAt rm u s m e q
    let (n, q) := if n = 2 ^ (fracBits t + 1) then (2 ^ fracBits t, q + 1) else (n, q)
    if (narrow && tooBig) || magLt (maxMant t) (maxExp t) n q then
      (if narrow || overflowsToMax rm s then packMax t s else packInf t s, fOF ||| fNX)
    else
      let (n0, _) := roundAt rm u s m e q0
      let tiny := magLt n0 q0 (2 ^ fracBits t) (eMin t)
      let sub := decide (n < 2 ^ fracBits t)
      if ftz && sub && n != 0 && t != .f64 && !narrow then (packBits t s 0 0, fUF ||| fNX)
      else
        let w := if sub then packBits t s 0 n else packBits t s ((q - eMin t).toNat + 1) (n - 2 ^ fracBits t)
        (w, (if inexact then fNX else 0) ||| (if inexact && tiny then fUF else 0))

/-- Whether ftz reads a source of format t as zero when it is subnormal (R76). -/
def flushes (t : Ty) : Bool := t == .f32 || t == .f16 || t == .bf16

/-- An operand as a vector floating-point instruction reads it: negation flips the sign, ftz flushes (R76, R203). -/
def readF (t : Ty) (ftz neg : Bool) (v : Word) : FVal :=
  let x := match unpack t v with
    | .fin s m e => if ftz && flushes t && decide (m < 2 ^ fracBits t) then .fin s 0 e else .fin s m e
    | y => y
  match neg, x with
  | false, x => x
  | true, .nan s q f => .nan (!s) q f
  | true, .inf s => .inf (!s)
  | true, .fin s m e => .fin (!s) m e

/-- The first NaN among operands in order (R72): its value in the result format, with invalid for any signalling NaN. -/
def nanOf (t : Ty) (xs : List FVal) : Option (Word × Flags) :=
  let sig := xs.any fun | .nan _ q _ => !q | _ => false
  (xs.findSome? fun | .nan s _ f => some (packNaN t s f) | _ => none).map fun w => (w, if sig then fIV else 0)

def invalid (t : Ty) : Word × Flags := (canonNaN t, fIV)

/-- The signed integer numerator of a finite value at a common exponent. -/
def signedAt (s : Bool) (m : Nat) (e e0 : Int) : Int :=
  let n : Int := (m * 2 ^ (e - e0).toNat : Nat)
  if s then -n else n

/-- Rounds an exact sum; an exact zero sum of operands of opposite sign is +0, −0 in rdn (R74). -/
def roundSum (t : Ty) (rm : Rm) (ftz : Bool) (n : Int) (e : Int) (sa sb : Bool) : Word × Flags :=
  if n = 0 then (packBits t (if sa == sb then sa else rm == .rdn) 0 0, 0)
  else roundTo t rm 0 ftz (decide (n < 0)) n.natAbs e

/-- a + b, rounded once (R211). -/
def fAdd (t : Ty) (rm : Rm) (ftz : Bool) (a b : FVal) : Word × Flags :=
  (nanOf t [a, b]).getD <|
    match a, b with
    | .inf s, .inf s' => if s == s' then (packInf t s, 0) else invalid t
    | .inf s, _ => (packInf t s, 0)
    | _, .inf s => (packInf t s, 0)
    | .fin sa ma ea, .fin sb mb eb =>
      let e := min ea eb
      roundSum t rm ftz (signedAt sa ma ea e + signedAt sb mb eb e) e sa sb
    | _, _ => invalid t

/-- a × b, rounded once (R211). -/
def fMul (t : Ty) (rm : Rm) (ftz : Bool) (a b : FVal) : Word × Flags :=
  (nanOf t [a, b]).getD <|
    match a, b with
    | .inf s, .inf s' => (packInf t (s != s'), 0)
    | .inf s, .fin s' m _ => if m = 0 then invalid t else (packInf t (s != s'), 0)
    | .fin s m _, .inf s' => if m = 0 then invalid t else (packInf t (s != s'), 0)
    | .fin sa ma ea, .fin sb mb eb => roundTo t rm 0 ftz (sa != sb) (ma * mb) (ea + eb)
    | _, _ => invalid t

/-- a × b + c with one rounding; 0 × ∞ is invalid even beside a quiet NaN c, which is returned (R211). -/
def fFma (t : Ty) (rm : Rm) (ftz : Bool) (a b c : FVal) : Word × Flags :=
  let badProduct := match a, b with
    | .inf _, .fin _ 0 _ => true
    | .fin _ 0 _, .inf _ => true
    | _, _ => false
  match nanOf t [a, b, c] with
  | some (w, f) => (w, if badProduct then f ||| fIV else f)
  | none =>
    if badProduct then invalid t
    else
      match a, b, c with
      | .fin sa ma ea, .fin sb mb eb, .fin sc mc ec =>
        let e := min (ea + eb) ec
        roundSum t rm ftz (signedAt (sa != sb) (ma * mb) (ea + eb) e + signedAt sc mc ec e) e (sa != sb) sc
      | .fin _ _ _, .fin _ _ _, .inf s => (packInf t s, 0)
      | .inf s, .inf s', c | .inf s, .fin s' _ _, c | .fin s _ _, .inf s', c =>
        match c with
        | .inf sc => if sc == (s != s') then (packInf t sc, 0) else invalid t
        | _ => (packInf t (s != s'), 0)
      | _, _, _ => invalid t

/-- a / b, correctly rounded: 128 quotient bits and a sticky bit decide every mode (R211). -/
def fDiv (t : Ty) (rm : Rm) (ftz : Bool) (a b : FVal) : Word × Flags :=
  (nanOf t [a, b]).getD <|
    match a, b with
    | .inf _, .inf _ => invalid t
    | .inf s, .fin s' _ _ => (packInf t (s != s'), 0)
    | .fin s _ _, .inf s' => (packBits t (s != s') 0 0, 0)
    | .fin sa ma ea, .fin sb mb eb =>
      if mb = 0 then if ma = 0 then invalid t else (packInf t (sa != sb), fDZ)
      else
        let n := ma * 2 ^ 128
        let q := 2 * (n / mb) + (if n % mb = 0 then 0 else 1)
        roundTo t rm 0 ftz (sa != sb) q (ea - eb - 129)
    | _, _ => invalid t

/-- ⌊√n⌋ by bits from 2^k down. -/
def isqrtFrom : Nat → Nat → Nat → Nat
  | 0, n, r => if (r + 1) * (r + 1) ≤ n then r + 1 else r
  | k + 1, n, r => isqrtFrom k n (if (r + 2 ^ (k + 1)) * (r + 2 ^ (k + 1)) ≤ n then r + 2 ^ (k + 1) else r)

def isqrt (n : Nat) : Nat := isqrtFrom (Nat.log2 n / 2 + 1) n 0

/-- √a, correctly rounded (R211). -/
def fSqrt (t : Ty) (rm : Rm) (ftz : Bool) (a : FVal) : Word × Flags :=
  (nanOf t [a]).getD <|
    match a with
    | .fin s 0 _ => (packBits t s 0 0, 0)
    | .inf false => (packInf t false, 0)
    | .fin false m e =>
      let (m, e) := if e % 2 = 0 then (m, e) else (2 * m, e - 1)
      let n := m * 2 ^ 256
      let r := isqrt n
      roundTo t rm 0 ftz false (2 * r + (if r * r = n then 0 else 1)) (e / 2 - 129)
    | _ => invalid t

/-- The integral value that rm chooses (R211, FRND). -/
def fRnd (t : Ty) (rm : Rm) (ftz : Bool) (a : FVal) : Word × Flags :=
  (nanOf t [a]).getD <|
    match a with
    | .inf s => (packInf t s, 0)
    | .fin s m e =>
      if m = 0 then (packBits t s 0 0, 0)
      else
        let (n, inexact) := roundAt rm 0 s m e (max e 0)
        let (w, f) := roundTo t rm 0 ftz s n (max e 0)
        (w, f ||| if inexact then fNX else 0)
    | _ => invalid t

/-- a × 2^b (R211, FSCALE). The exponent is clamped where the result is decided already. -/
def fScale (t : Ty) (rm : Rm) (ftz : Bool) (a : FVal) (b : Int) : Word × Flags :=
  (nanOf t [a]).getD <|
    match a with
    | .inf s => (packInf t s, 0)
    | .fin s m e => if m = 0 then (packBits t s 0 0, 0) else roundTo t rm 0 ftz s m (e + max (-9000) (min 9000 b))
    | _ => invalid t

/-- The order of two values that are not NaN; −0 equals +0. -/
def fLess : FVal → FVal → Bool
  | .inf s, .inf s' => s && !s'
  | .inf s, _ => s
  | _, .inf s => !s
  | .fin sa ma ea, .fin sb mb eb =>
    let e := min ea eb
    decide (signedAt sa ma ea e < signedAt sb mb eb e)
  | _, _ => false

def isNaN : FVal → Bool
  | .nan _ _ _ => true
  | _ => false

def isSignalling : FVal → Bool
  | .nan _ q _ => !q
  | _ => false

def signOf : FVal → Bool
  | .nan s _ _ => s | .inf s => s | .fin s _ _ => s

/-- The value bits of an operand as read, after negation and flushing: no rounding (R212). -/
def repack (t : Ty) : FVal → Word
  | .nan s _ f => packNaN t s f
  | .inf s => packInf t s
  | .fin s m e => (roundTo t .rne 0 false s m e).1

/-- FMIN and FMAX: −0 counts as less than +0, a NaN in either operand gives a NaN (R212). -/
def fMinMax (t : Ty) (wantMax : Bool) (a b : FVal) : Word × Flags :=
  (nanOf t [a, b]).getD <|
    let aLess := fLess a b || (!fLess b a && signOf a && !signOf b)
    (repack t (if aLess == wantMax then b else a), 0)

/-- FCMP (R213). -/
def fCmp (cc : Cmp) (a b : FVal) : Bool × Flags :=
  let un := isNaN a || isNaN b
  let sig := isSignalling a || isSignalling b
  let lt := fLess a b
  let gt := fLess b a
  let iv (c : Bool) : Flags := if c then fIV else 0
  match cc with
  | .eq => (!un && !lt && !gt, iv sig)
  | .ne => (un || lt || gt, iv sig)
  | .un => (un, iv sig)
  | .ord => (!un, iv sig)
  | .lt => (!un && lt, iv un)
  | .le => (!un && !gt, iv un)
  | .gt => (!un && gt, iv un)
  | .ge => (!un && !lt, iv un)

/-- FCLASS: exactly one of ten bits (R214). -/
def fClass (t : Ty) (v : Word) : Word :=
  match unpack t v with
  | .nan _ q _ => if q then 0x200 else 0x100
  | .inf s => if s then 0x001 else 0x080
  | .fin s m _ =>
    if m = 0 then (if s then 0x008 else 0x010)
    else if m < 2 ^ fracBits t then (if s then 0x004 else 0x020)
    else if s then 0x002 else 0x040

/-! ## The Q4N codebook (R78, R80) -/

/-- Codebook magnitudes of codes 8 to 15, in units of 1/1024 (Table 04-6). -/
def q4nMag : List Nat := [43, 130, 221, 318, 427, 555, 724, 1024]

/-- Codebook value of a code in units of 1/1024. -/
def q4nValue (c : Nat) : Int :=
  if c < 8 then -(q4nMag.getD (7 - c) 0 : Int) else (q4nMag.getD (c - 8) 0 : Int)

/-- The code of an exact value y = ±m·2^e (R78). -/
def q4nCode (rm : Rm) (s : Bool) (m : Nat) (e : Int) : BitVec 4 × Bool :=
  let e0 := min e (-10)
  let y := signedAt s m e e0
  let cv (c : Nat) : Int := q4nValue c * 2 ^ ((-10 - e0).toNat)
  let codes := List.range 16
  let exact := codes.any fun c => cv c == y
  let nearestMag : Nat :=
    -- nearest codebook magnitude, a tie to the smaller (R78)
    (List.range 8).foldl (fun best k =>
      if ((cv (8 + k)) - y.natAbs).natAbs < ((cv (8 + best)) - y.natAbs).natAbs then k else best) 0
  let signed (k : Nat) : Nat := if s then 7 - k else 8 + k
  let below := (codes.filter fun c => cv c ≤ y).getLast?
  let above := (codes.filter fun c => y ≤ cv c).head?
  let c : Nat :=
    if m = 0 then (if s then 7 else 8)
    else match rm with
      | .rne | .sr => signed nearestMag
      | .rdn => below.getD (signed nearestMag)
      | .rup => above.getD (signed nearestMag)
      | .rtz => (if s then above.filter (· < 8) else below.filter (8 ≤ ·)).getD (signed nearestMag)
  (BitVec.ofNat 4 c, !exact)

/-! ## Conversions (R77, R78, Table 04-4) -/

/-- Clamps an integer to the range of an integer type and says whether it was outside (R70). -/
def clampInt (t : Ty) (n : Int) : Int × Bool :=
  let w := intWidth t
  let lo : Int := if isSigned t then -(2 ^ (w - 1) : Nat) else 0
  let hi : Int := if isSigned t then (2 ^ (w - 1) : Nat) - 1 else (2 ^ w : Nat) - 1
  if n < lo then (lo, true) else if hi < n then (hi, true) else (n, false)

/-- The integer that value bits of an integer, bool or sign entry hold at its type's width. -/
def intOf (t : Ty) (v : Word) : Int :=
  match t with
  | .i32 => (fld v 0 32).toInt
  | .n32 => ((fld v 0 32).toNat : Int)
  | .n64 => (v.toNat : Int)
  | .bool => if v = 0 then 0 else 1
  | _ => v.toInt

/-- An exact source value of a conversion. -/
def convSource (src : Ty) (ftz : Bool) (v : Word) : FVal :=
  match src with
  | .i32 | .n32 | .i64 | .n64 | .bool | .sign =>
    let n := intOf src v
    .fin (decide (n < 0)) n.natAbs 0
  | .q4n =>
    let n := q4nValue (v.toNat % 16)
    .fin (decide (n < 0)) n.natAbs (-10)
  | t => readF t ftz false v

/-- Conversion of an exact value to a destination type (Table 04-4), integer and record rows included. An infinity or a NaN raises
the one flag that its row names, to q4n too, where R78's FP_INEXACT is read as one of finite y (log entry 47, DEDUCED). -/
def convTo (dst : Ty) (rm : Rm) (u : BitVec 32) (ftz : Bool) (srcInt : Bool) (x : FVal) : Word × Flags :=
  match dst with
  | .i32 | .n32 | .i64 | .n64 =>
    match x with
    | .nan _ _ _ => (0, fIV)
    | .inf s => (BitVec.ofInt 64 (clampInt dst (if s then -(2 ^ 70) else 2 ^ 70)).1, fIV)
    | .fin s m e =>
      let (n, inexact) := roundAt rm 0 s m e (max e 0)
      let n : Int := n * 2 ^ (max e 0).toNat
      let (r, out) := clampInt dst (if s then -n else n)
      (BitVec.ofInt 64 r, if out then fIV else if inexact && !srcInt then fNX else 0)
  | .q4n =>
    match x with
    | .nan _ _ _ => (8, fIV)
    | .inf s => (if s then 0 else 15, fOF)
    | .fin s m e =>
      let (c, inexact) := q4nCode rm s m e
      (zx64 c, if inexact then fNX else 0)
  | t =>
    match x with
    | .nan s q f => (packNaN t s f, if q then 0 else fIV)
    | .inf s => if t == .e4m3 then (packMax t s, fOF) else (packInf t s, 0)
    | .fin s m e => roundTo t rm u (ftz && flushes t) s m e

/-- The conversion of value bits from type src to type dst (R77): the same format leaves them unchanged, but for a subnormal that ftz
flushes to a zero of its sign (R76). -/
def convert (src dst : Ty) (rm : Rm) (u : BitVec 32) (ftz : Bool) (v : Word) : Word × Flags :=
  if src == dst then
    match readF src ftz false v with
    | .fin s 0 _ => (if ftz && flushes src then packBits src s 0 0 else v, 0)
    | _ => (v, 0)
  else convTo dst rm u ftz (isInt src || src == .bool || src == .sign) (convSource src ftz v)

/-- The constant one in an expected type (Table 03-6). -/
def oneOf (t : Ty) : Word :=
  match t with
  | .f16 => 0x3C00 | .bf16 => 0x3F80 | .f32 => 0x3F800000 | .f64 => 0x3FF0000000000000 | .e4m3 => 0x38 | .e5m2 => 0x3C
  | .q4n => 15
  | _ => 1

/-- IMM14 under its expected tag; none where it has no exact conversion (R61). -/
def immValue (t : Ty) (v : BitVec 14) : Option Word :=
  match t with
  | .i32 | .i64 | .raw | .addr => some (sx64 v)
  | .n32 | .n64 => if v.msb then none else some (zx64 v)
  | .bool => if v.toNat ≤ 1 then some (zx64 v) else none
  | .sign => if -1 ≤ v.toInt ∧ v.toInt ≤ 7 then some (sx64 v) else none
  | .q4n => if v.toNat ≤ 15 then some (zx64 v) else none
  | .poison => none
  | t =>
    let h : Word := zx64 v <<< 2
    match unpack .f16 h with
    | .fin s m e =>
      let (w, f) := roundTo t .rne 0 false s m e
      if f = 0 then some w else none
    | x => let (w, f) := convTo t .rne 0 false false x; if t == .f16 then some h else if f = 0 then some w else none

end Sys2Proof.Machine
end

