-- ==== Sys2Proof/Machine/Elementary.lean ====
section
/-! DEFINITION. The exact values of the special functions of Table 09-6 to well beyond f32, in fixed point with 128 fraction bits, and
the f32 encodings that its bounds let stand (R217, log entry 6). -/

namespace Sys2Proof.Machine

/-- 1 in fixed point. -/
def fixOne : Nat := 2 ^ 128

/-- ln 2 and π in fixed point, rounded down. -/
def fixLn2 : Nat := 0xB17217F7D1CF79ABC9E3B39803F2F6AF
def fixPi : Nat := 0x3243F6A8885A308D313198A2E03707344

def fixMul (x y : Nat) : Nat := x * y / fixOne
def fixDiv (x y : Nat) : Nat := x * fixOne / y

/-- The sum of a series whose k-th term is the one before it times x / d k. -/
def series (x : Nat) (d : Nat → Nat) : Nat → Nat → Nat → Nat
  | 0, _, _ => 0
  | fuel + 1, k, term => term + series x d fuel (k + 1) (fixMul term x / d k)

/-- e^x for x below 1. -/
def fixExp (x : Nat) : Nat := series x (· + 1) 40 0 fixOne

/-- sin x and cos x for x at most π / 2: even and odd terms of the series apart. -/
def fixSin (x : Nat) : Nat :=
  let q := fixMul x x
  series (fixMul q q) (fun k => (4 * k + 2) * (4 * k + 3) * (4 * k + 4) * (4 * k + 5)) 12 0 x -
    series (fixMul q q) (fun k => (4 * k + 4) * (4 * k + 5) * (4 * k + 6) * (4 * k + 7)) 12 0 (fixMul x q / 6)

/-- Sum of z^(2k+1) / (2k+1). -/
def fixAtanh (z : Nat) : Nat :=
  let q := fixMul z z
  let rec go : Nat → Nat → Nat → Nat
    | 0, _, _ => 0
    | fuel + 1, k, p => p / k + go fuel (k + 2) (fixMul p q)
  go 60 1 z

/-- The integer part of the square root of n, by bits from 2^k down. -/
def rootBits (n : Nat) : Nat → Nat → Nat
  | 0, r => r
  | k + 1, r => rootBits n k (if (r + 2 ^ k) * (r + 2 ^ k) ≤ n then r + 2 ^ k else r)

/-- ±m·2^e in fixed point, rounded down. -/
def toFix (s : Bool) (m : Nat) (e : Int) : Int :=
  let v : Int := if 0 ≤ e + 128 then (m * 2 ^ (e + 128).toNat : Nat) else (m / 2 ^ (-(e + 128)).toNat : Nat)
  if s then -v else v

/-- A real value as sign, mantissa and exponent. -/
abbrev Dyadic := Bool × Nat × Int

/-- 2^x for x in fixed point; exponents beyond ±5000, far outside every format, stand for ±5000. -/
def dyExp2 (x : Int) : Dyadic :=
  let n := x / fixOne
  (false, fixExp (fixMul (x % fixOne).toNat fixLn2), max (min n 5000) (-5000) - 128)

/-- sin(πx) for x in fixed point, x in [0, 2). -/
def dySinPi (x : Nat) : Dyadic :=
  let r := x % fixOne
  (decide (fixOne ≤ x), fixSin (fixMul (if 2 * r ≤ fixOne then r else fixOne - r) fixPi), -128)

/-- sin(πa) for a = ±m·2^e: πa itself where a is below 2^−40. -/
def dySin (s : Bool) (m : Nat) (e : Int) : Dyadic :=
  let x := (toFix false m e).toNat
  if x < 2 ^ 88 then (s, m * fixPi, e - 128)
  else
    let (t, w, k) := dySinPi (x % (2 * fixOne))
    (t != s, w, k)

/-- tanh a for a positive a: by its series below 2^−16, by e^(−2a) from there on. -/
def dyTanh (s : Bool) (m : Nat) (e : Int) : Dyadic :=
  let x := (toFix false m e).toNat
  if x < 2 ^ 112 then (s, m * (fixOne - fixMul x x / 3), e - 128)
  else if 64 * fixOne ≤ x then (s, 1, 0)
  else
    let (_, y, k) := dyExp2 (-(fixDiv (2 * x) fixLn2 : Nat))
    let y := y / 2 ^ (-(k + 128)).toNat
    (s, fixDiv (fixOne - y) (fixOne + y), -128)

/-- The value of a special function at ±m·2^e, m > 0, where Table 09-6 states no exact result; the error is below 2^−60 of the value, for
cosine and the logarithm of arguments in [0.5, 2] below 2^−60 in itself. -/
def specialReal (fn : SpecialFn) (s : Bool) (m : Nat) (e : Int) : Dyadic :=
  let k : Int := bitLen m
  match fn with
  | .rcp => (s, 2 ^ (200 + bitLen m) / m, -e - 200 - k)
  | .rsq =>
    let (m, e) := if e % 2 = 0 then (m, e) else (2 * m, e - 1)
    (false, rootBits (2 ^ (2 * (100 + bitLen m)) / m) (102 + bitLen m) 0, -(e / 2) - 100 - (bitLen m : Int))
  | .exp2 => dyExp2 (toFix s m e)
  | .log2 =>
    let y := m * 2 ^ 128 / 2 ^ (bitLen m - 1)
    let v : Int := (k - 1 + e) * (fixOne : Int) + (fixDiv (2 * fixAtanh (fixDiv (y - fixOne) (y + fixOne))) fixLn2 : Nat)
    (decide (v < 0), v.natAbs, -128)
  | .sin => dySin s m e
  | .cos => dySinPi (((toFix false m e).toNat + fixOne / 2) % (2 * fixOne))
  | .tanh => dyTanh s m e

/-- |a − b| ≤ k·2^t, exactly. -/
def nearDy (a b : Dyadic) (k : Nat) (t : Int) : Bool :=
  let e := min (min a.2.2 b.2.2) t
  let int (x : Dyadic) : Int := let v : Int := (x.2.1 * 2 ^ (x.2.2 - e).toNat : Nat); if x.1 then -v else v
  decide ((int a - int b).natAbs ≤ k * 2 ^ (t - e).toNat)

/-- Exponent of one ulp of a format at a value. -/
def ulpExp (t : Ty) (v : Dyadic) : Int := max ((bitLen v.2.1 : Int) + v.2.2 - (fracBits t + 1 : Nat)) (eMin t)

/-- Whether an f32 encoding lies inside the bound of Table 09-6 around the value v of the function at m·2^e. -/
def withinBound (fn : SpecialFn) (m : Nat) (e : Int) (v : Dyadic) (c : Word) : Bool :=
  match unpack .f32 c with
  | .fin s cm ce =>
    let x : Dyadic := (s, cm, ce)
    match fn with
    | .rcp => nearDy x v 1 (ulpExp .f32 v)
    | .sin | .cos => nearDy x v 1 (-22)
    | .log2 => nearDy x v 2 (ulpExp .f32 v) || (!magLt m e 1 (-1) && !magLt 1 1 m e && nearDy x v 1 (-22))
    | .rsq | .exp2 | .tanh => nearDy x v 2 (ulpExp .f32 v)
  | _ => false

def isInf : FVal → Bool
  | .inf _ => true
  | _ => false

/-- The encoding of t nearest to a value. -/
def nearest (t : Ty) (v : Dyadic) : Word := (roundTo t .rne 0 false v.1 v.2.1 v.2.2).1

/-- Whether an f32 encoding, rounded rne to f16 or bf16, lies within 1 ulp of that format of the value v (R217); an infinity does so only
where v itself overflows. -/
def withinUlp (t : Ty) (v : Dyadic) (c : Word) : Bool :=
  match unpack t (convTo t .rne 0 false false (unpack .f32 c)).1 with
  | .fin s m e => nearDy (s, m, e) v 1 (ulpExp t v)
  | x => isInf x && isInf (unpack t (nearest t v))

/-- The f32 result at ±m·2^e that a result of type t is rounded from: the device's own value where it keeps R217's bounds, else the
nearest f32 to the exact value, so that every value inside the bounds and no other is a result; where the exact value overflows f32, that
is infinity. -/
def specialResult (fn : SpecialFn) (t : Ty) (z s : Bool) (m : Nat) (e : Int) : Word :=
  let v := specialReal fn s m e
  let c : Word := zx64 (Sys2Proof.Config.specialValue fn z (fld (roundTo .f32 .rne 0 false s m e).1 0 32))
  let n := nearest .f32 v
  if !isInf (unpack .f32 n) && withinBound fn m e v c && (t == .f32 || withinUlp t v c) then c else n

end Sys2Proof.Machine
end

