-- ==== Sys2Proof/WellFormed.lean ====
section
/-! DEFINITION. Which terms of Instr are instructions of the spec: the conditions that the word layout and R171 put on fields,
beyond what the types of the fields say. -/

namespace Sys2Proof

/-- The operands that fields A, B, C (ADDR, DATA) name, with their expected tags, in the order of R171 (R205, R209, R210). -/
def sources : Instr → List (Src × Ty)
  | .save _ a _ | .dup _ _ a | .settag _ a => [(a, .raw)]
  | .lane2s _ a b _ => [(a, .raw), (b, .n32)]
  | .wrsr _ a _ => [(a, .n64)]
  | .iadd h _ a b | .isub h _ a b | .imul h _ a b | .imulh h a b | .imin h a b | .imax h a b | .and h a b | .or h a b
  | .xor h a b | .icmp h _ a b => [(a, h.ty), (b, h.ty)]
  | .imad h _ a b c => [(a, h.ty), (b, h.ty), (c, h.ty)]
  | .ineg h _ a | .iabs h _ a | .not h a | .popc h a | .clz h a | .brev h a => [(a, h.ty)]
  | .shl h _ a b | .shr h a b | .sar h a b | .rotl h a b | .bfe h a b => [(a, h.ty), (b, .n32)]
  | .bfi h a b c => [(a, h.ty), (b, h.ty), (c, .n32)]
  | .sel h a b c => [(a, h.ty), (b, h.ty), (c, .bool)]
  | .lea _ _ a b c => [(a, .addr), (b, .i64), (c, .n32)]
  | .fadd h _ _ _ a b | .fsub h _ _ _ a b | .fmul h _ _ _ a b | .fmin h _ _ a b | .fmax h _ _ a b | .fcmp h _ a b
  | .fdiv _ h _ _ _ a b => [(a, h.ty), (b, h.ty)]
  | .ffma h _ _ _ _ a b c => [(a, h.ty), (b, h.ty), (c, h.ty)]
  | .fabs h a | .fclass h a | .frnd h _ _ a | .fsqrt _ h _ _ a | .cvt h _ _ a | .frcp _ h a | .frsq _ h a | .fexp2 _ h a
  | .flog2 _ h a | .fsin _ h a | .fcos _ h a | .ftanh _ h a | .redux _ h _ _ a | .scan _ h _ _ _ a => [(a, h.ty)]
  | .fscale h _ _ a b => [(a, h.ty), (b, .i32)]
  | .cvtsr h _ a b | .shfl _ h _ a b => [(a, h.ty), (b, .n32)]
  | .bsinit _ a b _ => [(a, .raw), (b, .n32)]
  | .bsrd _ _ _ b c => [(b, .n32), (c, .raw)]
  | .vote _ _ a _ | .mset _ a _ => [(a, .bool)]
  | .matchLanes _ ty _ a _ => [(a, ty)]
  | .fqput _ ty a _ => [(a, ty)]
  | .ori2 p | .ori3 p | .incir p | .insph p | .segx p => [(p.a, .addr), (p.b, .raw)]
  | _ => []

/-- The IMM14 bits of a word that names these operands: those of its immediates, else zero (R156, R61). -/
def immBits (xs : List (Src × Ty)) : BitVec 14 :=
  (xs.findSome? fun | (.imm v, _) => some v | _ => none).getD 0

/-- Every immediate of one instruction is the same IMM14 and has a value under its expected tag (R61). -/
def immsOk (xs : List (Src × Ty)) : Bool :=
  xs.all fun | (.imm v, t) => v == immBits xs && (Machine.immValue t v).isSome | _ => true

def sArgsOk (x : SArgs) : Bool := tyScalar x.ty

def isImm : Src → Bool
  | .imm _ => true
  | _ => false

/-- Format M: ADDR names no immediate (R158), and the type is legal. -/
def mArgsOk (m : MArgs) (legal : Ty → Bool) : Bool := !isImm m.addr && legal m.ty

/-- A load has no DATA; a store carries MZ = 0 and a DATA that is no immediate (R158, R233). -/
def storeOk (m : MArgs) (d : Src) (legal : Ty → Bool) : Bool := mArgsOk m legal && !m.mz && !isImm d

/-- DATA of ST2 names an age, a frame slot or a scalar other than the last of its range (R233). -/
def pairData : Src → Bool
  | .age n | .frame n | .scalar n => n.toNat < 31
  | _ => false

/-- The scalar indexes that a Sluice issue uses exist; PORT and barrier fields are zero where unused (R245, R246). -/
def sluiceOk (j : SluiceArgs) (nx ny : Nat) (remote : Bool) : Bool :=
  (j.sx.toNat + (if remote then 2 else nx) ≤ 31) && (j.sy.toNat + ny ≤ 31) && (remote || j.port == 0)

/-- No lookahead travels with a short instruction, and a rounding mode sr only with CVT (R73): the types of Instr leave
these to check. -/
def rmOk (rm : Rm) : Bool := rm != .sr

/-- REDUX and SCAN: float sums take RM, everything else carries rne; bitwise operations are integer (R224). -/
def redOk (op : RedOp) (rm : Rm) (ty : Ty) : Bool :=
  if isFloat ty then (match op with | .add => rmOk rm | .min | .max => rm == .rne | _ => false)
  else isInt ty && rm == .rne

/-- An unassigned cell of Table 07-14 (R170). -/
def unassigned (w : Word) : Bool :=
  let i := (fld w 54 6).toNat
  match (fld w 60 4).toNat with
  | 0 => 0x15 ≤ i | 1 => 0x0A ≤ i | 2 => 0x15 ≤ i | 3 => 0x19 ≤ i | 4 => 0x0D ≤ i | 5 => 0x0C ≤ i | 6 => 0x0E ≤ i
  | 7 => 0x0B ≤ i | 8 => 8 ≤ i | 9 => 8 ≤ i | 10 => 0x0B ≤ i | 11 => 0x0D ≤ i | 12 => 6 ≤ i | 13 => 5 ≤ i
  | _ => true

/-- The fields of an instruction are those a word can hold that raises no trap of R171, conditions 1 to 6. Events carry
ids of any size; those with a fixed range are checked here. -/
def fieldsOk : Instr → Bool
  | .tile k => k.toNat ≤ 5
  | .setmode v w => (v &&& ~~~w) == 0 && !(fld v 0 2 == 3 && fld w 0 2 == 3)
  | .pushi h _ => tyPushi h.ty
  | .settag h _ => tyAny h.ty
  | .eretM ms => ms != 0
  | .sadd x | .ssub x | .smul x | .smulh x | .sand x | .sor x | .sxor x | .sshl x | .sshr x | .ssar x | .smin x | .smax x =>
    sArgsOk x
  | .sbfe x => sArgsOk x && (match x.b with | .imm v => fld v 13 3 == 0 | .reg _ => true)
  | .scmp ty _ _ _ | .ssel _ ty _ _ _ | .smov ty _ _ _ | .sclz ty _ _ _ | .spopc ty _ _ _ | .sld ty _ _ _ | .sst ty _ _ _ => tyScalar ty
  | .smovi ty _ sa _ _ => tyScalar ty && (ty == .raw || sa == 0)
  | .iadd h _ _ _ | .isub h _ _ _ | .imul h _ _ _ | .imulh h _ _ | .imad h _ _ _ _ | .ineg h _ _ | .iabs h _ _ | .imin h _ _
  | .imax h _ _ => isInt h.ty
  | .icmp h cc _ _ => isInt h.ty && cc != .un && cc != .ord
  | .and h _ _ | .or h _ _ | .xor h _ _ | .not h _ | .shl h _ _ _ | .shr h _ _ | .sar h _ _ | .rotl h _ _ | .bfe h _ _
  | .bfi h _ _ _ | .popc h _ | .clz h _ | .brev h _ => tyScalar h.ty
  | .sel h _ _ _ => tyAny h.ty
  | .fadd h rm _ _ _ _ | .fsub h rm _ _ _ _ | .fmul h rm _ _ _ _ | .ffma h rm _ _ _ _ _ _ | .frnd h rm _ _
  | .fscale h rm _ _ _ | .fdiv _ h rm _ _ _ _ | .fsqrt _ h rm _ _ => isFloat h.ty && rmOk rm
  | .fmin h _ _ _ _ | .fmax h _ _ _ _ | .fabs h _ | .fclass h _ => isFloat h.ty
  | .fcmp h _ _ _ => isFloat h.ty
  | .cvt h rm dty _ => tyConv h.ty && cvtDst dty && (rmOk rm || (srDst dty && h.ty != .q4n))
  | .cvtsr h dty _ _ => tyConv h.ty && srDst dty && h.ty != .q4n
  | .frcp _ h _ | .frsq _ h _ | .fexp2 _ h _ | .flog2 _ h _ | .fsin _ h _ | .fcos _ h _ | .ftanh _ h _ => tySpecial h.ty
  | .rng h k => tyRng h.ty && k.toNat ≤ 30
  | .shfl _ h _ _ _ => tyAny h.ty
  | .redux _ h op rm _ | .scan _ h _ op rm _ => redOk op rm h.ty
  | .vote _ _ _ c | .mset _ _ c | .mand _ _ c | .mor _ _ c | .mxor _ _ c | .mnot _ c | .mfroms _ c => c != 0
  | .matchLanes _ ty _ _ c => tyAny ty && c != 0
  | .ld m _ | .lds m _ | .ldb m _ _ | .lda m _ _ => mArgsOk m tyMem
  | .ld2 m _ => mArgsOk m tyMem2
  | .st m d _ | .sts m d _ | .stl m d _ _ => storeOk m d tyMem
  | .st2 m d _ => storeOk m d tyMem2 && pairData d
  | .pref m _ => mArgsOk m tyRaw && !m.mz
  | .cctl m op => mArgsOk m tyRaw && !m.mz && (op != .invall || (m.addr == .age 0 && m.off == 0))
  | .atom m d _ _ _ | .atoms m d _ _ _ | .atomc m d _ _ _ | .atomsc m d _ _ _ => mArgsOk m isInt && !isImm d
  | .atomf m d _ _ op => mArgsOk m tyAtomF && !isImm d && atomOpFloat op
  | .red m d _ o op => storeOk m d tyRed && (o == .plain || o == .rel) && atomOpRed m.ty op
  | .radv m _ | .rdround m => mArgsOk m (· == .n32)
  | .bararv _ n => n != 0
  | .fqput _ ty _ _ => tyAny ty
  | .fqget h _ => tyAny h.ty
  | .scopy j s d => sluiceOk j 1 0 (s == .remote || d == .remote) && sluicePair s d
  | .scopy2 j s d => sluiceOk j 1 1 (s == .remote || d == .remote) && sluicePair s d
  | .stcopy j toDesc other _ => sluiceOk j 0 1 (other == .remote) && !(toDesc && other == .bplane)
  | .sgath j s d _ _ | .sscat j s d _ _ => sluiceOk j 1 1 (s == .remote || d == .remote) && sluicePair s d
  | .sfill j d _ => sluiceOk j 1 0 false && d != .remote
  | .tdset _ w _ | .tdget _ _ w => w.toNat < 10
  | .invpg _ a _ => !isImm a
  | .pmrd _ (.imm n) => n.toNat < 64
  | .mloop _ off => off.msb
  | .apop _ _ ty => tyApop ty
  | .ori2 p | .ori3 p | .incir p | .insph p | .segx p => tyAtomF p.ty
  | .rd d _ | .data d _ _ _ | .wreq d _ _ | .grant d _ _ | .inv d _ _ | .revoke d _ _ | .notice d _ _ _ | .wb d _ _
  | .radvreq d _ _ _ | .flush d _ | .advance d _ _ _ _ | .iack d _ | .rvack d _ _ | .wback d _ | .fack d _ _ | .advack d _
  | .gone d _ | .cdsStatClear d _ => d < 10
  | .coreRemove d c | .coreReturn d c => d < 8 && c < 144
  | .qosBucket n _ | .tokenRefill n => n < 1024
  | .illegalOpcode w => unassigned w
  | _ => true

/-- Well-formed instructions: fields that a word can hold, and immediates that agree and have a value. -/
def wf (i : Instr) : Bool := fieldsOk i && immsOk (sources i)

end Sys2Proof
end

