-- ==== Sys2Proof/Decode.lean ====
section
/-! DEFINITION. From a 64-bit word to an instruction (07, R151 to R171), total on any word, and from an instruction to its word. -/

namespace Sys2Proof

/-- What a word raises instead of an instruction: the cause code and the aux word (Tables 02-5 to 02-7). -/
abbrev EncTrap := BitVec 10 × Word

/-- Decoder results. -/
abbrev Dec (α : Type) := Except EncTrap α

/-! ## Fields of the word (Tables 07-4 to 07-7) -/

def fLA (w : Word) : BitVec 4 := fld w 50 4
def fMS (w : Word) : BitVec 3 := fld w 47 3
def fTY (w : Word) : Ty := tyOf (fld w 43 4)
def fMZ (w : Word) : Bool := fld w 42 1 == 1
def vA (w : Word) : BitVec 7 := fld w 35 7
def vB (w : Word) : BitVec 7 := fld w 28 7
def vC (w : Word) : BitVec 7 := fld w 21 7
def vMod (w : Word) : BitVec 7 := fld w 14 7
def vRM (w : Word) : BitVec 3 := fld w 18 3
def vOp (w : Word) : BitVec 4 := fld w 14 4
def vImm (w : Word) : BitVec 14 := fld w 0 14
def bit (w : Word) (n : Nat) : Bool := fld w n 1 == 1
def vHead (w : Word) : VHead := { ms := fMS w, mz := fMZ w, ty := fTY w }
/-- Bits hi to lo of the body are zero. -/
def zero (w : Word) (hi lo : Nat) : Bool := fld w lo (hi + 1 - lo) == 0

/-! ## The checks of R171, conditions 3 to 6 -/

def need (c : Bool) (t : EncTrap) : Dec Unit := if c then .ok () else .error t

/-- Condition 3: RESERVED_FIELD with aux = the word. -/
def needField (w : Word) (c : Bool) : Dec Unit := need c (0x001, w)

/-- Condition 4: BAD_TYPE with aux = TY (R164). -/
def needTy (w : Word) (legal : Ty → Bool) : Dec Unit := need (legal (fTY w)) (0x003, zx64 (fld w 43 4))

/-- Condition 4 in groups 3, 4 and 6: the narrow codes trap NARROW_IN_VECTOR (R164). -/
def needTyVec (w : Word) (legal : Ty → Bool) : Dec Unit :=
  let t := fTY w
  need (legal t) (if t == .e4m3 || t == .e5m2 || t == .q4n then 0x082 else 0x003, zx64 (fld w 43 4))

/-- Condition 5: BAD_MODIFIER with aux = MOD (R155). -/
def needMod (w : Word) (c : Bool) : Dec Unit := need c (0x004, zx64 (vMod w))

/-- Condition 6: RESERVED_OPERAND with aux = the field (R156). -/
def needOpnd (x : BitVec 7) (c : Bool) : Dec Unit := need c (0x002, zx64 x)

/-- Condition 6: MASK_READONLY with aux = the word (R156). -/
def needMask (w : Word) (c : BitVec 3) : Dec Unit := need (c != 0) (0x044, w)

/-- An operand field of format V or G under its expected tag (Table 03-6, R61). -/
def opnd (w : Word) (x : BitVec 7) (exp : Ty) : Dec Src :=
  match (fld x 5 2).toNat with
  | 0 => .ok (.age (fld x 0 5))
  | 1 => .ok (.frame (fld x 0 5))
  | 2 => .ok (.scalar (fld x 0 5))
  | _ =>
    match (fld x 0 5).toNat with
    | 0 => .ok .zero
    | 1 => .ok .one
    | 2 => .ok .laneNum
    | 3 => .ok .warpNum
    | 4 => .ok .tileLane
    | 5 => .ok .tileId
    | 16 => if (Machine.immValue exp (vImm w)).isSome then .ok (.imm (vImm w)) else .error (0x002, zx64 x)
    | _ => .error (0x002, zx64 x)

/-- ADDR or DATA of format M: never an immediate (R158). -/
def opndM (x : BitVec 7) : Dec Src :=
  if x = 0x70 then .error (0x002, zx64 x) else opnd 0 x .raw

/-- A scalar number in an operand field, 0x40 to 0x5F (Table 07-8). -/
def scalarOf (x : BitVec 7) : Dec (BitVec 5) := do needOpnd x (fld x 5 2 == 2); pure (fld x 0 5)

/-- A frame slot in an operand field, 0x20 to 0x3F (Table 07-8). -/
def frameOf (x : BitVec 7) : Dec (BitVec 5) := do needOpnd x (fld x 5 2 == 1); pure (fld x 0 5)

/-- A mask number 0 to 7 (Table 07-8). -/
def maskNum (x : BitVec 7) : Dec (BitVec 3) := do needOpnd x (fld x 3 4 == 0); pure (fld x 0 3)

/-- A mask destination 1 to 7 (Table 07-8). -/
def maskDst (w : Word) (x : BitVec 7) : Dec (BitVec 3) := do let m ← maskNum x; needMask w m; pure m

def rmOf (x : BitVec 3) : Rm :=
  match x.toNat with
  | 0 => .rne | 1 => .rtz | 2 => .rdn | 3 => .rup | _ => .sr

/-- Condition 3 for format V: LA, MS and MZ only where they mean something, unused fields zero, IMM14 zero unless an
operand field holds 0x70 (R152, R156). -/
def vOk (w : Word) (long ms mz : Bool) (used unused : List (BitVec 7)) : Bool :=
  (long || fLA w == 0) && (ms || fMS w == 0) && (mz || !fMZ w) && unused.all (· == 0) &&
    (vImm w == 0 || used.any (· == 0x70))

/-- A format V instruction that pushes and names operand A. -/
def v1 (w : Word) (long : Bool) (ty : Dec Unit) (modOk : Bool) (ea : Ty) : Dec Src := do
  needField w (vOk w long true true [vA w] [vB w, vC w]); ty; needMod w modOk
  opnd w (vA w) ea

def v2 (w : Word) (long : Bool) (ty : Dec Unit) (modOk : Bool) (ea eb : Ty) : Dec (Src × Src) := do
  needField w (vOk w long true true [vA w, vB w] [vC w]); ty; needMod w modOk
  let a ← opnd w (vA w) ea; let b ← opnd w (vB w) eb; pure (a, b)

def v3 (w : Word) (ty : Dec Unit) (modOk : Bool) (ea eb ec : Ty) : Dec (Src × Src × Src) := do
  needField w (vOk w false true true [vA w, vB w, vC w] []); ty; needMod w modOk
  let a ← opnd w (vA w) ea; let b ← opnd w (vB w) eb; let c ← opnd w (vC w) ec; pure (a, b, c)

/-- MOD admits no bit; SAT; rounding with the negation bits NA to NC of a mask (R155, R204). -/
def modNone (w : Word) : Bool := vMod w == 0
def modSat (w : Word) : Bool := vRM w == 0 && zero w 16 14
def modNeg (w : Word) (bits : BitVec 4) : Bool := vRM w == 0 && (vOp w &&& ~~~bits) == 0
def modRound (w : Word) (bits : BitVec 4) : Bool := decide ((vRM w).toNat < 4) && (vOp w &&& ~~~bits) == 0

/-! ## Group 0x0, control -/

/-- Condition 3 and 4 of a control word: LA, MZ zero, MS where it means something, TY raw. -/
def ctl (w : Word) (ms : Bool) (fields : Bool) : Dec Unit := do
  needField w (fLA w == 0 && !fMZ w && (ms || fMS w == 0) && fields); needTy w tyRaw

def condOf (c : BitVec 4) : Cond :=
  match c.toNat with
  | 0 => .al | 1 => .eq | 2 => .ne | 3 => .lt | 4 => .ge | 5 => .le | 6 => .gt | 7 => .ult | 8 => .uge | 9 => .ule
  | 10 => .ugt | 11 => .neg | 12 => .nneg | 13 => .ovf | _ => .novf

def off24 (w : Word) : BitVec 24 := fld w 0 24

def decode0 (w : Word) : Nat → Dec Instr
  | 0x00 => do needField w (w == 0); pure .nop
  | 0x01 => do ctl w false (zero w 41 24); pure (.bra (off24 w))
  | 0x02 => do ctl w false (zero w 37 24 && fld w 38 4 != 15); pure (.brc (condOf (fld w 38 4)) (off24 w))
  | 0x03 => do ctl w true (zero w 41 24); pure (.brz (fMS w) (off24 w))
  | 0x04 => do ctl w true (zero w 41 24); pure (.brnz (fMS w) (off24 w))
  | 0x05 => do ctl w true (zero w 41 38 && zero w 31 24); pure (.brd (fMS w) (fld w 32 6) (off24 w))
  | 0x06 => do ctl w false (zero w 5 0); pure (.join (fld w 36 6) (fld w 30 6) (fld w 6 24))
  | 0x07 => do ctl w false (zero w 31 24); pure (.call (fld w 37 5) (fld w 32 5) (off24 w))
  | 0x08 => do ctl w false (zero w 26 0); pure (.calli (fld w 37 5) (fld w 32 5) (fld w 27 5))
  | 0x09 => do ctl w false (zero w 41 0); pure .ret
  | 0x0A => do ctl w false (zero w 41 38 && zero w 32 24); pure (.loop (fld w 33 5) (off24 w))
  | 0x0B => do ctl w false (zero w 41 0); pure .exit
  | 0x0C => do ctl w false (zero w 29 0); pure (.stake (fld w 30 12))
  | 0x0D => do ctl w false (zero w 41 20 && zero w 9 0); pure (.yield (fld w 10 10))
  | 0x0E => do ctl w false (zero w 41 15 && zero w 9 0); pure (.svc (fld w 10 5))
  | 0x0F => do ctl w false (zero w 41 15 && zero w 9 0); pure (.bkpt (fld w 10 5))
  | 0x10 => do ctl w false (zero w 31 0); pure (.launch (fld w 32 5) (fld w 37 5))
  | 0x11 => do ctl w false (zero w 41 0); pure .waitdep
  | 0x12 => do ctl w false (zero w 41 0); pure .trig
  | 0x13 => do ctl w true (zero w 41 0); pure (if fMS w = 0 then .eret else .eretM (fMS w))
  | 0x14 => do ctl w false (zero w 41 0); pure .abort
  | _ => .ok (.illegalOpcode w)

/-! ## Group 0x1, the queue -/

def specialOf (n : BitVec 7) : Option SpecialReg :=
  match n.toNat with
  | 0x00 => some .mode | 0x01 => some .fflags | 0x02 => some .tile | 0x03 => some .cnt | 0x04 => some .stakepc
  | 0x05 => some .stakerec | 0x06 => some .seal | 0x07 => some .divdepth | 0x08 => some .calldepth | 0x09 => some .rngctr
  | 0x0A => some .gpstat | 0x0B => some .gtime | 0x62 => some .lanenum | 0x63 => some .warpnum | 0x64 => some .tilelane
  | 0x65 => some .tileid
  | _ => if fld n 4 3 == 1 then some (.wp (fld n 0 4)) else none

def writableOf (n : BitVec 7) : Option WritableReg :=
  match n.toNat with
  | 0x00 => some .mode | 0x01 => some .fflags | 0x09 => some .rngctr
  | _ => none

def decode1 (w : Word) : Nat → Dec Instr
  | 0x00 => do
    needField w (vOk w false true false [vA w] [vB w]); needTy w tyRaw; needMod w (modNone w)
    let a ← opnd w (vA w) .raw; let d ← frameOf (vC w); pure (.save (fMS w) a d)
  | 0x01 => do let a ← v1 w false (needTy w tyRaw) (modNone w) .raw; pure (.dup (fMS w) (fMZ w) a)
  | 0x02 => do
    needField w (fLA w == 0 && zero w 9 0); needTy w tyPushi; pure (.pushi (vHead w) (fld w 10 32))
  | 0x03 => do ctl w false (zero w 41 30 && zero w 5 0); pure (.qperm (fld w 6 24))
  | 0x04 => do
    let a ← v1 w false (if fTY w == .poison then .error (0x083, 0) else .ok ()) (modNone w) .raw
    pure (.settag (vHead w) a)
  | 0x05 => do
    ctl w false (zero w 41 13 && zero w 9 0 && decide ((fld w 10 3).toNat ≤ 5)); pure (.tile (fld w 10 3))
  | 0x06 => do
    ctl w false (zero w 41 34 && zero w 25 18 && zero w 9 0 && (fld w 10 8 &&& ~~~fld w 26 8) == 0 &&
      !(fld w 10 2 == 3 && fld w 26 2 == 3))
    pure (.setmode (fld w 10 8) (fld w 26 8))
  | 0x07 => do
    needField w (vOk w false true false [vA w, vB w] []); needTy w tyRaw; needMod w (modNone w)
    let a ← opnd w (vA w) .raw; let b ← opnd w (vB w) .n32; let k ← scalarOf (vC w); pure (.lane2s (fMS w) a b k)
  | 0x08 => do
    needField w (vOk w false true true [] [vA w, vC w]); needTy w tyRaw; needMod w (modNone w)
    match specialOf (vB w) with
    | some r => pure (.rdsr (fMS w) (fMZ w) r)
    | none => .error (0x045, zx64 (vB w))
  | 0x09 => do
    needField w (vOk w false true false [vA w] [vC w]); needTy w tyRaw; needMod w (modNone w)
    let a ← opnd w (vA w) .n64
    match writableOf (vB w) with
    | some r => pure (.wrsr (fMS w) a r)
    | none => .error (0x045, zx64 (vB w))
  | _ => .ok (.illegalOpcode w)

/-! ## Group 0x2, scalars -/

def sSD (w : Word) : BitVec 5 := fld w 37 5
def sSA (w : Word) : BitVec 5 := fld w 32 5
def sSB (w : Word) : BitVec 5 := fld w 27 5
def sImm (w : Word) : BitVec 16 := fld w 10 16
def sCCW (w : Word) : BitVec 4 := fld w 6 4
/-- SB or imm16, as bit I says (R157). -/
def sOp2 (w : Word) : SOp2 := if bit w 26 then .imm (sImm w) else .reg (sSB w)

/-- Format S: bits 5:0 zero, imm16 zero when I = 0 and SB zero when I = 1 (R157); LA, MS, MZ zero. -/
def sOk (w : Word) : Bool :=
  fLA w == 0 && fMS w == 0 && !fMZ w && zero w 5 0 && (if bit w 26 then sSB w == 0 else sImm w == 0)

def sTwo (w : Word) (mk : SArgs → Instr) (fields : Bool := true) : Dec Instr := do
  needField w (sOk w && fields); needTy w tyScalar
  pure (mk { ty := fTY w, sd := sSD w, sa := sSA w, b := sOp2 w, ccw := sCCW w })

def sOne (w : Word) (mk : Ty → BitVec 5 → BitVec 5 → BitVec 4 → Instr) : Dec Instr := do
  needField w (sOk w && zero w 31 10); needTy w tyScalar
  pure (mk (fTY w) (sSD w) (sSA w) (sCCW w))

def decode2 (w : Word) : Nat → Dec Instr
  | 0x00 => sTwo w .sadd
  | 0x01 => sTwo w .ssub
  | 0x02 => sTwo w .smul
  | 0x03 => sTwo w .smulh
  | 0x04 => sTwo w .sand
  | 0x05 => sTwo w .sor
  | 0x06 => sTwo w .sxor
  | 0x07 => sTwo w .sshl
  | 0x08 => sTwo w .sshr
  | 0x09 => sTwo w .ssar
  | 0x0A => sTwo w .smin
  | 0x0B => sTwo w .smax
  | 0x0C => do
    needField w (sOk w && sSD w == 0); needTy w tyScalar; pure (.scmp (fTY w) (sSA w) (sOp2 w) (sCCW w))
  | 0x0D => sOne w .smov
  | 0x0E => do
    needField w (sOk w && bit w 26 && (fTY w == .raw || sSA w == 0)); needTy w tyScalar
    pure (.smovi (fTY w) (sSD w) (sSA w) (sImm w) (sCCW w))
  | 0x0F => do
    needField w (sOk w && sCCW w != 15); needTy w tyScalar
    pure (.ssel (condOf (sCCW w)) (fTY w) (sSD w) (sSA w) (sOp2 w))
  | 0x10 => sOne w .sclz
  | 0x11 => sOne w .spopc
  | 0x12 => sTwo w .sbfe (!bit w 26 || zero w 25 23)
  | 0x13 => do
    needField w (sOk w && bit w 26 && sCCW w == 0); needTy w tyScalar; pure (.sld (fTY w) (sSD w) (sSA w) (sImm w))
  | 0x14 => do
    needField w (sOk w && bit w 26 && sCCW w == 0); needTy w tyScalar; pure (.sst (fTY w) (sSD w) (sSA w) (sImm w))
  | _ => .ok (.illegalOpcode w)

/-! ## Groups 0x3 and 0x4, vector integer and floating point -/

def cmpOf (c : BitVec 4) : Cmp :=
  match c.toNat with
  | 0 => .eq | 1 => .ne | 2 => .lt | 3 => .le | 4 => .gt | 5 => .ge | 6 => .un | _ => .ord

def i1 (w : Word) (legal : Ty → Bool) (modOk : Bool) (mk : VHead → Src → Instr) : Dec Instr := do
  let a ← v1 w false (needTyVec w legal) modOk (fTY w); pure (mk (vHead w) a)

def i2 (w : Word) (legal : Ty → Bool) (modOk : Bool) (eb : Ty) (mk : VHead → Src → Src → Instr) : Dec Instr := do
  let (a, b) ← v2 w false (needTyVec w legal) modOk (fTY w) eb; pure (mk (vHead w) a b)

def decode3 (w : Word) : Nat → Dec Instr
  | 0x00 => i2 w isInt (modSat w) (fTY w) fun h => .iadd h (bit w 17)
  | 0x01 => i2 w isInt (modSat w) (fTY w) fun h => .isub h (bit w 17)
  | 0x02 => i2 w isInt (modSat w) (fTY w) fun h => .imul h (bit w 17)
  | 0x03 => i2 w isInt (modNone w) (fTY w) .imulh
  | 0x04 => do
    let (a, b, c) ← v3 w (needTyVec w isInt) (modSat w) (fTY w) (fTY w) (fTY w); pure (.imad (vHead w) (bit w 17) a b c)
  | 0x05 => i1 w isInt (modSat w) fun h => .ineg h (bit w 17)
  | 0x06 => i1 w isInt (modSat w) fun h => .iabs h (bit w 17)
  | 0x07 => i2 w isInt (modNone w) (fTY w) .imin
  | 0x08 => i2 w isInt (modNone w) (fTY w) .imax
  | 0x09 => i2 w tyScalar (modNone w) (fTY w) .and
  | 0x0A => i2 w tyScalar (modNone w) (fTY w) .or
  | 0x0B => i2 w tyScalar (modNone w) (fTY w) .xor
  | 0x0C => i1 w tyScalar (modNone w) .not
  | 0x0D => i2 w tyScalar (modSat w) .n32 fun h => .shl h (bit w 17)
  | 0x0E => i2 w tyScalar (modNone w) .n32 .shr
  | 0x0F => i2 w tyScalar (modNone w) .n32 .sar
  | 0x10 => i2 w tyScalar (modNone w) .n32 .rotl
  | 0x11 => i2 w tyScalar (modNone w) .n32 .bfe
  | 0x12 => do
    let (a, b, c) ← v3 w (needTyVec w tyScalar) (modNone w) (fTY w) (fTY w) .n32; pure (.bfi (vHead w) a b c)
  | 0x13 => i1 w tyScalar (modNone w) .popc
  | 0x14 => i1 w tyScalar (modNone w) .clz
  | 0x15 => i1 w tyScalar (modNone w) .brev
  | 0x16 => i2 w isInt (vRM w == 0 && decide ((vOp w).toNat < 6)) (fTY w) fun h => .icmp h (cmpOf (vOp w))
  | 0x17 => do
    let (a, b, c) ← v3 w (needTyVec w tyAny) (modNone w) (fTY w) (fTY w) .bool; pure (.sel (vHead w) a b c)
  | 0x18 => do
    let (a, b, c) ← v3 w (needTyVec w (· == .addr)) (modNone w) .addr .i64 .n32; pure (.lea (fMS w) (fMZ w) a b c)
  | _ => .ok (.illegalOpcode w)

def decode4 (w : Word) : Nat → Dec Instr
  | 0x00 => i2 w isFloat (modRound w 6) (fTY w) fun h => .fadd h (rmOf (vRM w)) (bit w 16) (bit w 15)
  | 0x01 => i2 w isFloat (modRound w 6) (fTY w) fun h => .fsub h (rmOf (vRM w)) (bit w 16) (bit w 15)
  | 0x02 => i2 w isFloat (modRound w 6) (fTY w) fun h => .fmul h (rmOf (vRM w)) (bit w 16) (bit w 15)
  | 0x03 => do
    let (a, b, c) ← v3 w (needTyVec w isFloat) (modRound w 7) (fTY w) (fTY w) (fTY w)
    pure (.ffma (vHead w) (rmOf (vRM w)) (bit w 16) (bit w 15) (bit w 14) a b c)
  | 0x04 => i2 w isFloat (modNeg w 6) (fTY w) fun h => .fmin h (bit w 16) (bit w 15)
  | 0x05 => i2 w isFloat (modNeg w 6) (fTY w) fun h => .fmax h (bit w 16) (bit w 15)
  | 0x06 => i1 w isFloat (modNone w) .fabs
  | 0x07 => i2 w isFloat (vRM w == 0 && decide ((vOp w).toNat < 8)) (fTY w) fun h => .fcmp h (cmpOf (vOp w))
  | 0x08 => i1 w isFloat (modNone w) .fclass
  | 0x09 => i1 w isFloat (modRound w 4) fun h => .frnd h (rmOf (vRM w)) (bit w 16)
  | 0x0A => i2 w isFloat (modRound w 4) .i32 fun h => .fscale h (rmOf (vRM w)) (bit w 16)
  | 0x0B => do
    let (a, b) ← v2 w true (needTyVec w isFloat) (modRound w 6) (fTY w) (fTY w)
    pure (.fdiv (fLA w) (vHead w) (rmOf (vRM w)) (bit w 16) (bit w 15) a b)
  | 0x0C => do
    let a ← v1 w true (needTyVec w isFloat) (modRound w 4) (fTY w)
    pure (.fsqrt (fLA w) (vHead w) (rmOf (vRM w)) (bit w 16) a)
  | _ => .ok (.illegalOpcode w)

/-! ## Group 0x5, conversion, special functions, random numbers, bit streams -/

def special (w : Word) (mk : BitVec 4 → VHead → Src → Instr) : Dec Instr := do
  let a ← v1 w true (needTy w tySpecial) (modNone w) (fTY w); pure (mk (fLA w) (vHead w) a)

def decode5 (w : Word) : Nat → Dec Instr
  | 0x00 => do
    let d := tyOf (vOp w); let rm := rmOf (vRM w)
    let a ← v1 w false (needTy w tyConv)
      (decide ((vRM w).toNat ≤ 4) && cvtDst d && (rmOk rm || (srDst d && fTY w != .q4n))) (fTY w)
    pure (.cvt (vHead w) rm d a)
  | 0x01 => do
    let d := tyOf (vOp w)
    let (a, b) ← v2 w false (needTy w tyConv) (vRM w == 4 && srDst d && fTY w != .q4n) (fTY w) .n32
    pure (.cvtsr (vHead w) d a b)
  | 0x02 => special w .frcp
  | 0x03 => special w .frsq
  | 0x04 => special w .fexp2
  | 0x05 => special w .flog2
  | 0x06 => special w .fsin
  | 0x07 => special w .fcos
  | 0x08 => special w .ftanh
  | 0x09 => do
    needField w (vOk w false true true [vA w] [vB w, vC w]); needTy w tyRng; needMod w (modNone w)
    let k ← scalarOf (vA w); needOpnd (vA w) (decide (k.toNat ≤ 30)); pure (.rng (vHead w) k)
  | 0x0A => do
    needField w (vOk w false true false [vA w, vB w] []); needTy w tyRaw; needMod w (modNone w)
    let a ← opnd w (vA w) .raw; let b ← opnd w (vB w) .n32; let n ← frameOf (vC w); pure (.bsinit (fMS w) a b n)
  | 0x0B => do
    needField w (vOk w false true true [vB w, vC w] []); needTy w (· == .n32); needMod w (modNone w)
    let n ← frameOf (vA w); let b ← opnd w (vB w) .n32; let c ← opnd w (vC w) .raw
    pure (.bsrd (fMS w) (fMZ w) n b c)
  | _ => .ok (.illegalOpcode w)

/-! ## Group 0x6, lane exchange and masks -/

def redOf (c : BitVec 3) : RedOp :=
  match c.toNat with
  | 0 => .add | 1 => .min | 2 => .max | 3 => .and | 4 => .or | _ => .xor

/-- MOD of REDUX and SCAN (R224). -/
def modRed (w : Word) (excl : Bool) : Bool :=
  decide ((fld w 14 3).toNat < 6) && (excl || !bit w 17) && decide ((vRM w).toNat < 4) &&
    redOk (redOf (fld w 14 3)) (rmOf (vRM w)) (fTY w)

/-- A whole-mask instruction: MS, MZ, TY zero (R228). -/
def maskOp (w : Word) (unused : List (BitVec 7)) : Dec Unit := do
  needField w (vOk w false false false [] unused); needTyVec w tyRaw; needMod w (modNone w)

def decode6 (w : Word) : Nat → Dec Instr
  | 0x00 => do
    let (a, b) ← v2 w true (needTyVec w tyAny) (vRM w == 0 && decide ((vOp w).toNat < 4)) (fTY w) .n32
    let op := match (vOp w).toNat with | 0 => ShflOp.idx | 1 => .up | 2 => .down | _ => .xor
    pure (.shfl (fLA w) (vHead w) op a b)
  | 0x01 => do
    needField w (vOk w false true false [vA w] []); needTyVec w (· == .bool); needMod w (modNone w)
    let a ← opnd w (vA w) .bool
    needOpnd (vB w) (decide ((vB w).toNat ≤ 4))
    let op := match (vB w).toNat with | 0 => VoteOp.conj | 1 => .disj | 2 => .same | 3 => .each | _ => .odd
    let c ← maskDst w (vC w); pure (.vote (fMS w) op a c)
  | 0x02 => do
    let a ← v1 w true (needTyVec w tyRed6) (modRed w false) (fTY w)
    pure (.redux (fLA w) (vHead w) (redOf (fld w 14 3)) (rmOf (vRM w)) a)
  | 0x03 => do
    let a ← v1 w true (needTyVec w tyRed6) (modRed w true) (fTY w)
    pure (.scan (fLA w) (vHead w) (bit w 17) (redOf (fld w 14 3)) (rmOf (vRM w)) a)
  | 0x04 => do
    needField w (vOk w false true false [vA w] []); needTyVec w tyAny; needMod w (modNone w)
    let a ← opnd w (vA w) (fTY w)
    needOpnd (vB w) (decide ((vB w).toNat ≤ 2))
    let op := match (vB w).toNat with | 0 => MatchOp.dup | 1 => .same | _ => .lead
    let c ← maskDst w (vC w); pure (.matchLanes (fMS w) (fTY w) op a c)
  | 0x05 => do
    needField w (vOk w false true false [vA w] [vB w]); needTyVec w tyRaw; needMod w (modNone w)
    let a ← opnd w (vA w) .bool; let c ← maskDst w (vC w); pure (.mset (fMS w) a c)
  | 0x06 => do
    maskOp w []; let a ← maskNum (vA w); let b ← maskNum (vB w); let c ← maskDst w (vC w); pure (.mand a b c)
  | 0x07 => do
    maskOp w []; let a ← maskNum (vA w); let b ← maskNum (vB w); let c ← maskDst w (vC w); pure (.mor a b c)
  | 0x08 => do
    maskOp w []; let a ← maskNum (vA w); let b ← maskNum (vB w); let c ← maskDst w (vC w); pure (.mxor a b c)
  | 0x09 => do maskOp w [vB w]; let a ← maskNum (vA w); let c ← maskDst w (vC w); pure (.mnot a c)
  | 0x0A => do maskOp w [vB w]; let a ← maskNum (vA w); let k ← scalarOf (vC w); pure (.mpopc a k)
  | 0x0B => do maskOp w [vB w]; let a ← maskNum (vA w); let k ← scalarOf (vC w); pure (.mfirst a k)
  | 0x0C => do maskOp w [vB w]; let k ← scalarOf (vA w); let c ← maskDst w (vC w); pure (.mfroms k c)
  | 0x0D => do maskOp w [vB w]; let a ← maskNum (vA w); let k ← scalarOf (vC w); pure (.mtos a k)
  | _ => .ok (.illegalOpcode w)
where
  tyRed6 (t : Ty) : Bool := isNumeric t

/-! ## Groups 0x7, 0x8 and format M -/

def mADDR (w : Word) : BitVec 7 := fld w 35 7
def mDATA (w : Word) : BitVec 7 := fld w 28 7
def mScope (w : Word) : BitVec 3 := fld w 25 3
def mOrd (w : Word) : BitVec 2 := fld w 23 2
def mCP (w : Word) : BitVec 2 := fld w 21 2
def mBnd (w : Word) : BitVec 5 := fld w 16 5
def mOff (w : Word) : BitVec 16 := fld w 0 16

def scopeOf (c : BitVec 3) : Scope :=
  match c.toNat with
  | 0 => .wp | 1 => .bk | 2 => .gg | 3 => .die | 4 => .pkg | _ => .sys

def ordOf (c : BitVec 2) : Ord :=
  match c.toNat with
  | 0 => .plain | 1 => .acq | 2 => .rel | _ => .acqrel

def cpOf (c : BitVec 2) : Cp :=
  match c.toNat with
  | 0 => .dflt | 1 => .str | _ => .nc

def mArgs (w : Word) (a : Src) : MArgs :=
  { la := fLA w, ms := fMS w, mz := fMZ w, ty := fTY w, addr := a, off := mOff w }

/-- A load or store with a plain scope and order (R158, R233). -/
def plainM (w : Word) (load : Bool) : Bool :=
  mScope w == 0 && mOrd w == 0 && mCP w != 3 && mBnd w == 0 && (if load then mDATA w == 0 else !fMZ w)

def loadM (w : Word) (fields : Bool) (legal : Ty → Bool) : Dec MArgs := do
  needField w fields; needTy w legal; let a ← opndM (mADDR w); pure (mArgs w a)

def storeM (w : Word) (fields : Bool) (legal : Ty → Bool) : Dec (MArgs × Src) := do
  needField w fields; needTy w legal; let a ← opndM (mADDR w); let d ← opndM (mDATA w); pure (mArgs w a, d)

def scopeOk (w : Word) : Bool := decide ((mScope w).toNat ≤ 5)

/-- Group 0x7. CCTL has no CP among the fields of R236, so one that is not 0 is reserved (log entry 45, DEDUCED: R145 beside R236). -/
def decode7 (w : Word) : Nat → Dec Instr
  | 0x00 => do let m ← loadM w (plainM w true) tyMem; pure (.ld m (cpOf (mCP w)))
  | 0x01 => do let m ← loadM w (plainM w true) tyMem2; pure (.ld2 m (cpOf (mCP w)))
  | 0x02 => do let (m, d) ← storeM w (plainM w false) tyMem; pure (.st m d (cpOf (mCP w)))
  | 0x03 => do
    let (m, d) ← storeM w (plainM w false) tyMem2
    needOpnd (mDATA w) (pairData d); pure (.st2 m d (cpOf (mCP w)))
  | 0x04 => do let m ← loadM w (plainM w true) tyMem; pure (.lds m (cpOf (mCP w)))
  | 0x05 => do let (m, d) ← storeM w (plainM w false) tyMem; pure (.sts m d (cpOf (mCP w)))
  | 0x06 => do
    let m ← loadM w (mScope w == 0 && mOrd w == 0 && decide ((mCP w).toNat ≤ 1) && mDATA w == 0) tyMem
    pure (.ldb m (mBnd w) (mCP w == 1))
  | 0x07 => do
    let m ← loadM w (scopeOk w && mOrd w == 1 && mCP w != 3 && mBnd w == 0 && mDATA w == 0) tyMem
    pure (.lda m (scopeOf (mScope w)) (cpOf (mCP w)))
  | 0x08 => do
    let (m, d) ← storeM w (scopeOk w && mOrd w == 2 && mCP w != 3 && mBnd w == 0 && !fMZ w) tyMem
    pure (.stl m d (scopeOf (mScope w)) (cpOf (mCP w)))
  | 0x09 => do let m ← loadM w (plainM w true && !fMZ w) tyRaw; pure (.pref m (cpOf (mCP w)))
  | 0x0A => do
    let m ← loadM w (mScope w == 0 && mOrd w == 0 && mCP w == 0 && mDATA w == 0 && !fMZ w && decide ((mBnd w).toNat ≤ 2) &&
      (mBnd w != 1 || (mADDR w == 0 && mOff w == 0))) tyRaw
    pure (.cctl m (match (mBnd w).toNat with | 0 => .inv | 1 => .invall | _ => .clean))
  | _ => .ok (.illegalOpcode w)

def atomOf (c : BitVec 5) : AtomOp :=
  match c.toNat with
  | 0 => .add | 1 => .min | 2 => .max | 3 => .and | 4 => .or | 5 => .xor | _ => .exch

/-- Scope and CP of an atomic (R116, R237). -/
def atomM (w : Word) : Bool := scopeOk w && mCP w == 0

def atomOp (w : Word) (accepts : AtomOp → Bool) : Bool := decide ((mBnd w).toNat ≤ 6) && accepts (atomOf (mBnd w))

def decode8 (w : Word) : Nat → Dec Instr
  | 0x00 => do
    let (m, d) ← storeM w (atomM w && atomOp w atomOpInt) isInt
    pure (.atom m d (scopeOf (mScope w)) (ordOf (mOrd w)) (atomOf (mBnd w)))
  | 0x01 => do
    let (m, d) ← storeM w (atomM w) isInt; pure (.atomc m d (scopeOf (mScope w)) (ordOf (mOrd w)) (mBnd w))
  | 0x02 => do
    let (m, d) ← storeM w (atomM w && atomOp w atomOpFloat) tyAtomF
    pure (.atomf m d (scopeOf (mScope w)) (ordOf (mOrd w)) (atomOf (mBnd w)))
  | 0x03 => do
    let (m, d) ← storeM w (atomM w && !fMZ w && (mOrd w == 0 || mOrd w == 2) && atomOp w (atomOpRed (fTY w))) tyRed
    pure (.red m d (scopeOf (mScope w)) (ordOf (mOrd w)) (atomOf (mBnd w)))
  | 0x04 => do
    let (m, d) ← storeM w (atomM w && atomOp w atomOpInt) isInt
    pure (.atoms m d (scopeOf (mScope w)) (ordOf (mOrd w)) (atomOf (mBnd w)))
  | 0x05 => do
    let (m, d) ← storeM w (atomM w) isInt; pure (.atomsc m d (scopeOf (mScope w)) (ordOf (mOrd w)) (mBnd w))
  | 0x06 => do
    let m ← loadM w (scopeOk w && mOrd w == 0 && mDATA w == 0 && mCP w == 0 && mBnd w == 0) (· == .n32)
    pure (.radv m (scopeOf (mScope w)))
  | 0x07 => do
    let m ← loadM w (mScope w == 0 && mOrd w == 0 && mDATA w == 0 && mCP w == 0 && mBnd w == 0) (· == .n32)
    pure (.rdround m)
  | _ => .ok (.illegalOpcode w)

/-! ## Groups 0x9, 0xA and 0xD -/

def eSX (w : Word) : BitVec 5 := fld w 37 5
def eSY (w : Word) : BitVec 5 := fld w 32 5
/-- Barrier ID = BARHI × 16 + BAR (R161). -/
def eBar (w : Word) : BitVec 5 := fld w 15 1 ++ fld w 28 4

def decode9 (w : Word) : Nat → Dec Instr
  | 0x00 => do
    needField w (fLA w == 0 && !fMZ w && zero w 41 28 && scopeOk w && zero w 22 0); needTy w tyRaw
    let k := match (mOrd w).toNat with | 0 => FenceKind.xp | 1 => .acq | 2 => .rel | _ => .full
    pure (.fence k (scopeOf (mScope w)) (fMS w))
  | 0x01 => do ctl w false (zero w 27 16 && zero w 14 0); pure (.barinit (eBar w) (eSX w) (eSY w))
  | 0x02 => do
    ctl w false (zero w 41 32 && zero w 27 16 && zero w 14 8 && fld w 0 8 != 0); pure (.bararv (eBar w) (fld w 0 8))
  | 0x03 => do ctl w false (zero w 36 32 && zero w 27 16 && zero w 14 0); pure (.barwt (eBar w) (eSX w))
  | 0x04 => do ctl w false (zero w 41 37 && zero w 27 16 && zero w 14 0); pure (.barexp (eBar w) (eSY w))
  | 0x05 => do
    needField w (vOk w false true false [vA w] [vB w]); needTy w tyAny; needMod w (modNone w)
    let a ← opnd w (vA w) (fTY w); let k ← maskNum (vC w); pure (.fqput (fMS w) (fTY w) a k)
  | 0x06 => do
    needField w (vOk w false true true [] [vA w, vB w]); needTy w tyAny; needMod w (modNone w)
    let k ← maskNum (vC w); pure (.fqget (vHead w) k)
  | 0x07 => do
    ctl w false (zero w 41 10)
    let m := match (fld w 8 2).toNat with | 0 => BankMode.off | 1 => .cache | 2 => .scratch | _ => .fifo
    pure (.bankcfg (fld w 0 8) m)
  | _ => .ok (.illegalOpcode w)

def spaceOf (c : BitVec 2) : SluiceSpace :=
  match c.toNat with
  | 0 => .global | 1 => .scratch | 2 => .bplane | _ => .remote

def kSrc (w : Word) : SluiceSpace := spaceOf (fld w 22 2)
def kDst (w : Word) : SluiceSpace := spaceOf (fld w 20 2)

def sluiceArgs (w : Word) : SluiceArgs :=
  { la := fLA w, sx := eSX w, sy := eSY w, bar := if bit w 19 then none else some (eBar w)
    wp := if bit w 18 then none else some (fld w 24 4), port := fld w 3 4 }

/-- Condition 3 of a Sluice issue (R245, R246): TY, MS, MZ zero, an omitted barrier or write pointer has a zero field,
ESZ, IDXSP, TDIR and DESC only where they are used. -/
def sluiceField (w : Word) (esz ix td : Bool) : Bool :=
  fMS w == 0 && !fMZ w && fld w 43 4 == 0 && zero w 2 0 && (!bit w 19 || eBar w == 0) && (!bit w 18 || zero w 27 24) &&
    (esz || zero w 17 16) && (ix || !bit w 14) && (td || zero w 13 7)

def decodeA (w : Word) (i : Nat) : Dec Instr :=
  let j := sluiceArgs w
  let remote := kSrc w == .remote || kDst w == .remote
  match i with
  | 0x00 => do
    needField w (sluiceField w false false false && sluicePair (kSrc w) (kDst w) && sluiceOk j 1 0 remote)
    pure (.scopy j (kSrc w) (kDst w))
  | 0x01 => do
    needField w (sluiceField w false false false && sluicePair (kSrc w) (kDst w) && sluiceOk j 1 1 remote)
    pure (.scopy2 j (kSrc w) (kDst w))
  | 0x02 => do
    let toDesc := bit w 13
    let other := if toDesc then kSrc w else kDst w
    needField w (sluiceField w false false true && (if toDesc then zero w 21 20 else zero w 23 22) &&
      !(toDesc && other == .bplane) && sluiceOk j 0 1 (other == .remote))
    pure (.stcopy j toDesc other (fld w 7 6))
  | 0x03 => do
    needField w (sluiceField w true true false && sluicePair (kSrc w) (kDst w) && sluiceOk j 1 1 remote)
    pure (.sgath j (kSrc w) (kDst w) (fld w 16 2) (bit w 14))
  | 0x04 => do
    needField w (sluiceField w true true false && sluicePair (kSrc w) (kDst w) && sluiceOk j 1 1 remote)
    pure (.sscat j (kSrc w) (kDst w) (fld w 16 2) (bit w 14))
  | 0x05 => do
    needField w (sluiceField w true false false && zero w 23 22 && kDst w != .remote && sluiceOk j 1 0 false)
    pure (.sfill j (kDst w) (fld w 16 2))
  | 0x06 => do ctl w false (zero w 36 28 && zero w 23 0); pure (.swait (fld w 24 4) (eSX w))
  | 0x07 => do ctl w false (zero w 31 0); pure (.squery (eSY w) (eSX w))
  | 0x08 => do
    ctl w false (zero w 36 10 && decide ((fld w 6 4).toNat < 10)); pure (.tdset (fld w 0 6) (fld w 6 4) (eSX w))
  | 0x09 => do
    ctl w false (zero w 41 37 && zero w 31 10 && decide ((fld w 6 4).toNat < 10)); pure (.tdget (eSY w) (fld w 0 6) (fld w 6 4))
  | 0x0A => do ctl w false (zero w 41 6); pure (.tdinv (fld w 0 6))
  | _ => .ok (.illegalOpcode w)

def decodeD (w : Word) : Nat → Dec Instr
  | 0x00 => do
    ctl w true (zero w 34 16); let a ← opndM (mADDR w); pure (.invpg (fMS w) a (mOff w))
  | 0x01 => do ctl w true (zero w 41 0); pure (.invall (fMS w))
  | 0x02 => do
    ctl w false (sOk w && sCCW w == 0 && (if bit w 26 then sSA w == 0 && zero w 25 16 else sSB w == 0))
    pure (.pmrd (sSD w) (if bit w 26 then .imm (sImm w) else .reg (sSA w)))
  | 0x03 => do ctl w false (sOk w && bit w 26 && sCCW w == 0 && sSD w == 0); pure (.pmcfg (sSA w) (sImm w))
  | 0x04 => do ctl w false (sOk w && bit w 26 && sCCW w == 0 && sSD w == 0); pure (.trace (sSA w) (sImm w))
  | _ => .ok (.illegalOpcode w)

/-! ## Group 0xB, the matrix stream, and APOP -/

def xShape (w : Word) : BitVec 5 := fld w 37 5
def xA (w : Word) : BitVec 6 := fld w 31 6
def xB (w : Word) : BitVec 6 := fld w 25 6
def xAcc (w : Word) : BitVec 2 := fld w 23 2
def xAF (w : Word) : BitVec 4 := fld w 17 4

/-- Condition 3 of a stream word: LA, MS, TY, MZ zero (R162). -/
def xField (w : Word) (c : Bool) : Dec Unit := needField w (zero w 53 42 && c)

def xMma (w : Word) : MmaArgs :=
  { shape := xShape w, adesc := xA w, bdesc := xB w, acc := xAcc w, overwrite := bit w 21, af := xAF w, bf := fld w 13 4 }

def xRegion (w : Word) : RegionArgs :=
  { shape := xShape w, desc := xA w, acc := xAcc w, af := xAF w, row := fld w 2 2, col := fld w 0 2 }

def decodeB (w : Word) : Nat → Dec Instr
  | 0x00 => do xField w (!bit w 22 && zero w 12 0); pure (.mma (xMma w))
  | 0x01 => do xField w (!bit w 22 && zero w 12 0); pure (.mmaq (xMma w))
  | 0x02 => do xField w (zero w 41 25 && zero w 22 0); pure (.accz (xAcc w))
  | 0x03 => do xField w (zero w 30 25 && zero w 22 21 && zero w 16 4); pure (.accld (xRegion w))
  | 0x04 => do xField w (zero w 30 25 && zero w 22 21 && zero w 16 5); pure (.accst (xRegion w) (bit w 4))
  | 0x05 => do xField w (zero w 30 25 && zero w 22 21 && zero w 16 5); pure (.qstore (xRegion w) (bit w 4))
  | 0x06 => do xField w (zero w 36 25 && zero w 22 4); pure (.mdrain (xShape w) (xAcc w) (fld w 2 2) (fld w 0 2))
  | 0x07 => do xField w (zero w 36 0); pure (.mbararv (fld w 37 5))
  | 0x08 => do xField w (zero w 36 0); pure (.mbarwt (fld w 37 5))
  | 0x09 => do xField w (zero w 29 24 && bit w 23); pure (.mloop (fld w 30 12) (off24 w))
  | 0x0A => do xField w (zero w 41 24); pure (.mjmp (off24 w))
  | 0x0B => do xField w (zero w 41 0); pure .mend
  | 0x0C => do
    needField w (vOk w true true false [] [vA w, vB w, vC w]); needTy w tyApop; needMod w (modNone w)
    pure (.apop (fLA w) (fMS w) (fTY w))
  | _ => .ok (.illegalOpcode w)

/-! ## Group 0xC, the Theodolite -/

def pred (w : Word) (mk : PredArgs → Instr) : Dec Instr := do
  let (a, b) ← v2 w true (needTy w tyAtomF) (vRM w == 0 && zero w 15 14) .addr .raw
  pure (mk { la := fLA w, ms := fMS w, mz := fMZ w, ty := fTY w, sos := bit w 17, nf := bit w 16, a := a, b := b })

def decodeC (w : Word) : Nat → Dec Instr
  | 0x00 => pred w .ori2
  | 0x01 => pred w .ori3
  | 0x02 => pred w .incir
  | 0x03 => pred w .insph
  | 0x04 => pred w .segx
  | 0x05 => do
    needField w (vOk w false true false [] [vA w, vB w, vC w]); needTy w tyRaw; needMod w (modNone w)
    pure (.gpclr (fMS w))
  | _ => .ok (.illegalOpcode w)

/-! ## The decoder (R169 to R171) -/

def opGroup (w : Word) : Nat := (fld w 60 4).toNat
def opIndex (w : Word) : Nat := (fld w 54 6).toNat

/-- A word that only one agent executes: group 0xB but for APOP (R170). -/
def streamWord (w : Word) : Bool := opGroup w == 11 && opIndex w != 12

/-- The instruction that a word is to a warp (stream false) or to the matrix stream (stream true), or the trap of R171 that
it raises. A word in an unassigned cell is the instruction illegalOpcode, which raises ILLEGAL_OPCODE (R170). -/
def decode (stream : Bool) (w : Word) : Dec Instr :=
  if unassigned w then .ok (.illegalOpcode w)
  else if stream && !streamWord w then .error (0x006, w)
  else if !stream && streamWord w then .error (0x005, w)
  else
    let i := opIndex w
    match opGroup w with
    | 0 => decode0 w i
    | 1 => decode1 w i
    | 2 => decode2 w i
    | 3 => decode3 w i
    | 4 => decode4 w i
    | 5 => decode5 w i
    | 6 => decode6 w i
    | 7 => decode7 w i
    | 8 => decode8 w i
    | 9 => decode9 w i
    | 10 => decodeA w i
    | 11 => decodeB w i
    | 12 => decodeC w i
    | 13 => decodeD w i
    | _ => .ok (.illegalOpcode w)

/-- The bytes of one instruction, lowest address first (R151), to its word; a list of another length has none. -/
def wordOfBytes (bs : List Byte) : Option Word := if bs.length = 8 then some (BitVec.ofNat 64 (ofBytes bs)) else none

/-- What the decoder reads from a table word: a word only the matrix stream executes is read as the stream reads it. -/
def decodeTableWord (nbits w : Nat) : Option Instr :=
  if 64 < nbits then none
  else
    match decode (streamWord (BitVec.ofNat 64 w)) (BitVec.ofNat 64 w) with
    | .ok i => some i
    | .error _ => none

/-! ## The encoder, from the same tables -/

/-- The common head: OPC, LA, MS, TY, MZ in 22 bits (Table 07-4). -/
def eHead (opc : BitVec 10) (la : BitVec 4) (ms : BitVec 3) (ty : Ty) (mz : Bool) : BitVec 22 :=
  opc ++ la ++ ms ++ tyCode ty ++ BitVec.ofBool mz

/-- An operand field (Table 03-6). -/
def srcField : Src → BitVec 7
  | .age n => 0#2 ++ n
  | .frame n => 1#2 ++ n
  | .scalar n => 2#2 ++ n
  | .zero => 0x60 | .one => 0x61 | .laneNum => 0x62 | .warpNum => 0x63 | .tileLane => 0x64 | .tileId => 0x65
  | .imm _ => 0x70

def rmBits : Rm → BitVec 3
  | .rne => 0 | .rtz => 1 | .rdn => 2 | .rup => 3 | .sr => 4

def condBits : Cond → BitVec 4
  | .al => 0 | .eq => 1 | .ne => 2 | .lt => 3 | .ge => 4 | .le => 5 | .gt => 6 | .ult => 7 | .uge => 8 | .ule => 9
  | .ugt => 10 | .neg => 11 | .nneg => 12 | .ovf => 13 | .novf => 14

def cmpBits : Cmp → BitVec 4
  | .eq => 0 | .ne => 1 | .lt => 2 | .le => 3 | .gt => 4 | .ge => 5 | .un => 6 | .ord => 7

def scopeBits : Scope → BitVec 3
  | .wp => 0 | .bk => 1 | .gg => 2 | .die => 3 | .pkg => 4 | .sys => 5

def ordBits : Ord → BitVec 2
  | .plain => 0 | .acq => 1 | .rel => 2 | .acqrel => 3

def fenceBits : FenceKind → BitVec 2
  | .xp => 0 | .acq => 1 | .rel => 2 | .full => 3

def cpBits : Cp → BitVec 2
  | .dflt => 0 | .str => 1 | .nc => 2

def atomBits : AtomOp → BitVec 5
  | .add => 0 | .min => 1 | .max => 2 | .and => 3 | .or => 4 | .xor => 5 | .exch => 6

def redBits : RedOp → BitVec 3
  | .add => 0 | .min => 1 | .max => 2 | .and => 3 | .or => 4 | .xor => 5

def shflBits : ShflOp → BitVec 4
  | .idx => 0 | .up => 1 | .down => 2 | .xor => 3

def voteBits : VoteOp → BitVec 7
  | .conj => 0 | .disj => 1 | .same => 2 | .each => 3 | .odd => 4

def matchBits : MatchOp → BitVec 7
  | .dup => 0 | .same => 1 | .lead => 2

def cctlBits : CctlOp → BitVec 5
  | .inv => 0 | .invall => 1 | .clean => 2

def spaceBits : SluiceSpace → BitVec 2
  | .global => 0 | .scratch => 1 | .bplane => 2 | .remote => 3

def bankBits : BankMode → BitVec 2
  | .off => 0 | .cache => 1 | .scratch => 2 | .fifo => 3

def specialBits : SpecialReg → BitVec 7
  | .mode => 0 | .fflags => 1 | .tile => 2 | .cnt => 3 | .stakepc => 4 | .stakerec => 5 | .seal => 6 | .divdepth => 7
  | .calldepth => 8 | .rngctr => 9 | .gpstat => 10 | .gtime => 11 | .wp j => 1#3 ++ j
  | .lanenum => 0x62 | .warpnum => 0x63 | .tilelane => 0x64 | .tileid => 0x65

def writableBits : WritableReg → BitVec 7
  | .mode => 0 | .fflags => 1 | .rngctr => 9

/-- Bits of the negation fields: SAT or SOS, NA or NF, NB, NC from bit 17 down. -/
def bits4 (a b c d : Bool) : BitVec 4 := BitVec.ofBool a ++ BitVec.ofBool b ++ BitVec.ofBool c ++ BitVec.ofBool d

/-- Format V and G: A, B, C, RM, OP, IMM14 (Table 07-6). -/
def eV (opc : BitVec 10) (la : BitVec 4) (ms : BitVec 3) (ty : Ty) (mz : Bool) (a b c : BitVec 7) (rm : BitVec 3) (op : BitVec 4)
    (imm : BitVec 14) : Word := eHead opc la ms ty mz ++ (a ++ b ++ c ++ rm ++ op ++ imm)

/-- A format V instruction with operands that name sources. -/
def eVs (opc : BitVec 10) (la : BitVec 4) (ms : BitVec 3) (ty : Ty) (mz : Bool) (xs : List Src) (rm : BitVec 3) (op : BitVec 4) :
    Word :=
  let f (n : Nat) : BitVec 7 := (xs.map srcField).getD n 0
  eV opc la ms ty mz (f 0) (f 1) (f 2) rm op (immBits (xs.map fun x => (x, Ty.raw)))

/-- Format I: imm32 (Table 07-6). -/
def eI (opc : BitVec 10) (ms : BitVec 3) (ty : Ty) (mz : Bool) (imm : BitVec 32) : Word :=
  eHead opc 0 ms ty mz ++ (imm ++ 0#10)

/-- Format S: SD, SA, SB or imm16, CCW (Table 07-6). -/
def eS (opc : BitVec 10) (ty : Ty) (sd sa : BitVec 5) (b : SOp2) (ccw : BitVec 4) : Word :=
  match b with
  | .reg n => eHead opc 0 0 ty false ++ (sd ++ sa ++ n ++ 0#1 ++ 0#16 ++ ccw ++ 0#6)
  | .imm v => eHead opc 0 0 ty false ++ (sd ++ sa ++ 0#5 ++ 1#1 ++ v ++ ccw ++ 0#6)

def eS2 (opc : BitVec 10) (x : SArgs) : Word := eS opc x.ty x.sd x.sa x.b x.ccw

/-- Format M: ADDR, DATA, SCOPE, ORD, CP, BND, OFF16 (Table 07-6). -/
def eM (opc : BitVec 10) (m : MArgs) (data : BitVec 7) (scope : BitVec 3) (ord cp : BitVec 2) (bnd : BitVec 5) : Word :=
  eHead opc m.la m.ms m.ty m.mz ++ (srcField m.addr ++ data ++ scope ++ ord ++ cp ++ bnd ++ m.off)

/-- Format B: COND, AUX, offset (Table 07-6). -/
def eB (opc : BitVec 10) (ms : BitVec 3) (cond : BitVec 4) (aux : BitVec 6) (off : BitVec 24) : Word :=
  eHead opc 0 ms .raw false ++ (cond ++ aux ++ 0#8 ++ off)

/-- Format J of JOIN and QPERM (Table 07-6). -/
def eJ (opc : BitVec 10) (id c : BitVec 6) (pi : BitVec 24) : Word := eHead opc 0 0 .raw false ++ (id ++ c ++ pi ++ 0#6)

/-- Format E: SX, SY, BAR, WP, KIND, imm16 (Table 07-6). -/
def eE (opc : BitVec 10) (la : BitVec 4) (sx sy : BitVec 5) (bar wp : BitVec 4) (kind : BitVec 8) (imm : BitVec 16) : Word :=
  eHead opc la 0 .raw false ++ (sx ++ sy ++ bar ++ wp ++ kind ++ imm)

/-- An E instruction that names a barrier: BAR and BARHI (R161). -/
def eBarrier (opc : BitVec 10) (sx sy id : BitVec 5) (n : BitVec 8) : Word :=
  eE opc 0 sx sy (fld id 0 4) 0 0 (fld id 4 1 ++ 0#7 ++ n)

/-- A Sluice issue: KIND and imm16 of R161. -/
def eSluice (opc : BitVec 10) (j : SluiceArgs) (src dst : BitVec 2) (esz : BitVec 2) (ix td : Bool) (desc : BitVec 6) : Word :=
  let bar := j.bar.getD 0
  eE opc j.la j.sx j.sy (fld bar 0 4) (j.wp.getD 0)
    (src ++ dst ++ BitVec.ofBool j.bar.isNone ++ BitVec.ofBool j.wp.isNone ++ esz)
    (fld bar 4 1 ++ BitVec.ofBool ix ++ BitVec.ofBool td ++ desc ++ j.port ++ 0#3)

/-- Format X: shape, ADESC, BDESC, ACC, AM, AF, BF, hints (Table 07-6). -/
def eX (opc : BitVec 10) (shape : BitVec 5) (a b : BitVec 6) (acc am : BitVec 2) (af bf : BitVec 4) (hints : BitVec 13) : Word :=
  eHead opc 0 0 .raw false ++ (shape ++ a ++ b ++ acc ++ am ++ af ++ bf ++ hints)

def eMma (opc : BitVec 10) (x : MmaArgs) : Word :=
  eX opc x.shape x.adesc x.bdesc x.acc (if x.overwrite then 1 else 0) x.af x.bf 0

def eRegion (opc : BitVec 10) (x : RegionArgs) (flag : Bool) : Word :=
  eX opc x.shape x.desc 0 x.acc 0 x.af 0 (0#8 ++ BitVec.ofBool flag ++ x.row ++ x.col)

def ePred (opc : BitVec 10) (p : PredArgs) : Word := eVs opc p.la p.ms p.ty p.mz [p.a, p.b] 0 (bits4 p.sos p.nf false false)

/-- A format V instruction with head h and sources xs. -/
def eVh (opc : BitVec 10) (la : BitVec 4) (h : VHead) (xs : List Src) (rm : BitVec 3) (op : BitVec 4) : Word :=
  eVs opc la h.ms h.ty h.mz xs rm op

/-- The word of a well-formed instruction; an event has none. -/
def encode : Instr → Option Word
  | .nop => some 0
  | .bra off => eB 0x001 0 0 0 off
  | .brc c off => eB 0x002 0 (condBits c) 0 off
  | .brz ms off => eB 0x003 ms 0 0 off
  | .brnz ms off => eB 0x004 ms 0 0 off
  | .brd ms id off => eB 0x005 ms 0 id off
  | .join id c pi => eJ 0x006 id c pi
  | .call n m off => eHead 0x007 0 0 .raw false ++ (n ++ m ++ 0#8 ++ off)
  | .calli n m k => eHead 0x008 0 0 .raw false ++ (n ++ m ++ k ++ 0#27)
  | .ret => eI 0x009 0 .raw false 0
  | .loop k off => eB 0x00A 0 0 (k ++ 0#1) off
  | .exit => eI 0x00B 0 .raw false 0
  | .stake k => eHead 0x00C 0 0 .raw false ++ (k ++ 0#30)
  | .yield n => eI 0x00D 0 .raw false (0#22 ++ n)
  | .svc n => eI 0x00E 0 .raw false (0#27 ++ n)
  | .bkpt k => eI 0x00F 0 .raw false (0#27 ++ k)
  | .launch sy sx => eE 0x010 0 sx sy 0 0 0 0
  | .waitdep => eI 0x011 0 .raw false 0
  | .trig => eI 0x012 0 .raw false 0
  | .eret => eI 0x013 0 .raw false 0
  | .eretM ms => eI 0x013 ms .raw false 0
  | .abort => eI 0x014 0 .raw false 0
  | .save ms a d => eV 0x040 0 ms .raw false (srcField a) 0 (1#2 ++ d) 0 0 (immBits [(a, .raw)])
  | .dup ms mz a => eVs 0x041 0 ms .raw mz [a] 0 0
  | .pushi h v => eI 0x042 h.ms h.ty h.mz v
  | .qperm pi => eJ 0x043 0 0 pi
  | .settag h a => eVh 0x044 0 h [a] 0 0
  | .tile k => eI 0x045 0 .raw false (0#29 ++ k)
  | .setmode v we => eI 0x046 0 .raw false (0#8 ++ we ++ 0#8 ++ v)
  | .lane2s ms a b k => eV 0x047 0 ms .raw false (srcField a) (srcField b) (2#2 ++ k) 0 0 (immBits [(a, .raw), (b, .n32)])
  | .rdsr ms mz r => eV 0x048 0 ms .raw mz 0 (specialBits r) 0 0 0 0
  | .wrsr ms a r => eV 0x049 0 ms .raw false (srcField a) (writableBits r) 0 0 0 (immBits [(a, .n64)])
  | .sadd x => eS2 0x080 x
  | .ssub x => eS2 0x081 x
  | .smul x => eS2 0x082 x
  | .smulh x => eS2 0x083 x
  | .sand x => eS2 0x084 x
  | .sor x => eS2 0x085 x
  | .sxor x => eS2 0x086 x
  | .sshl x => eS2 0x087 x
  | .sshr x => eS2 0x088 x
  | .ssar x => eS2 0x089 x
  | .smin x => eS2 0x08A x
  | .smax x => eS2 0x08B x
  | .scmp ty sa b ccw => eS 0x08C ty 0 sa b ccw
  | .smov ty sd sa ccw => eS 0x08D ty sd sa (.reg 0) ccw
  | .smovi ty sd sa v ccw => eS 0x08E ty sd sa (.imm v) ccw
  | .ssel c ty sd sa b => eS 0x08F ty sd sa b (condBits c)
  | .sclz ty sd sa ccw => eS 0x090 ty sd sa (.reg 0) ccw
  | .spopc ty sd sa ccw => eS 0x091 ty sd sa (.reg 0) ccw
  | .sbfe x => eS2 0x092 x
  | .sld ty sd sa off => eS 0x093 ty sd sa (.imm off) 0
  | .sst ty sd sa off => eS 0x094 ty sd sa (.imm off) 0
  | .iadd h sat a b => eVh 0x0C0 0 h [a, b] 0 (bits4 sat false false false)
  | .isub h sat a b => eVh 0x0C1 0 h [a, b] 0 (bits4 sat false false false)
  | .imul h sat a b => eVh 0x0C2 0 h [a, b] 0 (bits4 sat false false false)
  | .imulh h a b => eVh 0x0C3 0 h [a, b] 0 0
  | .imad h sat a b c => eVh 0x0C4 0 h [a, b, c] 0 (bits4 sat false false false)
  | .ineg h sat a => eVh 0x0C5 0 h [a] 0 (bits4 sat false false false)
  | .iabs h sat a => eVh 0x0C6 0 h [a] 0 (bits4 sat false false false)
  | .imin h a b => eVh 0x0C7 0 h [a, b] 0 0
  | .imax h a b => eVh 0x0C8 0 h [a, b] 0 0
  | .and h a b => eVh 0x0C9 0 h [a, b] 0 0
  | .or h a b => eVh 0x0CA 0 h [a, b] 0 0
  | .xor h a b => eVh 0x0CB 0 h [a, b] 0 0
  | .not h a => eVh 0x0CC 0 h [a] 0 0
  | .shl h sat a b => eVh 0x0CD 0 h [a, b] 0 (bits4 sat false false false)
  | .shr h a b => eVh 0x0CE 0 h [a, b] 0 0
  | .sar h a b => eVh 0x0CF 0 h [a, b] 0 0
  | .rotl h a b => eVh 0x0D0 0 h [a, b] 0 0
  | .bfe h a b => eVh 0x0D1 0 h [a, b] 0 0
  | .bfi h a b c => eVh 0x0D2 0 h [a, b, c] 0 0
  | .popc h a => eVh 0x0D3 0 h [a] 0 0
  | .clz h a => eVh 0x0D4 0 h [a] 0 0
  | .brev h a => eVh 0x0D5 0 h [a] 0 0
  | .icmp h cc a b => eVh 0x0D6 0 h [a, b] 0 (cmpBits cc)
  | .sel h a b c => eVh 0x0D7 0 h [a, b, c] 0 0
  | .lea ms mz a b c => eVs 0x0D8 0 ms .addr mz [a, b, c] 0 0
  | .fadd h rm na nb a b => eVh 0x100 0 h [a, b] (rmBits rm) (bits4 false na nb false)
  | .fsub h rm na nb a b => eVh 0x101 0 h [a, b] (rmBits rm) (bits4 false na nb false)
  | .fmul h rm na nb a b => eVh 0x102 0 h [a, b] (rmBits rm) (bits4 false na nb false)
  | .ffma h rm na nb nc a b c => eVh 0x103 0 h [a, b, c] (rmBits rm) (bits4 false na nb nc)
  | .fmin h na nb a b => eVh 0x104 0 h [a, b] 0 (bits4 false na nb false)
  | .fmax h na nb a b => eVh 0x105 0 h [a, b] 0 (bits4 false na nb false)
  | .fabs h a => eVh 0x106 0 h [a] 0 0
  | .fcmp h cc a b => eVh 0x107 0 h [a, b] 0 (cmpBits cc)
  | .fclass h a => eVh 0x108 0 h [a] 0 0
  | .frnd h rm na a => eVh 0x109 0 h [a] (rmBits rm) (bits4 false na false false)
  | .fscale h rm na a b => eVh 0x10A 0 h [a, b] (rmBits rm) (bits4 false na false false)
  | .fdiv la h rm na nb a b => eVh 0x10B la h [a, b] (rmBits rm) (bits4 false na nb false)
  | .fsqrt la h rm na a => eVh 0x10C la h [a] (rmBits rm) (bits4 false na false false)
  | .cvt h rm d a => eVh 0x140 0 h [a] (rmBits rm) (tyCode d)
  | .cvtsr h d a b => eVh 0x141 0 h [a, b] 4 (tyCode d)
  | .frcp la h a => eVh 0x142 la h [a] 0 0
  | .frsq la h a => eVh 0x143 la h [a] 0 0
  | .fexp2 la h a => eVh 0x144 la h [a] 0 0
  | .flog2 la h a => eVh 0x145 la h [a] 0 0
  | .fsin la h a => eVh 0x146 la h [a] 0 0
  | .fcos la h a => eVh 0x147 la h [a] 0 0
  | .ftanh la h a => eVh 0x148 la h [a] 0 0
  | .rng h k => eV 0x149 0 h.ms h.ty h.mz (2#2 ++ k) 0 0 0 0 0
  | .bsinit ms a b n => eV 0x14A 0 ms .raw false (srcField a) (srcField b) (1#2 ++ n) 0 0 (immBits [(a, .raw), (b, .n32)])
  | .bsrd ms mz n b c => eV 0x14B 0 ms .n32 mz (1#2 ++ n) (srcField b) (srcField c) 0 0 (immBits [(b, .n32), (c, .raw)])
  | .shfl la h op a b => eVh 0x180 la h [a, b] 0 (shflBits op)
  | .vote ms op a c => eV 0x181 0 ms .bool false (srcField a) (voteBits op) (0#4 ++ c) 0 0 (immBits [(a, .bool)])
  | .redux la h op rm a => eVh 0x182 la h [a] (rmBits rm) (0#1 ++ redBits op)
  | .scan la h ex op rm a => eVh 0x183 la h [a] (rmBits rm) (BitVec.ofBool ex ++ redBits op)
  | .matchLanes ms ty op a c => eV 0x184 0 ms ty false (srcField a) (matchBits op) (0#4 ++ c) 0 0 (immBits [(a, ty)])
  | .mset ms a c => eV 0x185 0 ms .raw false (srcField a) 0 (0#4 ++ c) 0 0 (immBits [(a, .bool)])
  | .mand a b c => eV 0x186 0 0 .raw false (0#4 ++ a) (0#4 ++ b) (0#4 ++ c) 0 0 0
  | .mor a b c => eV 0x187 0 0 .raw false (0#4 ++ a) (0#4 ++ b) (0#4 ++ c) 0 0 0
  | .mxor a b c => eV 0x188 0 0 .raw false (0#4 ++ a) (0#4 ++ b) (0#4 ++ c) 0 0 0
  | .mnot a c => eV 0x189 0 0 .raw false (0#4 ++ a) 0 (0#4 ++ c) 0 0 0
  | .mpopc a k => eV 0x18A 0 0 .raw false (0#4 ++ a) 0 (2#2 ++ k) 0 0 0
  | .mfirst a k => eV 0x18B 0 0 .raw false (0#4 ++ a) 0 (2#2 ++ k) 0 0 0
  | .mfroms k c => eV 0x18C 0 0 .raw false (2#2 ++ k) 0 (0#4 ++ c) 0 0 0
  | .mtos a k => eV 0x18D 0 0 .raw false (0#4 ++ a) 0 (2#2 ++ k) 0 0 0
  | .ld m cp => eM 0x1C0 m 0 0 0 (cpBits cp) 0
  | .ld2 m cp => eM 0x1C1 m 0 0 0 (cpBits cp) 0
  | .st m d cp => eM 0x1C2 m (srcField d) 0 0 (cpBits cp) 0
  | .st2 m d cp => eM 0x1C3 m (srcField d) 0 0 (cpBits cp) 0
  | .lds m cp => eM 0x1C4 m 0 0 0 (cpBits cp) 0
  | .sts m d cp => eM 0x1C5 m (srcField d) 0 0 (cpBits cp) 0
  | .ldb m k stale => eM 0x1C6 m 0 0 0 (if stale then 1 else 0) k
  | .lda m sc cp => eM 0x1C7 m 0 (scopeBits sc) 1 (cpBits cp) 0
  | .stl m d sc cp => eM 0x1C8 m (srcField d) (scopeBits sc) 2 (cpBits cp) 0
  | .pref m cp => eM 0x1C9 m 0 0 0 (cpBits cp) 0
  | .cctl m op => eM 0x1CA m 0 0 0 0 (cctlBits op)
  | .atom m d sc o op => eM 0x200 m (srcField d) (scopeBits sc) (ordBits o) 0 (atomBits op)
  | .atomc m d sc o c => eM 0x201 m (srcField d) (scopeBits sc) (ordBits o) 0 c
  | .atomf m d sc o op => eM 0x202 m (srcField d) (scopeBits sc) (ordBits o) 0 (atomBits op)
  | .red m d sc o op => eM 0x203 m (srcField d) (scopeBits sc) (ordBits o) 0 (atomBits op)
  | .atoms m d sc o op => eM 0x204 m (srcField d) (scopeBits sc) (ordBits o) 0 (atomBits op)
  | .atomsc m d sc o c => eM 0x205 m (srcField d) (scopeBits sc) (ordBits o) 0 c
  | .radv m sc => eM 0x206 m 0 (scopeBits sc) 0 0 0
  | .rdround m => eM 0x207 m 0 0 0 0 0
  | .fence k sc ms => eHead 0x240 0 ms .raw false ++ (0#14 ++ scopeBits sc ++ fenceBits k ++ 0#23)
  | .barinit id sx sy => eBarrier 0x241 sx sy id 0
  | .bararv id n => eBarrier 0x242 0 0 id n
  | .barwt id sx => eBarrier 0x243 sx 0 id 0
  | .barexp id sy => eBarrier 0x244 0 sy id 0
  | .fqput ms ty a k => eV 0x245 0 ms ty false (srcField a) 0 (0#4 ++ k) 0 0 (immBits [(a, ty)])
  | .fqget h k => eV 0x246 0 h.ms h.ty h.mz 0 0 (0#4 ++ k) 0 0 0
  | .bankcfg b m => eE 0x247 0 0 0 0 0 0 (0#6 ++ bankBits m ++ b)
  | .scopy j s d => eSluice 0x280 j (spaceBits s) (spaceBits d) 0 false false 0
  | .scopy2 j s d => eSluice 0x281 j (spaceBits s) (spaceBits d) 0 false false 0
  | .stcopy j td o k =>
    if td then eSluice 0x282 j (spaceBits o) 0 0 false true k else eSluice 0x282 j 0 (spaceBits o) 0 false false k
  | .sgath j s d e ix => eSluice 0x283 j (spaceBits s) (spaceBits d) e ix false 0
  | .sscat j s d e ix => eSluice 0x284 j (spaceBits s) (spaceBits d) e ix false 0
  | .sfill j d e => eSluice 0x285 j 0 (spaceBits d) e false false 0
  | .swait wp sx => eE 0x286 0 sx 0 0 wp 0 0
  | .squery sy sx => eE 0x287 0 sx sy 0 0 0 0
  | .tdset k w sx => eE 0x288 0 sx 0 0 0 0 (0#6 ++ w ++ k)
  | .tdget sy k w => eE 0x289 0 0 sy 0 0 0 (0#6 ++ w ++ k)
  | .tdinv k => eE 0x28A 0 0 0 0 0 0 (0#10 ++ k)
  | .invpg ms a off => eHead 0x340 0 ms .raw false ++ (srcField a ++ 0#19 ++ off)
  | .invall ms => eHead 0x341 0 ms .raw false ++ 0#42
  | .pmrd sd (.imm n) => eS 0x342 .raw sd 0 (.imm n) 0
  | .pmrd sd (.reg sa) => eS 0x342 .raw sd sa (.reg 0) 0
  | .pmcfg sa n => eS 0x343 .raw 0 sa (.imm n) 0
  | .trace sa t => eS 0x344 .raw 0 sa (.imm t) 0
  | .mma x => eMma 0x2C0 x
  | .mmaq x => eMma 0x2C1 x
  | .accz acc => eX 0x2C2 0 0 0 acc 0 0 0 0
  | .accld x => eRegion 0x2C3 x false
  | .accst x f => eRegion 0x2C4 x f
  | .qstore x ad => eRegion 0x2C5 x ad
  | .mdrain sh acc row col => eX 0x2C6 sh 0 0 acc 0 0 0 (0#9 ++ row ++ col)
  | .mbararv id => eHead 0x2C7 0 0 .raw false ++ (id ++ 0#37)
  | .mbarwt id => eHead 0x2C8 0 0 .raw false ++ (id ++ 0#37)
  | .mloop n off => eHead 0x2C9 0 0 .raw false ++ (n ++ 0#6 ++ off)
  | .mjmp off => eHead 0x2CA 0 0 .raw false ++ (0#18 ++ off)
  | .mend => eHead 0x2CB 0 0 .raw false ++ 0#42
  | .apop la ms ty => eV 0x2CC la ms ty false 0 0 0 0 0 0
  | .ori2 p => ePred 0x300 p
  | .ori3 p => ePred 0x301 p
  | .incir p => ePred 0x302 p
  | .insph p => ePred 0x303 p
  | .segx p => ePred 0x304 p
  | .gpclr ms => eV 0x305 0 ms .raw false 0 0 0 0 0 0
  | .illegalOpcode w => some w
  | _ => none

end Sys2Proof
end

