-- ==== Sys2Proof/Machine/State.lean ====
section
/-! DEFINITION. The state of an LK-T9 module as plain data, its faults and refusals, and the state right after reset.
Field comments name the rules of spec/ that give the field. -/

namespace Sys2Proof.Machine

/-- Faults of the model: none is raised by a warp or stream instruction, whose traps are next states. -/
inductive Fault where
  /-- Raised by registerWrite and pfBar2Write: the offset lies outside the BAR (Table 18-2). Safe: no register is there. -/
  | outsideWindow (offset : Nat)
  deriving DecidableEq, Repr

/-- Refusals of the model. -/
inductive Refusal where
  /-- Raised by an arm of exec whose instruction has no meaning yet. Safe: nothing is claimed of it. -/
  | notModelled (mnemonic : String)
  deriving DecidableEq, Repr

/-- Memory as listed bytes (Host.Cell): addresses strictly rising, no byte equal to what an unlisted address reads as. -/
abbrev Memory := List Host.Cell

/-! ## Lanes, slots and warps (02, 03, 08) -/

/-- One queue entry or frame slot: value bits, tag, and the result it waits for with its place among that result's pushes
(R49, R52, R55). -/
structure Entry where
  val : Word
  tag : Ty
  pend : Option (Nat × Nat)
  deriving DecidableEq, Repr, Inhabited

/-- The poison entry of a fresh queue or frame (R57, R69). -/
def Entry.poison : Entry := { val := 0, tag := .poison, pend := none }

/-- One lane: queue with age 1 first, frame, random-number counter (R49, R58, R218). -/
structure Lane where
  queue : List Entry
  frame : List Entry
  rngctr : Word
  deriving DecidableEq, Repr, Inhabited

/-- An open lookahead window (R166): result awaited, age at which its newest entry stands, entries pushed, instructions left. -/
structure Window where
  rid : Nat
  age : Nat
  width : Nat
  left : Nat
  deriving DecidableEq, Repr, Inhabited

/-- What a pending result comes from (Table 22-1 codes 0x0B to 0x0D). -/
inductive PendKind where
  | memory | theodolite | other
  deriving DecidableEq, Repr, Inhabited

/-- What a slot in WAIT waits for (R26), and why a slot is not eligible (R31). -/
inductive WaitReason where
  | pending (k : PendKind)
  | drain | barwt | swait | fifoFull | fifoEmpty | apopEmpty | waitdep | bankcfg
  | jobLimit | guard | qos | footprint | fence | spill | home
  deriving DecidableEq, Repr, Inhabited

/-- States of a PC slot (Table 02-2). HANDLER is a slot whose handler context is present. -/
inductive SlotState where
  | free | run
  | wait (r : WaitReason)
  | joinwait (id c : BitVec 6) (pi : BitVec 24)
  | yielded
  deriving DecidableEq, Repr, Inhabited

/-- The context of a running trap handler (R39, R40): set-aside queues of the 32 lanes, CNT, cause, aux, and PC. -/
structure Handler where
  queues : List (List Entry)
  cnt : BitVec 16
  cause : BitVec 10
  aux : Word
  pc : Word
  deriving DecidableEq, Repr, Inhabited

/-- A page fault being served (R36, R379): cause, faulting address, record written. -/
structure YieldRec where
  cause : BitVec 10
  va : Word
  deriving DecidableEq, Repr, Inhabited

/-- A PC slot (R25, R26, R32, R40, R166, R185). -/
structure Slot where
  pc : Word
  mask : LaneMask
  cnt : BitVec 16
  st : SlotState
  windows : List Window
  handler : Option Handler
  suppress : LaneMask
  yielding : Bool
  passed : Nat
  aged : Option Nat
  yieldRec : Option YieldRec
  deriving DecidableEq, Repr, Inhabited

def Slot.empty : Slot :=
  { pc := 0, mask := 0, cnt := 0, st := .free, windows := [], handler := none, suppress := 0, yielding := false, passed := 0,
    aged := none, yieldRec := none }

/-- STATE of a divergence record (Table 02-3). -/
inductive DivState where
  | both | parked | arrived | exited
  deriving DecidableEq, Repr, Inhabited

/-- A divergence record (Table 02-3). The model's own: the owner, the slot that runs the path that is not parked, and the windows
of the parked path (R316). -/
structure DivRec where
  pc : Word
  jid : BitVec 6
  st : DivState
  tslot : PcSlot
  ptaken : Bool
  mask : LaneMask
  base : BitVec 16
  count : BitVec 16
  owner : PcSlot
  windows : List Window
  deriving DecidableEq, Repr, Inhabited

/-- A suspended activation (Table 03-8) with the divergence depth at which the callee's activation begins (R64), and whether
it was written to the call stack (R66). -/
structure Activation where
  rpc : Word
  nres : BitVec 5
  callerF : Nat
  mask : LaneMask
  cnt : BitVec 16
  dbase : Nat
  base : Nat
  queues : List (List Entry)
  frames : List (List Entry)
  spilled : Bool
  deriving DecidableEq, Repr, Inhabited

/-- The stake record (R184). -/
structure Stake where
  pc : Word
  recipe : Option (BitVec 12)
  slot : PcSlot
  mask : LaneMask
  cnt : BitVec 16
  divdepth : Nat
  calldepth : Nat
  deriving DecidableEq, Repr, Inhabited

/-- A result that has issued and has not arrived (R52): its values per push and lane, whether they are known yet, and the
lanes still in the Theodolite's stages with the stage counts to add (R277, R282), and the sticky flags to set when it
completes (R175), requests that a token bucket holds (R389), lanes that wait for pushed data: lane, address, bytes, type
(R139, R234) or, with 0 bytes, for the round of a RADV (R137), and lanes that load from host memory (R385). -/
structure PendRes where
  rid : Nat
  slot : PcSlot
  mask : LaneMask
  vals : List (List Entry)
  ready : Bool
  kind : PendKind
  lanesLeft : List (Nat × Nat)
  stage1 : Nat
  stage2 : Nat
  fflags : BitVec 5
  holds : Nat
  lineWaits : List (Nat × Nat × Nat × Ty)
  host : LaneMask
  deriving DecidableEq, Repr, Inhabited

/-- A recipe being run in the stake's slot (R319): words already run, and the recipe's number. -/
structure RecipeRun where
  recipe : BitVec 12
  pos : Nat
  deriving DecidableEq, Repr, Inhabited

/-- A resident warp (R25, R49 to R67, R173 to R184, R404). -/
structure Warp where
  uid : Nat
  block : Nat
  num : Nat
  quadrant : Nat
  index : Nat
  ident : BitVec 32
  prio : Nat
  depth : Nat
  lanes : List Lane
  scalars : List Word
  masks : List LaneMask
  flagZ : Bool
  flagN : Bool
  flagC : Bool
  flagV : Bool
  mode : BitVec 9
  fflags : BitVec 5
  tile : Nat
  div : List DivRec
  acts : List Activation
  stake : Stake
  sealed : Bool
  gpstat : BitVec 32
  slotA : Slot
  slotB : Slot
  pend : List PendRes
  ridNext : Nat
  stackSlot : Option Nat
  recipe : Option RecipeRun
  saved : Bool
  deriving DecidableEq, Repr, Inhabited

def Stake.empty : Stake :=
  { pc := 0, recipe := none, slot := .a, mask := 0, cnt := 0, divdepth := 0, calldepth := 0 }

def Warp.empty : Warp :=
  { uid := 0, block := 0, num := 0, quadrant := 0, index := 0, ident := 0, prio := 1, depth := 8
    lanes := List.replicate 32 { queue := List.replicate 8 .poison, frame := [], rngctr := 0 }
    scalars := List.replicate 32 0, masks := List.replicate 8 0
    flagZ := false, flagN := false, flagC := false, flagV := false, mode := 0, fflags := 0, tile := 32, div := [], acts := []
    stake := .empty, sealed := false, gpstat := 0, slotA := .empty, slotB := .empty, pend := [], ridNext := 0, stackSlot := none
    recipe := none, saved := false }

/-! ## Kernels and launches (16, 08 R187 to R190) -/

/-- A registered kernel: the header of Table 16-1 with its tables (R302 to R312). Offsets are bytes. -/
structure Kernel where
  vf : Nat
  handle : Word
  obj : Word
  stepping : BitVec 16
  depth : Nat
  frame : Nat
  preload : BitVec 9
  warps : Nat
  prio : Nat
  gang : Nat
  mode : BitVec 8
  strict : Bool
  idemp : Bool
  window : Nat
  bplane : Nat
  ndiv : Nat
  ntiles : Nat
  callstk : Nat
  scrlen : Nat
  matrix : Option Nat
  handler : Option Nat
  barmask : BitVec 32
  fifomask : BitVec 8
  bankmap : List BankMode
  baraddr : List Word
  fiforun : List (Nat × Nat)
  codeOff : Nat
  codeLen : Nat
  recipes : List (Nat × Nat)
  functions : List (Nat × Nat)
  dataOff : Nat
  dataLen : Nat
  hash : List Byte
  stkBase : Word
  stkSlots : Nat
  live : Bool
  deriving DecidableEq, Repr, Inhabited

def Kernel.empty : Kernel :=
  { vf := 0, handle := 0, obj := 0, stepping := 0x00A1, depth := 8, frame := 0, preload := 0, warps := 1, prio := 1, gang := 1, mode := 0
    strict := true, idemp := false, window := 0, bplane := 0, ndiv := 2, ntiles := 0, callstk := 0, scrlen := 0, matrix := none
    handler := none, barmask := 0, fifomask := 0, bankmap := [], baraddr := [], fiforun := [], codeOff := 0, codeLen := 0
    recipes := [], functions := [], dataOff := 0, dataLen := 0, hash := [], stkBase := 0, stkSlots := 0, live := false }

/-- A launch (Table 08-4, R34, R188, R334): record fields, placement progress, triggered blocks, outcome. -/
structure Launch where
  vf : Nat
  id : Nat
  kobj : Word
  args : Word
  gx : Nat
  gy : Nat
  gz : Nat
  gang : Nat
  coop : Bool
  dieMask : BitVec 8
  deps : List Nat
  tag : Word
  nextGang : Nat
  lastDie : Option Nat
  retired : Nat
  triggered : List Nat
  aborted : Bool
  cause : BitVec 10
  aux : Word
  completed : Bool
  relaunch : List Nat
  relaunched : List Nat
  coopTimeUp : Bool
  since : Nat
  deriving DecidableEq, Repr, Inhabited

/-- States of blocks and gangs (Table 02-1). -/
inductive BlockState where
  | queued | placed | running | switched | evicted | draining | retired | aborted
  deriving DecidableEq, Repr, Inhabited

/-- A placed gang (R19 to R24, R37, R387) with its unreported BARRIER_BYTES marks of gang barriers (R113). -/
structure Gang where
  uid : Nat
  vf : Nat
  launch : Nat
  number : Nat
  st : BlockState
  blocks : List Nat
  barMarks : List Nat
  deriving DecidableEq, Repr, Inhabited

/-! ## Blocks: banks, B-plane, Sluice jobs, matrix stream (05, 11) -/

/-- A FIFO of a block: capacity, elements oldest first (R97). -/
structure Fifo where
  id : Nat
  first : Nat
  last : Nat
  cap : Nat
  elems : List Word
  deriving DecidableEq, Repr, Inhabited

/-- An accumulator tile: words of row-major index with +0 unlisted, sticky overflow flag (R86, R252). -/
structure Tile where
  words : List (Nat × BitVec 32)
  flag : Bool
  deriving DecidableEq, Repr, Inhabited

/-- Where a run of bytes inside one 4 KiB page lies. -/
inductive Place where
  | mem (k n : Nat) (attr : BitVec 4)
  | scratch (block byte n : Nat)
  | bplane (a n : Nat)
  | remote (n : Nat)
  deriving DecidableEq, Repr, Inhabited

/-- A run of the delivery sequence: its first position and length, source and destination address; `zero` reads as zero and
`skip` is not written (tile elements beyond the extents). -/
structure Span where
  pos : Nat
  len : Nat
  src : Word
  dst : Word
  zero : Bool
  skip : Bool
  deriving DecidableEq, Repr, Inhabited

/-- A chunk of a job that has been read and has not landed: number, bytes, and the places of its runs, translated when it began
(R104, R114, R378). -/
structure Chunk where
  num : Nat
  bytes : List Byte
  targets : List (Span × List Place)
  deriving DecidableEq, Repr, Inhabited

/-- A Sluice job: the card of Table 05-4 as fields, the descriptor snapshot of a tile copy, chunks begun and landed, and the
order in which its fault was recorded (R102 to R108). -/
structure Job where
  num : Nat
  kind : Nat
  src : Word
  dst : Word
  shapeA : Word
  shapeB : Word
  srcsp : SluiceSpace
  dstsp : SluiceSpace
  bar : Option (BitVec 5)
  wp : Option (BitVec 4)
  esz : BitVec 2
  idxScratch : Bool
  toDesc : Bool
  descNum : BitVec 6
  desc : List Word
  port : BitVec 4
  aux : Word
  len : Nat
  wpBase : Nat
  landedHead : Nat
  paused : Bool
  done : Bool
  faulted : Bool
  cause : BitVec 10
  faultChunk : Nat
  faultOrder : Nat
  reported : Bool
  begun : List Chunk
  landed : List Nat
  member : Nat
  deriving DecidableEq, Repr, Inhabited

/-- One entry of a stream's loop stack (R269). -/
structure LoopEntry where
  at_ : Word
  target : Word
  left : Nat
  deriving DecidableEq, Repr, Inhabited

/-- Why a stream does not step (R254). -/
inductive StreamWait where
  | none | mbarwt | mdrain | edge | jobs
  deriving DecidableEq, Repr, Inhabited

/-- The matrix stream of a block (R252, R258, R259): the descriptors its instruction in progress holds, the loop stack, the
local phase bits, its fault, and the cycle in which it was granted a step last (R254). -/
structure Stream where
  entry : Word
  pc : Word
  step : Nat
  loops : List LoopEntry
  phases : BitVec 32
  began : Bool
  descA : List Word
  descB : List Word
  wait : StreamWait
  turn : Nat
  ended : Bool
  fault : Option (BitVec 10 × Word)
  reported : Bool
  paused : Bool
  deriving DecidableEq, Repr, Inhabited

/-- A cache-way line of a block's L1: package address / 128, bytes (R91). The set, VA bits 11:7, is the same bits of the package
address. The spec names no tag; a line is found by its package address, so that every alias finds it (log entry 45, DEDUCED: R120). -/
structure CacheLine where
  line : Nat
  bytes : List Byte
  deriving DecidableEq, Repr, Inhabited

/-- A resident block (02, 05, 11), with the lines that a prefetch will put into its cache-way banks when their data comes (R236). -/
structure Block where
  uid : Nat
  vf : Nat
  part : Nat
  launch : Nat
  gang : Nat
  member : Nat
  x : Nat
  y : Nat
  z : Nat
  die : Nat
  core : Nat
  st : BlockState
  kernel : Kernel
  args : Word
  windowBase : Nat
  bankModes : List BankMode
  scratchOrder : List Nat
  scratch : Memory
  fifos : List Fifo
  bplaneBase : Nat
  bplane : Memory
  desc : List (List Word)
  jobs : List Job
  jobCount : Nat
  wpTotal : List Nat
  barMarks : List Nat
  tiles : List Tile
  drain : List (List (BitVec 32))
  stream : Option Stream
  l1 : List CacheLine
  prefs : List Nat
  triggered : Bool
  deriving DecidableEq, Repr, Inhabited

def Block.empty : Block :=
  { uid := 0, vf := 0, part := 0, launch := 0, gang := 0, member := 0, x := 0, y := 0, z := 0, die := 0, core := 0, st := .retired
    kernel := .empty, args := 0, windowBase := 0, bankModes := [], scratchOrder := [], scratch := [], fifos := [], bplaneBase := 0
    bplane := [], desc := List.replicate 64 (List.replicate 10 0), jobs := [], jobCount := 0, wpTotal := List.replicate 16 0
    barMarks := [], tiles := [], drain := [], stream := none, l1 := [], prefs := [], triggered := false }

/-- A range of bytes of a footprint: scratch or B-plane of a block, or global virtual addresses of a VF (R109). -/
inductive Region where
  | scratch (block lo hi : Nat)
  | bplane (block lo hi : Nat)
  | global (vf lo hi : Nat)
  deriving DecidableEq, Repr, Inhabited

/-- An entry of a cluster's footprint table (R109, R110): its owner is a job of a block, or the block's stream. -/
structure FpEntry where
  id : Nat
  die : Nat
  cluster : Nat
  block : Nat
  job : Option Nat
  reads : List Region
  writes : List Region
  waiting : Bool
  deriving DecidableEq, Repr, Inhabited

/-! ## Memory below the core (06, 21) -/

/-- One lane's bytes of a store that has issued and has not performed: lane, virtual and package address, leaf attributes, bytes
(R33, R115 to R128). -/
structure AccessCell where
  lane : Nat
  va : Word
  addr : Nat
  attr : BitVec 4
  bytes : List Byte
  deriving DecidableEq, Repr, Inhabited

/-- A store's access that has issued and not performed: one lane's bytes, which lie in one line, and whether it is a release store's
(R122). -/
structure Access where
  id : Nat
  warp : Nat
  vf : Nat
  die : Nat
  sync : Bool
  cell : AccessCell
  deriving DecidableEq, Repr, Inhabited

/-- An L2 line of a die: line number (physical address / 128), bytes, modified, fetch round, waiting for pushed data
(R136 to R138). -/
structure L2Line where
  line : Nat
  bytes : List Byte
  modified : Bool
  f : BitVec 32
  pending : Bool
  deriving DecidableEq, Repr, Inhabited

/-- A die: L2 lines, mirrors of rounded pages, lines and sub-pages for which an RD or a WREQ of the die has not been answered, requests
that wait for a directory entry of an I/O die, directory statistics, removed and disabled cores, steps of 100 MHz by which its clock is
lowered (R136, R393, R394, R387, R403, R426). Dies 8 and 9 are G0 and G1. -/
structure Die where
  l2 : List L2Line
  mirrors : List (Nat × BitVec 32)
  reads : List Nat
  wants : List (Nat × Nat)
  held : List Instr
  handoffs : BitVec 32
  recalls : BitVec 24
  coreOff : BitVec 144
  clusterOff : BitVec 36
  slow : Nat
  deriving DecidableEq, Repr, Inhabited

/-- The message outstanding from a home to a die (PEND, Table 21-1). -/
inductive PendMsg where
  | inv (mask : BitVec 16) | revoke (mask : BitVec 16) | flush | grant (mask : BitVec 16) | advance
  deriving DecidableEq, Repr, Inhabited

/-- A request that a home serves or holds in arrival order (R395). -/
inductive HomeReq where
  | rd (die line : Nat)
  | wreq (die sub : Nat)
  | radv (die warp rid : Nat)
  | recall
  deriving DecidableEq, Repr, Inhabited

/-- A directory entry (Table 21-1) with the page's attributes (R135), the requests in service and waiting (R395), the dies whose
next answer is to a message that a NOTICE has answered already, and those to which a GRANT is on its way that a NOTICE has withdrawn
(R397). -/
structure DirEntry where
  page : Nat
  rounded : Bool
  push : Bool
  sharers : BitVec 8
  own : List (BitVec 16)
  round : BitVec 32
  wmap : BitVec 512
  pend : List (Nat × PendMsg)
  void : List Nat
  withdrawn : List Nat
  busy : Option HomeReq
  phase : Nat
  queue : List HomeReq
  deriving DecidableEq, Repr, Inhabited

/-- One end of a chain link (R367, R401 to R403). -/
structure Link where
  retraining : Bool
  failed : Bool
  closed : Bool
  retrains : BitVec 16
  replays : BitVec 16
  deriving DecidableEq, Repr, Inhabited

/-- A route between two dies (R402): packets in flight with their route sequence numbers, the next number to send and the
next to deliver. -/
structure Route where
  src : Nat
  dst : Nat
  next : Nat
  expect : Nat
  packets : List (Nat × Instr)
  deriving DecidableEq, Repr, Inhabited

/-! ## Host links, rings and translation registers (18, 20, 22) -/

/-- Where a piece of a posted write goes. -/
inductive PieceRoute where
  | home (die : Nat)
  | dispatcher
  deriving DecidableEq, Repr, Inhabited

/-- One piece of a posted write at an ordering point (R337, R338). A piece routed to the dispatcher is a doorbell (true) or a
TRN.PRESENT (false) with its value. -/
structure Piece where
  seq : Nat
  num : Nat
  route : PieceRoute
  addr : Nat
  bytes : List Byte
  vf : Nat
  door : Option (Bool × Word)
  relaxed : Bool
  forwarded : Bool
  deriving DecidableEq, Repr, Inhabited

/-- A posted write as it arrives at a link: a write to a VF's BAR2, a doorbell (true) or TRN.PRESENT (false) of a VF, a write to a PF's
BAR2. -/
inductive Posted where
  | vf (vf : Nat) (path : HostPath) (offset : Nat) (bytes : List Byte) (relaxed : Bool)
  | door (vf : Nat) (door : Bool) (val : Word)
  | pf (addr : Nat) (bytes : List Byte)
  deriving DecidableEq, Repr

/-- The inbound ordering point of a host link (R338), with the posted writes that wait for credits, oldest first. -/
structure OrdPoint where
  nextSeq : Nat
  pieces : List Piece
  waits : List Posted
  deriving DecidableEq, Repr, Inhabited

/-- HIF registers and ring state of a VF (Tables 18-5 and 18-6) and the completion entries that wait (R334). -/
structure Hif where
  sqBase : Word
  cqBase : Word
  sqLog2 : BitVec 5
  cqLog2 : BitVec 5
  enable : Bool
  sqTail : BitVec 32
  sqHead : BitVec 32
  cqTail : BitVec 32
  cqHead : BitVec 32
  fault : Bool
  reason : BitVec 3
  cause : BitVec 10
  inbVa : Word
  inbCount : BitVec 16
  inbCause : BitVec 10
  waiting : List (List Byte)
  deriving DecidableEq, Repr, Inhabited

/-- A fault record that waits for queue space (R379). -/
structure FaultRec where
  warp : Nat
  ident : BitVec 32
  slot : PcSlot
  va : Word
  cause : BitVec 10
  pc : Word
  deriving DecidableEq, Repr, Inhabited

/-- TRN registers of a VF (Table 20-3), the record number SEQ, records that wait, and cached translations: virtual page,
output page, leaf attributes W, X, RND, PSH (R378). -/
structure Trn where
  root : Word
  fqBase : Word
  fqLog2 : BitVec 5
  fqEnable : Bool
  fqTail : BitVec 32
  fqHead : BitVec 32
  seq : BitVec 32
  waiting : List FaultRec
  tlb : List (Nat × Word × BitVec 4)
  deriving DecidableEq, Repr, Inhabited

/-- A sampling or trace ring (Table 22-5). -/
structure Ring where
  base : Word
  log2 : BitVec 5
  enable : Bool
  tail : BitVec 32
  head : BitVec 32
  drop : BitVec 32
  deriving DecidableEq, Repr, Inhabited

/-! ## Virtual functions and the Datum (19) -/

/-- States of a VF (Table 19-7). -/
inductive VfState where
  | paused | running | evicted | incoming | stopped
  deriving DecidableEq, Repr, Inhabited

/-- TDISP states (R344). -/
inductive TdiState where
  | unlocked | locked | run | error
  deriving DecidableEq, Repr, Inhabited

/-- A tenant policy (Table 19-10) with its bytes. -/
structure Policy where
  version : Nat
  key : List Byte
  hbmMax : Nat
  tierMax : Nat
  ctxBytes : Nat
  bankBase : Nat
  bankCount : Nat
  bplaneKib : Nat
  minShare : Nat
  tsample : Bool
  tpmc : Bool
  debug : Bool
  excl : Bool
  migrate : Bool
  precopy : Bool
  peer : Bool
  fabric : BitVec 16
  launchMax : Nat
  hashes : List (List Byte)
  measures : List (List Byte)
  bytes : List Byte
  deriving DecidableEq, Repr, Inhabited

/-- A segment of a VF (Table 19-11, R357, R358): base in the segment's space, or the peer's handle. -/
structure Segment where
  base : Nat
  len : Nat
  ro : Bool
  group : BitVec 32
  deriving DecidableEq, Repr, Inhabited

/-- A part of a VF's context area that holds a gang's state, or the precise state of a slot that has yielded, by warp and slot, or with
neither that of the whole VF: offset and length, and the number under which its bytes were encrypted and tagged (R36, R364, R386). -/
structure CtxPart where
  gang : Option Nat
  slot : Option (Nat × PcSlot)
  off : Nat
  len : Nat
  num : Nat
  deriving DecidableEq, Repr, Inhabited

/-- A migration in progress (R368 to R372); `ran` where the STOP in progress found the VF in RUNNING. -/
structure Migration where
  dest : Bool
  key : Word
  first : Bool
  seq : Nat
  dirty : List (Nat × Nat)
  segLens : List Nat
  ran : Bool
  deriving DecidableEq, Repr, Inhabited

/-- A virtual function (19, 18, 20, 22, 08 R188), with the words of its MSI-X table (Table 18-2). -/
structure Vf where
  handle : Word
  number : Nat
  keyId : Nat
  part : Nat
  link : Nat
  st : VfState
  tdi : TdiState
  ide : Bool
  migrated : Bool
  policy : Policy
  segs : List (Option Segment)
  cmdCount : Word
  share : BitVec 8
  nextLaunch : Nat
  nextKernel : Nat
  hif : Hif
  trn : Trn
  smp : Ring
  trc : Ring
  counters : List Word
  selectors : List (BitVec 8)
  msixTable : List Word
  migration : Option Migration
  ctx : List CtxPart
  deriving DecidableEq, Repr, Inhabited

/-- A tick whose hand-over the next tick found unfinished: the VF that left, the tick's cycle, and whether its deadline passed. -/
structure OldTick where
  vf : Nat
  since : Nat
  deadline : Bool
  deriving DecidableEq, Repr, Inhabited

/-- A time slice being handed over (R384, R385), with its tick's cycle and the earlier ticks that are still being saved. -/
structure Slice where
  outgoing : Nat
  incoming : Nat
  since : Nat
  saved : BitVec 8
  late : BitVec 8
  deadline : Bool
  grace : Bool
  before : List OldTick
  deriving DecidableEq, Repr, Inhabited

/-- A hard partition: SCH registers (Table 20-7), the slice in hand-over, the sampling period (Table 22-4), the operator
counter page by word index (Table 22-3), the counts not yet refreshed into it, the waiting cooperative launch for which placement
has stopped (R23), and the slices left in the period: VF number (0 idle) and µs (R382). -/
structure Partition where
  period : BitVec 20
  run : Bool
  vfnum : Nat
  late : BitVec 8
  ticks : BitVec 32
  lateCount : BitVec 32
  slice : Option Slice
  smpN : BitVec 5
  page : List (Nat × Word)
  live : List (Nat × Word)
  coop : Option (Nat × Nat)
  plan : List (Nat × Nat)
  deriving DecidableEq, Repr, Inhabited

/-- A request that a token bucket holds (R388, R389): one of a pending result with its cost, a prefetch of a block with the paths it
has still to pass, or one that is tried again: an instruction of a slot, the next chunk of a job. -/
inductive HeldReq where
  | load (warp rid cost : Nat)
  | pref (block addr : Nat) (attr : BitVec 4) (fill : Bool) (paths : List Nat)
  | slot (warp : Nat) (slot : PcSlot)
  | chunk (block job : Nat)
  deriving DecidableEq, Repr, Inhabited

/-- A token bucket (Table 20-7) with the requests it holds, oldest first (R388, R389). -/
structure Bucket where
  num : Nat
  rate : BitVec 24
  burst : BitVec 24
  en : Bool
  tokens : Int
  heldCount : BitVec 32
  held : List HeldReq
  deriving DecidableEq, Repr, Inhabited

/-- A PF's mailbox (Tables 19-4 to 19-6). -/
structure Mailbox where
  hdr : List Byte
  busy : Bool
  done : Bool
  status : BitVec 8
  seq : BitVec 32
  rsp : List Byte
  deriving DecidableEq, Repr, Inhabited

/-- An SPDM session of a PF (R343): keys agreed, finished, and the VFs whose IDE stream was keyed in it. -/
structure Session where
  id : Nat
  finished : Bool
  generation : Nat
  ide : List Word
  deriving DecidableEq, Repr, Inhabited

/-- The SPDM connection of a PF's DOE mailbox (R343): steps negotiated, sessions, answers sent. -/
structure Spdm where
  version : Bool
  capabilities : Bool
  algorithms : Bool
  sessions : List Session
  answers : List (Nat × List Byte)
  deriving DecidableEq, Repr, Inhabited

/-- A range that has left a VF: it keeps its ciphertext under the retired key, but for the lines that a host write has changed since
(R360). Its bytes stand in memory as the VF wrote them, and a host read encrypts them. -/
structure RetiredRange where
  part : Nat
  seg : Nat
  base : Nat
  len : Nat
  key : Nat
  plain : List Nat
  deriving DecidableEq, Repr, Inhabited

/-- The Datum (R341 to R362): mailboxes, the PFs whose commands wait in doorbell order and whether the first has begun, the secrets of
Table 19-1 by the number of the draw that each comes from (the memory keys in use by key ID, the firmware key, the context MAC key),
ranges under retired keys, measurement blocks 1 to 5, handles given since power-on, random draws made, SPDM state, partition map,
firewall counts, core removal (Table 20-7). `pfMsix` holds the words of each PF's MSI-X table of 32 vectors (Table 18-1). -/
structure Datum where
  boxes : List Mailbox
  queue : List Nat
  working : Bool
  keys : List (Nat × Nat)
  fwKey : Nat
  macKey : Nat
  retired : List RetiredRange
  blocks : List (List Byte)
  handles : List Word
  draws : Nat
  spdm : List Spdm
  partDie : List Nat
  pseq : BitVec 8
  changing : Bool
  drop : BitVec 32
  pfMsix : List (List Word)
  coreBusy : Bool
  coreDone : Bool
  moved : BitVec 8
  coreWaiting : BitVec 8
  deriving DecidableEq, Repr, Inhabited

/-! ## Reliability and management (22, 23) -/

/-- TIM registers (Table 22-4), the slew in progress: nanoseconds left and cycles since its last nanosecond, the rate of holdover in
units of 100 ppm, and the cycle of the last valid message (R414, R415). -/
structure Tim where
  src : BitVec 2
  port : BitVec 4
  domain : BitVec 8
  xport : BitVec 2
  locked : Bool
  holdover : Bool
  offset : BitVec 32
  slew : Int
  frac : Nat
  free : Int
  heard : Option Nat
  deriving DecidableEq, Repr, Inhabited

/-- A checkpoint image in the reserve (R422, R423), with the poisoned words and the ranges under retired keys of the HBM in it. Its header
holds the tags of the 64 KiB blocks by number, those of blocks that list no byte left out, FWDIGEST, and the VF keys of `keys` wrapped. -/
structure CkpImage where
  mem : Memory
  blocks : List Block
  warps : List Warp
  gangs : List Gang
  launches : List Launch
  kernels : List Kernel
  vfs : List Vf
  dirs : List DirEntry
  keys : List (Nat × Nat)
  footprints : List FpEntry
  handles : List Word
  partDie : List Nat
  fwDigest : List Byte
  tags : List (Nat × List Byte)
  wrapped : List Byte
  poison : List Nat
  retired : List RetiredRange
  deriving DecidableEq, Repr, Inhabited

/-- Checkpoint registers (Table 23-8), the cycle of the GO in progress, whether the VFs have been stopped and which run again, the cycle in
which the streaming of step 4 ends, and the image. -/
structure Ckp where
  busy : Bool
  since : Nat
  began : Bool
  ends : Option Nat
  resume : List Nat
  done : Bool
  poison : Bool
  nores : Bool
  valid : Bool
  ms : BitVec 32
  image : Option CkpImage
  deriving DecidableEq, Repr, Inhabited

/-- An HBM lane: its retry count, the retries of its channel's transfer in progress that it caused, whether it is steered to a spare
(R421). -/
structure HbmLane where
  die : Nat
  stack : Nat
  channel : Nat
  lane : Nat
  retries : Nat
  caused : Nat
  swapped : Bool
  deriving DecidableEq, Repr, Inhabited

/-- An entry of an array log or a link log that Saltern has not drained, with %gtime of its event (R420, R428). -/
structure LogEntry where
  time : Word
  source : BitVec 8
  severity : BitVec 8
  unit : BitVec 16
  loc : BitVec 32
  addr : Word
  cause : BitVec 10
  deriving DecidableEq, Repr, Inhabited

/-- Saltern (R426 to R433): registers of Table 23-8, event log records by number, sensors, firmware store with its image, boot journal, and
the entries of the array logs and of the link logs that were lost since the last record of each (R420). `bootStep` is the boot step that
runs or has stopped the boot, `rates` the rate of each host link in units of 0.1 GT/s, 0 where it is not trained (R431), and `power` the
readings of the input power of the last 10 ms by cycle, newest first (R427). -/
structure Saltern where
  ready : Bool
  recovery : Bool
  version : BitVec 32
  logTail : BitVec 32
  log : List (Nat × List Byte)
  logSel : BitVec 32
  sensSel : BitVec 8
  sensors : List (BitVec 32 × BitVec 2)
  updAddr : Word
  updLen : BitVec 32
  updBusy : Bool
  updStatus : BitVec 3
  updVersion : BitVec 32
  updImage : List Byte
  fwVersion : BitVec 32
  fwImage : List Byte
  fwValid : Bool
  fwCounter : BitVec 32
  journal : List (BitVec 3)
  altered : BitVec 9
  retry : BitVec 9
  bootStep : Nat
  rates : List Nat
  power : List (Nat × BitVec 32)
  powerCap : BitVec 12
  powered : Bool
  pending : List LogEntry
  lost : List Nat
  hbm : List HbmLane
  deriving DecidableEq, Repr, Inhabited

/-- The grant pointer of a quadrant (R32, R405): die, core, quadrant; the slot granted last in each class, the cycle of the last grant, and
the sampling pointer. A quadrant that is not listed has granted none. -/
structure Quadrant where
  die : Nat
  core : Nat
  quad : Nat
  granted : Bool
  at_ : Nat
  last : List Nat
  sampled : Nat
  deriving DecidableEq, Repr, Inhabited

/-- The module. `remains` lists blocks that have retired, as they were then, until something else stands on their cores: their banks are
released and keep their bytes (R24, R294). `replies` lists the data of host reads that have completed, by link. The agenda lists the events
that are due, the timers those due at a later cycle. The current agent is the slot `slot` of warp `w` in block `b`, or that block's matrix
stream. -/
structure State where
  w : Warp
  slot : PcSlot
  b : Block
  onStream : Bool
  warps : List Warp
  blocks : List Block
  remains : List Block
  gangs : List Gang
  launches : List Launch
  kernels : List Kernel
  vfs : List Vf
  parts : List Partition
  mem : Memory
  inflight : List Access
  dies : List Die
  dirs : List DirEntry
  links : List Link
  routes : List Route
  ords : List OrdPoint
  buckets : List Bucket
  footprints : List FpEntry
  quadrants : List Quadrant
  datum : Datum
  tim : Tim
  ckp : Ckp
  sal : Saltern
  poisoned : List Nat
  msix : List (Nat × Nat)
  advisory : List Nat
  replies : List (Nat × List Byte)
  agenda : List Instr
  timers : List (Nat × Instr)
  cycle : Nat
  timeBase : Int
  freeCount : Nat
  nextId : Nat
  deriving DecidableEq, Repr, Inhabited

/-! ## Reset -/

def Mailbox.reset : Mailbox :=
  { hdr := List.replicate 64 0, busy := false, done := false, status := 0, seq := 0, rsp := List.replicate 64 0 }

def Spdm.reset : Spdm := { version := false, capabilities := false, algorithms := false, sessions := [], answers := [] }

def Datum.reset : Datum :=
  { boxes := [.reset, .reset], queue := [], working := false, keys := [], fwKey := 0, macKey := 0, retired := [], blocks := [], handles := []
    draws := 0, spdm := [.reset, .reset], partDie := List.replicate 8 0, pseq := 0, changing := false, drop := 0
    pfMsix := List.replicate 2 (List.replicate 64 0), coreBusy := false, coreDone := false, moved := 0, coreWaiting := 0 }

def Die.reset : Die :=
  { l2 := [], mirrors := [], reads := [], wants := [], held := [], handoffs := 0, recalls := 0, coreOff := 0, clusterOff := 0, slow := 0 }

def Link.reset : Link := { retraining := false, failed := false, closed := false, retrains := 0, replays := 0 }

def Partition.reset : Partition :=
  { period := 1000, run := false, vfnum := 0, late := 0, ticks := 0, lateCount := 0, slice := none, smpN := 0, page := []
    live := [], coop := none, plan := [] }

/-- SAL.SENS_VAL at reset (Table 23-8). -/
def sensorsReset : List (BitVec 32 × BitVec 2) := List.replicate 32 (0, 0)

def Saltern.reset : Saltern :=
  { ready := false, recovery := false, version := 0, logTail := 0, log := [], logSel := 0, sensSel := 0, sensors := sensorsReset
    updAddr := 0, updLen := 0, updBusy := false, updStatus := 0, updVersion := 0, updImage := [], fwVersion := 1, fwImage := [], fwValid := true
    fwCounter := 1, journal := List.replicate 9 0, altered := 0, retry := 0, bootStep := 0, rates := [0, 0], power := [], powerCap := 3600
    powered := true, pending := [], lost := [0, 0], hbm := [] }

def Ckp.reset : Ckp :=
  { busy := false, since := 0, began := false, ends := none, resume := [], done := false, poison := false, nores := false, valid := false
    ms := 0, image := none }

def Tim.reset : Tim := { src := 0, port := 0, domain := 0, xport := 0, locked := false, holdover := false, offset := 0, slew := 0, frac := 0
                         free := 0, heard := none }

/-- The module right after reset: every register at the value its table gives, nothing placed, memory with nothing listed. -/
def State.reset : State :=
  { w := .empty, slot := .a, b := .empty, onStream := false, warps := [], blocks := [], remains := [], gangs := [], launches := [], kernels := []
    vfs := [], parts := List.replicate 8 .reset, mem := [], inflight := [], dies := List.replicate 10 .reset, dirs := []
    links := List.replicate 32 .reset, routes := [], ords := List.replicate 2 { nextSeq := 0, pieces := [], waits := [] }
    buckets := [], footprints := [], quadrants := [], datum := .reset, tim := .reset, ckp := .reset, sal := .reset, poisoned := []
    msix := [], advisory := [], replies := [], agenda := [], timers := [], cycle := 0, timeBase := 0, freeCount := 0, nextId := 1 }

end Sys2Proof.Machine
end

