-- ==== Sys2Proof/Machine/Mem.lean ====
section
/-! DEFINITION. Memory as a canonical list of bytes, the address spaces of the package (R336, R373), both translation stages
(R357, R374 to R378), the directory and the L2 lines of the dies (R135 to R142, R391 to R396). -/

namespace Sys2Proof.Machine

/-! ## Canonical memory: an unlisted byte reads as zero (log entry 1) -/

/-- The byte at an address. -/
def readCell : Memory → Nat → Byte
  | [], _ => 0
  | (k, v) :: m, a => if k = a then v else readCell m a

/-- Memory with one byte replaced; zero is what an unlisted address reads as, so it is not listed. -/
def writeCell : Memory → Nat → Byte → Memory
  | [], a, v => if v = 0 then [] else [(a, v)]
  | (k, x) :: m, a, v =>
    if a < k then (if v = 0 then (k, x) :: m else (a, v) :: (k, x) :: m)
    else if a = k then (if v = 0 then m else (a, v) :: m)
    else (k, x) :: writeCell m a v

/-- Addresses strictly rising above a bound, no zero byte listed. -/
def memSorted : Option Nat → Memory → Bool
  | _, [] => true
  | lo, (k, v) :: m => (match lo with | none => true | some l => decide (l < k)) && v != 0 && memSorted (some k) m

/-- The canonical form of a memory. -/
def Memory.wf (m : Memory) : Bool := memSorted none m

/-- n bytes from an address up. -/
def readBytes (m : Memory) : Nat → Nat → List Byte
  | _, 0 => []
  | a, n + 1 => readCell m a :: readBytes m (a + 1) n

/-- Memory with bytes replaced from an address up. -/
def writeBytes (m : Memory) : Nat → List Byte → Memory
  | _, [] => m
  | a, b :: bs => writeBytes (writeCell m a b) (a + 1) bs

/-- Memory with a range reading as zero (R361). -/
def clearRange (m : Memory) (lo hi : Nat) : Memory := m.filter fun c => decide (c.1 < lo) || decide (hi ≤ c.1)

/-- n little-endian bytes as a number (R3). -/
def readNat (m : Memory) (a n : Nat) : Nat := ofBytes (readBytes m a n)

/-! ## Lookup and update of the lists of State -/

def getVf (s : State) (n : Nat) : Option Vf := s.vfs.find? fun v => v.number == n
def modVf (s : State) (n : Nat) (f : Vf → Vf) : State := { s with vfs := mapIf (fun v => v.number == n) f s.vfs }
def getBlock (s : State) (u : Nat) : Option Block := if s.b.uid == u then some s.b else s.blocks.find? fun b => b.uid == u
def modBlock (s : State) (u : Nat) (f : Block → Block) : State :=
  if s.b.uid == u then { s with b := f s.b } else { s with blocks := mapIf (fun b => b.uid == u) f s.blocks }
def getWarp (s : State) (u : Nat) : Option Warp := if s.w.uid == u then some s.w else s.warps.find? fun w => w.uid == u
def modWarp (s : State) (u : Nat) (f : Warp → Warp) : State :=
  if s.w.uid == u then { s with w := f s.w } else { s with warps := mapIf (fun w => w.uid == u) f s.warps }
def getDie (s : State) (d : Nat) : Die := s.dies.getD d .reset
def modDie (s : State) (d : Nat) (f : Die → Die) : State := { s with dies := modAt s.dies d f }
def getPart (s : State) (p : Nat) : Partition := s.parts.getD p .reset
def modPart (s : State) (p : Nat) (f : Partition → Partition) : State := { s with parts := modAt s.parts p f }
def getGang (s : State) (u : Nat) : Option Gang := s.gangs.find? fun g => g.uid == u
def modGang (s : State) (u : Nat) (f : Gang → Gang) : State := { s with gangs := mapIf (fun g => g.uid == u) f s.gangs }
def getLaunch (s : State) (vf id : Nat) : Option Launch := s.launches.find? fun l => l.vf == vf && l.id == id
def modLaunch (s : State) (vf id : Nat) (f : Launch → Launch) : State :=
  { s with launches := mapIf (fun l => l.vf == vf && l.id == id) f s.launches }
def allBlocks (s : State) : List Block := s.b :: s.blocks
def allWarps (s : State) : List Warp := s.w :: s.warps
def mapBlocks (s : State) (f : Block → Block) : State := { s with b := f s.b, blocks := s.blocks.map f }
def mapWarps (s : State) (f : Warp → Warp) : State := { s with w := f s.w, warps := s.warps.map f }

/-- Puts events at the end of the agenda. -/
def enqueue (s : State) (es : List Instr) : State := { s with agenda := s.agenda ++ es }

/-- Sets an event to become due n cycles from now. -/
def after (s : State) (n : Nat) (e : Instr) : State := { s with timers := s.timers ++ [(s.cycle + n, e)] }

/-- A fresh identifier of the model. -/
def freshId (s : State) : Nat × State := (s.nextId, { s with nextId := s.nextId + 1 })

/-- A free value and the state with the counter advanced (log entry 2). -/
def drawFree (s : State) : Word × State := (Sys2Proof.Config.freeValue s.freeCount, { s with freeCount := s.freeCount + 1 })

/-! ## Address spaces of the package: HBM of die d at d·2^37, the second tier at 2^40, host memory of link l at (1 + l)·2^64 -/

def tierBase : Nat := 2 ^ 40
def hostBase (link : Nat) : Nat := (1 + link) * 2 ^ 64

/-- The home of an address (R336, R373, R392): a compute die, or 8 and 9 for G0 and G1. -/
def homeOf (k : Nat) : Nat :=
  if k < tierBase then k / 2 ^ 37
  else if k < 2 ^ 64 then 8 + (k - tierBase) / 2 ^ 16 % 2
  else 8 + (k / 2 ^ 64 - 1) % 2

def isHost (k : Nat) : Bool := decide (2 ^ 64 ≤ k)
def isHbm (k : Nat) : Bool := decide (k < tierBase)

/-- The dies of a partition in ascending number (R365, R373). -/
def partDies (s : State) (p : Nat) : List Nat := (List.range 8).filter fun d => s.datum.partDie.getD d 0 == p

/-- A partition physical address to the package (R373). -/
def partPhys (dies : List Nat) (a : Nat) : Nat :=
  let n := max 1 dies.length
  let u := a / 2 ^ 16
  dies.getD (u % n) 0 * 2 ^ 37 + u / n * 2 ^ 16 + a % 2 ^ 16

/-! ## Second stage (R45, R357) -/

/-- Cause codes of classes 0x5, 0x6 and 0x7 (R43 to R45). -/
def cause5 (space kind reason : Nat) : BitVec 10 := BitVec.ofNat 10 (0x140 + space * 16 + kind * 4 + reason)
def cause6 (level kind reason : Nat) : BitVec 10 := BitVec.ofNat 10 (0x180 + level * 16 + kind * 4 + reason)
def cause7 (seg kind reason : Nat) : BitVec 10 := BitVec.ofNat 10 (0x1C0 + seg * 16 + kind * 4 + reason)

/-- Usable length of a segment: segment 0 without the context area (R357). -/
def usable (v : Vf) (n : Nat) (g : Segment) : Nat := if n = 0 then g.len - v.policy.ctxBytes else g.len

/-- A VF physical address to the package, or the class 0x7 cause. Kinds: 0 load, 1 store, 2 atomic, 3 fetch. -/
def secondStage (s : State) (v : Vf) (pa : Nat) (kind : Nat) : Except (BitVec 10) Nat :=
  let n := pa / 2 ^ 44 % 4
  let o := pa % 2 ^ 44
  if kind = 3 ∧ 2 ≤ n then .error (cause7 n kind 1)
  else
    match v.segs.getD n none with
    | none => .error (cause7 n kind 1)
    | some g =>
      if usable v n g ≤ o ∨ 2 ^ 46 ≤ pa then .error (cause7 n kind 0)
      else if g.ro ∧ (kind = 1 ∨ kind = 2) then .error (cause7 n kind 3)
      else
        match n with
        | 0 => .ok (partPhys (partDies s v.part) (g.base + o))
        | 1 => .ok (tierBase + g.base + o)
        | 2 => .ok (hostBase v.link + g.base + o)
        | _ =>
          match s.vfs.find? fun p => p.handle == BitVec.ofNat 64 g.base with
          | none => .error (cause7 3 kind 2)
          | some p =>
            match p.segs.getD 0 none with
            | none => .error (cause7 3 kind 2)
            | some g0 =>
              if usable p 0 g0 ≤ o then .error (cause7 3 kind 0)
              else if g0.ro ∧ (kind = 1 ∨ kind = 2) then .error (cause7 3 kind 3)
              else .ok (partPhys (partDies s p.part) (g0.base + o))

/-! ## Lines and directory -/

def lineOf (k : Nat) : Nat := k / 128
def pageOf (k : Nat) : Nat := k / 2 ^ 16
/-- The 4 KiB sub-page of a line in its page (R394). -/
def subOf (line : Nat) : Nat := line / 32 % 16

def findL2 (s : State) (d line : Nat) : Option L2Line := (getDie s d).l2.find? fun l => l.line == line

/-- The die whose L2 holds a line modified, if any (single writer, R394). -/
def modifiedAt (s : State) (line : Nat) : Option L2Line :=
  (s.dies.take 8).findSome? fun d => d.l2.find? fun l => l.line == line && l.modified

/-- The bytes of a line in a message that takes them from a die to the home for good (Table 21-2). -/
def carried (line : Nat) : Instr → Option (List Byte)
  | .rvack _ _ ls | .fack _ _ ls => (ls.find? fun x => x.line == line).map (·.bytes)
  | .notice _ l _ bytes => if l = line then bytes else none
  | _ => none

/-- Messages that have been sent and have not taken effect, those of one route in their order. -/
def sentMsgs (s : State) : List Instr := s.agenda ++ s.routes.flatMap fun r => r.packets.map (·.2)

/-- A line's bytes on their way home. -/
def onWayHome (s : State) (line : Nat) : Option (List Byte) := ((sentMsgs s).filterMap (carried line)).getLast?

/-- The current byte of a location: that of the line that a die holds modified, else of one on its way home, else the home's (R120). -/
def coherentByte (s : State) (k : Nat) : Byte :=
  match modifiedAt s (lineOf k) with
  | some l => l.bytes.getD (k % 128) 0
  | none =>
    match onWayHome s (lineOf k) with
    | some bytes => bytes.getD (k % 128) 0
    | none => readCell s.mem k

def coherentBytes (s : State) : Nat → Nat → List Byte
  | _, 0 => []
  | k, n + 1 => coherentByte s k :: coherentBytes s (k + 1) n

def coherentNat (s : State) (k n : Nat) : Nat := ofBytes (coherentBytes s k n)

def getDir (s : State) (page : Nat) : Option DirEntry := s.dirs.find? fun e => e.page == page

/-- A directory entry as its first access creates it (R135, R393). -/
def newDir (page : Nat) (rnd psh : Bool) : DirEntry :=
  { page := page, rounded := rnd, push := psh, sharers := 0, own := List.replicate 8 0, round := 0, wmap := 0, pend := [], void := [], withdrawn := []
    busy := none, phase := 0, queue := [] }

/-- The entry of a page, created with the attributes of the access where there is none (R135). -/
def dirFor (s : State) (page : Nat) (rnd psh : Bool) : DirEntry := (getDir s page).getD (newDir page rnd psh)

def modDir (s : State) (page : Nat) (f : DirEntry → DirEntry) : State :=
  { s with dirs := mapIf (fun x => x.page == page) f s.dirs }

/-- Puts a line into a die's L2, replacing the copy it holds. -/
def putL2 (s : State) (d : Nat) (l : L2Line) : State :=
  modDie s d fun x => { x with l2 := l :: x.l2.filter fun y => y.line != l.line }

def dropL2 (s : State) (d line : Nat) : State := modDie s d fun x => { x with l2 := x.l2.filter fun y => y.line != line }

def mirrorOf (s : State) (d page : Nat) : Option (BitVec 32) :=
  ((getDie s d).mirrors.find? fun m => m.1 == page).map (·.2)

def setMirror (s : State) (d page : Nat) (r : BitVec 32) : State :=
  modDie s d fun x => { x with mirrors := (page, r) :: x.mirrors.filter fun m => m.1 != page }

/-- f ≥ g of rounds (R135). -/
def roundGe (f g : BitVec 32) : Bool := decide ((f - g).toNat < 2 ^ 31)

/-- Bit d of the sharer vector. -/
def sharerBit (d : Nat) : BitVec 8 := BitVec.ofNat 8 (2 ^ d)

/-- The segment and 64 KiB page of a VF that a package address belongs to, in segments 0 and 1 (R357, R373). -/
def pageOfVf (s : State) (v : Vf) (k : Nat) : Option (Nat × Nat) :=
  let seg (n a : Nat) : Option (Nat × Nat) := match v.segs.getD n none with
    | some g => if g.base ≤ a ∧ a < g.base + g.len then some (n, (a - g.base) / 2 ^ 16) else none
    | none => none
  if isHost k then none
  else if !isHbm k then seg 1 (k - tierBase)
  else
    let dies := partDies s v.part
    match dies.idxOf? (k / 2 ^ 37) with
    | some i => seg 0 ((k % 2 ^ 37 / 2 ^ 16 * dies.length + i) * 2 ^ 16 + k % 2 ^ 16)
    | none => none

/-- Sets the dirty bit of the page in every VF that is being migrated (R370). -/
def markDirty (s : State) (k : Nat) : State :=
  if s.vfs.all fun v => v.migration.isNone then s
  else
    { s with vfs := s.vfs.map fun v =>
        match v.migration, pageOfVf s v k with
        | some m, some p => if m.dirty.contains p then v else { v with migration := some { m with dirty := p :: m.dirty } }
        | _, _ => v }

/-- A word of a counter page that lists only the words written. -/
def pageWord (p : List (Nat × Word)) (i : Nat) : Word := ((p.find? fun x => x.1 == i).map (·.2)).getD 0
def setPageWord (p : List (Nat × Word)) (i : Nat) (v : Word) : List (Nat × Word) := (i, v) :: p.filter fun x => x.1 != i

/-- Adds n to word i of a partition's counts (Table 22-3). -/
def countPage (s : State) (part i n : Nat) : State :=
  modPart s part fun p => { p with live := setPageWord p.live i (pageWord p.live i + BitVec.ofNat 64 n) }

/-- The partition for which bytes at an address move: that of the home die, or of the VF whose second-tier segment it is. -/
def partOf (s : State) (k : Nat) : Nat :=
  if isHbm k then s.datum.partDie.getD (homeOf k) 0 else ((s.vfs.find? fun v => (pageOfVf s v k).isSome).map (·.part)).getD 0

/-- Counts n bytes that HBM or the second tier moves at an address (Table 22-3). -/
def countMoved (s : State) (k n : Nat) (write : Bool) : State :=
  if isHost k then s else countPage s (partOf s k) (if isHbm k then (if write then 4 else 3) else 5) n

/-- Writes a line's bytes at its home and sets its WMAP bit on a rounded page (R396, R399), and counts them (Table 22-3). -/
def writeHome (s : State) (line : Nat) (bytes : List Byte) : State :=
  let s := countMoved { s with mem := writeBytes s.mem (line * 128) bytes } (line * 128) 128 true
  modDir s (line / 512) fun e =>
    if e.rounded then { e with wmap := e.wmap ||| BitVec.ofNat 512 (2 ^ (line % 512)) } else e

/-- Writes back every modified line of a die that p selects; the lines stay, clean. -/
def writeBackLines (s : State) (d : Nat) (p : Nat → Bool) : State :=
  let ls := (getDie s d).l2.filter fun l => l.modified && p l.line
  let s := ls.foldl (fun s l => writeHome s l.line l.bytes) s
  modDie s d fun x => { x with l2 := mapIf (fun l => p l.line) (fun l => { l with modified := false }) x.l2 }

/-- Discards the lines of a die that p selects. -/
def dropLines (s : State) (d : Nat) (p : Nat → Bool) : State :=
  modDie s d fun x => { x with l2 := x.l2.filter fun l => !p l.line }

/-- Lines of the sub-pages of a mask of a page. -/
def inSubs (page : Nat) (mask : BitVec 16) (line : Nat) : Bool := line / 512 == page && mask.getLsbD (subOf line)

/-! ## Ownership (R394) -/

def homeOfPage (page : Nat) : Nat := homeOf (page * 2 ^ 16)

/-- Puts an entry first in the list: the one used last. -/
def setDir (s : State) (e : DirEntry) : State := { s with dirs := e :: s.dirs.filter fun x => x.page != e.page }

def ownMask (e : DirEntry) (d : Nat) : BitVec 16 := e.own.getD d 0
def owns (e : DirEntry) (d sub : Nat) : Bool := (ownMask e d).getLsbD sub
def subBit (sub : Nat) : BitVec 16 := BitVec.ofNat 16 (2 ^ sub)

/-- The die that owns a sub-page (R394). -/
def ownerOf (e : DirEntry) (sub : Nat) : Option Nat := (List.range 8).find? fun d => owns e d sub

/-- Whether a held line has its data as a store must find it: modified by the die, or with its data and, on a rounded page, not older
than the mirror (R120, R142). -/
def freshLine (s : State) (d : Nat) (e : DirEntry) (l : L2Line) : Bool :=
  l.modified || (!l.pending && (!e.rounded || roundGe l.f ((mirrorOf s d e.page).getD e.round)))

/-- Whether a die holds the line of an address as a store must find it. -/
def holdsFresh (s : State) (d k : Nat) : Bool :=
  (findL2 s d (lineOf k)).any fun l => freshLine s d (dirFor s (pageOf k) false false) l

/-- Whether a die may write at an address now: in a sub-page that it owns and whose grant has reached it (R394). -/
def mayWrite (s : State) (d : Nat) (k : Nat) : Bool :=
  match getDir s (pageOf k) with
  | some e => owns e d (subOf (lineOf k)) && !e.pend.any fun p => p.1 == d && match p.2 with
      | .grant m => m.getLsbD (subOf (lineOf k))
      | _ => false
  | none => false

/-- Whether a store of a die to an address can perform: the die may write there and holds the line. -/
def canStore (s : State) (d k : Nat) : Bool := mayWrite s d k && holdsFresh s d k

/-- The bytes of a line with some replaced, from offset o up. -/
def mergeBytes (old : List Byte) (o : Nat) (bytes : List Byte) : List Byte :=
  (List.range 128).map fun i => if o ≤ i ∧ i < o + bytes.length then bytes.getD (i - o) 0 else old.getD i 0

/-- Whether a page's directory entry serves it as rounded (R135, R392): only pages homed on compute dies. -/
def roundedPage (s : State) (k : Nat) (rnd : Bool) : Bool := isHbm k && (dirFor s (pageOf k) rnd false).rounded

/-- Writes bytes into a line that a die holds and may write. On a page that is not rounded no other die keeps a copy: R394's grant of
all 16 sub-pages invalidates one of them only (log entry 11, DEDUCED: R120). A host window's line is written through to its home, and
stays clean: the store leaves through the I/O die (R339). -/
def writeOwned (s : State) (d k : Nat) (bytes : List Byte) : State :=
  let line := lineOf k
  let s := markDirty s k
  let new := mergeBytes (((findL2 s d line).map (·.bytes)).getD []) (k % 128) bytes
  let s := modDie s d fun x =>
    { x with l2 := mapIf (fun l => l.line == line) (fun l => { l with bytes := new, modified := !isHost k }) x.l2 }
  let s := if roundedPage s k false then s else ((List.range 8).filter (· != d)).foldl (fun s i => dropL2 s i line) s
  if isHost k then writeHome s line new else s

/-- Bytes at an address cut at the lines they cross. -/
def lineRuns : Nat → Nat → List Byte → List (Nat × List Byte)
  | 0, _, _ => []
  | fuel + 1, k, bytes =>
    let n := 128 - k % 128
    if bytes.length ≤ n then [(k, bytes)] else (k, bytes.take n) :: lineRuns fuel (k + n) (bytes.drop n)

/-- Writes bytes at an address by a die that may write them. -/
def writeRuns (s : State) (d k : Nat) (bytes : List Byte) : State :=
  (lineRuns (bytes.length / 128 + 2) k bytes).foldl (fun s x => writeOwned s d x.1 x.2) s

/-- Notes in WMAP the lines of rounded pages that n bytes at k write at their home (Table 21-1). -/
def noteWmap (s : State) (k n : Nat) : State :=
  if s.dirs.all fun e => !e.rounded then s
  else ((List.range ((k % 128 + n + 127) / 128)).map (· + lineOf k)).foldl (fun s line => modDir s (line / 512) fun e =>
      if e.rounded then { e with wmap := e.wmap ||| BitVec.ofNat 512 (2 ^ (line % 512)) } else e) s

/-- The bytes of a line as a write of bytes at k leaves them. -/
def patchLine (k : Nat) (bytes : List Byte) (line : Nat) (old : List Byte) : List Byte :=
  (List.range 128).map fun i =>
    let a := line * 128 + i
    if k ≤ a ∧ a < k + bytes.length then bytes.getD (a - k) 0 else old.getD i 0

/-- A message as the same write leaves the line that it carries. A line on its way to a die of a rounded page stays as its home read it
(R136). -/
def patchMsg (s : State) (k : Nat) (bytes : List Byte) : Instr → Instr
  | .rvack d p ls => .rvack d p (ls.map fun x => { x with bytes := patchLine k bytes x.line x.bytes })
  | .fack d p ls => .fack d p (ls.map fun x => { x with bytes := patchLine k bytes x.line x.bytes })
  | .notice d l r (some old) => .notice d l r (some (patchLine k bytes l old))
  | .wb d l old => .wb d l (patchLine k bytes l old)
  | .data d l old f => .data d l (if roundedPage s (l * 128) false then old else patchLine k bytes l old) f
  | i => i

/-- Sets the dirty bits of the pages of n bytes at k (R370). -/
def markRange (s : State) (k n : Nat) : State :=
  ((List.range ((k % 2 ^ 16 + n + 2 ^ 16 - 1) / 2 ^ 16)).map fun i => (k / 2 ^ 16 + i) * 2 ^ 16).foldl markDirty s

/-- A write by an agent that is no die: pieces, ring writes, the Datum (R338). The home is written, and the copies that dies hold and
messages carry are updated, so the value is current everywhere; on a rounded page only the copies that may be written are, and other
dies see the write through a fetch or an advance (R142). -/
def writeGlobal (s : State) (k : Nat) (bytes : List Byte) : State :=
  let s := noteWmap (markRange { s with mem := writeBytes s.mem k bytes } k bytes.length) k bytes.length
  let s := countMoved s k bytes.length true
  let old (d : Nat) (l : L2Line) : Bool :=
    !l.modified && (getDir s (l.line / 512)).any fun e => e.rounded && !owns e d (subOf l.line)
  let patch (d : Nat) (l : L2Line) : L2Line := if old d l then l else { l with bytes := patchLine k bytes l.line l.bytes }
  { s with
      dies := s.dies.mapIdx fun d x => { x with l2 := x.l2.map (patch d) }
      agenda := s.agenda.map (patchMsg s k bytes)
      routes := s.routes.map fun r => { r with packets := r.packets.map fun p => (p.1, patchMsg s k bytes p.2) } }

/-! ## Messages and stores in flight (R33, R119, R120, R402) -/

/-- Whether the firewall has closed the way between two compute dies: they are of different partitions (R367). -/
def linksClosed (s : State) (src dst : Nat) : Bool :=
  src < 8 && dst < 8 && s.datum.partDie.getD src 0 != s.datum.partDie.getD dst 0

/-- Counts a packet that the firewall drops (Table 19-12). -/
def countDrop (s : State) : State := { s with datum := { s.datum with drop := if s.datum.drop = -1 then -1 else s.datum.drop + 1 } }

/-- Puts a message on its way: to the same die at once, else as the next packet of the route between the two (R402). A link closed
by the firewall drops it and counts it (R367). -/
def sendMsg (s : State) (src dst : Nat) (i : Instr) : State :=
  if src = dst then enqueue s [i]
  else
    if linksClosed s src dst then countDrop s
    else
      let r := (s.routes.find? fun r => r.src == src && r.dst == dst).getD { src := src, dst := dst, next := 0, expect := 0, packets := [] }
      let r' := { r with next := r.next + 1, packets := r.packets ++ [(r.next, i)] }
      let s := { s with routes := r' :: s.routes.filter fun x => !(x.src == src && x.dst == dst) }
      enqueue s [.packetDelivery src dst r.next]

def rndAttr (x : BitVec 4) : Bool := x.getLsbD 2
def pshAttr (x : BitVec 4) : Bool := x.getLsbD 3

/-- A store updates a held L1 line and allocates none (R91). -/
def updateL1 (b : Block) (k : Nat) (bytes : List Byte) : Block :=
  { b with l1 := mapIf (fun l => l.line == lineOf k) (fun l => { l with bytes := mergeBytes l.bytes (k % 128) bytes }) b.l1 }

/-- Performs a store's access: into the line that the die owns, and into the block's held L1 line. -/
def performCell (s : State) (a : Access) : State :=
  let s := writeOwned s a.die a.cell.addr a.cell.bytes
  match getWarp s a.warp with
  | some w => modBlock s w.block fun b => updateL1 b a.cell.addr a.cell.bytes
  | none => s

def cellsOverlap (c d : AccessCell) : Bool := decide (c.addr < d.addr + d.bytes.length ∧ d.addr < c.addr + c.bytes.length)

/-- The accesses that perform with one: those of its warp to the same line that issued before it, and itself (R120). -/
def performsWith (a x : Access) : Bool :=
  x.warp == a.warp && lineOf x.cell.addr == lineOf a.cell.addr && decide (x.id ≤ a.id)

/-- Performs an access, older ones of the warp to its line first. -/
def performAccess (s : State) (a : Access) : State :=
  (s.inflight.filter (performsWith a)).foldl performCell { s with inflight := s.inflight.filter fun x => !performsWith a x }

/-! ## Poisoned words (R419, R421): 64 bytes each -/

/-- Whether a poisoned word has a byte among n bytes at k. -/
def inWords (k n p : Nat) : Bool := decide (k / 64 ≤ p / 64 ∧ p / 64 ≤ (k + n - 1) / 64)

def hasPoison (s : State) (k n : Nat) : Bool := s.poisoned.any (inWords k n)

/-! ## First stage (R374 to R378) -/

/-- A translation: package address, segment, leaf attributes W, X, RND, PSH from bit 0. -/
abbrev Xlat := Nat × Nat × BitVec 4

/-- The second stage of a walk's own read: a load, whose fault carries the kind of the access that walks; kind 3 in segments 2 and 3 is
always raised with reason 1 (R45, R377). -/
def tableStage (s : State) (v : Vf) (pa kind : Nat) : Except (BitVec 10) Nat :=
  match secondStage s v pa 0 with
  | .ok k => .ok k
  | .error c =>
    let n := pa / 2 ^ 44 % 4
    .error (if kind = 3 ∧ 2 ≤ n then cause7 n 3 1 else c + BitVec.ofNat 10 (4 * kind))

/-- Reads a page-table entry through the second stage (R377). -/
def readPte (s : State) (v : Vf) (pa kind : Nat) : Except (BitVec 10) Word := do
  let k ← tableStage s v pa kind
  pure (BitVec.ofNat 64 (coherentNat s k 8))

def leafShift : Nat → Nat
  | 1 => 30 | 2 => 21 | _ => 12

/-- The checks of an entry in the order of R375: none where it passes, else the class 0x6 reason. -/
def pteFault (e : Word) (level kind : Nat) (l64ok : Bool) : Option Nat :=
  let leaf := level == 3 || !bit e 1
  let shift := if level == 3 then (if bit e 6 then 16 else 12) else leafShift level
  if !bit e 0 then some 0
  else if bit e 7 || fld e 46 18 != 0 || (level == 0 && !bit e 1) || (level == 3 && bit e 1) ||
      (bit e 6 && !(level == 3 && l64ok)) || (!leaf && fld e 2 4 != 0) || (leaf && e.toNat % 2 ^ shift / 2 ^ 12 != 0) then some 2
  else if leaf && (((bit e 4 || bit e 5) && level == 3 && !bit e 6) || (bit e 5 && !bit e 4)) then some 3
  else if leaf && (((kind == 1 || kind == 2) && !bit e 2) || (kind == 3 && !bit e 3)) then some 1
  else none

def oaOf (e : Word) : Nat := (fld e 12 34).toNat * 2 ^ 12

/-- The walk from a table at VF physical address `table` (R374 to R377); the fuel is the levels left. -/
def walk (s : State) (v : Vf) (va : Word) (kind : Nat) : Nat → Nat → Except (BitVec 10) (Nat × BitVec 4)
  | 0, _ => .error (cause6 3 kind 2)
  | fuel + 1, table => do
    let level := 3 - fuel
    let idx := (va.toNat / 2 ^ (39 - 9 * level)) % 512
    let head ← readPte s v (table + (if level = 3 then idx / 16 * 16 else idx) * 8) kind
    let group := level == 3 && bit head 0 && bit head 6
    let e ← if level = 3 ∧ !group then readPte s v (table + idx * 8) kind else .ok head
    match pteFault e level kind (group || (level == 3 && idx % 16 == 0)) with
    | some r => .error (cause6 level kind r)
    | none =>
      if level ≠ 3 ∧ bit e 1 then walk s v va kind fuel (oaOf e)
      else
        let shift := if group then 16 else leafShift level
        .ok (oaOf e / 2 ^ shift * 2 ^ shift + va.toNat % 2 ^ shift, fld e 2 4)

/-- Translates a canonical virtual address of a VF (R374 to R378). A cached translation is used where there is one; a cached
leaf that lacks the permission faults as its walk would. -/
def translate (s : State) (vfn : Nat) (va : Word) (kind : Nat) : Except (BitVec 10) Xlat :=
  match getVf s vfn with
  | none => .error (cause7 0 kind 1)
  | some v => do
    let (pa, attr) ←
      match v.trn.tlb.find? fun t => t.1 == va.toNat / 2 ^ 12 with
      | some (_, base, attr) =>
        if ((kind == 1 || kind == 2) && !attr.getLsbD 0) || (kind == 3 && !attr.getLsbD 1) then
          walk s v va kind 4 v.trn.root.toNat
        else .ok (base.toNat + va.toNat % 2 ^ 12, attr)
      | none => walk s v va kind 4 v.trn.root.toNat
    let k ← secondStage s v pa kind
    pure (k, pa / 2 ^ 44 % 4, attr)

/-- Package addresses of the entries that a walk from a table reads: at level 3 the first of the group, and the indexed one where the
group is no 64 KiB leaf (R376). The fuel is the levels left. -/
def walkReads (s : State) (v : Vf) (va : Word) : Nat → Nat → List Nat
  | 0, _ => []
  | fuel + 1, table =>
    let level := 3 - fuel
    let idx := va.toNat / 2 ^ (39 - 9 * level) % 512
    match tableStage s v (table + (if level = 3 then idx / 16 * 16 else idx) * 8) 0 with
    | .error _ => []
    | .ok k =>
      let e : Word := BitVec.ofNat 64 (coherentNat s k 8)
      let rest : List Nat :=
        if level ≠ 3 then (if bit e 0 && bit e 1 then walkReads s v va fuel (oaOf e) else [])
        else if (bit e 0 && bit e 6) || idx % 16 == 0 then []
        else match tableStage s v (table + idx * 8) 0 with
          | .error _ => []
          | .ok k => [k]
      k :: rest

/-- Addresses of the entries that the translation of an address reads: none where it is cached (R378). -/
def xlatReads (s : State) (vfn : Nat) (va : Word) : List Nat :=
  match getVf s vfn with
  | none => []
  | some v => if v.trn.tlb.any fun t => t.1 == va.toNat / 2 ^ 12 then [] else walkReads s v va 4 v.trn.root.toNat

/-- Counts the bytes of the entries that a translation reads (Table 22-3). -/
def countWalk (s : State) (vfn : Nat) (va : Word) : State := (xlatReads s vfn va).foldl (fun s k => countMoved s k 8 false) s

/-- Cause of a poisoned word of HBM or of the second tier (R47). -/
def poisonCause (k : Nat) : BitVec 10 := if isHbm k then 0x389 else 0x38A

/-- A translation for an agent that is no warp, whose walk fails at a poisoned entry (R419, log entry 46). -/
def translateClean (s : State) (vfn : Nat) (va : Word) (kind : Nat) : Except (BitVec 10) Xlat :=
  match (if s.poisoned.isEmpty then none else (xlatReads s vfn va).find? fun k => hasPoison s k 8) with
  | some k => .error (poisonCause k)
  | none => translate s vfn va kind

/-- Consumption of a poisoned word among n bytes at k raises the uncorrectable error of HBM or of the second tier, for the current
gang (R419, R47). -/
def consume (s : State) (k n : Nat) : State :=
  match s.poisoned.find? (inWords k n) with
  | some p => enqueue s [.uncorrectableError (if isHbm k then 9 else 10) (.gang s.b.gang) (BitVec.ofNat 64 (lineOf p * 128))]
  | none => s

/-- A translation for the current gang, also one that faults: its walk's reads are counted, and it consumes the words it reads (R419). -/
def touchWalk (s : State) (vfn : Nat) (va : Word) : State :=
  let t := countWalk s vfn va
  if s.poisoned.isEmpty then t else (xlatReads s vfn va).foldl (fun t k => consume t k 8) t

/-- Caches the translation of an address whose walk ended without a fault (R378), with what the walk does. -/
def cacheXlat (s : State) (vfn : Nat) (va : Word) : State :=
  match getVf s vfn with
  | none => s
  | some v =>
    if v.trn.tlb.any fun t => t.1 == va.toNat / 2 ^ 12 then s
    else
      let s := touchWalk s vfn va
      match walk s v va 0 4 v.trn.root.toNat with
      | .ok (pa, attr) =>
        modVf s vfn fun v => { v with trn := { v.trn with
          tlb := (va.toNat / 2 ^ 12, BitVec.ofNat 64 (pa / 2 ^ 12 * 2 ^ 12), attr) :: v.trn.tlb } }
      | .error _ => s

/-- A not-present first-stage fault (R36, R44). -/
def isNotPresent (c : BitVec 10) : Bool := fld c 6 4 == 6 && fld c 0 2 == 0

end Sys2Proof.Machine
end

