-- ==== Sys2Proof/Machine/Context.lean ====
section
/-! DEFINITION. A VF's context area: what its parts hold, how they are written, tagged and read (R36, R357, R364, R386); and the keys
under which the lines of package memory stand (R355, R356, R360). -/

namespace Sys2Proof.Config

/-- A VF's on-chip state and registers as a context record carries them (R364, R371): the form of the record is the device's own
(log entry 17). -/
structure Context where
  vf : Machine.Vf
  kernels : List Machine.Kernel
  launches : List Machine.Launch
  gangs : List Machine.Gang
  blocks : List Machine.Block
  warps : List Machine.Warp
  footprints : List Machine.FpEntry

/-- The bytes of a context record, and what such bytes hold (log entry 17). -/
opaque contextRecord : Context → List Byte
opaque contextOf : List Byte → Option Context

end Sys2Proof.Config

namespace Sys2Proof.Machine

/-- Offset in a VF's context area at which n bytes are free. -/
def areaSlot (v : Vf) (n : Nat) : Option Nat :=
  (0 :: v.ctx.map fun p => p.off + p.len).find? fun a =>
    decide (a + n ≤ v.policy.ctxBytes) && v.ctx.all fun p => decide (p.off + p.len ≤ a ∨ a + n ≤ p.off)

/-- Package addresses and lengths of n bytes of a VF's segment 0 from byte a, cut at 64 KiB pages; the fuel is the number of pages. -/
def segRuns (s : State) (v : Vf) : Nat → Nat → Nat → List (Nat × Nat)
  | 0, _, _ => []
  | fuel + 1, a, n =>
    let m := min n (65536 - a % 65536)
    if n = 0 then []
    else (partPhys (partDies s v.part) (((v.segs.getD 0 none).map (·.base)).getD 0 + a), m) :: segRuns s v fuel (a + m) (n - m)

/-- Byte of segment 0, and so VF physical address, at which the context area begins (R357). -/
def areaBase (v : Vf) : Nat := ((v.segs.getD 0 none).map (·.len)).getD 0 - v.policy.ctxBytes

def areaRuns (s : State) (v : Vf) (off n : Nat) : List (Nat × Nat) := segRuns s v (n / 65536 + 2) (areaBase v + off) n

def writeArea (s : State) (v : Vf) (off : Nat) (bytes : List Byte) : State :=
  ((areaRuns s v off bytes.length).foldl (fun acc r => (writeGlobal acc.1 r.1 (acc.2.take r.2), acc.2.drop r.2)) (s, bytes)).1

def readArea (s : State) (v : Vf) (off n : Nat) : List Byte := (areaRuns s v off n).flatMap fun r => coherentBytes s r.1 r.2

/-- The work of a VF in the blocks that p selects. -/
def contextOf (s : State) (v : Vf) (p : Block → Bool) : Sys2Proof.Config.Context :=
  let bs := (allBlocks s).filter fun b => b.uid != 0 && b.vf == v.number && p b
  let us := bs.map (·.uid)
  { vf := v, kernels := s.kernels.filter fun k => k.vf == v.number, launches := s.launches.filter fun l => l.vf == v.number
    gangs := s.gangs.filter fun g => g.vf == v.number, blocks := bs, warps := (allWarps s).filter fun w => us.contains w.block
    footprints := s.footprints.filter fun e => us.contains e.block }

/-- Draw of the generator from which a VF's memory key comes. -/
def vfKey (s : State) (v : Vf) : Nat := ((s.datum.keys.find? fun k => k.1 == v.keyId).map (·.2)).getD 0

/-- The tag of a part's encrypted bytes under the context MAC key (R364, log entry 9). -/
def partTag (s : State) (num : Nat) (data : List Byte) : List Byte := fit 16 (Sys2Proof.Config.encrypt s.datum.macKey num data)

/-- Writes n bytes of context at an offset of a VF's context area: a tag, then the context encrypted under the VF's key (R364, R386). -/
def sealPart (s : State) (v : Vf) (gang : Option Nat) (slot : Option (Nat × PcSlot)) (off n : Nat) (x : Sys2Proof.Config.Context) : State :=
  let (num, s) := freshId s
  let data := fit (n - 16) (Sys2Proof.Config.encrypt (vfKey s v) num (Sys2Proof.Config.contextRecord x))
  modVf (writeArea s v off (partTag s num data ++ data)) v.number fun v => { v with
    ctx := v.ctx ++ [{ gang := gang, slot := slot, off := off, len := n, num := num }] }

/-- Whether the tag of a part verifies; over a poisoned word it does not (R419). -/
def partIntact (s : State) (v : Vf) (p : CtxPart) : Bool :=
  let bs := readArea s v p.off p.len
  ((areaRuns s v p.off p.len).all fun r => !hasPoison s r.1 r.2) && bs.take 16 == partTag s p.num (bs.drop 16)

/-! ## The precise state of a slot that has yielded (R36, log entry 47) -/

/-- Bytes of a slot's part: header with tag and sequence, and the state of its warp (Table 19-14). -/
def slotBytes (s : State) : Nat := 64 + 512 + 272 * (s.b.kernel.depth + s.b.kernel.frame)

/-- Writes the current slot's precise state, with the cause that it holds, to its VF's context area, where that has room. -/
def sealSlot (s : State) : State :=
  match getVf s s.b.vf with
  | none => s
  | some v =>
    match areaSlot v (slotBytes s) with
    | none => s
    | some off => sealPart s v none (some (s.w.uid, s.slot)) off (slotBytes s)
        { contextOf s v (fun b => b.uid == s.b.uid) with blocks := [], gangs := [], footprints := [], warps := [s.w] }

/-- The part that holds a slot's precise state, with its VF. -/
def slotPart (s : State) (u : Nat) (p : PcSlot) : Option (Vf × CtxPart) :=
  s.vfs.findSome? fun v => (v.ctx.find? fun x => x.slot == some (u, p)).map fun x => (v, x)

/-- A slot leaves YIELDED: its part is read back and is free, and `f` goes on; a part whose tag fails aborts its gang, as one of a gang
does (R47, R386). -/
def leaveYield (s : State) (u : Nat) (p : PcSlot) (f : State → State) : State :=
  match slotPart s u p with
  | none => f s
  | some (v, x) =>
    let t := modVf s v.number fun v => { v with ctx := v.ctx.filter fun y => y.slot != x.slot }
    if partIntact s v x then f t
    else
      let gang := (((getWarp s u).bind fun w => getBlock s w.block).map (·.gang)).getD 0
      enqueue t [.uncorrectableError 15 (.gang gang) (BitVec.ofNat 64 (areaBase v + x.off))]

/-! ## What package memory holds under keys (R355, R356, R360) -/

/-- Whether a package address lies in a range of segment n of a VF's partition. -/
def inRange (s : State) (part n base len k : Nat) : Bool :=
  let dies := partDies s part
  match n with
  | 0 =>
    isHbm k && match dies.idxOf? (k / 2 ^ 37) with
      | some i =>
        let a := (k % 2 ^ 37 / 2 ^ 16 * dies.length + i) * 2 ^ 16 + k % 2 ^ 16
        decide (base ≤ a ∧ a < base + len)
      | none => false
  | 1 => !isHbm k && !isHost k && decide (tierBase + base ≤ k ∧ k < tierBase + base + len)
  | _ => false

/-- Whether a package address lies in the checkpoint reserve, the top of the second tier (R336, log entry 23). -/
def inReserve (k : Nat) : Bool := decide (tierBase + 1984 * 2 ^ 30 ≤ k ∧ k < 2 ^ 42)

/-- Whether a package address is protected: a granted segment with its context area, the checkpoint reserve, which is the top of the
second tier, or the Datum's own memory (log entry 23). -/
def protectedAddr (s : State) (k : Nat) : Bool :=
  (s.vfs.any fun v => (pageOfVf s v k).isSome) || (!s.ckp.nores && inReserve k) ||
    Sys2Proof.Config.datumPage (k / 65536)

/-- The key under which a line of package memory is stored: that of the VF that it is granted to, the firmware key, which has key ID 0, in
the Datum's own pages, the retired one of the VF that it was taken from, or none (R355, R360). -/
def lineKey (s : State) (line : Nat) : Option Nat :=
  let k := line * 128
  match s.vfs.find? fun v => (pageOfVf s v k).isSome with
  | some v => some (vfKey s v)
  | none =>
    if Sys2Proof.Config.datumPage (k / 65536) then some s.datum.fwKey
    else (s.datum.retired.find? fun x => inRange s x.part x.seg x.base x.len k && !x.plain.contains line).map (·.key)

/-- The tweak of a line: its number in its partition's HBM or in the second tier (R355). -/
def tweakOf (s : State) (line : Nat) : Nat :=
  let k := line * 128
  if isHbm k then
    let dies := partDies s (s.datum.partDie.getD (k / 2 ^ 37) 0)
    ((k % 2 ^ 37 / 2 ^ 16 * dies.length + dies.idxOf (k / 2 ^ 37)) * 2 ^ 16 + k % 2 ^ 16) / 128
  else (k - tierBase) / 128

/-- The 128 bytes of a line as the memory array holds them, which are ciphertext where the line has a key. -/
def storedLine (s : State) (line : Nat) : List Byte :=
  let bytes := readBytes s.mem (line * 128) 128
  match lineKey s line with
  | some key => fit 128 (Sys2Proof.Config.encrypt key (tweakOf s line) bytes)
  | none => bytes

/-- Lines of package memory that n bytes at k touch. -/
def linesTouched (k n : Nat) : List Nat := if n = 0 then [] else (List.range ((k + n - 1) / 128 + 1 - k / 128)).map fun i => k / 128 + i

/-- A read through PF BAR2: the stored bytes, which in a VF's page are ciphertext (R356). -/
def readPfBar2 (s : State) (k n : Nat) : List Byte := (((linesTouched k n).flatMap (storedLine s)).drop (k % 128)).take n

/-- A line under a retired key takes the bytes that the array holds, before a host write changes some of them (R360). -/
def unsealLine (s : State) (line : Nat) : State :=
  if (lineKey s line).isNone then s
  else
    let holds (x : RetiredRange) : Bool := inRange s x.part x.seg x.base x.len (line * 128)
    { s with mem := writeBytes s.mem (line * 128) (storedLine s line)
             datum := { s.datum with retired := mapIf holds (fun x => { x with plain := line :: x.plain }) s.datum.retired } }

end Sys2Proof.Machine
end

