-- ==== Sys2Proof/Machine/Flags.lean ====
section
/-! DEFINITION. The four condition flags of a warp (R173), the branch conditions (Table 07-9), and the IEEE exceptions of a
vector instruction (R175, R206). -/

namespace Sys2Proof.Machine

/-- Z, N, C and V as a format S instruction computes them. -/
structure Zncv where
  z : Bool
  n : Bool
  c : Bool
  v : Bool
  deriving DecidableEq, Repr, Inhabited

/-- Writes the flags whose CCW bits are set: Z is bit 3, N bit 2, C bit 1, V bit 0 (R157, R173). -/
def writeFlags (s : State) (ccw : BitVec 4) (f : Zncv) : State :=
  { s with w := { s.w with
      flagZ := if ccw.getLsbD 3 then f.z else s.w.flagZ
      flagN := if ccw.getLsbD 2 then f.n else s.w.flagN
      flagC := if ccw.getLsbD 1 then f.c else s.w.flagC
      flagV := if ccw.getLsbD 0 then f.v else s.w.flagV } }

/-- Whether a condition holds on the warp's flags (Table 07-9). -/
def condHolds (w : Warp) : Cond → Bool
  | .al => true
  | .eq => w.flagZ
  | .ne => !w.flagZ
  | .lt => w.flagN != w.flagV
  | .ge => w.flagN == w.flagV
  | .le => w.flagZ || w.flagN != w.flagV
  | .gt => !w.flagZ && w.flagN == w.flagV
  | .ult => !w.flagC
  | .uge => w.flagC
  | .ule => !w.flagC || w.flagZ
  | .ugt => w.flagC && !w.flagZ
  | .neg => w.flagN
  | .nneg => !w.flagN
  | .ovf => w.flagV
  | .novf => !w.flagV

/-- Z and N of a result of width n, with the given C and V (R173). -/
def resFlags (n : Nat) (res : Word) (c v : Bool) : Zncv := { z := res.toNat % 2 ^ n == 0, n := res.getLsbD (n - 1), c := c, v := v }

/-- The flags that the lanes of a mask raised together. -/
def unionFlags (m : LaneMask) (fl : List Flags) : Flags :=
  (lanesOf m).foldl (fun a l => a ||| fl.getD l 0) 0

/-- The enabled exception of lowest detail among the raised flags (R206, Table 02-8). -/
def firstEnabled (mode : BitVec 9) (raised : Flags) : Option Nat :=
  (List.range 5).find? fun d => raised.getLsbD d && mode.getLsbD (3 + d)

/-- The class 0x3 trap of an instruction whose active lanes raised these flags: cause and mask of the lanes that raised the
exception (R206). -/
def fpTrap (s : State) (m : LaneMask) (fl : List Flags) : Option (BitVec 10 × Word) :=
  (firstEnabled s.w.mode (unionFlags m fl)).map fun d =>
    (BitVec.ofNat 10 (0x0C0 + d), zx64 (maskOf fun l => inMask m l && (fl.getD l 0).getLsbD d))

/-- Sets sticky flags (R175). -/
def stickFlags (s : State) (f : Flags) : State := { s with w := { s.w with fflags := s.w.fflags ||| f } }

end Sys2Proof.Machine
end

