-- ==== Sys2Proof/Machine/Ops.lean ====
section
/-! DEFINITION. The operations that the meanings share: the current slot, pushes and pending results, lookahead windows, waits,
ending a launch, taking a trap and returning from it, and the outcome of a warp instruction. -/

namespace Sys2Proof.Machine

/-! ## The current slot -/

/-- What an access needs of the home of a line before it can take place: the line's data and, to write, its sub-page (R136, R394);
`bounded` where an LDB asks. -/
structure HomeAsk where
  addr : Nat
  attr : BitVec 4
  write : Bool
  bounded : Bool
  deriving DecidableEq, Repr, Inhabited

/-- Why an instruction ends without its effect: a trap of R6 with its aux word, a wait of R26, or a wait for what homes are asked. -/
inductive Halt where
  | trap (cause : BitVec 10) (aux : Word)
  | stall (r : WaitReason)
  | home (asks : List HomeAsk)
  deriving DecidableEq, Repr

/-- What a warp instruction does: the state it leaves, or why it does not take effect. -/
abbrev Op := Except Halt State

def slotOf (w : Warp) (p : PcSlot) : Slot :=
  match p with
  | .a => w.slotA
  | .b => w.slotB

def setSlot (w : Warp) (p : PcSlot) (x : Slot) : Warp :=
  match p with
  | .a => { w with slotA := x }
  | .b => { w with slotB := x }

def otherSlot : PcSlot → PcSlot
  | .a => .b
  | .b => .a

def cur (s : State) : Slot := slotOf s.w s.slot
def modCur (s : State) (f : Slot → Slot) : State := { s with w := setSlot s.w s.slot (f (cur s)) }

/-- The slot of a warp changed, wherever the warp stands. -/
def modSlot (s : State) (u : Nat) (p : PcSlot) (f : Slot → Slot) : State := modWarp s u fun w => setSlot w p (f (slotOf w p))

/-- members(slot) (R6). -/
def members (s : State) : LaneMask := (cur s).mask

/-- The value of a mask register; m0 reads the membership (R59). -/
def maskReg (s : State) (n : BitVec 3) : LaneMask := if n = 0 then members s else s.w.masks.getD n.toNat 0

/-- active(slot, m) as an instruction reads it that ERET.m does not change (R6, R40). -/
def activeAll (s : State) (ms : BitVec 3) : LaneMask := members s &&& maskReg s ms

/-- active(slot, m) reduced by the lanes that ERET.m suppresses (R6, R40). -/
def active (s : State) (ms : BitVec 3) : LaneMask := activeAll s ms &&& ~~~(cur s).suppress

def scal (s : State) (n : BitVec 5) : Word := s.w.scalars.getD n.toNat 0
def setScal (s : State) (n : BitVec 5) (v : Word) : State := { s with w := { s.w with scalars := setAt s.w.scalars n.toNat v } }
def setMaskReg (s : State) (n : BitVec 3) (v : LaneMask) : State := { s with w := { s.w with masks := setAt s.w.masks n.toNat v } }
def sealWarp (s : State) : State := { s with w := { s.w with sealed := true } }

/-- Lane-by-lane sealing instructions seal only with a lane active (R35). -/
def sealIf (s : State) (m : LaneMask) : State := if m = 0 then s else sealWarp s

def advance (s : State) : State := modCur s fun x => { x with pc := x.pc + 8 }
def setPc (s : State) (pc : Word) : State := modCur s fun x => { x with pc := pc }

def lane (s : State) (l : Nat) : Lane := s.w.lanes.getD l default

/-- Applies f to the lanes of a mask. -/
def mapLanes (m : LaneMask) (f : Nat → Lane → Lane) (ls : List Lane) : List Lane :=
  ls.mapIdx fun i x => if inMask m i then f i x else x

def modLanes (s : State) (m : LaneMask) (f : Nat → Lane → Lane) : State := { s with w := { s.w with lanes := mapLanes m f s.w.lanes } }

/-- Frame size of the current activation of the slot (R58, R64). -/
def frameSize (s : State) : Nat := (lane s (lowLane (members s))).frame.length

def setFrame (s : State) (l n : Nat) (e : Entry) : State :=
  modLanes s (BitVec.ofNat 32 (2 ^ l)) fun _ x => { x with frame := setAt x.frame n e }

/-- Code of the running kernel: base address and length (R307). -/
def codeBase (k : Kernel) : Word := k.obj + BitVec.ofNat 64 k.codeOff
def inCode (k : Kernel) (pc : Word) : Bool := decide ((pc - codeBase k).toNat < k.codeLen)

/-! ## Pushes and pending results (R49 to R52) -/

def pushEntry (d : Nat) (e : Entry) (q : List Entry) : List Entry := e :: q.take (d - 1)

/-- One push: entry row[l] onto the queue of each member lane l, CNT + 1, open windows one age older (R25, R49, R166). -/
def pushRow (s : State) (row : List Entry) : State :=
  let s := modLanes s (members s) fun l x => { x with queue := pushEntry s.w.depth (row.getD l .poison) x.queue }
  modCur s fun x => { x with cnt := x.cnt + 1, windows := x.windows.map fun w => { w with age := w.age + 1 } }

/-- Whether a lane of the mask has a pending entry in its current queue. -/
def pendingIn (s : State) (m : LaneMask) : Bool := (lanesOf m).any fun l => (lane s l).queue.any fun e => e.pend.isSome

/-- The slot's wait for every pending entry of its activation, which ends its windows (R166). -/
def drain (s : State) : Op :=
  if pendingIn s (members s) then .error (.stall .drain) else .ok (modCur s fun x => { x with windows := [] })

/-- Records a new pending result of the slot. -/
def addPend (s : State) (r : PendRes) : State :=
  { s with w := { s.w with ridNext := s.w.ridNext + 1
                           pend := { r with rid := s.w.ridNext, slot := s.slot, mask := members s } :: s.w.pend } }

/-- Pushes n rows of pending entries of result rid. -/
def pushPends (s : State) (rid n : Nat) : State :=
  (List.range n).foldl (fun s i => pushRow s (lanes32.map fun _ => { val := 0, tag := .raw, pend := some (rid, i) })) s

/-- Opens the window of result rid in strict mode, outside recipes (R166). -/
def openWindow (s : State) (la : BitVec 4) (rid n : Nat) : State :=
  if s.w.mode.getLsbD 8 ∧ s.w.recipe = none then
    modCur s fun x => { x with windows := { rid := rid, age := 1, width := n, left := la.toNat } :: x.windows }
  else s

/-- Pushes the pending entries of a long-latency result, opens its window (R52, R166), and records its values. Its arrival is an
event of its own. -/
def pushPending (s : State) (la : BitVec 4) (r : PendRes) (n : Nat) : State :=
  let t := openWindow (pushPends (addPend s r) s.w.ridNext n) la s.w.ridNext n
  enqueue t (if r.ready then [.resultArrival s.w.uid s.w.ridNext] else [])

/-- A pending result with its values, nothing else to add. -/
def PendRes.of (vals : List (List Entry)) (kind : PendKind) : PendRes :=
  { rid := 0, slot := .a, mask := 0, vals := vals, ready := true, kind := kind, lanesLeft := [], stage1 := 0, stage2 := 0, fflags := 0
    holds := 0, lineWaits := [], host := 0 }

/-- Fills the entries of an arrived result wherever they stand in the lanes' queues (R52). -/
def fillEntries (rid : Nat) (vals : List (List Entry)) (lanes : List Lane) : List Lane :=
  lanes.mapIdx fun l x => { x with queue := x.queue.map fun e =>
    match e.pend with
    | some (r, i) => if r = rid then { (vals.getD i []).getD l .poison with pend := none } else e
    | none => e }

/-- What a slot that waits for some results waits for: the first kind in the order of Table 22-1. -/
def pendKind (s : State) (rids : List Nat) : PendKind :=
  let ks := (s.w.pend.filter fun r => rids.contains r.rid).map (·.kind)
  if ks.contains .memory then .memory else if ks.contains .theodolite then .theodolite else .other

/-- The windows that the next instruction of the slot stands in: those that end now must have completed (R166). -/
def stepWindows (s : State) : Op :=
  let x := cur s
  if x.windows.any fun w => w.left == 0 && s.w.pend.any fun r => r.rid == w.rid then
    .error (.stall (.pending (pendKind s ((x.windows.filter fun w => w.left == 0).map (·.rid)))))
  else .ok (modCur s fun x => { x with windows := (x.windows.filter fun w => w.left != 0).map fun w => { w with left := w.left - 1 } })

/-! ## Waits (R26) -/

/-- Reasons under which a slot is in RUN and not eligible, and is tried again in each cycle (R31, R108, R110, R389); the model
notes the reason in the slot's state, where sampling reads it (R406). `home` is the model's own: an access that waits for an answer of a
home, or a release that waits for the accesses that it covers (log entry 29, DESIGN CHOICE). -/
def retries : WaitReason → Bool
  | .jobLimit | .guard | .qos | .footprint | .fence | .home => true
  | _ => false

/-- The slot waits at its instruction. -/
def stallSlot (s : State) (r : WaitReason) : State := modCur s fun x => { x with st := .wait r }

/-- The slots that wait for reason r in warps that p selects. -/
def waiting (s : State) (r : WaitReason) (p : Warp → Bool) : List (Nat × PcSlot) :=
  (allWarps s).flatMap fun w => if p w then ([.a, .b].filter fun q => (slotOf w q).st == .wait r).map fun q => (w.uid, q) else []

/-- A slot in WAIT for one of the reasons goes back to RUN. -/
def wakeSlot (rs : List WaitReason) (x : Slot) : Slot :=
  match x.st with
  | .wait r => if rs.contains r then { x with st := .run } else x
  | _ => x

def wakeWarp (s : State) (u : Nat) (rs : List WaitReason) : State :=
  modWarp s u fun w => { w with slotA := wakeSlot rs w.slotA, slotB := wakeSlot rs w.slotB }

/-- Whether a warp is sealed: marked, or with a slot in HANDLER (R35). -/
def isSealed (w : Warp) : Bool := w.sealed || w.slotA.handler.isSome || w.slotB.handler.isSome

/-! ## Ending gangs and launches (R24, R34, R37, R40) -/

def warpVf (s : State) (w : Warp) : Nat := ((getBlock s w.block).map (·.vf)).getD 0
def warpLaunch (s : State) (w : Warp) : Nat := ((getBlock s w.block).map (·.launch)).getD 0

/-- Events that test again the WAITDEPs of a VF. -/
def wakeWaitdep (s : State) (vf : Nat) : State :=
  enqueue s ((waiting s .waitdep fun w => warpVf s w == vf).map fun q => .waitdepRelease q.1 q.2)

def clusterOf (b : Block) : Nat := b.core / 4
def inCluster (die cluster : Nat) (e : FpEntry) : Bool := e.die == die && e.cluster == cluster

/-- Whether engines run a block's jobs now: its gang is not switched out; a DRAINING block keeps its state while its gang's other
blocks move (R24, R114). -/
def enginesRun (s : State) (b : Block) : Bool :=
  b.st == .running || (b.st == .draining && (getGang s b.gang).any fun g => g.st == .running || g.st == .draining)

/-- The entries of a cluster that wait to re-enter its table. Those of blocks that are switched out have left it (R109). -/
def reentering (s : State) (die cluster : Nat) : List FpEntry :=
  s.footprints.filter fun e => inCluster die cluster e && e.waiting && (getBlock s e.block).any (enginesRun s)

/-- A stream that waits for reason r has a step ready again. -/
def wakeStream (r : StreamWait) (b : Block) : Block :=
  { b with stream := b.stream.map fun m => if m.wait = r then { m with wait := .none } else m }

/-- What may wait on an entry of a cluster is tested again: streams, and by events BANKCFG drains, waiting entries and chunks. -/
def wakeCluster (s : State) (die cluster : Nat) : State :=
  let here (b : Block) : Bool := b.die == die && clusterOf b == cluster
  let jobs := (s.footprints.filter (inCluster die cluster)).filterMap fun e => e.job.map fun n => Instr.sluiceChunkStart e.block n
  let drains := (waiting s .bankcfg fun w => (getBlock s w.block).any here).map fun q => Instr.bankcfgDrainEnd q.1 q.2
  let grants := if (reentering s die cluster).isEmpty then [] else [Instr.footprintEntryGrant die cluster]
  enqueue (mapBlocks s fun b => if here b then wakeStream .edge b else b) (grants ++ drains ++ jobs)

/-- Takes a gang's blocks, warps, footprint entries and other resources from the module at one instant; the banks of one that has retired
keep their bytes (R22, R24, R294). -/
def releaseGang (s : State) (g : Gang) (st : BlockState) : State :=
  let gone (b : Block) : Bool := g.blocks.contains b.uid
  let fp (e : FpEntry) : Bool := g.blocks.contains e.block
  let left := ((s.footprints.filter fp).map fun e => (e.die, e.cluster)).eraseDups
  let part := ((getVf s g.vf).map (·.part)).getD 0
  let s := if st = .retired then { s with remains := s.remains ++ (allBlocks s).filter fun b => b.uid != 0 && gone b } else s
  let s := { s with footprints := s.footprints.filter (! fp ·)
                    warps := s.warps.filter fun w => !g.blocks.contains w.block
                    blocks := s.blocks.filter (! gone ·) }
  let s := if g.blocks.contains s.w.block then { s with w := .empty, slot := .a } else s
  let s := if gone s.b then { s with b := .empty, onStream := false } else s
  let s := modGang s g.uid fun g => { g with st := st, blocks := [] }
  let s := modVf s g.vf fun v => { v with
    ctx := v.ctx.filter fun p => p.gang != some g.uid && p.slot.all fun x => (allWarps s).any fun w => w.uid == x.1 }
  enqueue (left.foldl (fun s c => wakeCluster s c.1 c.2) s) [.gangPlace part]

def liveGang (g : Gang) : Bool := g.st != .retired && g.st != .aborted

/-- Ends a launch as ABORT does: gangs not yet placed are never placed, placed gangs stop, dependents are released, and the
first cause stands (R40, R34). -/
def abortLaunch (s : State) (vf id : Nat) (cause : BitVec 10) (aux : Word) : State :=
  match getLaunch s vf id with
  | none => s
  | some l =>
    if l.aborted || l.completed then s
    else
      let s := modLaunch s vf id fun l => { l with aborted := true, cause := cause, aux := aux }
      let s := (s.gangs.filter fun g => g.vf == vf && g.launch == id && liveGang g).foldl (fun s g => releaseGang s g .aborted) s
      wakeWaitdep (enqueue s [.launchCompletion vf id]) vf

/-- Ends the launch of the current warp. -/
def abortCurrent (s : State) (cause : BitVec 10) (aux : Word) : State := abortLaunch s s.b.vf s.b.launch cause aux

/-! ## Counters (R410) -/

/-- Adds n events of a selector to the counters of a VF that count it (R410). -/
def countEvent (s : State) (vf sel n : Nat) : State :=
  modVf s vf fun v =>
    let hit (i : Nat) : Bool := v.selectors.getD i 0 == BitVec.ofNat 8 sel && sel != 0
    { v with counters := v.counters.mapIdx fun i c => if hit i then c + BitVec.ofNat 64 n else c }

/-- Counts n events for a block: in its VF's counters and in its partition's page. -/
def countBoth (s : State) (b : Block) (sel idx n : Nat) : State := if n = 0 then s else countPage (countEvent s b.vf sel n) b.part idx n

/-- An L2 miss of a die: for the VF whose agent fetches the line and in the die's partition's page (Tables 22-3 and 22-7). -/
def countMiss (s : State) (vf die : Nat) : State := countPage (countEvent s vf 0x06 1) (s.datum.partDie.getD die 0) 6 1

/-! ## Asking a home (R135, R136, R394) -/

/-- The directory entry of a page of HBM, created with the attributes of its first access (R135). -/
def openEntry (s : State) (k : Nat) (attr : BitVec 4) : State :=
  if !isHbm k || (getDir s (pageOf k)).isSome then s else setDir s (newDir (pageOf k) (rndAttr attr) (pshAttr attr))

/-- A die sends RD for a line, unless one of its own is not answered yet. -/
def askLine (s : State) (vf d k : Nat) (attr : BitVec 4) : State :=
  if (getDie s d).reads.contains (lineOf k) then s
  else
    let s := modDie (openEntry s k attr) d fun x => { x with reads := lineOf k :: x.reads }
    sendMsg (countMiss s vf d) d (homeOf k) (.rd d (lineOf k))

/-- A die sends WREQ for a sub-page, unless one of its own is not answered yet. -/
def askOwn (s : State) (d k : Nat) (attr : BitVec 4) : State :=
  let x := (pageOf k, subOf (lineOf k))
  if (getDie s d).wants.contains x then s
  else sendMsg (modDie (openEntry s k attr) d fun y => { y with wants := x :: y.wants }) d (homeOf k) (.wreq d x.1 x.2)

/-- What a store at an address still needs: the line, then the sub-page. -/
def askStore (s : State) (vf d k : Nat) (attr : BitVec 4) : State :=
  let s := if holdsFresh s d k then s else askLine s vf d k attr
  if mayWrite s d k then s else askOwn s d k attr

/-- One request of the current block; an LDB's fetches are counted (Table 22-7). -/
def askOne (s : State) (x : HomeAsk) : State :=
  if x.write then askStore s s.b.vf s.b.die x.addr x.attr
  else
    let s := if x.bounded && !(getDie s s.b.die).reads.contains (lineOf x.addr) then countEvent s s.b.vf 0x10 1 else s
    askLine s s.b.vf s.b.die x.addr x.attr

def askHome (s : State) (xs : List HomeAsk) : State := xs.foldl askOne s

/-! ## Stores in flight and what waits for them (R33, R120, R122 to R128) -/

/-- Issues one access of a store: it is in flight, and performs at a time that the spec leaves open, within half of R33's bound (log
entry 29). -/
def issueAccess (sync : Bool) (s : State) (c : AccessCell) : State :=
  let (id, s) := freshId s
  let (v, s) := drawFree s
  let a : Access := { id := id, warp := s.w.uid, vf := s.b.vf, die := s.b.die, sync := sync, cell := c }
  after { s with inflight := s.inflight ++ [a] } (v.toNat % 13500) (.accessPerformed id)

def issueAccesses (s : State) (sync : Bool) (cells : List AccessCell) : State := cells.foldl (issueAccess sync) s

/-- Whether an access in flight is one of the current slot's member lanes (R128). -/
def ofMembers (s : State) (a : Access) : Bool := a.warp == s.w.uid && inMask (members s) a.cell.lane

/-- Whether a load of a member lane waits for pushed data, or its RADV for the round (R137, R139). -/
def membersWait (s : State) : Bool :=
  s.w.pend.any fun r => r.lineWaits.any fun x => inMask (members s) x.1

/-- What a release covers has taken place: the accesses of the slot's member lanes have performed (R124, R128). -/
def released (r : WaitReason) (s : State) : Op :=
  if membersWait s || s.inflight.any (ofMembers s) then .error (.stall r) else .ok s

/-- The release stores of the slot's member lanes have performed, as the order of synchronising operations asks (R122). -/
def synced (s : State) : Op := if s.inflight.any fun a => a.sync && ofMembers s a then .error (.stall .home) else .ok s

/-- Whether a store in flight of the warp overlaps n bytes at k (R120). -/
def storeOver (s : State) (k n : Nat) : Bool :=
  s.inflight.any fun a => a.warp == s.w.uid && decide (a.cell.addr < k + n ∧ k < a.cell.addr + a.cell.bytes.length)

/-! ## Taking a trap (R36, R39) and returning (R40) -/

/-- The four seeded pushes of a handler's queue, newest first (R39). -/
def handlerQueue (d : Nat) (cause : BitVec 10) (aux pc : Word) (m : LaneMask) : List Entry :=
  ([(⟨zx64 m, .n32, none⟩ : Entry), ⟨pc, .addr, none⟩, ⟨aux, .raw, none⟩, ⟨zx64 cause, .n32, none⟩] ++
    List.replicate d Entry.poison).take d

/-- The faulting slot enters HANDLER at the kernel's handler (R39): its queue and CNT are set aside, the handler's queue is
seeded, CNT restarts, windows end, and the warp is sealed (R35). The VF's counters count a delivered trap (Table 22-7). -/
def enterHandler (s : State) (entry : Nat) (cause : BitVec 10) (aux : Word) : State :=
  let x := cur s
  let h : Handler := { queues := s.w.lanes.map (·.queue), cnt := x.cnt, cause := cause, aux := aux, pc := x.pc }
  let s := modLanes s x.mask fun _ y => { y with queue := handlerQueue s.w.depth cause aux x.pc x.mask }
  let s := countEvent s s.b.vf 0x0E 1
  sealWarp (modCur s fun x => { x with
    pc := codeBase s.b.kernel + BitVec.ofNat 64 entry, cnt := 0, st := .run, windows := [], suppress := 0, handler := some h })

/-- A not-present page yields the slot: its precise state goes to the context area with the cause (log entry 47), a fault record with the
warp's ID is queued, and it waits (R36, R379). A record that an earlier stay of the slot in YIELDED has left unwritten is replaced: one
record waits for each slot. -/
def yieldFault (s : State) (cause : BitVec 10) (va : Word) : State :=
  let x := cur s
  let r : FaultRec := { warp := s.w.uid, ident := s.w.ident, slot := s.slot, va := va, cause := cause, pc := x.pc }
  let s := modCur s fun x => { x with st := .yielded, yieldRec := some { cause := cause, va := va } }
  let s := modVf s s.b.vf fun v => { v with trn := { v.trn with
    waiting := (v.trn.waiting.filter fun x => !(x.warp == r.warp && x.slot == r.slot)) ++ [r] } }
  let s := countEvent s s.b.vf 0x0D 1
  enqueue (sealSlot s) [.faultRecordWrite s.b.vf]

/-- Delivers a trap to the handler: a kernel with none, and a recipe, end the launch with the cause; a trap inside a handler
ends it with HANDLER_TRAP (R39, R320). -/
def deliverTrap (s : State) (cause : BitVec 10) (aux : Word) : State :=
  if (cur s).handler.isSome then abortCurrent s 0x108 (zx64 cause)
  else if s.w.recipe.isSome then abortCurrent s cause aux
  else
    match s.b.kernel.handler with
    | none => abortCurrent s cause aux
    | some entry => enterHandler s entry cause aux

/-- Takes a trap: after the wait for the slot's pending entries (R52, R166), a not-present fault yields
while the VF's fault queue is enabled (R36, R379), any other trap is delivered. The aux word of a translation fault is the address whose
walk it ends (R44, R45). -/
def takeTrap (s : State) (cause : BitVec 10) (aux : Word) : State :=
  if pendingIn s (members s) then stallSlot s .drain
  else
  let s := if fld cause 6 4 = 6 ∨ fld cause 6 4 = 7 then touchWalk s s.b.vf aux else s
  if isNotPresent cause && ((getVf s s.b.vf).map fun v => v.trn.fqEnable).getD false then yieldFault s cause aux
  else deliverTrap s cause aux

/-- Cause after which ERET continues at the next instruction: class 0xF, and DEBUG_DENIED, which only BKPT raises (R40, R48). -/
def resumesAfter (cause : BitVec 10) : Bool := fld cause 6 4 == 15 || cause == 0x343

/-- Returns from the handler: queue and CNT as at the trap, the lanes of `sup` suppressed in the next execution (R40, R191). -/
def returnFromTrap (s : State) (sup : LaneMask) : Op :=
  match (cur s).handler with
  | none => .error (.trap 0x107 0)
  | some h => do
    let s ← drain s
    let s := modLanes s (members s) fun l y => { y with queue := h.queues.getD l [] }
    pure (modCur s fun x => { x with
      pc := if resumesAfter h.cause then h.pc + 8 else h.pc, cnt := h.cnt, st := .run, handler := none, suppress := sup &&& x.mask })

/-! ## The outcome of a warp instruction -/

/-- The state after a warp instruction, trap or wait: always a next state (R5, R39, R26). -/
def settle (s : State) (r : Op) : State :=
  match r with
  | .ok t => t
  | .error (.trap c a) => takeTrap s c a
  | .error (.stall r) => stallSlot s r
  | .error (.home xs) => stallSlot (askHome s xs) .home

/-- The lanes that ERET.m suppressed are suppressed in one execution only (R40). -/
def endSuppress (s : State) : State := modCur s fun x => { x with suppress := 0 }

/-- Runs a warp instruction whose effect is `body`; the PC is its own. -/
def runCtl (s : State) (body : State → Op) : Host.Outcome State Fault Refusal :=
  .next (settle s do let t ← stepWindows s; let t ← body t; pure (endSuppress t))

/-- Runs a warp instruction whose effect is `body` and which continues at PC + 8. -/
def runSeq (s : State) (body : State → Op) : Host.Outcome State Fault Refusal :=
  runCtl s fun t => do let t ← body t; pure (advance t)

end Sys2Proof.Machine
end

