-- ==== Sys2Proof/Machine/Operands.lean ====
section
/-! DEFINITION. The operand field of a lane (Table 03-6), the tag modes (R57), pass-through (R53), and the common frame of the
result-producing instructions (R203, R206). -/

namespace Sys2Proof.Machine

/-- A value with its tag. -/
abbrev Val := Word × Ty

/-- One value for each of the 32 lanes. -/
abbrev Row := List Val

def at_ (x : Row) (l : Nat) : Val := x.getD l (0, .raw)

/-- An entry that holds a value. -/
def entryOf (v : Val) : Entry := { val := v.1, tag := v.2, pend := none }

/-- What operand field x holds for lane l, with its tag before the tag modes (Table 03-6, R59 to R61). A scalar keeps its 64 bits, also
where they are not in Table 03-4's form of the expected tag (log entry 47, DEDUCED: R59 beside R60). -/
def srcValue (s : State) (l : Nat) (exp : Ty) : Src → Val
  | .age n => let e := (lane s l).queue.getD n.toNat .poison; (e.val, e.tag)
  | .frame n => let e := (lane s l).frame.getD n.toNat .poison; (e.val, e.tag)
  | .scalar n => (scal s n, exp)
  | .zero => (0, exp)
  | .one => (oneOf exp, exp)
  | .laneNum => (BitVec.ofNat 64 l, .n32)
  | .warpNum => (BitVec.ofNat 64 s.w.num, .n32)
  | .tileLane => (BitVec.ofNat 64 (l % s.w.tile), .n32)
  | .tileId => (BitVec.ofNat 64 (l / s.w.tile), .n32)
  | .imm v => ((immValue exp v).getD 0, exp)

/-- Whether an age stands inside an open window (R166). -/
def inWindow (s : State) (age : Nat) : Bool := (cur s).windows.any fun w => decide (w.age ≤ age ∧ age < w.age + w.width)

/-- AGE_RANGE, FRAME_RANGE and LOOKAHEAD of an operand field (R49, R58, R166). -/
def srcRange (s : State) : Src → Except Halt Unit
  | .age n =>
    if s.w.depth ≤ n.toNat then .error (.trap 0x040 (BitVec.ofNat 64 (n.toNat + 1)))
    else if inWindow s (n.toNat + 1) then .error (.trap 0x043 (BitVec.ofNat 64 (n.toNat + 1)))
    else .ok ()
  | .frame n => if frameSize s ≤ n.toNat then .error (.trap 0x041 (zx64 n)) else .ok ()
  | _ => .ok ()

/-- Whether a member lane's entry that the field names is pending (R52). -/
def srcPending (s : State) : Src → Bool
  | .age n => (lanesOf (members s)).any fun l => ((lane s l).queue.getD n.toNat .poison).pend.isSome
  | _ => false

/-- The results that the field's entries in member lanes wait for. -/
def srcRids (s : State) : Src → List Nat
  | .age n => (lanesOf (members s)).filterMap fun l => ((lane s l).queue.getD n.toNat .poison).pend.map (·.1)
  | _ => []

/-- TAG_UNCONVERTIBLE and TAG_MISMATCH carry tag and TY (Table 02-7). -/
def tagAux (t ty : Ty) : Word := zx64 (tyCode t) <<< 4 ||| zx64 (tyCode ty)

/-- A lane's operand under the warp's tag mode (Table 03-5): expected tag exp, TY field ty, and whether any tag is accepted. A
convert-mode conversion does not flush: R76 lists none. An operand marked any keeps a poison tag in ignore mode, so SEL and SHFL
of it push that tag (log entry 28, DEDUCED: R205 beside R57). -/
def tagRule (s : State) (exp ty : Ty) (any : Bool) (v : Val) : Except Halt Val :=
  if v.2 = exp then .ok v
  else
    match (fld s.w.mode 0 2).toNat with
    | 0 => if any then .ok v else .error (.trap 0x080 (tagAux v.2 ty))
    | 1 =>
      if v.2 = .poison then .error (.trap 0x081 (tagAux v.2 ty))
      else if any then .ok v
      else if isNumeric v.2 && isNumeric exp then .ok ((convert v.2 exp .rne 0 false v.1).1, exp)
      else .error (.trap 0x081 (tagAux v.2 ty))
    | _ => .ok v

/-- Reads a field for every lane (R5, R203), with the tag rules in the lanes of chk, in the order of R171: range, lookahead,
wait, POISON, tag traps. -/
def readRow (s : State) (x : Src) (exp ty : Ty) (any : Bool) (chk : LaneMask) : Except Halt Row := do
  srcRange s x
  if srcPending s x then .error (.stall (.pending (pendKind s (srcRids s x))))
  let raw := lanes32.map fun l => srcValue s l exp x
  if fld s.w.mode 0 2 == 0 && (lanesOf chk).any fun l => (at_ raw l).2 == .poison then
    .error (.trap 0x042 (zx64 (srcField x)))
  lanes32.mapM fun l => if inMask chk l then tagRule s exp ty any (at_ raw l) else .ok (at_ raw l)

/-- Operand A: checked in every member lane, since pass-through reads it (R54, R203). -/
def readA (s : State) (x : Src) (exp ty : Ty) (any : Bool := false) : Except Halt Row := readRow s x exp ty any (members s)

/-- Any other operand, and operand A of an instruction that pushes nothing: checked in the active lanes (R203, log entry 25). -/
def readB (s : State) (m : LaneMask) (x : Src) (exp ty : Ty) (any : Bool := false) : Except Halt Row := readRow s x exp ty any m

/-- A row as an instruction of type t uses it: the low bits of the expected width, which in ignore mode an entry of another tag may
exceed (R57). -/
def lowBits (t : Ty) (x : Row) : Row := if t = .raw then x else x.map fun v => (formOf t v.1, v.2)

/-- The entries an instruction pushes: results in active lanes, operand A or a zero with the result's tag in the others
(R53, Table 03-3). -/
def mergeRow (m : LaneMask) (mz : Bool) (res : Row) (a : Row) : List Entry :=
  lanes32.map fun l => entryOf (if inMask m l then at_ res l else if mz then (0, (at_ res l).2) else at_ a l)

/-- A row computed lane by lane in the form of Table 03-4. -/
def rowOf (t : Ty) (f : Nat → Word) : Row := lanes32.map fun l => (formOf t (f l), t)

/-- Pushes results at once: a short-latency instruction (R165). -/
def pushShort (s : State) (h : VHead) (res a : Row) : State := pushRow s (mergeRow (active s h.ms) h.mz res a)

/-- One-operand instruction without exceptions: f of operand A, result tag t. -/
def vec1 (h : VHead) (t : Ty) (a : Src) (f : Word → Word) (s : State) : Op := do
  let x ← readA s a h.ty h.ty
  pure (pushShort s h (rowOf t fun l => f (at_ x l).1) x)

/-- Two-operand instruction without exceptions; operand B expects eb. -/
def vec2 (h : VHead) (t eb : Ty) (a b : Src) (f : Word → Word → Word) (s : State) : Op := do
  let x ← readA s a h.ty h.ty
  let y ← readB s (active s h.ms) b eb h.ty
  pure (pushShort s h (rowOf t fun l => f (at_ x l).1 (at_ y l).1) x)

/-- Three-operand instruction without exceptions; operand C expects ec. -/
def vec3 (h : VHead) (t eb ec : Ty) (a b c : Src) (f : Word → Word → Word → Word) (s : State) : Op := do
  let x ← readA s a h.ty h.ty
  let y ← readB s (active s h.ms) b eb h.ty
  let z ← readB s (active s h.ms) c ec h.ty
  pure (pushShort s h (rowOf t fun l => f (at_ x l).1 (at_ y l).1 (at_ z l).1) x)

/-- Values and flags of the lanes of a floating-point instruction. -/
abbrev FRow := List (Word × Flags)

def ftz (s : State) : Bool := s.w.mode.getLsbD 2

/-- Ends a floating-point instruction: an enabled exception traps, else flags stick and the results are pushed (R175, R206). -/
def pushFloat (s : State) (h : VHead) (t : Ty) (res : FRow) (a : Row) : Op :=
  let m := active s h.ms
  let fl := res.map (·.2)
  match fpTrap s m fl with
  | some (c, x) => .error (.trap c x)
  | none => .ok (stickFlags (pushShort s h (rowOf t fun l => (res.getD l (0, 0)).1) a) (unionFlags m fl))

/-- As pushFloat for a long-latency instruction: results and flags come at its completion (R175). -/
def pushFloatLong (s : State) (la : BitVec 4) (h : VHead) (t : Ty) (res : FRow) (a : Row) : Op :=
  let m := active s h.ms
  let fl := res.map (·.2)
  match fpTrap s m fl with
  | some (c, x) => .error (.trap c x)
  | none =>
    let row := mergeRow m h.mz (rowOf t fun l => (res.getD l (0, 0)).1) a
    .ok (pushPending s la { PendRes.of [row] .other with fflags := unionFlags m fl } 1)

end Sys2Proof.Machine
end

