-- ==== Sys2Proof/Machine/Scalar.lean ====
section
/-! DEFINITION. The scalar instructions of group 0x2 without memory access (R199 to R201). -/

namespace Sys2Proof.Machine

/-- A w-bit pattern read as signed. -/
def sgn (w n : Nat) : Int := if n < 2 ^ (w - 1) then n else (n : Int) - (2 ^ w : Nat)

/-- An integer reduced modulo 2^w. -/
def wrap (w : Nat) (n : Int) : Nat := (n % (2 ^ w : Nat)).toNat

/-- A w-bit pattern read in TY's signedness. -/
def inSign (t : Ty) (n : Nat) : Int := if isSigned t then sgn (intWidth t) n else n

/-- Operand b of format S: a scalar, or imm16 extended by the signedness of TY (R199). -/
def sOperand (s : State) (t : Ty) : SOp2 → Word
  | .reg n => scal s n
  | .imm v => if isSigned t then sx64 v else zx64 v

/-- The w low bits of a scalar. -/
def low (t : Ty) (v : Word) : Nat := v.toNat % 2 ^ intWidth t

/-- Writes a w-bit result to s[sd], extended as R199 says, and the enabled flags. -/
def writeScalar (s : State) (t : Ty) (sd : BitVec 5) (r : Nat) (ccw : BitVec 4) (c v : Bool) : State :=
  let res := reshape t (BitVec.ofNat 64 r)
  writeFlags (setScal s sd res) ccw (resFlags (intWidth t) res c v)

/-- A two-operand scalar instruction: f takes the width and both operands as bit patterns and gives result, C and V. -/
def scalarOp (x : SArgs) (f : Nat → Nat → Nat → Nat × Bool × Bool) (s : State) : Op :=
  let (r, c, v) := f (intWidth x.ty) (low x.ty (scal s x.sa)) (low x.ty (sOperand s x.ty x.b))
  .ok (writeScalar s x.ty x.sd r x.ccw c v)

def outside (w : Nat) (n : Int) : Bool := decide (n < -(2 ^ (w - 1) : Nat)) || decide ((2 ^ (w - 1) : Nat) ≤ n)

def addVal (w a b : Nat) : Nat × Bool × Bool := ((a + b) % 2 ^ w, decide (2 ^ w ≤ a + b), outside w (sgn w a + sgn w b))
def subVal (w a b : Nat) : Nat × Bool × Bool := (wrap w ((a : Int) - b), decide (b ≤ a), outside w (sgn w a - sgn w b))
def mulVal (w a b : Nat) : Nat × Bool × Bool := (a * b % 2 ^ w, decide (2 ^ w ≤ a * b), outside w (sgn w a * sgn w b))

def shlVal (w a n : Nat) : Nat × Bool × Bool :=
  (if w ≤ n then 0 else a * 2 ^ n % 2 ^ w, decide (1 ≤ n ∧ n ≤ w) && a.testBit (w - n), false)
def shrVal (w a n : Nat) : Nat × Bool × Bool :=
  (if w ≤ n then 0 else a / 2 ^ n, decide (1 ≤ n ∧ n ≤ w) && a.testBit (n - 1), false)
def sarVal (w a n : Nat) : Nat × Bool × Bool :=
  (wrap w (sgn w a / (2 ^ min n w : Nat)), decide (1 ≤ n) && a.testBit (min n w - 1), false)

/-- A field of a value extended to unbounded width (R201, R209). -/
def fieldOf (signed : Bool) (w a pos len : Nat) : Nat :=
  let x : Int := if signed then sgn w a else a
  if len = 0 then 0
  else
    let f := wrap len (x / (2 ^ pos : Nat))
    wrap w (if signed then sgn len f else f)

def execSadd (x : SArgs) (s : State) : Host.Outcome State Fault Refusal := runSeq s (scalarOp x addVal)
def execSsub (x : SArgs) (s : State) : Host.Outcome State Fault Refusal := runSeq s (scalarOp x subVal)
def execSmul (x : SArgs) (s : State) : Host.Outcome State Fault Refusal := runSeq s (scalarOp x mulVal)
def execSmulh (x : SArgs) (s : State) : Host.Outcome State Fault Refusal :=
  runSeq s (scalarOp x fun w a b => (wrap w (inSign x.ty a * inSign x.ty b / (2 ^ w : Nat)), false, false))
def execSand (x : SArgs) (s : State) : Host.Outcome State Fault Refusal := runSeq s (scalarOp x fun _ a b => (a &&& b, false, false))
def execSor (x : SArgs) (s : State) : Host.Outcome State Fault Refusal := runSeq s (scalarOp x fun _ a b => (a ||| b, false, false))
def execSxor (x : SArgs) (s : State) : Host.Outcome State Fault Refusal := runSeq s (scalarOp x fun _ a b => (a ^^^ b, false, false))
def execSshl (x : SArgs) (s : State) : Host.Outcome State Fault Refusal := runSeq s (scalarOp x shlVal)
def execSshr (x : SArgs) (s : State) : Host.Outcome State Fault Refusal := runSeq s (scalarOp x shrVal)
def execSsar (x : SArgs) (s : State) : Host.Outcome State Fault Refusal := runSeq s (scalarOp x sarVal)
def execSmin (x : SArgs) (s : State) : Host.Outcome State Fault Refusal :=
  runSeq s (scalarOp x fun _ a b => (if inSign x.ty b < inSign x.ty a then b else a, false, false))
def execSmax (x : SArgs) (s : State) : Host.Outcome State Fault Refusal :=
  runSeq s (scalarOp x fun _ a b => (if inSign x.ty a < inSign x.ty b then b else a, false, false))

/-- SCMP computes the flags of SSUB and writes no scalar (R200). -/
def execScmp (ty : Ty) (sa : BitVec 5) (b : SOp2) (ccw : BitVec 4) (s : State) : Host.Outcome State Fault Refusal :=
  runSeq s fun s =>
    let (r, c, v) := subVal (intWidth ty) (low ty (scal s sa)) (low ty (sOperand s ty b))
    .ok (writeFlags s ccw (resFlags (intWidth ty) (BitVec.ofNat 64 r) c v))

def execSmov (ty : Ty) (sd sa : BitVec 5) (ccw : BitVec 4) (s : State) : Host.Outcome State Fault Refusal :=
  runSeq s fun s => .ok (writeScalar s ty sd (low ty (scal s sa)) ccw false false)

/-- SMOVI: with TY raw the scalar shifts left by 16 bits and takes the immediate (R201). -/
def execSmovi (ty : Ty) (sd sa : BitVec 5) (v : BitVec 16) (ccw : BitVec 4) (s : State) : Host.Outcome State Fault Refusal :=
  runSeq s fun s =>
    let r := if ty = .raw then ((scal s sa).toNat * 2 ^ 16 + v.toNat) % 2 ^ 64 else low ty (sOperand s ty (.imm v))
    .ok (writeScalar s ty sd r ccw false false)

/-- SSEL reads the flags and writes none (R201). -/
def execSsel (cond : Cond) (ty : Ty) (sd sa : BitVec 5) (b : SOp2) (s : State) : Host.Outcome State Fault Refusal :=
  runSeq s fun s => .ok (writeScalar s ty sd (if condHolds s.w cond then low ty (scal s sa) else low ty (sOperand s ty b)) 0 false false)

def execSclz (ty : Ty) (sd sa : BitVec 5) (ccw : BitVec 4) (s : State) : Host.Outcome State Fault Refusal :=
  runSeq s fun s => .ok (writeScalar s ty sd (intWidth ty - bitLen (low ty (scal s sa))) ccw false false)

def execSpopc (ty : Ty) (sd sa : BitVec 5) (ccw : BitVec 4) (s : State) : Host.Outcome State Fault Refusal :=
  runSeq s fun s => .ok (writeScalar s ty sd (popNat 64 (low ty (scal s sa))) ccw false false)

/-- SBFE: pos is b bits 5:0 and len is b bits 12:6, at most 64 (R201). -/
def execSbfe (x : SArgs) (s : State) : Host.Outcome State Fault Refusal :=
  runSeq s (scalarOp x fun w a b => (fieldOf (isSigned x.ty) w a (b % 64) (min (b / 64 % 128) 64), false, false))

end Sys2Proof.Machine
end

