-- ==== Sys2Proof/Machine/VecInt.lean ====
section
/-! DEFINITION. The vector integer instructions of group 0x3 (R208 to R210). -/

namespace Sys2Proof.Machine

/-- An operand value as an integer of TY's width, signed for i32 and i64 (R208). -/
def num (t : Ty) (v : Word) : Int := inSign t (low t v)

/-- The exact value clamped to TY's range with SAT, else reduced modulo 2^w (R208, R70). -/
def narrow (t : Ty) (sat : Bool) (n : Int) : Word :=
  BitVec.ofNat 64 (wrap (intWidth t) (if sat then (clampInt t n).1 else n))

def execIadd (h : VHead) (sat : Bool) (a b : Src) (s : State) : Host.Outcome State Fault Refusal :=
  runSeq s (vec2 h h.ty h.ty a b fun x y => narrow h.ty sat (num h.ty x + num h.ty y))
def execIsub (h : VHead) (sat : Bool) (a b : Src) (s : State) : Host.Outcome State Fault Refusal :=
  runSeq s (vec2 h h.ty h.ty a b fun x y => narrow h.ty sat (num h.ty x - num h.ty y))
def execImul (h : VHead) (sat : Bool) (a b : Src) (s : State) : Host.Outcome State Fault Refusal :=
  runSeq s (vec2 h h.ty h.ty a b fun x y => narrow h.ty sat (num h.ty x * num h.ty y))
def execImulh (h : VHead) (a b : Src) (s : State) : Host.Outcome State Fault Refusal :=
  runSeq s (vec2 h h.ty h.ty a b fun x y => narrow h.ty false (num h.ty x * num h.ty y / (2 ^ intWidth h.ty : Nat)))
def execImad (h : VHead) (sat : Bool) (a b c : Src) (s : State) : Host.Outcome State Fault Refusal :=
  runSeq s (vec3 h h.ty h.ty h.ty a b c fun x y z => narrow h.ty sat (num h.ty x * num h.ty y + num h.ty z))
def execIneg (h : VHead) (sat : Bool) (a : Src) (s : State) : Host.Outcome State Fault Refusal :=
  runSeq s (vec1 h h.ty a fun x => narrow h.ty sat (-num h.ty x))
def execIabs (h : VHead) (sat : Bool) (a : Src) (s : State) : Host.Outcome State Fault Refusal :=
  runSeq s (vec1 h h.ty a fun x => narrow h.ty sat (num h.ty x).natAbs)
def execImin (h : VHead) (a b : Src) (s : State) : Host.Outcome State Fault Refusal :=
  runSeq s (vec2 h h.ty h.ty a b fun x y => narrow h.ty false (min (num h.ty x) (num h.ty y)))
def execImax (h : VHead) (a b : Src) (s : State) : Host.Outcome State Fault Refusal :=
  runSeq s (vec2 h h.ty h.ty a b fun x y => narrow h.ty false (max (num h.ty x) (num h.ty y)))
def execAnd (h : VHead) (a b : Src) (s : State) : Host.Outcome State Fault Refusal := runSeq s (vec2 h h.ty h.ty a b fun x y => x &&& y)
def execOr (h : VHead) (a b : Src) (s : State) : Host.Outcome State Fault Refusal := runSeq s (vec2 h h.ty h.ty a b fun x y => x ||| y)
def execXor (h : VHead) (a b : Src) (s : State) : Host.Outcome State Fault Refusal := runSeq s (vec2 h h.ty h.ty a b fun x y => x ^^^ y)
def execNot (h : VHead) (a : Src) (s : State) : Host.Outcome State Fault Refusal := runSeq s (vec1 h h.ty a fun x => ~~~x)

/-- The shift amount: operand B as an unsigned 32-bit value (R209). -/
def amount (y : Word) : Nat := (fld y 0 32).toNat

/-- SHL: the exact a × 2^n, clamped with SAT; a shift past every bit of a 64-bit value is cut at 2^128 (R209).
With TY raw SAT clamps to the range of n64 (log entry 47, DESIGN CHOICE: R70 gives raw none). -/
def shlInt (t : Ty) (sat : Bool) (x : Word) (n : Nat) : Word := narrow t sat (num t x * (2 ^ min n 128 : Nat))

def execShl (h : VHead) (sat : Bool) (a b : Src) (s : State) : Host.Outcome State Fault Refusal :=
  runSeq s (vec2 h h.ty .n32 a b fun x y => shlInt h.ty sat x (amount y))
def execShr (h : VHead) (a b : Src) (s : State) : Host.Outcome State Fault Refusal :=
  runSeq s (vec2 h h.ty .n32 a b fun x y => BitVec.ofNat 64 (shrVal (intWidth h.ty) (low h.ty x) (amount y)).1)
def execSar (h : VHead) (a b : Src) (s : State) : Host.Outcome State Fault Refusal :=
  runSeq s (vec2 h h.ty .n32 a b fun x y => BitVec.ofNat 64 (sarVal (intWidth h.ty) (low h.ty x) (amount y)).1)

/-- A w-bit value rotated left. -/
def rotlNat (w a n : Nat) : Nat := (a * 2 ^ (n % w) + a / 2 ^ (w - n % w)) % 2 ^ w

def execRotl (h : VHead) (a b : Src) (s : State) : Host.Outcome State Fault Refusal :=
  runSeq s (vec2 h h.ty .n32 a b fun x y => BitVec.ofNat 64 (rotlNat (intWidth h.ty) (low h.ty x) (amount y)))

/-- pos and len of a bit-field control word (R209). -/
def ctlPos (y : Word) : Nat := (fld y 0 8).toNat
def ctlLen (y : Word) : Nat := (fld y 8 8).toNat

def execBfe (h : VHead) (a b : Src) (s : State) : Host.Outcome State Fault Refusal :=
  runSeq s (vec2 h h.ty .n32 a b fun x y =>
    BitVec.ofNat 64 (fieldOf (isSigned h.ty) (intWidth h.ty) (low h.ty x) (ctlPos y) (ctlLen y)))

/-- a with bits pos + L − 1 to pos replaced by the low L bits of b (R209). -/
def insertField (w a b pos len : Nat) : Nat :=
  let n := min len (w - pos)
  if w ≤ pos ∨ len = 0 then a else a - a / 2 ^ pos % 2 ^ n * 2 ^ pos + b % 2 ^ n * 2 ^ pos

def execBfi (h : VHead) (a b c : Src) (s : State) : Host.Outcome State Fault Refusal :=
  runSeq s (vec3 h h.ty h.ty .n32 a b c fun x y z =>
    BitVec.ofNat 64 (insertField (intWidth h.ty) (low h.ty x) (low h.ty y) (ctlPos z) (ctlLen z)))
def execPopc (h : VHead) (a : Src) (s : State) : Host.Outcome State Fault Refusal :=
  runSeq s (vec1 h .n32 a fun x => BitVec.ofNat 64 (popNat 64 (low h.ty x)))
def execClz (h : VHead) (a : Src) (s : State) : Host.Outcome State Fault Refusal :=
  runSeq s (vec1 h .n32 a fun x => BitVec.ofNat 64 (intWidth h.ty - bitLen (low h.ty x)))

/-- The n low bits of v in reverse order. -/
def reverseBits : Nat → Nat → Nat
  | 0, _ => 0
  | n + 1, v => v % 2 * 2 ^ n + reverseBits n (v / 2)

def execBrev (h : VHead) (a : Src) (s : State) : Host.Outcome State Fault Refusal :=
  runSeq s (vec1 h h.ty a fun x => BitVec.ofNat 64 (reverseBits (intWidth h.ty) (low h.ty x)))

/-- Integer comparison; un and ord stand only in FCMP (Table 09-1). -/
def cmpInt (cc : Cmp) (x y : Int) : Bool :=
  match cc with
  | .eq => x == y | .ne => x != y | .lt => decide (x < y) | .le => decide (x ≤ y) | .gt => decide (y < x) | .ge => decide (y ≤ x)
  | .un => false | .ord => true

def execIcmp (h : VHead) (cc : Cmp) (a b : Src) (s : State) : Host.Outcome State Fault Refusal :=
  runSeq s (vec2 h .bool h.ty a b fun x y => ofBool (cmpInt cc (num h.ty x) (num h.ty y)))

/-- SEL keeps the chosen operand's value and tag with TY raw (R205, R210). -/
def execSel (h : VHead) (a b c : Src) (s : State) : Host.Outcome State Fault Refusal :=
  runSeq s fun s => do
    let any := h.ty == .raw
    let m := active s h.ms
    let x ← readA s a h.ty h.ty any
    let y ← readB s m b h.ty h.ty any
    let z ← readB s m c .bool h.ty
    let res : Row := lanes32.map fun l =>
      let v := if (at_ z l).1 != 0 then at_ x l else at_ y l
      if any then (if inMask m l then v else (0, .raw)) else (formOf h.ty v.1, h.ty)
    pure (pushShort s h res x)

/-- LEA: (a + b × c) mod 2^64 with tag addr; TY is addr (R210, R164). -/
def execLea (ms : BitVec 3) (mz : Bool) (a b c : Src) (s : State) : Host.Outcome State Fault Refusal :=
  runSeq s (vec3 { ms := ms, mz := mz, ty := .addr } .addr .i64 .n32 a b c fun x y z => x + y * zx64 (fld z 0 32))

end Sys2Proof.Machine
end

