-- ==== Sys2Proof/Machine/VecFloat.lean ====
section
/-! DEFINITION. The vector floating-point instructions of group 0x4 (R211 to R214). -/

namespace Sys2Proof.Machine

/-- Results and flags of the 32 lanes. -/
def frowOf (f : Nat → Word × Flags) : FRow := lanes32.map f

/-- Reads operand A as floats of TY. -/
def fval (s : State) (t : Ty) (neg : Bool) (x : Row) (l : Nat) : FVal := readF t (ftz s) neg (at_ x l).1

/-- One-operand float instruction. -/
def float1 (h : VHead) (na : Bool) (a : Src) (f : Bool → FVal → Word × Flags) (s : State) : Op := do
  let x ← readA s a h.ty h.ty
  pushFloat s h h.ty (frowOf fun l => f (ftz s) (fval s h.ty na x l)) x

/-- Two-operand float instruction. -/
def float2 (h : VHead) (na nb : Bool) (a b : Src) (f : Bool → FVal → FVal → Word × Flags) (s : State) : Op := do
  let x ← readA s a h.ty h.ty
  let y ← readB s (active s h.ms) b h.ty h.ty
  pushFloat s h h.ty (frowOf fun l => f (ftz s) (fval s h.ty na x l) (fval s h.ty nb y l)) x

/-- −b as a subtrahend: the sign of a NaN is its own (R72). -/
def subtrahend : FVal → FVal
  | .nan s q f => .nan s q f
  | .inf s => .inf (!s)
  | .fin s m e => .fin (!s) m e

def execFadd (h : VHead) (rm : Rm) (na nb : Bool) (a b : Src) (s : State) : Host.Outcome State Fault Refusal :=
  runSeq s (float2 h na nb a b fun z x y => fAdd h.ty rm z x y)
def execFsub (h : VHead) (rm : Rm) (na nb : Bool) (a b : Src) (s : State) : Host.Outcome State Fault Refusal :=
  runSeq s (float2 h na nb a b fun z x y => fAdd h.ty rm z x (subtrahend y))
def execFmul (h : VHead) (rm : Rm) (na nb : Bool) (a b : Src) (s : State) : Host.Outcome State Fault Refusal :=
  runSeq s (float2 h na nb a b fun z x y => fMul h.ty rm z x y)

def execFfma (h : VHead) (rm : Rm) (na nb nc : Bool) (a b c : Src) (s : State) : Host.Outcome State Fault Refusal :=
  runSeq s fun s => do
    let x ← readA s a h.ty h.ty
    let y ← readB s (active s h.ms) b h.ty h.ty
    let z ← readB s (active s h.ms) c h.ty h.ty
    pushFloat s h h.ty (frowOf fun l =>
      fFma h.ty rm (ftz s) (fval s h.ty na x l) (fval s h.ty nb y l) (fval s h.ty nc z l)) x

def execFmin (h : VHead) (na nb : Bool) (a b : Src) (s : State) : Host.Outcome State Fault Refusal :=
  runSeq s (float2 h na nb a b fun _ x y => fMinMax h.ty false x y)
def execFmax (h : VHead) (na nb : Bool) (a b : Src) (s : State) : Host.Outcome State Fault Refusal :=
  runSeq s (float2 h na nb a b fun _ x y => fMinMax h.ty true x y)

/-- FABS clears the sign bit of the value bits and never signals (R212). -/
def execFabs (h : VHead) (a : Src) (s : State) : Host.Outcome State Fault Refusal :=
  runSeq s (vec1 h h.ty a fun x => x &&& ~~~BitVec.ofNat 64 (2 ^ (fpWidth h.ty - 1)))

def execFcmp (h : VHead) (cc : Cmp) (a b : Src) (s : State) : Host.Outcome State Fault Refusal :=
  runSeq s fun s => do
    let x ← readA s a h.ty h.ty
    let y ← readB s (active s h.ms) b h.ty h.ty
    pushFloat s h .bool (frowOf fun l =>
      let r := fCmp cc (fval s h.ty false x l) (fval s h.ty false y l)
      (ofBool r.1, r.2)) x

def execFclass (h : VHead) (a : Src) (s : State) : Host.Outcome State Fault Refusal :=
  runSeq s (vec1 h .n32 a (fClass h.ty))
def execFrnd (h : VHead) (rm : Rm) (na : Bool) (a : Src) (s : State) : Host.Outcome State Fault Refusal :=
  runSeq s (float1 h na a fun z x => fRnd h.ty rm z x)

/-- FSCALE: B expects i32 (R211). -/
def execFscale (h : VHead) (rm : Rm) (na : Bool) (a b : Src) (s : State) : Host.Outcome State Fault Refusal :=
  runSeq s fun s => do
    let x ← readA s a h.ty h.ty
    let y ← readB s (active s h.ms) b .i32 h.ty
    pushFloat s h h.ty (frowOf fun l => fScale h.ty rm (ftz s) (fval s h.ty na x l) (num .i32 (at_ y l).1)) x

/-- FDIV and FSQRT are long-latency (R211, R165). -/
def execFdiv (la : BitVec 4) (h : VHead) (rm : Rm) (na nb : Bool) (a b : Src) (s : State) : Host.Outcome State Fault Refusal :=
  runSeq s fun s => do
    let x ← readA s a h.ty h.ty
    let y ← readB s (active s h.ms) b h.ty h.ty
    pushFloatLong s la h h.ty (frowOf fun l => fDiv h.ty rm (ftz s) (fval s h.ty na x l) (fval s h.ty nb y l)) x

def execFsqrt (la : BitVec 4) (h : VHead) (rm : Rm) (na : Bool) (a : Src) (s : State) : Host.Outcome State Fault Refusal :=
  runSeq s fun s => do
    let x ← readA s a h.ty h.ty
    pushFloatLong s la h h.ty (frowOf fun l => fSqrt h.ty rm (ftz s) (fval s h.ty na x l)) x

end Sys2Proof.Machine
end

