-- ==== Sys2Proof/Machine/Convert.lean ====
section
/-! DEFINITION. Conversion, special functions, random numbers and bit streams: group 0x5 (R215 to R221). -/

namespace Sys2Proof.Machine

/-! ## Random numbers (R218, R219) -/

/-- State words and key words of the generator. -/
abbrev Four := BitVec 32 × BitVec 32 × BitVec 32 × BitVec 32

def keyWord (k : Four) (r : Nat) : BitVec 32 :=
  match r % 4 with
  | 0 => k.1 | 1 => k.2.1 | 2 => k.2.2.1 | _ => k.2.2.2

/-- One of the ten rounds. -/
def rngRound (k : Four) (x : Four) (r : Nat) : Four :=
  let x0 := x.1 + keyWord k r + BitVec.ofNat 32 r
  let x1 := x.2.1 ^^^ x0.rotateLeft 7
  let x2 := x.2.2.1 + x1
  let x3 := x.2.2.2 ^^^ x2.rotateLeft 13
  let x0 := x0 + x3
  let x1 := x1.rotateLeft 9 ^^^ (x0 * 0x9E3779B9)
  (x1, x2, x3, x0)

def rngBlock (c : Word) (who g : BitVec 32) (k : Four) : Word :=
  let x := (List.range 10).foldl (rngRound k) (fld c 0 32, fld c 32 32, who, g)
  (x.2.1 ^^^ x.2.2.2) ++ (x.1 ^^^ x.2.2.1)

/-- %lanenum + 32 × %warpnum. -/
def rngWho (s : State) (l : Nat) : BitVec 32 := BitVec.ofNat 32 (l + 32 * s.w.num)

/-- The 32-bit draw of stochastic rounding (R219). -/
def srDraw (s : State) (l : Nat) : BitVec 32 := fld (rngBlock (lane s l).rngctr (rngWho s l) 1 (0, 0, 0, 0)) 0 32

/-- Advances %rngctr of the lanes of a mask. -/
def advanceRng (s : State) (m : LaneMask) : State := modLanes s m fun _ x => { x with rngctr := x.rngctr + 1 }

/-- RNG: field A holds 0x40 + K, so pass-through is s[K] with tag raw (R218). -/
def execRng (h : VHead) (k : BitVec 5) (s : State) : Host.Outcome State Fault Refusal :=
  runSeq s fun s =>
    let m := active s h.ms
    let lo := scal s k
    let hi := scal s (k + 1)
    let key : Four := (fld lo 0 32, fld lo 32 32, fld hi 0 32, fld hi 32 32)
    let res := rowOf h.ty fun l => rngBlock (lane s l).rngctr (rngWho s l) 0 key
    .ok (sealIf (advanceRng (pushShort s h res (lanes32.map fun _ => (lo, .raw))) m) m)

/-! ## Conversions (R215, R216) -/

/-- CVT: with RM sr the draw is made in every active lane, and the warp is sealed (R215, R207). -/
def execCvt (h : VHead) (rm : Rm) (dty : Ty) (a : Src) (s : State) : Host.Outcome State Fault Refusal :=
  runSeq s fun s => do
    let m := active s h.ms
    let x ← readA s a h.ty h.ty
    let u (l : Nat) : BitVec 32 := if rm = .sr then srDraw s l else 0
    let t ← pushFloat s h dty (frowOf fun l => convert h.ty dty rm (u l) (ftz s) (at_ x l).1) x
    pure (if rm = .sr then sealIf (advanceRng t m) m else t)

/-- CVTSR: operand B supplies the 32-bit value; nothing is drawn (R216). -/
def execCvtsr (h : VHead) (dty : Ty) (a b : Src) (s : State) : Host.Outcome State Fault Refusal :=
  runSeq s fun s => do
    let x ← readA s a h.ty h.ty
    let y ← readB s (active s h.ms) b .n32 h.ty
    pushFloat s h dty (frowOf fun l => convert h.ty dty .sr (fld (at_ y l).1 0 32) (ftz s) (at_ x l).1) x

/-! ## Special functions (R217, Table 09-6) -/

def signedZero (t : Ty) (s : Bool) : Word × Flags := (packBits t s 0 0, 0)
def signedInf (t : Ty) (s : Bool) (f : Flags) : Word × Flags := (packInf t s, f)
def signedOne (t : Ty) (s : Bool) : Word × Flags := (roundTo t .rne 0 false s 1 0).1 |> fun w => (w, 0)

/-- Table 09-6 at ±0. -/
def specialZero (fn : SpecialFn) (t : Ty) (s : Bool) : Word × Flags :=
  match fn with
  | .rcp | .rsq => signedInf t s fDZ
  | .log2 => signedInf t true fDZ
  | .exp2 | .cos => signedOne t false
  | .sin | .tanh => signedZero t s

/-- Table 09-6 at ±∞. -/
def specialInf (fn : SpecialFn) (t : Ty) (s : Bool) : Word × Flags :=
  match fn, s with
  | .rcp, s => signedZero t s
  | .rsq, false => signedZero t false
  | .rsq, true => invalid t
  | .exp2, false => signedInf t false 0
  | .exp2, true => signedZero t false
  | .log2, false => signedInf t false 0
  | .log2, true => invalid t
  | .sin, _ | .cos, _ => invalid t
  | .tanh, s => signedOne t s

/-- The integer n with m × 2^e = n / 2, if there is one. -/
def halves (m : Nat) (e : Int) : Option Nat :=
  if 0 ≤ e + 1 then some (m * 2 ^ (e + 1).toNat) else if m % 2 ^ (-(e + 1)).toNat = 0 then some (m / 2 ^ (-(e + 1)).toNat) else none

/-- The exponent n with m × 2^e = 2^n, if there is one. -/
def powerOf (m : Nat) (e : Int) : Option Int := if m = 2 ^ Nat.log2 m then some (e + Nat.log2 m) else none

/-- The points at which Table 09-6 states an exact result, for finite nonzero arguments. -/
def specialExact (fn : SpecialFn) (t : Ty) (z s : Bool) (m : Nat) (e : Int) : Option (Word × Flags) :=
  match fn with
  | .rcp | .tanh => none
  | .rsq => if s then some (invalid t) else none
  | .log2 =>
    if s then some (invalid t)
    else (powerOf m e).map fun n => ((roundTo t .rne 0 false (decide (n < 0)) n.natAbs 0).1, 0)
  | .exp2 =>
    match halves m e with
    | some n =>
      if n % 2 = 0 then
        let k : Int := if s then -(min (n / 2) 5000 : Nat) else (min (n / 2) 5000 : Nat)
        let (w, f) := roundTo t .rne 0 z false 1 k
        some (w, f &&& fOF)
      else none
    | none => none
  | .sin => (halves m e).map fun n => if n % 2 = 0 then signedZero t s else signedOne t (s != (n / 2 % 2 == 1))
  | .cos => (halves m e).map fun n => if n % 2 = 1 then signedZero t false else signedOne t (n / 2 % 2 == 1)

/-- A special function of value bits of f16, bf16 or f32: Table 09-6 where it states the result, else the device's f32 result inside
the bound (log entry 6), rounded rne to TY. A subnormal result is flushed as R76 says, without its flags (R217). -/
def special (fn : SpecialFn) (t : Ty) (z : Bool) (v : Word) : Word × Flags :=
  match readF t z false v with
  | .nan s q f => (packNaN t s f, if q then 0 else fIV)
  | .inf s => specialInf fn t s
  | .fin s m e =>
    if m = 0 then specialZero fn t s
    else
      (specialExact fn t z s m e).getD <|
        let w := (convTo t .rne 0 z false (unpack .f32 (specialResult fn t z s m e))).1
        (w, if fn = .exp2 ∧ isInf (unpack t w) then fOF else 0)

/-- FRCP to FTANH are long-latency (R217). -/
def specialOp (fn : SpecialFn) (la : BitVec 4) (h : VHead) (a : Src) (s : State) : Op := do
  let x ← readA s a h.ty h.ty
  pushFloatLong s la h h.ty (frowOf fun l => special fn h.ty (ftz s) (at_ x l).1) x

def execFrcp (la : BitVec 4) (h : VHead) (a : Src) (s : State) : Host.Outcome State Fault Refusal := runSeq s (specialOp .rcp la h a)
def execFrsq (la : BitVec 4) (h : VHead) (a : Src) (s : State) : Host.Outcome State Fault Refusal := runSeq s (specialOp .rsq la h a)
def execFexp2 (la : BitVec 4) (h : VHead) (a : Src) (s : State) : Host.Outcome State Fault Refusal := runSeq s (specialOp .exp2 la h a)
def execFlog2 (la : BitVec 4) (h : VHead) (a : Src) (s : State) : Host.Outcome State Fault Refusal := runSeq s (specialOp .log2 la h a)
def execFsin (la : BitVec 4) (h : VHead) (a : Src) (s : State) : Host.Outcome State Fault Refusal := runSeq s (specialOp .sin la h a)
def execFcos (la : BitVec 4) (h : VHead) (a : Src) (s : State) : Host.Outcome State Fault Refusal := runSeq s (specialOp .cos la h a)
def execFtanh (la : BitVec 4) (h : VHead) (a : Src) (s : State) : Host.Outcome State Fault Refusal := runSeq s (specialOp .tanh la h a)

/-! ## Bit streams (R220, R221) -/

/-- FRAME_RANGE of a stream pair fN, fN + 1. -/
def pairRange (s : State) (n : BitVec 5) : Except Halt Unit :=
  if frameSize s ≤ n.toNat + 1 then
    .error (.trap 0x041 (BitVec.ofNat 64 (if frameSize s ≤ n.toNat then n.toNat else n.toNat + 1)))
  else .ok ()

/-- BSINIT writes window and cursor in the active lanes (R220). -/
def execBsinit (ms : BitVec 3) (a b : Src) (n : BitVec 5) (s : State) : Host.Outcome State Fault Refusal :=
  runSeq s fun s => do
    let m := active s ms
    let x ← readB s m a .raw .raw
    let y ← readB s m b .n32 .raw
    pairRange s n
    let cursor (l : Nat) : Entry := entryOf (BitVec.ofNat 64 (min (low .n32 (at_ y l).1) 64), .n32)
    pure (modLanes s m fun l z =>
      { z with frame := setAt (setAt z.frame n.toNat (entryOf ((at_ x l).1, .raw))) (n.toNat + 1) (cursor l) })

/-- The field, window and cursor that one BSRD leaves, from window, cursor 0 to 64, width and next word (R221). -/
def bsrdStep (win : Word) (u w : Nat) (next : Word) : Word × Word × Word :=
  if u + w ≤ 64 then (BitVec.ofNat 64 (win.toNat / 2 ^ u % 2 ^ w), win, BitVec.ofNat 64 (u + w))
  else (BitVec.ofNat 64 (win.toNat / 2 ^ u + next.toNat % 2 ^ (u + w - 64) * 2 ^ (64 - u)), next, BitVec.ofNat 64 (u + w - 64))

/-- As bsrdStep; for a cursor above 64, which R221 does not reach, all three are free values (log entry 2). -/
def bsrdLane (count l : Nat) (win u : Word) (w : Nat) (next : Word) : Word × Word × Word :=
  if low .n32 u ≤ 64 then bsrdStep win (low .n32 u) w next
  else (Sys2Proof.Config.freeValue (count + 3 * l), Sys2Proof.Config.freeValue (count + 3 * l + 1),
    Sys2Proof.Config.freeValue (count + 3 * l + 2))

/-- BSRD (R221): window and cursor are operands, the window as operand A; the window slot is written on a crossing only. -/
def execBsrd (ms : BitVec 3) (mz : Bool) (n : BitVec 5) (b c : Src) (s : State) : Host.Outcome State Fault Refusal :=
  runSeq s fun s => do
    let m := active s ms
    pairRange s n
    let win ← readA s (.frame n) .raw .n32
    let u ← readB s m (.frame (n + 1)) .n32 .n32
    let y ← readB s m b .n32 .n32
    let z ← readB s m c .raw .n32
    let w (l : Nat) : Nat := (low .n32 (at_ y l).1 + 31) % 32 + 1
    let r (l : Nat) := bsrdLane s.freeCount l (at_ win l).1 (at_ u l).1 (w l) (at_ z l).1
    let t := pushShort s { ms := ms, mz := mz, ty := .n32 } (rowOf .n32 fun l => (r l).1) win
    let window (l : Nat) (f : List Entry) : List Entry :=
      if low .n32 (at_ u l).1 + w l ≤ 64 then f else setAt f n.toNat (entryOf ((r l).2.1, .raw))
    let t := modLanes t m fun l x =>
      { x with frame := setAt (window l x.frame) (n.toNat + 1) (entryOf (reshape .n32 (r l).2.2, .n32)) }
    pure (if (lanesOf m).any fun l => decide (64 < low .n32 (at_ u l).1) then { t with freeCount := t.freeCount + 96 } else t)

end Sys2Proof.Machine
end

