-- ==== Sys2Proof/Machine/LaneX.lean ====
section
/-! DEFINITION. Lane exchange within tiles and the mask registers: group 0x6 (R222 to R228, R84). -/

namespace Sys2Proof.Machine

/-- The lowest lane of l's tile (R62). -/
def tileBase (s : State) (l : Nat) : Nat := l - l % s.w.tile

/-- The lanes of l's tile. -/
def tileOf (s : State) (l : Nat) : List Nat := (List.range s.w.tile).map (tileBase s l + ·)

/-- The lanes active in l's tile. -/
def activeTile (s : State) (m : LaneMask) (l : Nat) : List Nat := (tileOf s l).filter (inMask m)

/-- The lane that SHFL reads, before the membership rule (R223). -/
def shflSource (w : Nat) (op : ShflOp) (l n : Nat) : Nat :=
  let i := l % w
  let base := l - i
  match op with
  | .idx => base + n % w
  | .up => if n ≤ i then l - n else l
  | .down => if i + n < w then l + n else l
  | .xor => base + (i ^^^ n) % w

def execShfl (la : BitVec 4) (h : VHead) (op : ShflOp) (a b : Src) (s : State) : Host.Outcome State Fault Refusal :=
  runSeq s fun s => do
    let any := h.ty == .raw
    let m := active s h.ms
    let x ← readA s a h.ty h.ty any
    let y ← readB s m b .n32 h.ty
    let res : Row := lanes32.map fun l =>
      let j := shflSource s.w.tile op l (amount (at_ y l).1)
      let v := at_ x (if inMask (members s) j then j else l)
      if any then (if inMask m l then v else (0, .raw)) else (formOf h.ty v.1, h.ty)
    pure (pushPending s la (PendRes.of [mergeRow m h.mz res x] .other) 1)

/-- Writes mask register c in the member lanes; an empty active mask writes nothing (R225). -/
def writeMaskBits (s : State) (m : LaneMask) (c : BitVec 3) (f : Nat → Bool) : State :=
  if m = 0 then s
  else setMaskReg s c ((maskReg s c &&& ~~~(members s)) ||| (members s &&& maskOf fun l => inMask m l && f l))

/-- The bit that VOTE sets for an active lane, from the A values of the lanes active in its tile (R225). -/
def voteBit (op : VoteOp) (own : Bool) (tile : List Bool) : Bool :=
  match op with
  | .conj => tile.all id
  | .disj => tile.any id
  | .same => tile.all id || !tile.any id
  | .each => own
  | .odd => (tile.filter id).length % 2 == 1

def execVote (ms : BitVec 3) (op : VoteOp) (a : Src) (c : BitVec 3) (s : State) : Host.Outcome State Fault Refusal :=
  runSeq s fun s => do
    let m := active s ms
    let x ← readB s m a .bool .bool
    let v (l : Nat) : Bool := (at_ x l).1 != 0
    pure (writeMaskBits s m c fun l => voteBit op (v l) ((activeTile s m l).map v))

/-- The bit that MATCH sets for an active lane (R226): values and tags are compared. -/
def matchBit (op : MatchOp) (x : Row) (l : Nat) (tile : List Nat) : Bool :=
  match op with
  | .dup => tile.any fun j => j != l && at_ x j == at_ x l
  | .same => tile.all fun j => at_ x j == at_ x l
  | .lead => (tile.find? fun j => at_ x j == at_ x l) == some l

def execMatch (ms : BitVec 3) (ty : Ty) (op : MatchOp) (a : Src) (c : BitVec 3) (s : State) : Host.Outcome State Fault Refusal :=
  runSeq s fun s => do
    let m := active s ms
    let x ← readB s m a ty ty (ty == .raw)
    pure (writeMaskBits s m c fun l => matchBit op (lowBits ty x) l (activeTile s m l))

/-- MSET: its TY field is 0, which the aux word of a tag trap carries (Table 07-13, R57). -/
def execMset (ms : BitVec 3) (a : Src) (c : BitVec 3) (s : State) : Host.Outcome State Fault Refusal :=
  runSeq s fun s => do
    let m := active s ms
    let x ← readB s m a .bool .raw
    pure (writeMaskBits s m c fun l => (at_ x l).1 != 0)

/-! ## REDUX and SCAN (R84, R224) -/

/-- A node of the tree: an absent input contributes nothing, and the other passes as it is, unflushed (log entry 45, DEDUCED: R84 beside
R76). -/
def node (f : Word → Word → Word × Flags) : Option Word → Option Word → Option Word × Flags
  | some a, some b => let r := f a b; (some r.1, r.2)
  | some a, none => (some a, 0)
  | none, b => (b, 0)

/-- One level of the REDUX tree. -/
def pairUp (f : Word → Word → Word × Flags) : List (Option Word) → List (Option Word) × Flags
  | a :: b :: xs =>
    let r := node f a b
    let rest := pairUp f xs
    (r.1 :: rest.1, r.2 ||| rest.2)
  | xs => (xs, 0)

/-- The REDUX tree over a tile of at most 2^n inputs. -/
def reduxTree (f : Word → Word → Word × Flags) : Nat → List (Option Word) → Option Word × Flags
  | 0, xs => (xs.headD none, 0)
  | n + 1, xs =>
    let l := pairUp f xs
    let r := reduxTree f n l.1
    (r.1, l.2 ||| r.2)

/-- One level of the SCAN tree at distance d. -/
def scanLevel (f : Word → Word → Word × Flags) (d : Nat) (xs : List (Option Word)) : List (Option Word) × Flags :=
  let ys := xs.mapIdx fun i x => if d ≤ i then node f (xs.getD (i - d) none) x else (x, 0)
  (ys.map (·.1), ys.foldl (fun a y => a ||| y.2) 0)

/-- The inclusive SCAN tree over a tile. -/
def scanTree (f : Word → Word → Word × Flags) (xs : List (Option Word)) : List (Option Word) × Flags :=
  [1, 2, 4, 8, 16].foldl (fun a d =>
    if d < xs.length then
      let r := scanLevel f d a.1
      (r.1, a.2 ||| r.2)
    else a) (xs, 0)

/-- The operation at a node (R84, R212, R224). -/
def redNode (t : Ty) (op : RedOp) (rm : Rm) (z : Bool) (a b : Word) : Word × Flags :=
  if isFloat t then
    let x := readF t z false a
    let y := readF t z false b
    match op with
    | .add => fAdd t rm z x y
    | .min => fMinMax t false x y
    | .max => fMinMax t true x y
    | _ => (0, 0)
  else
    match op with
    | .add => (narrow t false (num t a + num t b), 0)
    | .min => (narrow t false (min (num t a) (num t b)), 0)
    | .max => (narrow t false (max (num t a) (num t b)), 0)
    | .and => (a &&& b, 0)
    | .or => (a ||| b, 0)
    | .xor => (a ^^^ b, 0)

/-- The identity of an operation (R224). -/
def redIdentity (t : Ty) (op : RedOp) : Word :=
  match op with
  | .add | .or | .xor => 0
  | .and => BitVec.allOnes 64
  | .min => if isFloat t then packInf t false else narrow t true (2 ^ 70)
  | .max => if isFloat t then packInf t true else narrow t true (-(2 ^ 70))

/-- Inputs of l's tile: absent where f says so. -/
def tileInputs (s : State) (x : Row) (l : Nat) (f : Nat → Bool) (shift : Nat) : List (Option Word) :=
  (tileOf s l).map fun j => if f j then some (at_ x (j - shift)).1 else none

def execRedux (la : BitVec 4) (h : VHead) (op : RedOp) (rm : Rm) (a : Src) (s : State) : Host.Outcome State Fault Refusal :=
  runSeq s fun s => do
    let m := active s h.ms
    let x ← readA s a h.ty h.ty
    let tile (l : Nat) := reduxTree (redNode h.ty op rm (ftz s)) 5 (tileInputs s x l (inMask m) 0)
    pushFloatLong s la h h.ty (frowOf fun l => ((tile l).1.getD (redIdentity h.ty op), (tile l).2)) x

def execScan (la : BitVec 4) (h : VHead) (excl : Bool) (op : RedOp) (rm : Rm) (a : Src) (s : State) :
    Host.Outcome State Fault Refusal :=
  runSeq s fun s => do
    let m := active s h.ms
    let x ← readA s a h.ty h.ty
    let present (l j : Nat) : Bool := if excl then decide (tileBase s l < j) && inMask m (j - 1) else inMask m j
    let tile (l : Nat) := scanTree (redNode h.ty op rm (ftz s)) (tileInputs s x l (present l) (if excl then 1 else 0))
    pushFloatLong s la h h.ty
      (frowOf fun l => (((tile l).1.getD (l % s.w.tile) none).getD (redIdentity h.ty op), (tile l).2)) x

/-! ## Whole-mask instructions (R228) -/

def execMand (a b c : BitVec 3) (s : State) : Host.Outcome State Fault Refusal :=
  runSeq s fun s => .ok (setMaskReg s c (maskReg s a &&& maskReg s b))
def execMor (a b c : BitVec 3) (s : State) : Host.Outcome State Fault Refusal :=
  runSeq s fun s => .ok (setMaskReg s c (maskReg s a ||| maskReg s b))
def execMxor (a b c : BitVec 3) (s : State) : Host.Outcome State Fault Refusal :=
  runSeq s fun s => .ok (setMaskReg s c (maskReg s a ^^^ maskReg s b))
def execMnot (a c : BitVec 3) (s : State) : Host.Outcome State Fault Refusal :=
  runSeq s fun s => .ok (setMaskReg s c (~~~(maskReg s a)))
def execMpopc (a : BitVec 3) (k : BitVec 5) (s : State) : Host.Outcome State Fault Refusal :=
  runSeq s fun s => .ok (setScal s k (BitVec.ofNat 64 (popNat 32 (maskReg s a).toNat)))
def execMfirst (a : BitVec 3) (k : BitVec 5) (s : State) : Host.Outcome State Fault Refusal :=
  runSeq s fun s => .ok (setScal s k (BitVec.ofNat 64 (lowLane (maskReg s a))))
def execMfroms (k : BitVec 5) (c : BitVec 3) (s : State) : Host.Outcome State Fault Refusal :=
  runSeq s fun s => .ok (setMaskReg s c (fld (scal s k) 0 32))
def execMtos (a : BitVec 3) (k : BitVec 5) (s : State) : Host.Outcome State Fault Refusal :=
  runSeq s fun s => .ok (setScal s k (zx64 (maskReg s a)))

end Sys2Proof.Machine
end

