-- ==== Sys2Proof/Machine/Queue.lean ====
section
/-! DEFINITION. The queue instructions of group 0x1 and the special registers (R174 to R177, R193 to R198). -/

namespace Sys2Proof.Machine

/-- SAVE writes the slot in active lanes (R193); masked-off lanes take no pass-through, so A is checked in active lanes. A scalar, #0,
#1 or #imm is read as raw (log entry 47, DESIGN CHOICE). -/
def execSave (ms : BitVec 3) (a : Src) (dst : BitVec 5) (s : State) : Host.Outcome State Fault Refusal :=
  runSeq s fun s => do
    let m := active s ms
    let x ← readB s m a .raw .raw true
    if frameSize s ≤ dst.toNat then .error (.trap 0x041 (zx64 dst))
    pure (modLanes s m fun l y => { y with frame := setAt y.frame dst.toNat (entryOf (at_ x l)) })

/-- DUP pushes A; with MZ a masked-off lane receives zero with A's tag (R193). A scalar, #0, #1 or #imm is read as raw (log entry 47,
DESIGN CHOICE). -/
def execDup (ms : BitVec 3) (mz : Bool) (a : Src) (s : State) : Host.Outcome State Fault Refusal :=
  runSeq s fun s => do
    let x ← readA s a .raw .raw true
    pure (pushShort s { ms := ms, mz := mz, ty := .raw } x x)

/-- The value that PUSHI pushes (R194). -/
def pushiValue (t : Ty) (v : BitVec 32) : Word :=
  match t with
  | .i32 | .i64 | .raw => sx64 v
  | _ => zx64 v

/-- PUSHI is of format I, so ERET.m does not change it (R40). -/
def execPushi (h : VHead) (v : BitVec 32) (s : State) : Host.Outcome State Fault Refusal :=
  runSeq s fun s =>
    let row : Row := rowOf h.ty fun _ => pushiValue h.ty v
    .ok (pushRow s (mergeRow (activeAll s h.ms) h.mz row row))

/-- Entry i of a permutation: the age it names, less one (R68). -/
def permEntry (pi : BitVec 24) (i : Nat) : Nat := (fld pi (3 * i) 3).toNat

/-- A queue with ages 1 to 8 permuted (R68). -/
def permute (pi : BitVec 24) (q : List Entry) : List Entry :=
  ((List.range 8).map fun i => q.getD (permEntry pi i) .poison) ++ q.drop 8

/-- QPERM reads entries of any tag; its reads of pending entries wait or trap LOOKAHEAD (R195). -/
def execQperm (pi : BitVec 24) (s : State) : Host.Outcome State Fault Refusal :=
  runSeq s fun s => do
    let srcs := (List.range 8).map fun i => Src.age (BitVec.ofNat 5 (permEntry pi i))
    srcs.forM (srcRange s)
    if srcs.any (srcPending s) then .error (.stall (.pending (pendKind s (srcs.flatMap (srcRids s)))))
    pure (modLanes s (members s) fun _ y => { y with queue := permute pi y.queue })

/-- SETTAG reshapes the value bits and converts nothing (R196). R196 says only that A accepts any tag; a scalar, #1 or #imm there
is read as raw, and a masked-off lane receives it with that tag (log entry 45, DESIGN CHOICE). -/
def execSettag (h : VHead) (a : Src) (s : State) : Host.Outcome State Fault Refusal :=
  runSeq s fun s => do
    let x ← readA s a .raw h.ty true
    pure (pushShort s h (lanes32.map fun l => (reshape h.ty (at_ x l).1, h.ty)) x)

def execTile (log2w : BitVec 3) (s : State) : Host.Outcome State Fault Refusal :=
  runSeq s fun s => .ok { s with w := { s.w with tile := 2 ^ log2w.toNat } }

/-- SETMODE: a write that would leave TAG = 3 traps RESERVED_FIELD with the word (R197). -/
def execSetmode (val wen : BitVec 8) (s : State) : Host.Outcome State Fault Refusal :=
  runSeq s fun s =>
    let m := (fld s.w.mode 0 8 &&& ~~~wen) ||| (val &&& wen)
    if fld m 0 2 = 3 then .error (.trap 0x001 ((encode (.setmode val wen)).getD 0))
    else .ok { s with w := { s.w with mode := fld s.w.mode 8 1 ++ m } }

/-- LANE2S: lane j's A, read as lane j reads it even when j is masked off, where j is lane lo's B; no other lane's operand is
read (R198). -/
def execLane2s (ms : BitVec 3) (a b : Src) (k : BitVec 5) (s : State) : Host.Outcome State Fault Refusal :=
  runSeq s fun s => do
    let m := active s ms
    let _ ← readB s 0 a .raw .raw true
    let y ← readB s (laneBit (lowLane m)) b .n32 .raw
    if m = 0 then pure s
    else
      let j := (at_ y (lowLane m)).1.toNat % 32
      if inMask (members s) j then do
        let x ← readB s (laneBit j) a .raw .raw true
        pure (setScal s k (at_ x j).1)
      else pure (setScal s k 0)

/-! ## Special registers -/

/-- %wp j (R105): the prefix of the oldest incomplete job that names j, else the length of all of them. -/
def wpValue (b : Block) (j : Nat) : Nat :=
  match b.jobs.find? fun x => x.wp == some (BitVec.ofNat 4 j) && !x.done with
  | some x => x.wpBase + x.landedHead
  | none => b.wpTotal.getD j 0

/-- %gtime: nanoseconds of the module's disciplined clock (R414, R9: 2.7 GHz). -/
def gtime (s : State) : Word := BitVec.ofInt 64 (s.timeBase + (s.cycle * 10 / 27 : Nat))

/-- Tag and value of a special register as lane l sees it (Table 08-2). -/
def specialVal (s : State) (l : Nat) : SpecialReg → Val
  | .mode => (zx64 s.w.mode, .n64)
  | .fflags => (zx64 s.w.fflags, .n64)
  | .tile => (BitVec.ofNat 64 s.w.tile, .n32)
  | .cnt => (zx64 (cur s).cnt, .n32)
  | .stakepc => (s.w.stake.pc, .addr)
  | .stakerec => ((s.w.stake.recipe.map (zx64 ·)).getD 0xFFFFFFFF, .n32)
  | .seal => (ofBool (isSealed s.w), .n32)
  | .divdepth => (BitVec.ofNat 64 s.w.div.length, .n32)
  | .calldepth => (BitVec.ofNat 64 s.w.acts.length, .n32)
  | .rngctr => ((lane s l).rngctr, .n64)
  | .gpstat => (zx64 s.w.gpstat, .n32)
  | .gtime => (gtime s, .n64)
  | .wp j => (BitVec.ofNat 64 (wpValue s.b j.toNat), .n64)
  | .lanenum => (BitVec.ofNat 64 l, .n32)
  | .warpnum => (BitVec.ofNat 64 s.w.num, .n32)
  | .tilelane => (BitVec.ofNat 64 (l % s.w.tile), .n32)
  | .tileid => (BitVec.ofNat 64 (l / s.w.tile), .n32)

/-- Whether a result that has not completed can still change the register (R177). -/
def changesLater (s : State) (r : SpecialReg) : Bool :=
  s.w.pend.any fun p => p.mask &&& members s != 0 &&
    match r with
    | .fflags => p.fflags != 0
    | .gpstat => p.kind == .theodolite
    | _ => false

def execRdsr (ms : BitVec 3) (mz : Bool) (r : SpecialReg) (s : State) : Host.Outcome State Fault Refusal :=
  runSeq s fun s => do
    if changesLater s r then .error (.stall (.pending (if r = .gpstat then .theodolite else .other)))
    let row : Row := lanes32.map fun l => specialVal s l r
    pure (pushShort s { ms := ms, mz := mz, ty := .raw } row (row.map fun v => (0, v.2)))

/-- WRSR: a register held per lane takes each active lane's value, one held per warp that of the lowest active lane (R177). The tag
of A is checked in every active lane in either case (log entry 45, DESIGN CHOICE). -/
def execWrsr (ms : BitVec 3) (a : Src) (r : WritableReg) (s : State) : Host.Outcome State Fault Refusal :=
  runSeq s fun s => do
    let m := active s ms
    let x ← readB s m a .n64 .raw
    if m = 0 then pure s
    else
      let v := (at_ x (lowLane m)).1
      match r with
      | .rngctr => pure (modLanes s m fun l y => { y with rngctr := (at_ x l).1 })
      | .fflags => pure { s with w := { s.w with fflags := fld v 0 5 } }
      | .mode =>
        if fld v 0 2 = 3 ∨ fld v 9 55 ≠ 0 then .error (.trap 0x045 0)
        else pure { s with w := { s.w with mode := fld s.w.mode 8 1 ++ fld v 0 8 } }

end Sys2Proof.Machine
end

