-- ==== Sys2Proof/Machine/Control.lean ====
section
/-! DEFINITION. Control flow: branches, divergence, calls, EXIT, STAKE, YIELD, SVC, BKPT, the ends of a handler, and the end of
warps, blocks and gangs (R24 to R40, R64 to R68, R178 to R186, R191, R192). -/

namespace Sys2Proof.Machine

/-- NOP (R192). -/
def execNop (s : State) : Host.Outcome State Fault Refusal := runSeq s fun s => .ok s

/-! ## Branches (R178) -/

/-- PC + 8 × offset. -/
def branchTarget (s : State) (off : BitVec 24) : Word := (cur s).pc + 8 * sx64 off

/-- BRANCH_RANGE unless the target lies in the kernel's code (R151). -/
def needCode (s : State) (t : Word) : Except Halt Unit := if inCode s.b.kernel t then .ok () else .error (.trap 0x105 t)

/-- Takes a branch, or continues at PC + 8. -/
def branchIf (taken : Bool) (off : BitVec 24) (s : State) : Op :=
  if taken then do needCode s (branchTarget s off); pure (setPc s (branchTarget s off)) else .ok (advance s)

def execBra (off : BitVec 24) (s : State) : Host.Outcome State Fault Refusal := runCtl s (branchIf true off)
def execBrc (cond : Cond) (off : BitVec 24) (s : State) : Host.Outcome State Fault Refusal :=
  runCtl s fun s => branchIf (condHolds s.w cond) off s
def execBrz (ms : BitVec 3) (off : BitVec 24) (s : State) : Host.Outcome State Fault Refusal :=
  runCtl s fun s => branchIf (active s ms == 0) off s
def execBrnz (ms : BitVec 3) (off : BitVec 24) (s : State) : Host.Outcome State Fault Refusal :=
  runCtl s fun s => branchIf (active s ms != 0) off s

/-- LOOP: a trapped LOOP leaves its scalar unchanged (R178). -/
def execLoop (k : BitVec 5) (off : BitVec 24) (s : State) : Host.Outcome State Fault Refusal :=
  runCtl s fun s =>
    let v := scal s k - 1
    branchIf (v != 0) off (setScal s k v)

/-! ## The warp's stack slot (R312, R66, R67) -/

/-- Bytes of the divergence stack in a stack slot. -/
def divBytes (k : Kernel) : Nat := 64 * ceilDiv (16 * k.ndiv) 64

/-- Address of the warp's stack slot. -/
def stackBase (s : State) : Word :=
  let k := s.b.kernel
  k.stkBase + BitVec.ofNat 64 (s.w.stackSlot.getD 0 * (divBytes k + k.callstk))

/-- Checks a spill or fill of the 64-byte aligned stack: class 0x5 kind 3, and the translation as kind 0 or 1 (R43, R231). The package
address and the leaf attributes. -/
def stackAccess (s : State) (va : Word) (write : Bool) : Except Halt (Nat × BitVec 4) :=
  if va.toNat % 8 ≠ 0 then .error (.trap 0x14C va)
  else if !canonical va then .error (.trap 0x14D va)
  else
    match translate s s.b.vf va (if write then 1 else 0) with
    | .error c => .error (.trap c va)
    | .ok (k, seg, attr) => if 2 ≤ seg then .error (.trap 0x14F va) else .ok (k, attr)

/-- Spills bytes to the stack, 8 at a time, all checks first: stores of the slot's lowest member lane (log entry 45, DESIGN CHOICE). -/
def spillBytes (s : State) (va : Word) (bytes : List Byte) : Op := do
  let at_ (i : Nat) : Word := va + BitVec.ofNat 64 (8 * i)
  let n := ceilDiv bytes.length 8
  let ks ← (List.range n).mapM fun i => stackAccess s (at_ i) true
  pure (issueAccesses s false ((ks.zip (List.range n)).map fun p =>
    { lane := lowLane (members s), va := at_ p.2, addr := p.1.1, attr := p.1.2, bytes := (bytes.drop (8 * p.2)).take 8 }))

def slotBit : PcSlot → Nat
  | .a => 0
  | .b => 1

def divCode : DivState → Nat
  | .both => 0 | .parked => 1 | .arrived => 2 | .exited => 3

/-- The 16 bytes of a divergence record (Table 02-3). -/
def divImage (r : DivRec) : List Byte :=
  let both := r.st == .both
  toBytes 6 (if both then 0 else r.pc.toNat) ++
  [BitVec.ofNat 8 (r.jid.toNat + 64 * divCode r.st),
   BitVec.ofNat 8 ((if both then slotBit r.tslot else 0) + (if r.ptaken && !both then 2 else 0))] ++
  toBytes 4 (if both then 0 else r.mask.toNat) ++ toBytes 2 r.base.toNat ++ toBytes 2 (if r.st == .arrived then r.count.toNat else 0)

/-- Address of the record at position i from the top. -/
def divAddr (s : State) (i : Nat) : Word := stackBase s + BitVec.ofNat 64 (16 * (s.w.div.length - 1 - i))

/-- Pushes a divergence record: beyond the declared stack it traps; the record that a third push displaces from the core is
written to the stack (R27). -/
def pushDiv (s : State) (r : DivRec) : Op := do
  let n := s.w.div.length
  if s.b.kernel.ndiv ≤ n then .error (.trap 0x102 (BitVec.ofNat 64 n))
  let s ← match s.w.div[1]? with
    | some old => spillBytes s (divAddr s 1) (divImage old)
    | none => pure s
  pure { s with w := { s.w with div := r :: s.w.div } }

/-- The check of reading back a run of the stack (R66, R312). -/
def fillBytes (s : State) (va : Word) (n : Nat) : Except Halt Unit := do
  let _ ← (List.range (ceilDiv n 8)).mapM fun j => stackAccess s (va + BitVec.ofNat 64 (8 * j)) false

/-- Reads back the records below the top two down to position i from the top, which memory holds (R27, R312). -/
def fillDiv (s : State) (i : Nat) : Except Halt Unit :=
  ((List.range (i + 1)).drop 2).forM fun j => if j < s.w.div.length then fillBytes s (divAddr s j) 16 else .ok ()

/-- Replaces the record at position i from the top; one below the top two is written back. -/
def putDiv (s : State) (i : Nat) (r : DivRec) : Op := do
  fillDiv s i
  let s ← if 2 ≤ i then spillBytes s (divAddr s i) (divImage r) else pure s
  pure { s with w := { s.w with div := setAt s.w.div i r } }

/-- Removes the record at position i from the top. Those above it move down one place, where the ones below the top two are written,
and the third record comes back to the core (R29, R312). -/
def popDiv (s : State) (i : Nat) : Op := do
  fillDiv s (max i 2)
  let t : State := { s with w := { s.w with div := s.w.div.eraseIdx i } }
  ((List.range i).drop 2).foldlM (fun t j => spillBytes t (divAddr t j) (divImage (t.w.div.getD j default))) t

/-! ## BRD and JOIN (R27 to R30, R68, R179, R180) -/

/-- The current activation of the slot, if it is in one. -/
def curAct (s : State) : Option Activation := s.w.acts.find? fun a => a.mask &&& members s != 0

/-- Records below this depth belong to suspended activations (R68). -/
def divBase (s : State) : Nat := ((curAct s).map (·.base)).getD 0

def execBrd (ms : BitVec 3) (jid : BitVec 6) (off : BitVec 24) (s : State) : Host.Outcome State Fault Refusal :=
  runCtl s fun s =>
    let t := active s ms
    let u := members s &&& ~~~t
    let target := branchTarget s off
    if t = 0 then .ok (advance s)
    else do
      needCode s target
      if u = 0 then pure (setPc s target)
      else
        let x := cur s
        let q := otherSlot s.slot
        let r : DivRec := { pc := target, jid := jid, st := .parked, tslot := s.slot, ptaken := true, mask := t, base := x.cnt
                            count := 0, owner := s.slot, windows := x.windows }
        if (slotOf s.w q).mask = 0 then do
          let s ← pushDiv s { r with pc := 0, st := .both, tslot := q, ptaken := false, mask := 0, windows := [] }
          let s := { s with w := setSlot s.w q { x with pc := target, mask := t, st := .run, suppress := 0, passed := 0, aged := none } }
          pure (modCur s fun x => { x with pc := x.pc + 8, mask := u })
        else do
          let s ← pushDiv s r
          pure (modCur s fun x => { x with pc := x.pc + 8, mask := u })

/-- Records owned by slot p pass to slot q. -/
def reown (p q : PcSlot) (rs : List DivRec) : List DivRec := rs.map fun r => if r.owner = p then { r with owner := q } else r

/-- Index from the top of the most recent visible record with a join ID (R29, R68). -/
def findJoin (s : State) (id : BitVec 6) : Option (Nat × DivRec) :=
  let vis := s.w.div.take (s.w.div.length - divBase s)
  (vis.zipIdx.find? fun p => p.1.jid == id).map fun p => (p.2, p.1)

/-- Reads back the records that the search for a join ID passes: down to the one found, or all visible ones (R27, R312). -/
def fillJoin (s : State) (id : BitVec 6) : Except Halt Unit :=
  fillDiv s (match findJoin s id with
    | some (i, _) => i
    | none => s.w.div.length - divBase s - 1)

/-- A JOIN of a record at or below the stake's depth seals (R185); i counts from the top. -/
def sealJoin (s : State) (i : Nat) : State := if s.w.div.length - i ≤ s.w.stake.divdepth then sealWarp s else s

/-- Applies π to the lanes of a mask (R68). -/
def permuteLanes (s : State) (m : LaneMask) (pi : BitVec 24) : State := modLanes s m fun _ y => { y with queue := permute pi y.queue }

def joinAux (a b : BitVec 16) : Word := zx64 a <<< 16 ||| zx64 b

/-- The remaining path of a split completes its JOIN alone in slot p (R30): its PC is that of the JOIN. -/
def completeAlone (s : State) (p : PcSlot) (i : Nat) (r : DivRec) (c : BitVec 6) (pi : BitVec 24) : Op :=
  let x := slotOf s.w p
  let n := x.cnt - r.base
  if n ≠ c.setWidth 16 then .error (.trap 0x100 (zx64 n <<< 16))
  else do
    let s ← popDiv (if r.ptaken then permuteLanes s x.mask pi else s) i
    pure { s with w := setSlot s.w p { x with st := .run, pc := x.pc + 8, cnt := r.base + c.setWidth 16, windows := [] } }

/-- JOIN (R29, R30, R68). -/
def joinOp (id c : BitVec 6) (pi : BitVec 24) (s : State) : Op := do
  let s ← drain s
  fillJoin s id
  let x := cur s
  let c16 : BitVec 16 := c.setWidth 16
  match findJoin s id with
  | none => .error (.trap 0x101 (zx64 id))
  | some (i, r) =>
    let n := x.cnt - r.base
    match r.st with
    | .both =>
      let q := otherSlot s.slot
      let y := slotOf s.w q
      match y.st with
      | .joinwait id' _ _ =>
        if id' ≠ id then pure (sealJoin (modCur s fun x => { x with st := .joinwait id c pi }) i)
        else
          let first := y.cnt - r.base
          if first ≠ c16 ∨ n ≠ c16 then .error (.trap 0x100 (joinAux first n))
          else do
            let s ← popDiv (permuteLanes (sealJoin s i) (slotOf s.w r.tslot).mask pi) i
            let merged := { x with mask := x.mask ||| y.mask, st := .run, pc := x.pc + 8, cnt := r.base + c16, suppress := 0 }
            let w := setSlot (setSlot s.w (otherSlot r.tslot) .empty) r.tslot merged
            pure { s with w := { w with div := reown (otherSlot r.tslot) r.tslot s.w.div } }
      | _ => pure (sealJoin (modCur s fun x => { x with st := .joinwait id c pi }) i)
    | .parked =>
      let s ← putDiv s i { r with pc := x.pc, mask := x.mask, count := n, st := .arrived, ptaken := !r.ptaken, windows := [] }
      pure (modCur (sealJoin s i) fun x => { x with pc := r.pc, mask := r.mask, cnt := r.base, windows := r.windows })
    | .arrived =>
      if r.count ≠ c16 ∨ n ≠ c16 then .error (.trap 0x100 (joinAux r.count n))
      else do
        let s ← popDiv (permuteLanes (sealJoin s i) (if r.ptaken then r.mask else x.mask) pi) i
        pure (modCur s fun x => { x with mask := x.mask ||| r.mask, pc := x.pc + 8, cnt := r.base + c16 })
    | .exited => completeAlone (sealJoin s i) s.slot i r c pi

def execJoin (jid c : BitVec 6) (pi : BitVec 24) (s : State) : Host.Outcome State Fault Refusal := runCtl s (joinOp jid c pi)

/-! ## Calls (R64 to R67, R181, R182) -/

/-- Bytes of the call-stack record of a caller with frame size f (R67). -/
def actBytes (d f : Nat) : Nat := 64 * ceilDiv (16 + 32 * (d + f) * 8 + 16 * (d + f)) 64

def actsBytes (d : Nat) (as : List Activation) : Nat := as.foldl (fun n a => n + actBytes d a.callerF) 0

/-- Callee frame size of a target: that of its function-table entry, else 0 (R181, R305). -/
def calleeFrame (k : Kernel) (target : Word) : Nat :=
  ((k.functions.find? fun f => BitVec.ofNat 64 f.1 == target - codeBase k).map (·.2)).getD 0

/-- Whether a block holds rows of the current block's core: an EVICTED one has given its rows up (R24, R386). -/
def holdsRows (s : State) (b : Block) : Bool := b.uid != 0 && b.die == s.b.die && b.core == s.b.core && b.st != .evicted

/-- Queue-file rows of a core that no resident block has reserved, in entries (R9, R66). -/
def freeRows (s : State) : Nat :=
  65536 - ((allBlocks s).filter (holdsRows s)).foldl (fun n b => n + b.kernel.warps * 32 * (b.kernel.depth + b.kernel.frame)) 0

/-- Entries of suspended activations that the rows of the core hold. -/
def heldRows (s : State) : Nat :=
  ((allWarps s).filter fun w => (getBlock s w.block).any (holdsRows s)).foldl
    (fun n w => n + (w.acts.filter fun a => !a.spilled).foldl (fun n a => n + 32 * (w.depth + a.callerF)) 0) 0

/-- Image of a suspended activation (Table 03-8). -/
def actImage (d : Nat) (a : Activation) : List Byte :=
  let entries (l : Nat) : List Entry :=
    if inMask a.mask l then a.queues.getD l [] ++ a.frames.getD l [] else List.replicate (d + a.callerF) ⟨0, .raw, none⟩
  let all := lanes32.flatMap entries
  let pair (i : Nat) : Byte := zx64 (tyCode (all.getD (2 * i) default).tag) ||| zx64 (tyCode (all.getD (2 * i + 1) default).tag) <<< 4 |>.setWidth 8
  toBytes 8 (a.rpc.toNat % 2 ^ 48 + a.nres.toNat * 2 ^ 48 + a.callerF * 2 ^ 53) ++
  toBytes 4 a.mask.toNat ++ toBytes 2 a.cnt.toNat ++ toBytes 2 a.dbase ++
  all.flatMap (fun e => toBytes 8 e.val.toNat) ++ (List.range (all.length / 2)).map pair

/-- Address of the record of the activation at position i from the bottom. -/
def actAddr (s : State) (below : List Activation) : Word :=
  stackBase s + BitVec.ofNat 64 (divBytes s.b.kernel + actsBytes s.w.depth below)

/-- Writes the oldest activations that are held to the call stack until the rows of the core hold the rest (R66). The fuel is the
number of the warp's activations. -/
def spillOldest : Nat → State → Op
  | 0, s => .ok s
  | n + 1, s =>
    if heldRows s ≤ freeRows s then .ok s
    else
      match s.w.acts.reverse.zipIdx.find? fun p => !p.1.spilled with
      | none => .ok s
      | some (a, i) => do
        let s ← spillBytes s (actAddr s (s.w.acts.reverse.take i)) (actImage s.w.depth a)
        spillOldest n { s with w := { s.w with acts := modAt s.w.acts (s.w.acts.length - 1 - i) fun a => { a with spilled := true } } }

/-- Opens an activation for the lanes of the slot (R64, R181). -/
def callOp (nargs nres : BitVec 5) (target : Word) (s : State) : Op := do
  let s ← drain s
  let d := s.w.depth
  let f := frameSize s
  needCode s target
  if d < nargs.toNat ∨ d < nres.toNat then .error (.trap 0x046 (zx64 nargs <<< 8 ||| zx64 nres))
  if s.b.kernel.callstk < actsBytes d s.w.acts + actBytes d f then .error (.trap 0x103 (BitVec.ofNat 64 s.w.acts.length))
  let x := cur s
  let a : Activation := { rpc := x.pc + 8, nres := nres, callerF := f, mask := x.mask, cnt := x.cnt, dbase := divBase s
                          base := s.w.div.length
                          queues := s.w.lanes.mapIdx fun l y => if inMask x.mask l then y.queue else []
                          frames := s.w.lanes.mapIdx fun l y => if inMask x.mask l then y.frame else []
                          spilled := false }
  let s ← spillOldest (s.w.acts.length + 1) { s with w := { s.w with acts := a :: s.w.acts } }
  let f' := calleeFrame s.b.kernel target
  let s := modLanes s x.mask fun _ y =>
    { y with queue := (y.queue.take nargs.toNat ++ List.replicate d Entry.poison).take d, frame := List.replicate f' Entry.poison }
  pure (sealWarp (modCur s fun x => { x with pc := target, cnt := 0 }))

def execCall (nargs nres : BitVec 5) (off : BitVec 24) (s : State) : Host.Outcome State Fault Refusal :=
  runCtl s fun s => callOp nargs nres (branchTarget s off) s

/-- CALLI: a target that is not a multiple of 8 traps TARGET_ALIGN first (R181). -/
def execCalli (nargs nres target : BitVec 5) (s : State) : Host.Outcome State Fault Refusal :=
  runCtl s fun s => do
    let s ← drain s
    let t := scal s target
    if fld t 0 3 ≠ 0 then .error (.trap 0x106 t)
    callOp nargs nres t s

/-- RET (R65, R182). -/
def retOp (s : State) : Op := do
  let s ← drain s
  match s.w.acts.zipIdx.find? fun p => p.1.mask &&& members s != 0 with
  | none => .error (.trap 0x104 0)
  | some (a, i) =>
    match (s.w.div.take (s.w.div.length - a.base)).head? with
    | some r => .error (.trap 0x101 (zx64 r.jid))
    | none => do
      if a.spilled then
        fillBytes s (actAddr s (s.w.acts.reverse.take (s.w.acts.length - 1 - i))) (actBytes s.w.depth a.callerF)
      let m := a.nres.toNat
      let s := modLanes s (members s) fun l y =>
        { y with queue := (y.queue.take m ++ a.queues.getD l []).take s.w.depth, frame := a.frames.getD l [] }
      let s := { s with w := { s.w with acts := s.w.acts.eraseIdx i } }
      pure (sealWarp (modCur s fun x => { x with pc := a.rpc, cnt := a.cnt + a.nres.setWidth 16 }))

def execRet (s : State) : Host.Outcome State Fault Refusal := runCtl s retOp

/-! ## The end of warps, blocks and gangs (R24, R38) -/

def warpEnded (w : Warp) : Bool := w.slotA.mask == 0 && w.slotB.mask == 0 && w.div.all fun r => r.st == .both || r.st == .exited

/-- Whether every counted job of a block has completed or faulted, chunks begun before its fault landed (R105). -/
def jobsOver (b : Block) : Bool := b.jobs.all fun j => j.done || (j.faulted && j.begun.isEmpty)

/-- Linear index of a block in its launch (R19). -/
def blockIndex (l : Launch) (b : Block) : Nat := b.x + l.gx * (b.y + l.gy * b.z)

/-- A fault of the block that nothing has reported, first recorded first (R246). -/
def unreported (b : Block) (p : Job → Bool) : Option Job :=
  (b.jobs.filter fun j => j.faulted && j.begun.isEmpty && !j.reported && p j).foldl
    (fun a j => match a with | none => some j | some k => if j.faultOrder < k.faultOrder then some j else some k) none

/-- Aux word of a job's report (R41). -/
def jobAux (j : Job) : Word := BitVec.ofNat 64 (j.member * 2 ^ 16 + j.num % 2 ^ 16)

/-- Whether a store of a gang's warps is in flight. -/
def gangStores (s : State) (g : Gang) : Bool :=
  s.inflight.any fun a => (getWarp s a.warp).any fun w => g.blocks.contains w.block

/-- Retires a gang whose blocks have all drained and whose stores have performed (Table 02-1, R129). An unreported job fault ends the
launch with its cause (R246); a block that has not executed TRIG counts at retirement (R190). -/
def tryRetire (s : State) (u : Nat) : State :=
  match getGang s u with
  | none => s
  | some g =>
    let bs := (allBlocks s).filter fun b => g.blocks.contains b.uid
    if bs.length = g.blocks.length && !g.blocks.isEmpty && liveGang g && bs.all (fun b => b.st == .draining && jobsOver b) && !gangStores s g then
      match bs.findSome? fun b => unreported b fun _ => true with
      | some j => abortLaunch s g.vf g.launch j.cause (jobAux j)
      | none =>
        let s := modLaunch s g.vf g.launch fun l =>
          { l with retired := l.retired + 1, triggered := (l.triggered ++ bs.map (blockIndex l)).eraseDups }
        let s := releaseGang s g .retired
        wakeWaitdep (enqueue s [.launchCompletion g.vf g.launch]) g.vf
    else s

def streamEnded (b : Block) : Bool :=
  match b.stream with
  | none => true
  | some m => m.ended

/-- A block whose warps have ended and whose stream has reached MEND enters DRAINING (R38). -/
def tryDrain (s : State) (u : Nat) : State :=
  match getBlock s u with
  | none => s
  | some b =>
    if b.st == .running && streamEnded b && ((allWarps s).filter fun w => w.block == u).all warpEnded then
      tryRetire (modBlock s u fun b => { b with st := .draining }) b.gang
    else s

/-! ## EXIT (R30, R38, R183) -/

/-- The most recent record that concerns slot p, by index from the top. -/
def recordOf (p : PcSlot) (rs : List DivRec) : Option (Nat × DivRec) :=
  (rs.zipIdx.find? fun x => x.1.st == .both || x.1.owner == p).map fun x => (x.2, x.1)

/-- Settles the record of a path that has left no lanes in slot p (R30). A path that continues in the slot continues in its handler
context, which only the handler's end or the slot's end leaves (Table 02-2). The fuel is the number of records. -/
def settleExit (p : PcSlot) : Nat → State → Op
  | 0, s => .ok { s with w := setSlot s.w p .empty }
  | n + 1, s =>
    let q := otherSlot p
    match recordOf p s.w.div with
    | none => .ok { s with w := setSlot s.w p .empty }
    | some (i, r) =>
      let x := slotOf s.w p
      let put (r' : DivRec) (y : Slot) : Op := do
        let s ← putDiv s i r'
        pure { s with w := setSlot s.w p y }
      match r.st with
      | .both => do
        let s ← put { r with st := .exited, ptaken := r.tslot == q, owner := q } .empty
        let s := { s with w := { s.w with div := s.w.div.take (i + 1) ++ reown p q (s.w.div.drop (i + 1)) } }
        match (slotOf s.w q).st with
        | .joinwait id c pi =>
          if id = r.jid then
            match completeAlone s q i { r with ptaken := r.tslot == q } c pi with
            | .ok t => pure t
            | .error _ => pure { s with w := setSlot s.w q { slotOf s.w q with st := .run } }
          else pure s
        | _ => pure s
      | .parked => put { r with st := .exited } { x with pc := r.pc, mask := r.mask, cnt := r.base, st := .run, windows := r.windows }
      | .arrived => put { r with st := .exited } { x with pc := r.pc, mask := r.mask, cnt := r.base + r.count, st := .run, windows := [] }
      | .exited => do settleExit p n (← popDiv s i)

/-- EXIT removes the slot's lanes from the warp, from its suspended activations and from its records (R38, R183). An activation left
without lanes is no longer open (log entry 47, DEDUCED: no lane can return to it). -/
def exitOp (s : State) : Op := do
  let s ← drain s
  let m := members s
  let s := { s with w := { s.w with acts := (s.w.acts.map fun a => { a with mask := a.mask &&& ~~~m }).filter fun a => a.mask != 0 } }
  let s := modCur s fun x => { x with mask := 0, windows := [], suppress := 0 }
  let s ← settleExit s.slot s.w.div.length s
  if warpEnded s.w then pure (tryDrain s s.w.block) else pure (sealWarp s)

def execExit (s : State) : Host.Outcome State Fault Refusal := .next (settle s do let t ← stepWindows s; exitOp t)

/-! ## STAKE and YIELD (R184, R185) -/

def execStake (k : BitVec 12) (s : State) : Host.Outcome State Fault Refusal :=
  runSeq s fun s => do
    let s ← drain s
    if s.b.kernel.recipes.length ≤ k.toNat then .error (.trap 0x109 (zx64 k))
    let x := cur s
    if (slotOf s.w (otherSlot s.slot)).mask = 0 then
      pure { s with w := { s.w with
        stake := { pc := x.pc + 8, recipe := some k, slot := s.slot, mask := x.mask, cnt := x.cnt, divdepth := s.w.div.length
                   calldepth := s.w.acts.length }
        sealed := false } }
    else pure s

/-- YIELD makes the slot ineligible for n cycles and ends its windows (R185). -/
def execYield (n : BitVec 10) (s : State) : Host.Outcome State Fault Refusal :=
  runSeq s fun s => do
    let s ← drain s
    if n = 0 then pure s
    else pure (after (modCur s fun x => { x with yielding := true }) n.toNat (.yieldExpiry s.w.uid s.slot))

/-! ## Traps from the program and the ends of a handler (R186, R191) -/

/-- SVC raises 0x3C0 + n with aux s0 and seals the warp; delivery seals it (R35, R186). -/
def execSvc (n : BitVec 5) (s : State) : Host.Outcome State Fault Refusal :=
  runCtl s fun s => do
    let s ← drain s
    .error (.trap (BitVec.ofNat 10 (0x3C0 + n.toNat)) (scal s 0))

/-- Whether the policy of the block's VF grants debug (R48). -/
def debugGranted (s : State) : Bool := ((getVf s s.b.vf).map fun v => v.policy.debug).getD false

def execBkpt (k : BitVec 5) (s : State) : Host.Outcome State Fault Refusal :=
  runCtl s fun s => do
    let s ← drain s
    .error (.trap (if debugGranted s then BitVec.ofNat 10 (0x3E0 + k.toNat) else 0x343) (scal s 0))

/-- ERET and ERET.m: the suppression that ERET.m sets lasts for the next execution, so it is not cleared here (R40). -/
def eretWith (s : State) (f : State → LaneMask) : Host.Outcome State Fault Refusal :=
  .next (settle s do let t ← stepWindows s; returnFromTrap t (f t))

def execEret (s : State) : Host.Outcome State Fault Refusal := eretWith s fun _ => 0
def execEretM (ms : BitVec 3) (s : State) : Host.Outcome State Fault Refusal := eretWith s fun s => maskReg s ms

/-- ABORT ends the launch with the cause and aux that the handler was given (R40, R191). -/
def execAbort (s : State) : Host.Outcome State Fault Refusal :=
  .next (settle s do
    let t ← stepWindows s
    match (cur t).handler with
    | none => .error (.trap 0x107 0)
    | some h => do
      let t ← drain t
      pure (abortCurrent t h.cause h.aux))

end Sys2Proof.Machine
end

