-- ==== Sys2Proof/Machine/MemOps.lean ====
section
/-! DEFINITION. Loads, stores, bounded loads, acquire and release accesses, prefetch and cache control of group 0x7, with the
scalar accesses SLD and SST (R202, R230 to R236, R115 to R142). -/

namespace Sys2Proof.Machine

/-! ## Addresses and their checks (R231) -/

/-- Class 0x5 codes (R43): kind 0 load, 1 store, 2 atomic. -/
def codeGlobal (kind reason : Nat) : BitVec 10 := cause5 0 kind reason
def codeScratch (kind reason : Nat) : BitVec 10 := cause5 1 kind reason

/-- A checked global access of one lane: lane, virtual address, package address, leaf attributes. -/
structure LaneAddr where
  lane : Nat
  va : Word
  addr : Nat
  attr : BitVec 4
  deriving DecidableEq, Repr, Inhabited

/-- Alignment and range, translation, segments, then the limits of host and peer windows (R231). -/
def checkGlobal (s : State) (l : Nat) (va : Word) (align kind : Nat) (window : Bool) : Except Halt LaneAddr :=
  if va.toNat % align ≠ 0 then .error (.trap (codeGlobal kind 0) va)
  else if !canonical va then .error (.trap (codeGlobal kind 1) va)
  else
    match translate s s.b.vf va kind with
    | .error c => .error (.trap c va)
    | .ok (k, seg, attr) =>
      if 2 ≤ seg ∧ !window then .error (.trap (codeGlobal kind 3) va) else .ok { lane := l, va := va, addr := k, attr := attr }

/-- The global accesses of the lanes of a mask, in ascending lane order: the lowest failing lane faults (R231). -/
def checkLanes (s : State) (m : LaneMask) (a : Row) (off : BitVec 16) (align kind : Nat) (window : Bool) :
    Except Halt (List LaneAddr) :=
  (lanesOf m).mapM fun l => checkGlobal s l (addOff (at_ a l).1 off) align kind window

/-- The translations of accesses that passed their checks are cached (R378). -/
def cacheAll (s : State) (xs : List LaneAddr) : State := xs.foldl (fun s x => cacheXlat s s.b.vf x.va) s

/-! ## Token buckets (R388, R389) -/

/-- The paths of a request of a die to an address (Table 20-5): one to another die's HBM also uses the chain links (log entry 36). -/
def pathsOf (die k : Nat) : List Nat :=
  if isHost k then [2 + homeOf k]
  else if !isHbm k ∨ homeOf k = die then [homeOf k]
  else [homeOf k, 14]

def bucketOf (vf path : Nat) : Nat := (vf - 1) * 16 + path

def getBucket (s : State) (vf path : Nat) : Option Bucket :=
  s.buckets.find? fun b => b.num == bucketOf vf path && b.en

def modBucket (s : State) (n : Nat) (f : Bucket → Bucket) : State := { s with buckets := mapIf (fun b => b.num == n) f s.buckets }

/-- Cost of a request in units of 64 bytes (R388). -/
def costOf (bytes : Nat) : Nat := max 1 (ceilDiv bytes 64)

def chargePath (s : State) (vf cost path : Nat) : State :=
  modBucket s (bucketOf vf path) fun b => if b.en then { b with tokens := b.tokens - cost } else b

/-- A request that is admitted: its cost leaves the buckets of its paths (R388). -/
def charge (s : State) (vf die k bytes : Nat) : State := (pathsOf die k).foldl (fun s p => chargePath s vf (costOf bytes) p) s

/-- Whether a request that a bucket holds still waits: one whose slot, job or warp has gone on or has gone does not. -/
def stillHeld (s : State) : HeldReq → Bool
  | .load u rid _ => (getWarp s u).any fun w => w.pend.any fun r => r.rid == rid
  | .pref u _ _ _ _ => (getBlock s u).isSome
  | .slot u p => (getWarp s u).any fun w => (slotOf w p).st == .wait .qos && (getBlock s w.block).any fun b => b.st == .running
  | .chunk u n => (getBlock s u).any fun b => enginesRun s b && b.jobs.any fun j => j.num == n && !j.done && !j.faulted

/-- Whether a path's bucket holds a request: it is metered, and it has no tokens or requests wait before this one (R388, R389). -/
def heldOn (s : State) (vf : Nat) (r : Option HeldReq) (path : Nat) : Bool :=
  match getBucket s vf path with
  | some b => decide (b.tokens ≤ 0) || (b.held.takeWhile fun x => some x != r).any (stillHeld s)
  | none => false

/-- Puts a request into a bucket's queue, which its HELD register and the VF's counters count (R391, Table 22-7). -/
def hold (s : State) (vf path : Nat) (r : HeldReq) : State :=
  countEvent (modBucket s (bucketOf vf path) fun b =>
    { b with held := b.held ++ [r], heldCount := if b.heldCount = -1 then -1 else b.heldCount + 1 }) vf 0x11 1

/-- Charges a load's request on each of its paths, or holds it there for the pending result rid of the warp; answers on how many it
is held. -/
def chargeLoad (s : State) (k bytes rid : Nat) : Nat × State :=
  (pathsOf s.b.die k).foldl (fun x p =>
    if heldOn x.2 s.b.vf none p then (x.1 + 1, hold x.2 s.b.vf p (.load s.w.uid rid (costOf bytes)))
    else (x.1, chargePath x.2 s.b.vf (costOf bytes) p)) (0, s)

/-- The paths of a list that hold a request that is tried again. -/
def blocking (s : State) (vf : Nat) (r : HeldReq) (paths : List Nat) : List Nat := paths.filter (heldOn s vf (some r))

/-- Notes such a request in the queues of the paths that hold it, once each. -/
def holdRetry (s : State) (vf : Nat) (r : HeldReq) (paths : List Nat) : State :=
  (blocking s vf r paths).foldl (fun s p =>
    if s.buckets.any fun b => b.num == bucketOf vf p && b.held.contains r then s else hold s vf p r) s

/-- Such a request leaves the queues. -/
def unhold (s : State) (r : HeldReq) : State :=
  { s with buckets := s.buckets.map fun b => { b with held := b.held.filter (· != r) } }

/-! ## Reading global memory from a core -/

/-- Cache-way banks of a block's window. -/
def cacheWays (b : Block) : Nat := (b.bankModes.filter (· == .cache)).length

/-- A held line of the L1 by its package line number (R91, R120). -/
def findL1 (b : Block) (line : Nat) : Option CacheLine := b.l1.find? fun l => l.line == line

/-- Puts a line into a block's L1: each of the 32 sets holds as many lines as there are cache-way banks (R91). -/
def fillL1 (b : Block) (line : Nat) (bytes : List Byte) : Block :=
  let others := b.l1.filter fun l => l.line != line
  let set := (others.filter fun l => l.line % 32 == line % 32).take (cacheWays b - 1)
  if cacheWays b = 0 then b
  else { b with l1 := { line := line, bytes := bytes } :: set ++ others.filter fun l => l.line % 32 != line % 32 }

/-- Fills a line of the block's L1, which is discarded 5 µs later (R127). -/
def cacheLine (s : State) (line : Nat) (bytes : List Byte) : State :=
  if cacheWays s.b = 0 then s
  else after { s with b := fillL1 s.b line bytes } 13500 (.cacheLineExpiry s.b.uid (BitVec.ofNat 64 line))

/-- The same for any block. -/
def cacheLineOf (s : State) (u line : Nat) (bytes : List Byte) : State :=
  if (getBlock s u).any fun b => cacheWays b != 0 then
    after (modBlock s u fun b => fillL1 b line bytes) 13500 (.cacheLineExpiry u (BitVec.ofNat 64 line))
  else s

def dropL1 (s : State) : State := { s with b := { s.b with l1 := [] } }

/-- How a load of a rounded page may be served: how many rounds behind the mirror, and whether it waits for pushed data (R139). -/
structure Bound where
  k : Nat
  stale : Bool
  deriving DecidableEq, Repr, Inhabited

/-- Whether a held line of a rounded page serves a load (R139); a line that the die holds modified is its own data (R120). -/
def servesBound (m : BitVec 32) (b : Bound) (l : L2Line) : Bool :=
  l.modified || b.k == 31 || roundGe l.f (m - BitVec.ofNat 32 b.k)

/-- What reading global memory at a die finds: bytes, a wait for pushed data, or that the line has to come from its home. -/
inductive LineRead where
  | bytes (xs : List Byte)
  | waits
  | missing
  deriving DecidableEq, Repr, Inhabited

/-- Reads a line in the die's L2 (R136, R139, R142). -/
def readLine (s : State) (d : Nat) (attr : BitVec 4) (bd : Bound) (line : Nat) : LineRead :=
  let e := dirFor s (line / 512) (rndAttr attr) (pshAttr attr)
  match findL2 s d line with
  | none => .missing
  | some l =>
    if !roundedPage s (line * 128) (rndAttr attr) || servesBound ((mirrorOf s d e.page).getD e.round) bd l then .bytes l.bytes
    else if l.pending && bd.stale && e.push then .waits
    else .missing

/-- The bytes that own stores in flight supply over what memory gives (R120), oldest first. -/
def forward (s : State) (k : Nat) (bytes : List Byte) : List Byte :=
  (s.inflight.filter fun a => a.warp == s.w.uid).foldl (fun bs a =>
    bs.mapIdx fun i x => if a.cell.addr ≤ k + i ∧ k + i < a.cell.addr + a.cell.bytes.length then a.cell.bytes.getD (k + i - a.cell.addr) 0 else x)
    bytes

/-- The line of the block's L1 that serves a load at an address: none on a rounded page (log entry 29). -/
def hitL1 (s : State) (k : Nat) (attr : BitVec 4) : Option CacheLine :=
  if roundedPage s k (rndAttr attr) then none else findL1 s.b (lineOf k)

/-- What a load of n bytes of global memory by the current block finds: in the block's L1, then in the die's L2 (R15); own stores in
flight are seen. -/
def loadBytes (s : State) (k : Nat) (attr : BitVec 4) (n : Nat) (bd : Bound) : LineRead :=
  let take (xs : List Byte) : List Byte := forward s k ((xs.drop (k % 128)).take n)
  match hitL1 s k attr with
  | some l => .bytes (take l.bytes)
  | none =>
    match readLine s s.b.die attr bd (lineOf k) with
    | .bytes xs => .bytes (take xs)
    | r => r

/-- The L2 line that a load has read goes into the block's cache-way banks, unless CP is nc (R91, R230). -/
def fillFor (s : State) (k : Nat) (attr : BitVec 4) (cp : Cp) (bd : Bound) : State :=
  if roundedPage s k (rndAttr attr) || cp == .nc || (hitL1 s k attr).isSome then s
  else
    match readLine s s.b.die attr bd (lineOf k) with
    | .bytes xs => cacheLine s (lineOf k) xs
    | _ => s

/-- The value and tag that a load of type t pushes (R232). -/
def loadVal (t : Ty) (bytes : List Byte) : Val :=
  let v : Word := BitVec.ofNat 64 (ofBytes bytes)
  match t with
  | .sign => (sx64 (fld v 0 8), .i32)
  | .bool => (ofBool (v != 0), .bool)
  | t => (formOf t v, t)

/-- The bytes that a store of type t writes (R232). -/
def storeBytes (t : Ty) (v : Word) : List Byte :=
  if t = .bool then [if v = 0 then 0 else 1] else toBytes (memWidth t) v.toNat

/-! ## Loads -/

/-- Rows being built by a load: one value row for each push, lanes that wait for pushed data. -/
structure LoadAcc where
  st : State
  rows : List Row
  waits : List (Nat × Nat × Nat × Ty)
  held : Nat

/-- Loads one lane: `pushes` values of n bytes at ascending addresses, as the state `s0` in which the load issues holds them. A request
that the block's own L1 serves uses no path (R388). -/
def loadLane (s0 : State) (t : Ty) (cp : Cp) (bd : Bound) (pushes rid : Nat) (acc : LoadAcc) (x : LaneAddr) : LoadAcc :=
  let n := memWidth t
  (List.range pushes).foldl (fun acc i =>
    let k := x.addr + i * n
    let st := fillFor acc.st k x.attr cp bd
    let h := if (hitL1 s0 k x.attr).isSome then (0, st) else chargeLoad (consume st k n) k n rid
    let held := acc.held + h.1
    match loadBytes s0 k x.attr n bd with
    | .bytes bytes => { acc with st := h.2, held := held, rows := modAt acc.rows i fun row => setAt row x.lane (loadVal t bytes) }
    | _ => { acc with st := h.2, held := held, waits := acc.waits ++ [(x.lane, k, n, t)] }) acc

/-- What the lanes of a load have to ask of homes: lines that neither the L1 nor the L2 serves. -/
def loadAsks (s : State) (bd : Bound) (bounded : Bool) (xs : List LaneAddr) : List HomeAsk :=
  (xs.filter fun x => loadBytes s x.addr x.attr 1 bd == .missing).map fun x =>
    { addr := x.addr, attr := x.attr, write := false, bounded := bounded }

/-- A load of global memory into `pushes` pending entries (R233 to R235). -/
def loadGlobal (m : MArgs) (cp : Cp) (bd : Bound) (bounded : Bool) (pushes : Nat) (s : State) : Op := do
  let a ← readA s m.addr .addr m.ty
  let act := active s m.ms
  let w := memWidth m.ty
  let xs ← checkLanes s act a m.off (w * pushes) 0 (w == 4 || w == 8)
  let s := cacheAll s xs
  if loadAsks s bd bounded xs ≠ [] then .error (.home (loadAsks s bd bounded xs))
  let blank : Row := lanes32.map fun _ => (0, (loadVal m.ty []).2)
  let acc := xs.foldl (loadLane s m.ty cp bd pushes s.w.ridNext) { st := s, rows := List.replicate pushes blank, waits := [], held := 0 }
  let rows := acc.rows.map fun r => mergeRow act m.mz r a
  pure (pushPending acc.st m.la { PendRes.of rows .memory with
    ready := acc.waits.isEmpty && acc.held == 0, holds := acc.held, lineWaits := acc.waits
    host := maskOf fun l => xs.any fun x => x.lane == l && isHost x.addr } pushes)

/-- A plain load is LDB.0.rf on a rounded page (R142). -/
def plainBound : Bound := { k := 0, stale := false }

def execLd (m : MArgs) (cp : Cp) (s : State) : Host.Outcome State Fault Refusal := runSeq s (loadGlobal m cp plainBound false 1)
def execLd2 (m : MArgs) (cp : Cp) (s : State) : Host.Outcome State Fault Refusal := runSeq s (loadGlobal m cp plainBound false 2)
def execLdb (m : MArgs) (k : BitVec 5) (stale : Bool) (s : State) : Host.Outcome State Fault Refusal :=
  runSeq s (loadGlobal m .dflt { k := k.toNat, stale := stale } true 1)

/-! ## Stores in flight (R33, R119, R120) -/

/-- Issues a store: its accesses are in flight, and their performing is an event of each. -/
def issueStore (s : State) (sync : Bool) (cells : List AccessCell) : State :=
  issueAccesses (cells.foldl (fun s c => charge s s.b.vf s.b.die c.addr c.bytes.length) s) sync cells

/-- The cells of a store with each byte written once, by the highest-numbered lane that writes it (R119): lanes whose bytes overlap
write the same ones, since their accesses are aligned and of one width. -/
def lastWriters : List AccessCell → List AccessCell
  | [] => []
  | c :: cs => if cs.any (cellsOverlap c) then lastWriters cs else c :: lastWriters cs

/-- Reads a store's operands and addresses: the cells of its active lanes (R231 to R233). -/
def storeCells (m : MArgs) (d : Src) (s : State) : Except Halt (State × List AccessCell) := do
  let act := active s m.ms
  let a ← readB s act m.addr .addr m.ty
  let v ← readB s act d (dataTag m.ty) m.ty (m.ty == .raw)
  let w := memWidth m.ty
  let xs ← checkLanes s act a m.off w 1 (w == 4 || w == 8)
  pure (cacheAll s xs, lastWriters <| xs.map fun x =>
    { lane := x.lane, va := x.va, addr := x.addr, attr := x.attr, bytes := storeBytes m.ty (at_ v x.lane).1 })

def execSt (m : MArgs) (data : Src) (cp : Cp) (s : State) : Host.Outcome State Fault Refusal :=
  match cp with
  | .dflt | .str | .nc => runSeq s fun s => do let (s, cells) ← storeCells m data s; pure (issueStore s false cells)

/-- The operand field one above DATA (R233). -/
def nextSrc : Src → Src
  | .age n => .age (n + 1)
  | .frame n => .frame (n + 1)
  | .scalar n => .scalar (n + 1)
  | x => x

/-- ST2 writes DATA + 1 at the lower address and DATA above it (R233). -/
def execSt2 (m : MArgs) (data : Src) (cp : Cp) (s : State) : Host.Outcome State Fault Refusal :=
  match cp with
  | .dflt | .str | .nc => runSeq s fun s => do
    let act := active s m.ms
    let a ← readB s act m.addr .addr m.ty
    let hi ← readB s act data (dataTag m.ty) m.ty (m.ty == .raw)
    let lo ← readB s act (nextSrc data) (dataTag m.ty) m.ty (m.ty == .raw)
    let w := memWidth m.ty
    let xs ← checkLanes s act a m.off (2 * w) 1 true
    let cells : List AccessCell := xs.flatMap fun x =>
      [⟨x.lane, x.va, x.addr, x.attr, storeBytes m.ty (at_ lo x.lane).1⟩,
       ⟨x.lane, x.va + BitVec.ofNat 64 w, x.addr + w, x.attr, storeBytes m.ty (at_ hi x.lane).1⟩]
    pure (issueStore (cacheAll s xs) false (lastWriters cells))

/-! ## Acquire and release (R124 to R128, R235) -/

/-- Blocks of the current gang. -/
def gangSize (s : State) : Nat := ((getGang s s.b.gang).map fun g => g.blocks.length).getD 1

/-- Whether an acquire at a scope invalidates the block's cache-way lines (R127). -/
def invalidates (s : State) : Scope → Bool
  | .die | .pkg | .sys => true
  | .gg => decide (1 < gangSize s)
  | .bk | .wp => false

def acquire (s : State) (sc : Scope) : State := if invalidates s sc then dropL1 s else s

/-- Whether a release store of the slot's member lanes that is in flight overlaps a lane's access: an acquire of its location follows it
in the order of synchronising operations (R122). -/
def behindRelease (s : State) (m : MArgs) : Bool :=
  match readA s m.addr .addr m.ty with
  | .error _ => false
  | .ok a =>
    match checkLanes s (active s m.ms) a m.off (memWidth m.ty) 0 true with
    | .error _ => false
    | .ok xs => s.inflight.any fun x => x.sync && ofMembers s x && xs.any fun l =>
        decide (x.cell.addr < l.addr + memWidth m.ty ∧ l.addr < x.cell.addr + x.cell.bytes.length)

def execLda (m : MArgs) (scope : Scope) (cp : Cp) (s : State) : Host.Outcome State Fault Refusal :=
  runSeq s fun s => do
    if behindRelease s m then .error (.stall .home)
    let t := if active s m.ms = 0 then s else acquire s scope
    loadGlobal m cp plainBound false 1 t

/-- STL: once the member lanes' earlier accesses have taken place its own store issues (R124, R235). -/
def execStl (m : MArgs) (data : Src) (scope : Scope) (cp : Cp) (s : State) : Host.Outcome State Fault Refusal :=
  match scope, cp with
  | _, _ => runSeq s fun s => do
    let (s, cells) ← storeCells m data s
    if cells.isEmpty then pure s
    else
      let s ← released .home s
      pure (issueStore s true cells)

/-! ## Scratch (R94 to R96) -/

/-- The block that is member k of the current gang. -/
def memberBlock (s : State) (k : Nat) : Option Block := (allBlocks s).find? fun b => b.uid != 0 && b.gang == s.b.gang && b.member == k

/-- Whether byte b of a block's scratch exists and maps to a bank in scratch mode (R94, R95). -/
def scratchOk (b : Block) (byte : Nat) : Bool :=
  let ns := b.scratchOrder.length
  decide (byte < ns * 4096) && b.bankModes.getD (b.scratchOrder.getD (byte / 8 % max 1 ns) 0) .off == .scratch

/-- Whether bytes [lo, lo + n) of a member touch a declared barrier word (R96, R112). -/
def touchesBarrier (k : Kernel) (member lo n : Nat) : Bool :=
  (List.range 32).any fun i =>
    k.barmask.getLsbD i &&
      let a := (k.baraddr.getD i 0).toNat
      (decide (i < 16) || a / 2 ^ 20 % 4 == member) && decide (a % 2 ^ 20 < lo + n ∧ lo < a % 2 ^ 20 + 16)

/-- A checked scratch access of one lane: lane, block, byte. -/
structure LaneByte where
  lane : Nat
  block : Nat
  byte : Nat
  own : Bool
  deriving DecidableEq, Repr, Inhabited

/-- The checks of a scratch access (R94 to R96, R231): space, alignment, range, barrier words, other members. -/
def checkScratch (s : State) (l : Nat) (v : Word) (off : BitVec 16) (n kind : Nat) : Except Halt LaneByte :=
  let a : BitVec 32 := fld v 0 32 + off.signExtend 32
  let aux : Word := fld v 32 32 ++ a
  let space := (fld v 32 32).toNat
  if space = 1 ∨ space = 2 then .error (.trap (cause5 (space + 1) kind 2) aux)
  else if space ≠ 0 then .error (.trap (codeScratch kind 1) aux)
  else if a.toNat % n ≠ 0 then .error (.trap (codeScratch kind 0) aux)
  else
    let member := (fld a 20 2).toNat
    let byte := (fld a 0 20).toNat
    match memberBlock s member with
    | none => .error (.trap (codeScratch kind 1) aux)
    | some b =>
      if fld a 22 10 ≠ 0 ∨ !scratchOk b byte then .error (.trap (codeScratch kind 1) aux)
      else if kind ≠ 0 ∧ touchesBarrier b.kernel member byte n then .error (.trap (codeScratch kind 2) aux)
      else if member ≠ s.b.member ∧ !(n == 4 || (n == 8 && kind != 2)) then .error (.trap (codeScratch kind 3) aux)
      else .ok { lane := l, block := b.uid, byte := byte, own := member == s.b.member }

def checkScratchLanes (s : State) (m : LaneMask) (a : Row) (off : BitVec 16) (n kind : Nat) : Except Halt (List LaneByte) :=
  (lanesOf m).mapM fun l => checkScratch s l (at_ a l).1 off n kind

def scratchOf (s : State) (u : Nat) : Memory := ((getBlock s u).map (·.scratch)).getD []

/-- Chunks of a job that have been read: they are read in ascending order (R104, R108). -/
def chunksRead (j : Job) : Nat := j.landedHead / 4096 + j.landed.length + j.begun.length

/-- Where the not-yet-read part of a read region of a member block begins that starts at byte lo: for linear and fill jobs, at the
source beyond the chunks already read; other shapes and matrix instructions hold their whole read region until they complete
(R111). -/
def unreadFrom (s : State) (e : FpEntry) (member lo : Nat) : Nat :=
  match e.job, getBlock s e.block with
  | some n, some b =>
    match b.jobs.find? fun j => j.num == n with
    | some j => if j.kind = 0 ∨ j.kind = 5 then max lo (j.src.toNat + chunksRead j * 4096 - member * 2 ^ 20) else lo
    | none => lo
  | _, _ => lo

/-- Whether bytes of a block's scratch lie in the not-yet-read region of a footprint entry (R111). -/
def guarded (s : State) (block lo n : Nat) : Bool :=
  let member := ((getBlock s block).map (·.member)).getD 0
  s.footprints.any fun e => !e.waiting && e.reads.any fun r =>
    match r with
    | .scratch b l h => b == block && decide (unreadFrom s e member l < lo + n ∧ lo < h)
    | _ => false

def execLds (m : MArgs) (cp : Cp) (s : State) : Host.Outcome State Fault Refusal :=
  match cp with
  | .dflt | .str | .nc => runSeq s fun s => do
    let a ← readA s m.addr .addr m.ty
    let act := active s m.ms
    let w := memWidth m.ty
    let xs ← checkScratchLanes s act a m.off w 0
    let blank : Row := lanes32.map fun _ => (0, (loadVal m.ty []).2)
    let row := xs.foldl (fun row x => setAt row x.lane (loadVal m.ty (readBytes (scratchOf s x.block) x.byte w))) blank
    pure (pushPending s m.la (PendRes.of [mergeRow act m.mz row a] .memory) 1)

def writeScratch (s : State) (u byte : Nat) (bytes : List Byte) : State :=
  modBlock s u fun b => { b with scratch := writeBytes b.scratch byte bytes }

def execSts (m : MArgs) (data : Src) (cp : Cp) (s : State) : Host.Outcome State Fault Refusal :=
  match cp with
  | .dflt | .str | .nc => runSeq s fun s => do
    let act := active s m.ms
    let a ← readB s act m.addr .addr m.ty
    let v ← readB s act data (dataTag m.ty) m.ty (m.ty == .raw)
    let w := memWidth m.ty
    let xs ← checkScratchLanes s act a m.off w 1
    if xs.any fun x => guarded s x.block x.byte w then .error (.stall .guard)
    pure (xs.foldl (fun s x => writeScratch s x.block x.byte (storeBytes m.ty (at_ v x.lane).1)) s)

/-! ## PREF and CCTL (R236) -/

/-- The lanes whose address passes the checks of R231 as a one-byte load, which no host or peer window accepts. -/
def passing (s : State) (m : LaneMask) (a : Row) (off : BitVec 16) : List LaneAddr :=
  (lanesOf m).filterMap fun l => (checkGlobal s l (addOff (at_ a l).1 off) 1 0 false).toOption

/-- A prefetch that its buckets have admitted: the line goes into the L2 by RD where the die does not hold it, and with `fill` into
the block's cache-way banks, at once or with its data (R236). A rounded page's lines stay out of them, as in a load. -/
def sendPref (s : State) (b : Block) (addr : Nat) (attr : BitVec 4) (fill : Bool) : State :=
  let fill := fill && !roundedPage s addr (rndAttr attr)
  match findL2 s b.die (lineOf addr) with
  | some l => if fill then cacheLineOf s b.uid (lineOf addr) l.bytes else s
  | none =>
    askLine (if fill then modBlock s b.uid fun b => { b with prefs := lineOf addr :: b.prefs } else s) b.vf b.die addr attr

/-- A prefetch passes its paths in turn: the first whose bucket holds it keeps it (R388, R389). -/
def prefPaths (s : State) (b : Block) (addr : Nat) (attr : BitVec 4) (fill : Bool) : List Nat → State
  | [] => sendPref s b addr attr fill
  | p :: ps =>
    if heldOn s b.vf none p then hold s b.vf p (.pref b.uid addr attr fill ps)
    else prefPaths (chargePath s b.vf (costOf 128) p) b addr attr fill ps

/-- PREF requests the line of each passing lane, unless CP is nc also for the cache-way banks (R236). -/
def execPref (m : MArgs) (cp : Cp) (s : State) : Host.Outcome State Fault Refusal :=
  runSeq s fun s => do
    let act := active s m.ms
    let a ← readB s act m.addr .addr .raw
    pure ((passing s act a m.off).foldl (fun s x => prefPaths s s.b x.addr x.attr (cp != .nc) (pathsOf s.b.die x.addr)) s)

/-- CCTL: inv and invall discard cache-way lines; clean writes a modified L2 line back by WB and keeps it (R236). -/
def execCctl (m : MArgs) (op : CctlOp) (s : State) : Host.Outcome State Fault Refusal :=
  runSeq s fun s => do
    let act := active s m.ms
    match op with
    | .invall => pure (if act = 0 then s else dropL1 s)
    | .inv =>
      let a ← readB s act m.addr .addr .raw
      let lines := (passing s act a m.off).map fun x => lineOf x.addr
      pure { s with b := { s.b with l1 := s.b.l1.filter fun l => !lines.contains l.line } }
    | .clean =>
      let a ← readB s act m.addr .addr .raw
      let xs ← checkLanes s act a m.off 1 0 false
      let s := cacheAll s xs
      pure (xs.foldl (fun s x =>
        match findL2 s s.b.die (lineOf x.addr) with
        | some l => if l.modified then sendMsg s s.b.die (homeOf x.addr) (.wb s.b.die l.line l.bytes) else s
        | none => s) s)

/-! ## SLD and SST (R202) -/

/-- The current slot's instruction as a request that is tried again. -/
def slotReq (s : State) : HeldReq := .slot s.w.uid s.slot

/-- Paths of a scalar access: none where the block's own L1 serves it (R388). -/
def slotPaths (s : State) (x : LaneAddr) : List Nat := if (hitL1 s x.addr x.attr).isSome then [] else pathsOf s.b.die x.addr

/-- Notes that a bucket holds the request of the current slot's instruction for an address that passed its checks. -/
def holdSlot (s : State) (x : Except Halt LaneAddr) : State :=
  match x with
  | .ok x => holdRetry s s.b.vf (slotReq s) (slotPaths s x)
  | .error _ => s

/-- The bytes that a scalar access finds, and the state after it: the line comes from its home first where the die does not hold it; a
request that the block's own L1 serves uses no path (R388). -/
def slotLoad (x : LaneAddr) (n : Nat) (s : State) : Except Halt (List Byte × State) :=
  match loadBytes s x.addr x.attr n plainBound with
  | .bytes bytes =>
    let t := fillFor s x.addr x.attr .dflt plainBound
    .ok (bytes, if (hitL1 s x.addr x.attr).isSome then t else charge (unhold (consume t x.addr n) (slotReq s)) s.b.vf s.b.die x.addr n)
  | _ => .error (.home [{ addr := x.addr, attr := x.attr, write := false, bounded := false }])

/-- The bytes that a scalar access of a type moves. -/
def scalarWidth (ty : Ty) : Nat := if intWidth ty = 32 then 4 else 8

def execSld (ty : Ty) (sd sa : BitVec 5) (off : BitVec 16) (s : State) : Host.Outcome State Fault Refusal :=
  let check (s : State) := checkGlobal s 0 (addOff (scal s sa) off) (scalarWidth ty) 0 true
  runSeq (holdSlot s (check s)) fun s => do
    let x ← check s
    let s := cacheXlat s s.b.vf x.va
    if blocking s s.b.vf (slotReq s) (slotPaths s x) ≠ [] then .error (.stall .qos)
    let (bytes, t) ← slotLoad x (scalarWidth ty) s
    pure (setScal t sd (reshape ty (BitVec.ofNat 64 (ofBytes bytes))))

/-- SST: its store counts as one of the slot's lowest member lane, for what later releases and fences of slots with that lane cover
(log entry 45, DESIGN CHOICE: R128, R202). -/
def execSst (ty : Ty) (sd sa : BitVec 5) (off : BitVec 16) (s : State) : Host.Outcome State Fault Refusal :=
  runSeq s fun s => do
    let w := scalarWidth ty
    let x ← checkGlobal s (lowLane (members s)) (addOff (scal s sa) off) w 1 true
    pure (issueStore (cacheXlat s s.b.vf x.va) false [⟨x.lane, x.va, x.addr, x.attr, toBytes w (scal s sd).toNat⟩])

end Sys2Proof.Machine
end

