-- ==== Sys2Proof/Machine/Atomics.lean ====
section
/-! DEFINITION. Atomics and rounds: group 0x8 (R237 to R239, R137 to R141). -/

namespace Sys2Proof.Machine

/-- The new value of an atomic operation (Table 10-2): old is the first operand; float atomics round rne and keep subnormals. -/
def atomNew (t : Ty) (op : AtomOp) (old d : Word) : Word :=
  if isFloat t then
    let x := readF t false false old
    let y := readF t false false d
    match op with
    | .add => (fAdd t .rne false x y).1
    | .min => (fMinMax t false x y).1
    | .max => (fMinMax t true x y).1
    | _ => d
  else
    match op with
    | .add => narrow t false (num t old + num t d)
    | .min => narrow t false (min (num t old) (num t d))
    | .max => narrow t false (max (num t old) (num t d))
    | .and => old &&& d
    | .or => old ||| d
    | .xor => old ^^^ d
    | .exch => d

/-- Whether an atomic of these operands may act on a host or peer window (R231). -/
def windowAtom (w : Nat) (op : AtomOp) : Bool := (w == 4 || w == 8) && (op == .add || op == .exch)

/-- One read-modify-write of a global location by the current block's die, which may write it and holds its line: old bytes, and the
state with the new ones (R238). -/
def rmwGlobal (s : State) (x : LaneAddr) (n : Nat) (f : Word → Word) : Word × State :=
  let s := charge (consume s x.addr n) s.b.vf s.b.die x.addr n
  let bytes := (((findL2 s s.b.die (lineOf x.addr)).map (·.bytes)).getD []).drop (x.addr % 128)
  let old : Word := BitVec.ofNat 64 (ofBytes (bytes.take n))
  let new := toBytes n (f old).toNat
  let s := writeOwned s s.b.die x.addr new
  (old, { s with b := updateL1 s.b x.addr new })

/-- What the lanes of an atomic have to ask of homes. -/
def atomAsks (s : State) (xs : List LaneAddr) : List HomeAsk :=
  (xs.filter fun x => !canStore s s.b.die x.addr).map fun x => { addr := x.addr, attr := x.attr, write := true, bounded := false }

/-- Release and acquire sides of an atomic's ORD (R121, R124). Without a release side it follows the slot's release stores, unless it is
an acquire (R122). -/
def ordRelease (s : State) (o : Ord) : Op :=
  match o with
  | .rel | .acqrel => released .home s
  | .plain => synced s
  | .acq => .ok s
def ordAcquire (s : State) (o : Ord) (sc : Scope) : State := if o = .acq ∨ o = .acqrel then acquire s sc else s

/-- An atomic on global memory: f gives the new value from lane and old value; with `push`, the old values are pushed (R238). -/
def atomGlobal (m : MArgs) (scope : Scope) (ord : Ord) (window push : Bool) (act : LaneMask) (a : Row) (f : Nat → Word → Word)
    (s : State) : Op := do
  let w := memWidth m.ty
  let xs ← checkLanes s act a m.off w 2 window
  if act = 0 then
    pure (if push then pushPending s m.la (PendRes.of [mergeRow act m.mz (rowOf m.ty fun _ => 0) a] .memory) 1 else s)
  else
    let s ← ordRelease (cacheAll s xs) ord
    if xs.any fun x => storeOver s x.addr w then .error (.stall .home)
    if atomAsks s xs ≠ [] then .error (.home (atomAsks s xs))
    let r := xs.foldl (fun (acc : Row × State) x =>
      let r := rmwGlobal acc.2 x w (f x.lane)
      (setAt acc.1 x.lane (formOf m.ty r.1, m.ty), r.2)) (rowOf m.ty fun _ => 0, s)
    let s := ordAcquire (sealWarp r.2) ord scope
    pure (if push then pushPending s m.la (PendRes.of [mergeRow act m.mz r.1 a] .memory) 1 else s)

def execAtom (m : MArgs) (data : Src) (scope : Scope) (ord : Ord) (op : AtomOp) (s : State) : Host.Outcome State Fault Refusal :=
  runSeq s fun s => do
    let act := active s m.ms
    let a ← readA s m.addr .addr m.ty
    let d ← readB s act data m.ty m.ty
    atomGlobal m scope ord (windowAtom (memWidth m.ty) op) true act a (fun l old => atomNew m.ty op old (at_ d l).1) s

/-- Whether two values agree in the w bits of a type (R238). -/
def sameBits (t : Ty) (x y : Word) : Bool := x.toNat % 2 ^ (8 * memWidth t) == y.toNat % 2 ^ (8 * memWidth t)

/-- ATOMC: the comparand is the age that ATOMOP names (R238). -/
def execAtomc (m : MArgs) (data : Src) (scope : Scope) (ord : Ord) (cmp : BitVec 5) (s : State) : Host.Outcome State Fault Refusal :=
  runSeq s fun s => do
    let act := active s m.ms
    let a ← readA s m.addr .addr m.ty
    let d ← readB s act data m.ty m.ty
    let c ← readB s act (.age cmp) m.ty m.ty
    let w := memWidth m.ty
    atomGlobal m scope ord (w == 4 || w == 8) true act a
      (fun l old => if sameBits m.ty old (at_ c l).1 then (at_ d l).1 else old) s

def execAtomf (m : MArgs) (data : Src) (scope : Scope) (ord : Ord) (op : AtomOp) (s : State) : Host.Outcome State Fault Refusal :=
  runSeq s fun s => do
    let act := active s m.ms
    let a ← readA s m.addr .addr m.ty
    let d ← readB s act data m.ty m.ty
    atomGlobal m scope ord (windowAtom (memWidth m.ty) op) true act a (fun l old => atomNew m.ty op old (at_ d l).1) s

/-- RED pushes nothing (R238). -/
def execRed (m : MArgs) (data : Src) (scope : Scope) (ord : Ord) (op : AtomOp) (s : State) : Host.Outcome State Fault Refusal :=
  runSeq s fun s => do
    let act := active s m.ms
    let a ← readB s act m.addr .addr m.ty
    let d ← readB s act data m.ty m.ty
    atomGlobal m scope ord (windowAtom (memWidth m.ty) op) false act a (fun l old => atomNew m.ty op old (at_ d l).1) s

/-- An atomic on scratch: a scope wider than gg acts as gg (R117, R238). -/
def atomScratch (m : MArgs) (scope : Scope) (ord : Ord) (act : LaneMask) (a : Row) (f : Nat → Word → Word) (s : State) : Op := do
  let w := memWidth m.ty
  let xs ← checkScratchLanes s act a m.off w 2
  if xs.any fun x => guarded s x.block x.byte w then .error (.stall .guard)
  let s ← if act = 0 then pure s else ordRelease s ord
  let r := xs.foldl (fun (acc : Row × State) x =>
    let old : Word := BitVec.ofNat 64 (readNat (scratchOf acc.2 x.block) x.byte w)
    (setAt acc.1 x.lane (formOf m.ty old, m.ty), writeScratch acc.2 x.block x.byte (toBytes w (f x.lane old).toNat)))
    (rowOf m.ty fun _ => 0, s)
  let narrowScope : Scope := match scope with
    | .wp => .wp | .bk => .bk | _ => .gg
  let s := if act = 0 then r.2 else ordAcquire (sealWarp r.2) ord narrowScope
  pure (pushPending s m.la (PendRes.of [mergeRow act m.mz r.1 a] .memory) 1)

def execAtoms (m : MArgs) (data : Src) (scope : Scope) (ord : Ord) (op : AtomOp) (s : State) : Host.Outcome State Fault Refusal :=
  runSeq s fun s => do
    let act := active s m.ms
    let a ← readA s m.addr .addr m.ty
    let d ← readB s act data m.ty m.ty
    atomScratch m scope ord act a (fun l old => atomNew m.ty op old (at_ d l).1) s

def execAtomsc (m : MArgs) (data : Src) (scope : Scope) (ord : Ord) (cmp : BitVec 5) (s : State) :
    Host.Outcome State Fault Refusal :=
  runSeq s fun s => do
    let act := active s m.ms
    let a ← readA s m.addr .addr m.ty
    let d ← readB s act data m.ty m.ty
    let c ← readB s act (.age cmp) m.ty m.ty
    atomScratch m scope ord act a (fun l old => if sameBits m.ty old (at_ c l).1 then (at_ d l).1 else old) s

/-! ## Rounds (R137, R141, R239) -/

/-- The entry of a page as its access finds it, if the page is rounded (R135, R392). -/
def roundedEntry (s : State) (x : LaneAddr) : Option DirEntry :=
  let e := dirFor s (pageOf x.addr) (rndAttr x.attr && isHbm x.addr) (pshAttr x.attr && isHbm x.addr)
  if isHbm x.addr && e.rounded then some e else none

/-- RADV: its checks in the order of R239, where a host window's page is not rounded (R392) and a peer window refuses it (R231); once the
slot's prior stores have performed RADVREQ travels to the home, and the result is pending until RADVDONE. With an empty active mask it
advances nothing (R137). -/
def execRadv (m : MArgs) (scope : Scope) (s : State) : Host.Outcome State Fault Refusal :=
  runSeq s fun s => do
    let act := active s m.ms
    let a ← readA s m.addr .addr m.ty
    let code : Word := match scope with
      | .wp => 0 | .bk => 1 | .gg => 2 | .die => 3 | .pkg => 4 | .sys => 5
    if scope ≠ .pkg then .error (.trap 0x202 code)
    let row (v : Word) := mergeRow act m.mz (rowOf .n32 fun _ => v) a
    if act = 0 then pure (pushPending s m.la (PendRes.of [row 0] .memory) 1)
    else
      let va (l : Nat) : Word := addOff (at_ a l).1 m.off
      let odd := maskOf fun l => inMask act l && va l != va (lowLane act)
      if odd ≠ 0 then .error (.trap 0x201 (zx64 odd))
      let x ← checkGlobal s (lowLane act) (va (lowLane act)) 4 2 true
      let _ ← if isHost x.addr then pure x else checkGlobal s (lowLane act) (va (lowLane act)) 4 2 false
      match roundedEntry s x with
      | none => .error (.trap 0x200 x.va)
      | some e =>
        let s ← released .home (cacheXlat s s.b.vf x.va)
        let s := charge (setDir s (dirFor s e.page e.rounded e.push)) s.b.vf s.b.die x.addr 64
        let rid := s.w.ridNext
        let s := pushPending (sealWarp s) m.la { PendRes.of [row 0] .memory with
          ready := false, lineWaits := (lanesOf act).map fun l => (l, 0, 0, .n32) } 1
        pure (sendMsg s s.b.die (homeOf x.addr) (.radvreq s.b.die e.page s.w.uid rid))

/-- RDROUND pushes the die's mirror for each lane's page, or the home's counter, which gives the die no mirror: one comes with its
first fetch (R136, R141). -/
def execRdround (m : MArgs) (s : State) : Host.Outcome State Fault Refusal :=
  runSeq s fun s => do
    let act := active s m.ms
    let a ← readA s m.addr .addr m.ty
    let xs ← checkLanes s act a m.off 4 0 true
    match xs.find? fun x => (roundedEntry s x).isNone with
    | some x => .error (.trap 0x200 x.va)
    | none =>
      let s := cacheAll s xs
      let r := xs.foldl (fun (acc : Row × State) x =>
        let e := dirFor acc.2 (pageOf x.addr) (rndAttr x.attr) (pshAttr x.attr)
        match mirrorOf acc.2 acc.2.b.die (pageOf x.addr) with
        | some v => (setAt acc.1 x.lane (zx64 v, .n32), acc.2)
        | none => (setAt acc.1 x.lane (zx64 e.round, .n32), setDir acc.2 e))
        (rowOf .n32 fun _ => 0, s)
      pure (pushPending r.2 m.la (PendRes.of [mergeRow act m.mz r.1 a] .memory) 1)

end Sys2Proof.Machine
end

