-- ==== Sys2Proof/Machine/Fetch.lean ====
section
/-! DEFINITION. Which slot or stream is the current agent, fetching an instruction (R151, R44, R45), and the instruction that a
waiting slot holds. -/

namespace Sys2Proof.Machine

/-- Makes a block the current one. -/
def focusBlock (s : State) (u : Nat) : State :=
  if s.b.uid = u then s
  else
    match s.blocks.find? fun b => b.uid == u with
    | none => s
    | some b =>
      let rest := s.blocks.filter fun b => b.uid != u
      { s with b := b, blocks := if s.b.uid = 0 then rest else s.b :: rest }

/-- Makes slot p of a warp the current agent. -/
def focusWarp (s : State) (u : Nat) (p : PcSlot) : State :=
  let s := { s with slot := p, onStream := false }
  if s.w.uid = u then focusBlock s s.w.block
  else
    match s.warps.find? fun w => w.uid == u with
    | none => s
    | some w =>
      let rest := s.warps.filter fun w => w.uid != u
      focusBlock { s with w := w, warps := if s.w.uid = 0 then rest else s.w :: rest } w.block

/-- Makes the matrix stream of a block the current agent. -/
def focusStream (s : State) (u : Nat) : State := { focusBlock s u with onStream := true }

/-- The 8 bytes at an address of a block's code, or the cause and aux of the trap: BRANCH_RANGE outside the code, else the
translation's (R151, R44, R45). -/
def fetchWord (s : State) (b : Block) (pc : Word) : Except (BitVec 10 × Word) Word :=
  if !inCode b.kernel pc then .error (0x105, pc)
  else
    match translate s b.vf pc 3 with
    | .error c => .error (c, pc)
    | .ok (k, _, _) => .ok (BitVec.ofNat 64 (coherentNat s k 8))

/-- Whether the fetch at an address consumes a word with an uncorrectable error (R419). -/
def fetchPoison (s : State) (b : Block) (pc : Word) : Bool :=
  !s.poisoned.isEmpty && match translate s b.vf pc 3 with
    | .ok (k, _, _) => hasPoison s k 8
    | .error _ => false

/-- The current gang's uncorrectable error of an instruction fetch, with the fetch PC (R47). -/
def fetchError (s : State) (pc : Word) : State := enqueue s [.uncorrectableError 14 (.gang s.b.gang) pc]

/-- The instruction at an address of a block's code, where it decodes. -/
def instrAt (s : State) (b : Block) (stream : Bool) (pc : Word) : Option Instr :=
  match fetchWord s b pc with
  | .error _ => none
  | .ok w => (decode stream w).toOption

/-- The instruction that a slot of a running block holds while it waits for reason r. -/
def heldInstr (s : State) (u : Nat) (p : PcSlot) (r : WaitReason) : Option Instr := do
  let w ← getWarp s u
  let b ← getBlock s w.block
  if (slotOf w p).st = .wait r ∧ b.st = .running then instrAt s b false (slotOf w p).pc else none

/-- Makes a waiting slot current and runnable, so that its instruction is tried again as one step. -/
def resumeSlot (s : State) (u : Nat) (p : PcSlot) : State := modCur (focusWarp s u p) fun x => { x with st := .run }

end Sys2Proof.Machine
end

