-- ==== Sys2Proof/Machine/Sync.lean ====
section
/-! DEFINITION. Fences, barriers, FIFOs and bank modes: group 0x9 with the wakes of its waits (R88 to R97, R112, R113, R126 to
R129, R240 to R244). -/

namespace Sys2Proof.Machine

/-! ## FENCE (R126 to R128, R240) -/

def scopeCode : Scope → Word
  | .wp => 0 | .bk => 1 | .gg => 2 | .die => 3 | .pkg => 4 | .sys => 5

/-- A release side waits for the accesses of the member lanes, and FENCE.acq for the loads that wait for data and the release stores
(R122); an acquire side, and FENCE.xp at any scope but in a block or one-block gang, invalidates the block's cache-way lines (R127). -/
def execFence (kind : FenceKind) (scope : Scope) (ms : BitVec 3) (s : State) : Host.Outcome State Fault Refusal :=
  match ms with
  | _ => runSeq s fun s =>
    match kind with
    | .rel => released .home s
    | .acq => if membersWait s then .error (.stall .home) else do let s ← synced s; pure (acquire s scope)
    | .full => do let s ← released .fence s; pure (acquire s scope)
    | .xp => if scope = .wp then .error (.trap 0x244 (scopeCode scope)) else do let s ← released .fence s; pure (dropL1 s)

/-! ## Barrier words (R112, R113) -/

/-- A barrier word's fields (Table 05-8). -/
structure Bar where
  expa : Nat
  arrv : Nat
  phase : Bool
  expb : Nat
  bytes : Nat
  deriving DecidableEq, Repr, Inhabited

/-- The member of a block's gang with a number. -/
def memberOf (s : State) (b : Block) (k : Nat) : Option Block :=
  (allBlocks s).find? fun c => c.uid != 0 && c.gang == b.gang && c.member == k

/-- Where the barrier with an ID lies for a block: the block that holds it and the byte; none where the header declares none. -/
def barAt (s : State) (b : Block) (id : Nat) : Option (Nat × Nat) :=
  if b.kernel.barmask.getLsbD id then
    let a := (b.kernel.baraddr.getD id 0).toNat
    if id < 16 then some (b.uid, a % 2 ^ 20) else (memberOf s b (a / 2 ^ 20 % 4)).map fun c => (c.uid, a % 2 ^ 20)
  else none

def readBar (s : State) (at_ : Nat × Nat) : Bar :=
  let m := scratchOf s at_.1
  { expa := readNat m at_.2 2, arrv := readNat m (at_.2 + 2) 2, phase := (readCell m (at_.2 + 4)).getLsbD 0
    expb := readNat m (at_.2 + 8) 4, bytes := readNat m (at_.2 + 12) 4 }

/-- Writes a barrier word. Where BANKCFG has taken its bank out of scratch mode, the bytes read 0 before the first write, and what is
written there stays (log entry 48, DESIGN CHOICE). -/
def writeBar (s : State) (at_ : Nat × Nat) (x : Bar) : State :=
  writeScratch s at_.1 at_.2 (toBytes 2 x.expa ++ toBytes 2 x.arrv ++ toBytes 4 (if x.phase then 1 else 0) ++ toBytes 4 x.expb ++
    toBytes 4 x.bytes)

/-- Completes the phase where the counts are met; EXPA = EXPB = 0 completes none (R113). -/
def Bar.settle (x : Bar) : Bar :=
  if x.arrv = x.expa ∧ x.bytes = x.expb ∧ ¬(x.expa = 0 ∧ x.expb = 0) then { x with arrv := 0, bytes := 0, phase := !x.phase } else x

/-- The blocks whose warps and streams can wait on a barrier: the block's own for IDs 0 to 15, else its gang's (R113). -/
def barBlocks (s : State) (b : Block) (id : Nat) : List Block :=
  if id < 16 then [b] else (allBlocks s).filter fun c => c.uid != 0 && c.gang == b.gang

/-- Events that test again the waits on barriers of some blocks. -/
def wakeBarrier (s : State) (bs : List Block) : State :=
  let us := bs.map (·.uid)
  enqueue s (((waiting s .barwt fun w => us.contains w.block).map fun q => .barwtWake q.1 q.2) ++
    (bs.filter fun b => (b.stream.map (·.wait)) == some .mbarwt).map fun b => .mbarwtWake b.uid)

/-- Writes a barrier word after an operation, completing its phase. -/
def putBar (s : State) (b : Block) (id : Nat) (at_ : Nat × Nat) (x : Bar) : State :=
  wakeBarrier (writeBar s at_ x.settle) (barBlocks s b id)

/-- n arrivals as one operation, or the trap (R113, R241). -/
def arrive (s : State) (b : Block) (id n : Nat) : Except (BitVec 10 × Word) State :=
  match barAt s b id with
  | none => .error (0x240, BitVec.ofNat 64 id)
  | some p =>
    let x := readBar s p
    if x.expa < x.arrv + n then .error (0x241, BitVec.ofNat 64 id) else .ok (putBar s b id p { x with arrv := x.arrv + n })

/-- Marks a barrier's unreported BARRIER_BYTES (R113). -/
def markBar (s : State) (b : Block) (id : Nat) : State :=
  let add (xs : List Nat) : List Nat := if xs.contains id then xs else id :: xs
  if id < 16 then modBlock s b.uid fun b => { b with barMarks := add b.barMarks }
  else modGang s b.gang fun g => { g with barMarks := add g.barMarks }

def barMarked (s : State) (b : Block) (id : Nat) : Bool :=
  if id < 16 then b.barMarks.contains id else ((getGang s b.gang).map fun g => g.barMarks.contains id).getD false

def unmarkBar (s : State) (b : Block) (id : Nat) : State :=
  if id < 16 then modBlock s b.uid fun b => { b with barMarks := b.barMarks.filter (· != id) }
  else modGang s b.gang fun g => { g with barMarks := g.barMarks.filter (· != id) }

/-- A credit of n bytes to a barrier; the excess over EXPB is dropped and marked (R107, R113). -/
def credit (s : State) (b : Block) (id n : Nat) : State :=
  match barAt s b id with
  | none => s
  | some p =>
    let x := readBar s p
    let s := if x.expb < x.bytes + n then markBar s b id else s
    putBar s b id p { x with bytes := min x.expb (x.bytes + n) }

def execBarinit (id sx sy : BitVec 5) (s : State) : Host.Outcome State Fault Refusal :=
  runSeq s fun s =>
    match barAt s s.b id.toNat with
    | none => .error (.trap 0x240 (zx64 id))
    | some p => .ok (wakeBarrier (sealWarp (writeBar s p
        { expa := (scal s sx).toNat % 2 ^ 16, arrv := 0, phase := false, expb := (scal s sy).toNat % 2 ^ 32, bytes := 0 }))
        (barBlocks s s.b id.toNat))

def barScope (id : Nat) : Scope := if id < 16 then .bk else .gg

/-- BARARV: a release at the barrier's scope (R129), then n arrivals. -/
def execBararv (id : BitVec 5) (n : BitVec 8) (s : State) : Host.Outcome State Fault Refusal :=
  runSeq s fun s => do
    if (barAt s s.b id.toNat).isNone then .error (.trap 0x240 (zx64 id))
    let s ← released .home s
    match arrive s s.b id.toNat n.toNat with
    | .error (c, a) => .error (.trap c a)
    | .ok s => .ok (sealWarp s)

def execBarexp (id sy : BitVec 5) (s : State) : Host.Outcome State Fault Refusal :=
  runSeq s fun s =>
    match barAt s s.b id.toNat with
    | none => .error (.trap 0x240 (zx64 id))
    | some p =>
      let x := readBar s p
      let e := (scal s sy).toNat % 2 ^ 32
      if e < x.bytes then .error (.trap 0x242 (zx64 id))
      else do let s ← synced s; pure (sealWarp (putBar s s.b id.toNat p { x with expb := e }))

/-! ## Reports of engine faults (R41, R242) -/

/-- A fault that a wait reports: cause and aux, and the state with it reported. -/
structure Report where
  cause : BitVec 10
  aux : Word
  st : State

/-- Marks a job's fault as reported. -/
def reportJob (s : State) (u n : Nat) : State :=
  modBlock s u fun b => { b with jobs := mapIf (fun j => j.num == n) (fun j => { j with reported := true }) b.jobs }

/-- The unreported faulted job recorded first among those that p selects of some blocks (R242, R248). -/
def firstFault (bs : List Block) (p : Job → Bool) : Option (Nat × Job) :=
  (bs.filterMap fun b => (unreported b p).map fun j => (b.uid, j)).foldl
    (fun a x => match a with | none => some x | some y => if x.2.faultOrder < y.2.faultOrder then some x else some y) none

def jobReport (s : State) (bs : List Block) (p : Job → Bool) : Option Report :=
  (firstFault bs p).map fun x => { cause := x.2.cause, aux := jobAux x.2, st := reportJob s x.1 x.2.num }

/-- The fault of a job that names the barrier, or BARRIER_BYTES (R242, 1 and 2). -/
def barReport (s : State) (b : Block) (id : Nat) : Option Report :=
  (jobReport s (barBlocks s b id) fun j => j.bar == some (BitVec.ofNat 5 id)).orElse fun _ =>
    if barMarked s b id then some { cause := 0x242, aux := BitVec.ofNat 64 id, st := unmarkBar s b id } else none

/-- An unreported fault of the block's stream (R41, R242). -/
def streamReport (s : State) : Option Report :=
  match s.b.stream with
  | some m =>
    match m.fault with
    | some (c, a) =>
      if m.reported then none
      else some { cause := c, aux := a, st := { s with b := { s.b with stream := some { m with reported := true } } } }
    | none => none
  | none => none

/-- A precise trap that reports an engine fault: after the wait for the slot's pending entries it is delivered, and the report is
made once (R41, R52). `s` is the state before the instruction, which is tried again after the wait. -/
def reportTrap (s : State) (r : Report) : State :=
  if pendingIn s (members s) then stallSlot s .drain else deliverTrap r.st r.cause r.aux

/-- An instruction at which engine faults are reported: the report found by `find`, else its body. -/
def runReport (s : State) (find : State → Option Report) (body : State → Op) : Host.Outcome State Fault Refusal :=
  match stepWindows s with
  | .error h => .next (settle s (.error h))
  | .ok t =>
    match find t with
    | some r => .next (reportTrap s r)
    | none => runSeq s body

/-- BARWT (R241, R242). -/
def execBarwt (id sx : BitVec 5) (s : State) : Host.Outcome State Fault Refusal :=
  match barAt s s.b id.toNat with
  | none => runSeq s fun _ => .error (.trap 0x240 (zx64 id))
  | some p =>
    runReport s (fun s => (barReport s s.b id.toNat).orElse fun _ => streamReport s) fun s =>
      if (readBar s p).phase = bit (scal s sx) 0 then .error (.stall .barwt)
      else do let s ← synced s; pure (acquire s (barScope id.toNat))

/-- BARWT_WAKE: the waiting BARWT observes the barrier again (R241). -/
def execBarwtWake (warp : Nat) (slot : PcSlot) (s : State) : Host.Outcome State Fault Refusal :=
  match heldInstr s warp slot .barwt with
  | some (.barwt id sx) => execBarwt id sx (resumeSlot s warp slot)
  | _ => .next s

/-! ## FIFOs (R97, R243) -/

def getFifo (s : State) (k : BitVec 3) : Option Fifo := s.b.fifos.find? fun f => f.id == k.toNat
def modFifo (s : State) (k : BitVec 3) (f : Fifo → Fifo) : State :=
  { s with b := { s.b with fifos := mapIf (fun x => x.id == k.toNat) f s.b.fifos } }

/-- FQPUT: one group, landing whole when the FIFO has room; a release at .bk (R97, R129). -/
def execFqput (ms : BitVec 3) (ty : Ty) (a : Src) (k : BitVec 3) (s : State) : Host.Outcome State Fault Refusal :=
  runSeq s fun s => do
    let m := active s ms
    let x ← readB s m a ty ty (ty == .raw)
    match getFifo s k with
    | none => .error (.trap 0x243 (zx64 k))
    | some f =>
      let ls := lanesOf m
      if ls.isEmpty then pure s
      else if f.cap - f.elems.length < ls.length then .error (.stall .fifoFull)
      else
        let s ← released .home s
        let s := modFifo (sealWarp s) k fun f => { f with elems := f.elems ++ ls.map fun l => (at_ (lowBits ty x) l).1 }
        pure (enqueue s ((waiting s .fifoEmpty fun w => w.block == s.b.uid).map fun q => .fqgetWake q.1 q.2))

/-- FQGET: active lane in ascending order takes the oldest elements; a masked-off lane receives 0 (R97, Table 03-3). -/
def execFqget (h : VHead) (k : BitVec 3) (s : State) : Host.Outcome State Fault Refusal :=
  runSeq s fun s => do
    let m := active s h.ms
    match getFifo s k with
    | none => .error (.trap 0x243 (zx64 k))
    | some f =>
      let ls := lanesOf m
      if f.elems.length < ls.length then .error (.stall .fifoEmpty)
      else
        let s ← synced s
        let got := ls.zip f.elems
        let row : List Entry := lanes32.map fun l => entryOf (((got.find? fun p => p.1 == l).map (·.2)).getD 0, h.ty)
        let s := pushRow (modFifo (sealIf s m) k fun f => { f with elems := f.elems.drop ls.length }) row
        pure (if ls.isEmpty then s
          else enqueue s ((waiting s .fifoFull fun w => w.block == s.b.uid).map fun q => .fqputLand q.1 q.2))

def execFqputLand (warp : Nat) (slot : PcSlot) (s : State) : Host.Outcome State Fault Refusal :=
  match heldInstr s warp slot .fifoFull with
  | some (.fqput ms ty a k) => execFqput ms ty a k (resumeSlot s warp slot)
  | _ => .next s

def execFqgetWake (warp : Nat) (slot : PcSlot) (s : State) : Host.Outcome State Fault Refusal :=
  match heldInstr s warp slot .fifoEmpty with
  | some (.fqget h k) => execFqget h k (resumeSlot s warp slot)
  | _ => .next s

/-! ## BANKCFG (R92, R244) -/

/-- Whether bytes lo to hi of a block's scratch take in a word of the bank at place j of its order (R94). -/
def coversBank (b : Block) (j lo hi : Nat) : Bool :=
  let n := max 1 b.scratchOrder.length
  let first := lo / 8 + (j + n - lo / 8 % n) % n
  decide (lo < hi) && decide (first ≤ (hi - 1) / 8)

/-- Whether a footprint entry that has not completed covers a word of a bank of the current block (R92), one that waits to enter its
table again included. -/
def bankBusy (s : State) (bank : Nat) : Bool :=
  match s.b.scratchOrder.idxOf? bank with
  | none => false
  | some j => s.footprints.any fun e => (e.reads ++ e.writes).any fun r =>
      match r with
      | .scratch u lo hi => u == s.b.uid && coversBank s.b j lo hi
      | _ => false

/-- The bank with relative number n: its mode changed, its scratch bytes reading as zero. -/
def setBank (b : Block) (n : Nat) (mode : BankMode) : Block :=
  let k := max 1 b.scratchOrder.length
  { b with bankModes := setAt b.bankModes n mode
           scratch := b.scratch.filter fun c => b.scratchOrder.getD (c.1 / 8 % k) 256 != n }

def bankCode : BankMode → Nat
  | .off => 0 | .cache => 1 | .scratch => 2 | .fifo => 3

/-- BANKCFG (Table 05-2). A FIFO-mode bank that no FIFO covers has no FIFO that could be nonempty, and changes at once (log entry 48,
DEDUCED). -/
def bankcfgOp (bank : BitVec 8) (mode : BankMode) (s : State) : Op :=
  let n := bank.toNat
  let bad : Op := .error (.trap 0x246 (BitVec.ofNat 64 (n * 256 + bankCode mode)))
  if s.b.bankModes.length ≤ n then .error (.trap 0x245 (zx64 bank))
  else
    let old := s.b.bankModes.getD n .off
    let put (s : State) : State := { s with b := setBank s.b n mode }
    if old = mode then .ok s
    else
      match old, mode with
      | _, .fifo => bad
      | .fifo, .scratch => bad
      | .fifo, _ =>
        match s.b.fifos.find? fun f => decide (f.first ≤ n ∧ n ≤ f.last) with
        | none => .ok (put s)
        | some f =>
          if f.elems.isEmpty then
            let b := (List.range (f.last - f.first + 1)).foldl (fun b i => setBank b (f.first + i) mode) s.b
            let s := { s with b := { b with fifos := b.fifos.filter fun g => g.id != f.id } }
            .ok (enqueue s ((waiting s .fifoEmpty fun w => w.block == s.b.uid).map fun q => .fqgetWake q.1 q.2))
          else bad
      | .scratch, _ => if bankBusy s n then .error (.stall .bankcfg) else .ok (put s)
      | _, .scratch => if s.b.scratchOrder.contains n then .ok (put (dropL1 s)) else bad
      | _, _ => .ok (put (dropL1 s))

def execBankcfg (bank : BitVec 8) (mode : BankMode) (s : State) : Host.Outcome State Fault Refusal := runSeq s (bankcfgOp bank mode)

def execBankcfgDrainEnd (warp : Nat) (slot : PcSlot) (s : State) : Host.Outcome State Fault Refusal :=
  match heldInstr s warp slot .bankcfg with
  | some (.bankcfg bank mode) => execBankcfg bank mode (resumeSlot s warp slot)
  | _ => .next s

end Sys2Proof.Machine
end

