-- ==== Sys2Proof/Machine/Sluice.lean ====
section
/-! DEFINITION. Sluice jobs: issue, footprints, chunks and faults, with SWAIT, SQUERY and the descriptor file: group 0xA and its
events (R100 to R111, R245 to R249, R46). -/

namespace Sys2Proof.Machine

/-! ## Descriptors (R100, R101, R249) -/

/-- A tensor descriptor read from its ten words (Table 05-3). -/
structure Desc where
  base : Word
  dims : List Nat
  strides : List Word
  scaleBase : Word
  ufcBase : Word
  space : Nat
  layout : Nat
  fmt : Nat
  rank : Nat
  valid : Bool
  reserved : Bool
  thr : Nat
  rstride : Nat
  boxes : List Nat
  deriving DecidableEq, Repr, Inhabited

def descOf (ws : List Word) : Desc :=
  let w (n : Nat) : Word := ws.getD n 0
  let f (n lo k : Nat) : Nat := (w n).toNat / 2 ^ lo % 2 ^ k
  { base := w 0, dims := [f 1 0 32, f 1 32 32, f 2 0 32, f 2 32 32], strides := [w 3, w 4, w 5], scaleBase := w 6, ufcBase := w 7
    space := f 8 0 2, layout := f 8 2 2, fmt := f 8 4 4, rank := f 8 8 2 + 1, valid := f 8 10 1 == 1
    reserved := f 8 11 5 != 0 || f 8 24 8 != 0 || f 8 48 16 != 0, thr := f 8 16 8
    rstride := if f 8 32 16 = 0 then 33 else f 8 32 16, boxes := [f 9 0 16, f 9 16 16, f 9 32 16, f 9 48 16] }

/-- Bytes of a plain element with code FMT (R100); 0 where the code names no plain element. -/
def elemSize (fmt : Nat) : Nat :=
  if fmt = 0 then 1 else if fmt ≤ 8 then memWidth (tyOf (BitVec.ofNat 4 fmt)) else if fmt ≤ 10 then 1 else 0

/-- Elements of a record: 32 for S8, 64 for Q4N, 1 for a plain layout (R79, R80). -/
def recElems (d : Desc) : Nat := if d.layout = 1 then 32 else if d.layout = 2 then 64 else 1

/-- Bytes of an element or record of the delivery sequence (Table 05-6). -/
def unitBytes (d : Desc) : Nat := if d.layout = 0 then elemSize d.fmt else 33

/-- The RECORD_LAYOUT checks (R101). -/
def badLayout (d : Desc) : Bool :=
  (d.layout == 1 && d.fmt != 9 && d.fmt != 10) || (d.layout == 2 && d.fmt != 11) || (d.layout == 0 && d.fmt == 11) || d.layout == 3 ||
  (d.space == 2 && ((1 ≤ d.fmt && d.fmt ≤ 4) || d.fmt == 8)) || (d.rstride < 33)

/-- The descriptor-invalid checks (R101); a code FMT that Table 05-3 gives no element is invalid too (log entry 12). -/
def badDesc (d : Desc) : Bool :=
  !d.valid || d.space == 3 || d.reserved || d.dims.any (· == 0) || (d.dims.drop d.rank).any (· != 1) ||
  d.dims.getD 0 0 % recElems d != 0 || (d.boxes.take d.rank).any (· == 0) || decide (12 ≤ d.fmt)

def descWords (b : Block) (n : BitVec 6) : List Word := b.desc.getD n.toNat []

def execTdset (desc : BitVec 6) (w : BitVec 4) (sx : BitVec 5) (s : State) : Host.Outcome State Fault Refusal :=
  runSeq s fun s =>
    .ok { s with b := { s.b with desc := modAt s.b.desc desc.toNat fun d => setAt d w.toNat (scal s sx) } }

def execTdget (sy : BitVec 5) (desc : BitVec 6) (w : BitVec 4) (s : State) : Host.Outcome State Fault Refusal :=
  runSeq s fun s => .ok (setScal s sy ((descWords s.b desc).getD w.toNat 0))

/-- TDINV clears VALID, word 8 bit 10 (R249). -/
def execTdinv (desc : BitVec 6) (s : State) : Host.Outcome State Fault Refusal :=
  runSeq s fun s =>
    let clear (v : Word) : Word := v &&& ~~~BitVec.ofNat 64 (2 ^ 10)
    .ok { s with b := { s.b with desc := modAt s.b.desc desc.toNat fun d => modAt d 8 clear } }

/-! ## Places of bytes in the four spaces -/

def placeLen : Place → Nat
  | .mem _ n _ | .scratch _ _ n | .bplane _ n | .remote n => n

/-- Cuts n bytes at a, at most 4096, at the page boundary they cross. -/
def splitPages (a : Word) (n : Nat) : List (Word × Nat) :=
  let k := 4096 - a.toNat % 4096
  if n ≤ k then [(a, n)] else [(a, k), (a + BitVec.ofNat 64 k, n - k)]

/-- Whether n bytes of a block's scratch exist (R95). -/
def scratchRun (b : Block) (byte n : Nat) : Bool :=
  (List.range ((byte + n - 1) / 8 - byte / 8 + 1)).all fun i => scratchOk b (byte / 8 * 8 + 8 * i)

/-- The place of one piece, or the failure of R46: translation or segment (0 source, 1 destination), 2 scratch, 3 B-plane, 5 where the walk
of a source meets a poisoned entry (log entry 46). Bits of a
scratch or B-plane address above its width are not ignored: the address is out of range (log entry 48, DEDUCED: R95). -/
def placePiece (s : State) (b : Block) (sp : SluiceSpace) (write : Bool) (a : Word) (n : Nat) : Except Nat Place :=
  match sp with
  | .global =>
    if !canonical a then .error (if write then 1 else 0)
    else
      match translateClean s b.vf a (if write then 1 else 0) with
      | .error c => .error (if write then 1 else if fld c 6 4 = 14 then 5 else 0)
      | .ok (k, _, attr) => .ok (.mem k n attr)
  | .scratch =>
    match if a.toNat < 2 ^ 22 then memberOf s b (a.toNat / 2 ^ 20) else none with
    | none => .error 2
    | some c =>
      let byte := a.toNat % 2 ^ 20
      if !scratchRun c byte n || (write && touchesBarrier c.kernel c.member byte n) then .error 2 else .ok (.scratch c.uid byte n)
  | .bplane =>
    if a.toNat < 2 ^ 21 ∧ a.toNat % 2 ^ 15 + n ≤ b.kernel.bplane * 1024 then .ok (.bplane a.toNat n) else .error 3
  | .remote => .ok (.remote n)

def places (s : State) (b : Block) (sp : SluiceSpace) (write : Bool) (a : Word) (n : Nat) : Except Nat (List Place) :=
  (splitPages a n).mapM fun p => placePiece s b sp write p.1 p.2

/-- n bytes that the spec leaves open. -/
def freeBytes : Nat → State → List Byte × State
  | 0, s => ([], s)
  | n + 1, s =>
    let r := freeBytes n s
    let f := drawFree r.2
    (f.1.setWidth 8 :: r.1, f.2)

/-- The bytes at a place: a job reads global memory below the store path (R130); a remote package's bytes are open. -/
def readPlace (s : State) (b : Block) (p : Place) : List Byte × State :=
  match p with
  | .mem k n _ => (coherentBytes s k n, countMoved s k n false)
  | .scratch u byte n => (readBytes (scratchOf s u) byte n, s)
  | .bplane a n => (readBytes b.bplane a n, s)
  | .remote n => freeBytes n s

/-- The lines of n bytes at an address. -/
def linesAt (k n : Nat) : List Nat := (List.range ((k % 128 + n + 127) / 128)).map (· + lineOf k)

/-- Whether the die of a block may write a place now: global memory as a store may (R394). -/
def placeReady (s : State) (d : Nat) : Place → Bool
  | .mem k n _ => (linesAt k n).all fun line => canStore s d (line * 128)
  | _ => true

/-- Asks the homes for what the landing at a place still needs. -/
def askPlace (s : State) (b : Block) : Place → State
  | .mem k n attr => (linesAt k n).foldl (fun s line => askStore s b.vf b.die (line * 128) attr) s
  | _ => s

/-- Lands bytes at a place. A remote package's memory is outside the module. -/
def writePlace (s : State) (b : Block) (p : Place) (bytes : List Byte) : State :=
  match p with
  | .mem k _ _ => writeRuns s b.die k bytes
  | .scratch u byte _ => writeScratch s u byte bytes
  | .bplane a _ => modBlock s b.uid fun b => { b with bplane := writeBytes b.bplane a bytes }
  | .remote _ => s

/-! ## The delivery sequence (R99, R103, R104, R245) -/

/-- Element or record number u of a tile: its address on the descriptor side, and whether it lies inside the extents (R99, R100). -/
def tileUnit (j : Job) (u : Nat) : Word × Bool :=
  let d := descOf j.desc
  let re := recElems d
  let org (n : Nat) : Nat := if n < 2 then j.shapeA.toNat / 2 ^ (32 * n) % 2 ^ 32 else j.shapeB.toNat / 2 ^ (32 * (n - 2)) % 2 ^ 32
  let box (n : Nat) : Nat := if d.rank ≤ n then 1 else if n = 0 then max 1 (d.boxes.getD 0 1 / re) else max 1 (d.boxes.getD n 1)
  let c0 := u % box 0
  let c1 := u / box 0 % box 1
  let c2 := u / (box 0 * box 1) % box 2
  let c3 := u / (box 0 * box 1 * box 2)
  let x0 := org 0 / re + c0
  let x (n c : Nat) : Nat := org n + c
  let inside := decide (x0 * re < d.dims.getD 0 1) && decide (x 1 c1 < d.dims.getD 1 1) && decide (x 2 c2 < d.dims.getD 2 1) &&
    decide (x 3 c3 < d.dims.getD 3 1)
  let step := if d.layout = 0 then elemSize d.fmt else d.rstride
  let row (n c : Nat) : Int := (d.strides.getD (n - 1) 0).toInt * (x n c : Int)
  if d.space = 2 then
    let n := x 1 c1
    let off : Int := ((d.base.toNat % 2 ^ 15 : Nat) : Int) + (n / 64 : Nat) * (d.strides.getD 0 0).toInt + (x0 * step : Nat) + row 2 c2 + row 3 c3
    let a : Nat := if off < 0 ∨ 2 ^ 15 ≤ off then 2 ^ 21 else (d.base.toNat / 2 ^ 15 + n) % 64 * 2 ^ 15 + off.toNat
    (BitVec.ofNat 64 a, inside)
  else (d.base + BitVec.ofInt 64 ((x0 * step : Nat) + row 1 c1 + row 2 c2 + row 3 c3), inside)

/-- The poisoned place that a read would consume, if any (failure 5, R419). -/
def readsPoison (s : State) (ps : List Place) : Bool :=
  ps.any fun p => match p with
    | .mem k n _ => hasPoison s k n
    | _ => false

/-- Index i of a gather's or scatter's list; failure 7 where it cannot be read, 5 where its word is poisoned, 4 where it runs past
BOUND (R103, R419). -/
def indexAt (s : State) (b : Block) (j : Job) (i : Nat) : Except Nat Nat :=
  match places s b (if j.idxScratch then .scratch else .global) false (j.shapeB + BitVec.ofNat 64 (4 * i)) 4 with
  | .error f => .error (if f = 5 then 5 else 7)
  | .ok ps =>
    if readsPoison s ps then .error 5 else
    let e := 2 ^ j.esz.toNat
    let n := ofBytes (ps.flatMap fun p => (readPlace s b p).1)
    if j.shapeA.toNat / 2 ^ 32 < n * e + e then .error 4 else .ok (n * e)

/-- Runs of fixed-size units from position p0 to p1: f gives source, destination, and the two marks of a unit. -/
def unitSpans (size p0 p1 : Nat) (f : Nat → Except Nat (Word × Word × Bool × Bool)) : Except Nat (List Span) :=
  (List.range ((p1 - 1) / size - p0 / size + 1)).mapM fun i => do
    let u := p0 / size + i
    let (src, dst, zero, skip) ← f u
    let lo := max p0 (u * size)
    let skew := BitVec.ofNat 64 (lo - u * size)
    pure { pos := lo, len := min p1 (u * size + size) - lo, src := src + skew, dst := dst + skew, zero := zero, skip := skip }

/-- The runs of a job's delivery sequence from p0 to p1 (Table 05-6). -/
def spans (s : State) (b : Block) (j : Job) (p0 p1 : Nat) : Except Nat (List Span) :=
  let at_ (n : Nat) : Word := BitVec.ofNat 64 n
  match j.kind with
  | 1 =>
    let row := j.shapeA.toNat % 2 ^ 32
    let ss := sx64 (fld j.shapeB 0 32)
    let ds := sx64 (fld j.shapeB 32 32)
    unitSpans row p0 p1 fun r => .ok (j.src + at_ r * ss, j.dst + at_ r * ds, false, false)
  | 2 =>
    let n := unitBytes (descOf j.desc)
    unitSpans n p0 p1 fun u =>
      let (a, inside) := tileUnit j u
      .ok (if j.toDesc then j.src + at_ (u * n) else a, if j.toDesc then a else j.dst + at_ (u * n), !j.toDesc && !inside, j.toDesc && !inside)
  | 3 =>
    let n := 2 ^ j.esz.toNat
    unitSpans n p0 p1 fun u => do let o ← indexAt s b j u; pure (j.src + at_ o, j.dst + at_ (u * n), false, false)
  | 4 =>
    let n := 2 ^ j.esz.toNat
    unitSpans n p0 p1 fun u => do let o ← indexAt s b j u; pure (j.src + at_ (u * n), j.dst + at_ o, false, false)
  | _ => .ok [{ pos := p0, len := p1 - p0, src := j.src + at_ p0, dst := j.dst + at_ p0, zero := false, skip := false }]

/-- Position past the last byte of chunk c (R104). -/
def chunkEnd (j : Job) (c : Nat) : Nat := min j.len ((c + 1) * 4096)

/-- The source places of a run. -/
def srcPlaces (s : State) (b : Block) (j : Job) (x : Span) : Except Nat (List Place) :=
  if j.kind = 5 ∨ x.zero then .ok [] else places s b j.srcsp false x.src x.len

def dstPlaces (s : State) (b : Block) (j : Job) (x : Span) : Except Nat (List Place) :=
  if x.skip then .ok [] else places s b j.dstsp true x.dst x.len

/-- The bytes of a run as they are read (R104, R245). -/
def spanBytes (s : State) (b : Block) (j : Job) (x : Span) (ps : List Place) : List Byte × State :=
  if j.kind = 5 then ((List.range x.len).map fun i => (toBytes 8 j.aux.toNat).getD ((x.pos + i) % 2 ^ j.esz.toNat) 0, s)
  else if x.zero then (List.replicate x.len 0, s)
  else ps.foldl (fun acc p => let r := readPlace acc.2 b p; (acc.1 ++ r.1, r.2)) ([], s)

/-! ## Footprints (R109, R110) -/

/-- The regions of an address range [lo, hi) of a space (R109). -/
def regionsOf (s : State) (b : Block) (sp : SluiceSpace) (lo hi : Nat) : List Region :=
  if hi ≤ lo then []
  else
    match sp with
    | .global => [.global b.vf (lo / 4096 * 4096) (ceilDiv hi 4096 * 4096)]
    | .bplane => [.bplane b.uid lo hi]
    | .remote => []
    | .scratch => (List.range 4).filterMap fun k =>
        match memberOf s b k with
        | none => none
        | some c =>
          let l := max lo (k * 2 ^ 20) - k * 2 ^ 20
          let h := min hi ((k + 1) * 2 ^ 20) - k * 2 ^ 20
          if l < h then some (.scratch c.uid l h) else none

def overlap : Region → Region → Bool
  | .scratch b l h, .scratch c m g => b == c && decide (l < g ∧ m < h)
  | .bplane b l h, .bplane c m g => b == c && decide (l < g ∧ m < h)
  | .global b l h, .global c m g => b == c && decide (l < g ∧ m < h)
  | _, _ => false

def overlaps (xs ys : List Region) : Bool := xs.any fun x => ys.any (overlap x)

/-- An edge from entry e to the older entry o (R110). -/
def edge (o e : FpEntry) : Bool := overlaps o.writes e.reads || overlaps o.reads e.writes || overlaps o.writes e.writes

/-- Whether an entry stands in the table and no older entry of its cluster has an edge to it (R110). -/
def entryFree (s : State) (e : FpEntry) : Bool :=
  !e.waiting && s.footprints.all fun o => !(decide (o.id < e.id) && !o.waiting && o.die == e.die && o.cluster == e.cluster && edge o e)

/-- Entries that a cluster's table holds. -/
def heldEntries (s : State) (die cluster : Nat) : Nat := (s.footprints.filter fun e => inCluster die cluster e && !e.waiting).length

/-- Whether a new entry of a cluster must wait: 64 are held, or an entry waits to re-enter (R109). -/
def tableFull (s : State) (die cluster : Nat) : Bool :=
  decide (64 ≤ heldEntries s die cluster) || !(reentering s die cluster).isEmpty

/-- A new entry in the cluster's table. -/
def addEntry (s : State) (b : Block) (job : Option Nat) (reads writes : List Region) : State :=
  let (id, s) := freshId s
  { s with footprints := s.footprints ++
      [{ id := id, die := b.die, cluster := clusterOf b, block := b.uid, job := job, reads := reads, writes := writes, waiting := false }] }

/-- Removes the entry of a block's job, or of its stream (R109). -/
def endEntry (s : State) (b : Block) (job : Option Nat) : State :=
  wakeCluster { s with footprints := s.footprints.filter fun e => !(e.block == b.uid && e.job == job) } b.die (clusterOf b)

/-- The lowest and past-the-highest address that rows of n bytes from a at a signed step touch. -/
def rowsRange (a : Word) (n rows : Nat) (step : Int) : Nat × Nat :=
  let d : Int := step * ((rows : Int) - 1)
  (((a.toNat : Int) + min 0 d).toNat, ((a.toNat : Int) + max 0 d).toNat + n)

/-- Bounding range of the descriptor side of a tile: the elements inside the extents (R109). -/
def tileRange (j : Job) : Nat × Nat :=
  let d := descOf j.desc
  let re := recElems d
  let org (n : Nat) : Nat := if n < 2 then j.shapeA.toNat / 2 ^ (32 * n) % 2 ^ 32 else j.shapeB.toNat / 2 ^ (32 * (n - 2)) % 2 ^ 32
  let cnt (n : Nat) : Nat := min (if d.rank ≤ n then 1 else d.boxes.getD n 1) (d.dims.getD n 1 - org n)
  let step := if d.layout = 0 then elemSize d.fmt else d.rstride
  if (List.range 4).any fun n => cnt n == 0 then (0, 0)
  else
    let st (n : Nat) : Int := (d.strides.getD (n - 1) 0).toInt
    let ext (n : Nat) : Int := st n * ((cnt n : Int) - 1)
    let row : Int := ((cnt 0 / re - 1) * step + unitBytes d : Nat)
    let lo (a : Int) : Int := a + min 0 (ext 2) + min 0 (ext 3)
    let hi (a : Int) : Int := a + max 0 (ext 2) + max 0 (ext 3) + row
    let inner : Int := (org 0 / re * step : Nat) + st 2 * org 2 + st 3 * org 3
    if d.space = 2 then
      let start (i : Nat) : Int :=
        let n := org 1 + i
        ((d.base.toNat / 2 ^ 15 + n) % 64 * 2 ^ 15 + d.base.toNat % 2 ^ 15 : Nat) + (n / 64 : Nat) * st 1 + inner
      let cols := (List.range (cnt 1)).map start
      ((cols.foldl (fun a x => min a (lo x)) (lo (start 0))).toNat, (cols.foldl (fun a x => max a (hi x)) (hi (start 0))).toNat)
    else
      let first : Int := (d.base.toNat : Int) + st 1 * org 1 + inner
      ((lo (first + min 0 (ext 1))).toNat, (hi (first + max 0 (ext 1))).toNat)

/-- Source, index list and destination ranges of a job (R109). -/
def jobRegions (s : State) (b : Block) (j : Job) : List Region × List Region :=
  let lin (a : Word) : Nat × Nat := (a.toNat, a.toNat + j.len)
  let idx := regionsOf s b (if j.idxScratch then .scratch else .global) j.shapeB.toNat (j.shapeB.toNat + 4 * (j.shapeA.toNat % 2 ^ 32))
  let bound (a : Word) : Nat × Nat := (a.toNat, a.toNat + j.shapeA.toNat / 2 ^ 32)
  let rows (a : Word) (step : BitVec 32) : Nat × Nat :=
    rowsRange a (j.shapeA.toNat % 2 ^ 32) (j.shapeA.toNat / 2 ^ 32) step.toInt
  let reg (sp : SluiceSpace) (r : Nat × Nat) : List Region := regionsOf s b sp r.1 r.2
  match j.kind with
  | 1 => (reg j.srcsp (rows j.src (fld j.shapeB 0 32)), reg j.dstsp (rows j.dst (fld j.shapeB 32 32)))
  | 2 => if j.toDesc then (reg j.srcsp (lin j.src), reg j.dstsp (tileRange j)) else (reg j.srcsp (tileRange j), reg j.dstsp (lin j.dst))
  | 3 => (reg j.srcsp (bound j.src) ++ idx, reg j.dstsp (lin j.dst))
  | 4 => (reg j.srcsp (lin j.src) ++ idx, reg j.dstsp (bound j.dst))
  | 5 => ([], reg j.dstsp (lin j.dst))
  | _ => (reg j.srcsp (lin j.src), reg j.dstsp (lin j.dst))

/-! ## Issue (R102, R108, R245, R246) -/

/-- Jobs that count against the 16 of a block: incomplete, or faulted and not reported (R108). -/
def countedJobs (b : Block) : Nat := (b.jobs.filter fun j => !j.done && !(j.faulted && j.reported)).length

/-- Whether the policy of the block's VF permits a fabric port (R353). -/
def fabricOk (s : State) (port : BitVec 4) : Bool := ((getVf s s.b.vf).map fun v => v.policy.fabric.getLsbD port.toNat).getD false

/-- A card with the fields that every issue fills (Table 05-4). -/
def cardOf (s : State) (x : SluiceArgs) (kind : Nat) (src dst : SluiceSpace) : Job :=
  let remote := src == .remote || dst == .remote
  { num := s.b.jobCount, kind := kind, src := scal s x.sx, dst := scal s (x.sx + 1), shapeA := scal s x.sy, shapeB := 0
    srcsp := src, dstsp := dst, bar := x.bar, wp := x.wp, esz := 0, idxScratch := false, toDesc := false, descNum := 0, desc := []
    port := x.port, aux := if remote then scal s (x.sx + 2) &&& 0xFFFFFFFF else 0, len := 0
    wpBase := (x.wp.map fun j => s.b.wpTotal.getD j.toNat 0).getD 0, landedHead := 0, paused := false, done := false, faulted := false
    cause := 0, faultChunk := 0, faultOrder := 0, reported := false, begun := [], landed := [], member := s.b.member }

/-- Job kind in a cause code: 6 for any shape through a fabric port (R46). -/
def causeKind (j : Job) : Nat := if j.srcsp = .remote ∨ j.dstsp = .remote then 6 else j.kind

def jobCause (j : Job) (failure : Nat) : BitVec 10 := BitVec.ofNat 10 (0x280 + causeKind j * 8 + failure)

/-- The fault that an issue reports when 16 jobs are counted (R108). -/
def issueReport (s : State) : Option Report := if 16 ≤ countedJobs s.b then jobReport s [s.b] fun _ => true else none

/-- The traps of an issue before R108, in the order of R246: BARRIER_ID, REMOTE_DENIED, then the descriptor's. The remote side of
STCOPY is the card's own: a descriptor's SPACE of 3 is invalid (R101). -/
def issueTrap (s : State) (j : Job) : Option (BitVec 10 × Word) :=
  let d := descOf j.desc
  let remote := (j.srcsp == .remote && !(j.kind == 2 && !j.toDesc)) || (j.dstsp == .remote && !(j.kind == 2 && j.toDesc))
  let dspace : SluiceSpace := spaceOf (BitVec.ofNat 2 d.space)
  let pair := if j.toDesc then sluicePair j.srcsp dspace else sluicePair dspace j.dstsp
  let odd (n : Nat) : Bool := n % recElems d != 0
  match j.bar.filter fun i => !s.b.kernel.barmask.getLsbD i.toNat with
  | some i => some (0x240, zx64 i)
  | none =>
    if remote && !fabricOk s j.port then some (0x344, zx64 j.port)
    else if j.kind = 2 then
      if badLayout d then some (0x084, zx64 j.descNum)
      else if badDesc d || !pair || odd (d.boxes.getD 0 0) || odd (j.shapeA.toNat % 2 ^ 32) then some (0x294, zx64 j.descNum)
      else none
    else none

/-- Takes a job into its block: issue number, write pointer count, footprint entry; a job of zero length completes at issue
(R245, R246). -/
def acceptJob (s : State) (j : Job) : State :=
  let b := { s.b with jobCount := s.b.jobCount + 1
                      wpTotal := match j.wp with
                        | some n => modAt s.b.wpTotal n.toNat (· + j.len)
                        | none => s.b.wpTotal }
  if j.len = 0 then { s with b := b }
  else
    let r := jobRegions s s.b j
    enqueue (addEntry { s with b := { b with jobs := b.jobs ++ [j] } } b (some j.num) r.1 r.2) [.sluiceChunkStart b.uid j.num]

/-- An issue of the card that `mk` builds. It seals the warp (R35); its window ends once the job is accepted (R246). -/
def issueJob (s : State) (mk : State → Job) : Host.Outcome State Fault Refusal :=
  match issueTrap s (mk s) with
  | some (c, a) => runSeq s fun _ => .error (.trap c a)
  | none =>
    runReport s issueReport fun s =>
      let j := mk s
      if 16 ≤ countedJobs s.b then .error (.stall .jobLimit)
      else if j.len ≠ 0 ∧ tableFull s s.b.die (clusterOf s.b) then .error (.stall .footprint)
      else .ok (sealWarp (acceptJob s j))

/-- LEN, bits 39:0 (R245). -/
def lenOf (v : Word) : Nat := v.toNat % 2 ^ 40

def execScopy (j : SluiceArgs) (src dst : SluiceSpace) (s : State) : Host.Outcome State Fault Refusal :=
  issueJob s fun s => { cardOf s j 0 src dst with len := lenOf (scal s j.sy) }

def execScopy2 (j : SluiceArgs) (src dst : SluiceSpace) (s : State) : Host.Outcome State Fault Refusal :=
  issueJob s fun s =>
    let a := scal s j.sy
    { cardOf s j 1 src dst with shapeB := scal s (j.sy + 1), len := a.toNat % 2 ^ 32 * (a.toNat / 2 ^ 32) }

/-- Bytes of a tile copy: units of the box (Table 05-6). -/
def tileLen (d : Desc) : Nat := ((d.boxes.take d.rank).foldl (· * ·) 1) / recElems d * unitBytes d

/-- STCOPY: the descriptor's SPACE is the space of its side (R103, R245). -/
def execStcopy (j : SluiceArgs) (toDesc : Bool) (other : SluiceSpace) (desc : BitVec 6) (s : State) :
    Host.Outcome State Fault Refusal :=
  issueJob s fun s =>
    let ws := descWords s.b desc
    let d := descOf ws
    let dsp := spaceOf (BitVec.ofNat 2 d.space)
    let c := if toDesc then cardOf s j 2 other dsp else cardOf s j 2 dsp other
    let remote := other == .remote
    { c with src := if toDesc then scal s j.sx else d.base, dst := if toDesc then d.base else scal s j.sx
             aux := if remote then scal s (j.sx + 2) &&& 0xFFFFFFFF else 0, srcsp := if toDesc then other else dsp
             dstsp := if toDesc then dsp else other, shapeB := scal s (j.sy + 1), toDesc := toDesc, descNum := desc, desc := ws
             len := tileLen d }

/-- A gather or scatter card (Table 10-3). -/
def listCard (s : State) (j : SluiceArgs) (kind : Nat) (src dst : SluiceSpace) (esz : BitVec 2) (ix : Bool) : Job :=
  { cardOf s j kind src dst with
      shapeB := scal s (j.sy + 1), esz := esz, idxScratch := ix, len := (scal s j.sy).toNat % 2 ^ 32 * 2 ^ esz.toNat }

def execSgath (j : SluiceArgs) (src dst : SluiceSpace) (esz : BitVec 2) (idxScratch : Bool) (s : State) :
    Host.Outcome State Fault Refusal := issueJob s fun s => listCard s j 3 src dst esz idxScratch
def execSscat (j : SluiceArgs) (src dst : SluiceSpace) (esz : BitVec 2) (idxScratch : Bool) (s : State) :
    Host.Outcome State Fault Refusal := issueJob s fun s => listCard s j 4 src dst esz idxScratch

/-- SFILL: s[X] is the destination and s[X + 1] the value (Table 10-3). -/
def execSfill (j : SluiceArgs) (dst : SluiceSpace) (esz : BitVec 2) (s : State) : Host.Outcome State Fault Refusal :=
  issueJob s fun s =>
    { cardOf s j 5 .global dst with src := 0, dst := scal s j.sx, aux := scal s (j.sx + 1), esz := esz, len := lenOf (scal s j.sy) }

/-! ## SWAIT and SQUERY (R106, R248) -/

def execSwait (wp : BitVec 4) (sx : BitVec 5) (s : State) : Host.Outcome State Fault Refusal :=
  runReport s (fun s => jobReport s [s.b] fun j => j.wp == some wp) fun s =>
    if wpValue s.b wp.toNat < (scal s sx).toNat then .error (.stall .swait) else .ok s

def execSwaitWake (warp : Nat) (slot : PcSlot) (s : State) : Host.Outcome State Fault Refusal :=
  match heldInstr s warp slot .swait with
  | some (.swait wp sx) => execSwait wp sx (resumeSlot s warp slot)
  | _ => .next s

/-- Word 5 of a card (Table 05-4). -/
def cardWord5 (j : Job) : Word :=
  BitVec.ofNat 64 (j.landedHead % 2 ^ 40 + (if j.paused then 2 ^ 40 else 0) + (if j.done then 2 ^ 41 else 0) +
    (if j.faulted then 2 ^ 42 else 0) + j.cause.toNat * 2 ^ 43)

def execSquery (sy sx : BitVec 5) (s : State) : Host.Outcome State Fault Refusal :=
  runSeq s fun s =>
    let id := (scal s sx).toNat % 2 ^ 16
    let hit := (s.b.jobs.filter fun j => j.num % 2 ^ 16 == id).getLast?
    .ok (setScal s sy ((hit.map cardWord5).getD 0x0000020000000000))

/-! ## Chunks (R104 to R108) -/

def getJob (b : Block) (n : Nat) : Option Job := b.jobs.find? fun j => j.num == n

def modJob (s : State) (u n : Nat) (f : Job → Job) : State :=
  modBlock s u fun b => { b with jobs := mapIf (fun j => j.num == n) f b.jobs }

/-- Paths of a request of a job to a place; a remote side uses the fabric port's path (Table 20-5). -/
def placePaths (b : Block) (j : Job) : Place → List Nat
  | .mem k _ _ => pathsOf b.die k
  | .remote _ => [12 + j.port.toNat / 8]
  | _ => []

/-- Charges the requests of a chunk (Table 20-6). -/
def chargePlaces (s : State) (b : Block) (j : Job) (ps : List Place) : State :=
  ps.foldl (fun s p => (placePaths b j p).foldl (fun s path => chargePath s b.vf (costOf (placeLen p)) path) s) s

/-- The next chunk of a job as a request that is tried again. -/
def chunkReq (b : Block) (j : Job) : HeldReq := .chunk b.uid j.num

/-- Counts the walks of n bytes of an address of a space (Table 22-3). -/
def countPages (s : State) (b : Block) (sp : SluiceSpace) (a : Word) (n : Nat) : State :=
  if sp = .global then (splitPages a n).foldl (fun s p => countWalk s b.vf p.1) s else s

/-- Counts the walks of a run of a job. -/
def countSpan (b : Block) (j : Job) (s : State) (x : Span) : State :=
  let s := if j.kind = 5 ∨ x.zero then s else countPages s b j.srcsp x.src x.len
  if x.skip then s else countPages s b j.dstsp x.dst x.len

/-- Reads a chunk (R378): its bytes, the destination places of its runs, every place, and the state after. -/
def readChunk (s : State) (b : Block) (j : Job) (c : Nat) : Except Nat (List Byte × List (Span × List Place) × List Place × State) := do
  let xs ← spans s b j (c * 4096) (chunkEnd j c)
  let srcs ← xs.mapM (srcPlaces s b j)
  let dsts ← xs.mapM (dstPlaces s b j)
  if readsPoison s (srcs.flatMap id) then .error 5
  let r := (xs.zip srcs).foldl (fun acc p => let r := spanBytes acc.2 b j p.1 p.2; (acc.1 ++ r.1, r.2)) (([] : List Byte), xs.foldl (countSpan b j) s)
  pure (r.1, xs.zip dsts, srcs.flatMap id ++ dsts.flatMap id, r.2)

/-- SLUICE_CHUNK_START: an engine of the cluster starts the job's oldest unstarted chunk once its footprint entry has no edge
(R108, R110); a chunk that fails becomes a job fault. -/
def execSluiceChunkStart (block job : Nat) (s : State) : Host.Outcome State Fault Refusal :=
  .next <|
    match getBlock s block, s.footprints.find? fun e => e.block == block && e.job == some job with
    | some b, some e =>
      match getJob b job with
      | none => s
      | some j =>
        let c := chunksRead j
        if !enginesRun s b || j.done || j.faulted || j.paused || !entryFree s e || decide (j.len ≤ c * 4096) then s
        else
          match readChunk s b j c with
          | .error f => enqueue s [.sluiceJobFault block job c (BitVec.ofNat 3 f)]
          | .ok (bytes, targets, ps, t) =>
            let paths := (ps.flatMap (placePaths b j)).eraseDups
            match blocking s b.vf (chunkReq b j) paths with
            | [] =>
              let t := modJob (chargePlaces (unhold t (chunkReq b j)) b j ps) block job fun j => { j with
                begun := j.begun ++ [{ num := c, bytes := bytes, targets := targets }] }
              enqueue t (.sluiceChunkLand block job c :: if j.len ≤ (c + 1) * 4096 then [] else [.sluiceChunkStart block job])
            | _ => holdRetry s b.vf (chunkReq b j) paths
    | _, _ => s

/-- PREFIX after chunks have landed: over those that extend the landed head (R105). The fuel is the number of landed chunks. -/
def advanceHead (j : Job) : Nat → Job
  | 0 => j
  | n + 1 =>
    let c := j.landedHead / 4096
    if j.landed.contains c ∧ j.landedHead < j.len then
      advanceHead { j with landedHead := chunkEnd j c, landed := j.landed.filter (· != c) } n
    else j

/-- Events for the waits that a job's progress may end: SWAITs of the block, and the barrier's waits (R41, R105). -/
def wakeJob (s : State) (b : Block) (j : Job) : State :=
  let s := enqueue s ((waiting s .swait fun w => w.block == b.uid).map fun q => .swaitWake q.1 q.2)
  match j.bar with
  | some i => wakeBarrier s (barBlocks s b i.toNat)
  | none => s

/-- Elements of later chunks of a scatter that have landed: their addresses are not written again (R104). -/
def laterAddrs (s : State) (b : Block) (j : Job) (c : Nat) : List Word :=
  if j.kind = 4 then (j.landed.filter fun d => decide (c < d)).flatMap fun d =>
    match spans s b j (d * 4096) (chunkEnd j d) with
    | .ok xs => xs.map (·.dst)
    | .error _ => []
  else []

/-- Writes the runs of a chunk, destination by destination. -/
def landSpans (s : State) (b : Block) (keep : List Word) (base : Nat) (bytes : List Byte) (xs : List (Span × List Place)) : State :=
  xs.foldl (fun s x =>
    if keep.contains x.1.dst then s
    else (x.2.foldl (fun (acc : State × List Byte) p =>
      (writePlace acc.1 b p (acc.2.take (placeLen p)), acc.2.drop (placeLen p))) (s, bytes.drop (x.1.pos - base))).1) s

/-- The runs of a chunk up to the first at which the die may not write yet, and the rest (R394). -/
def landable (s : State) (d : Nat) (xs : List (Span × List Place)) : List (Span × List Place) × List (Span × List Place) :=
  xs.span fun x => x.2.all (placeReady s d)

/-- A begun chunk lands, run by run in its order, each once the die may write it; with its last run PREFIX, the write pointer and the
barrier advance over the contiguous head, and the job completes with its last byte (R104 to R107). -/
def landChunk (block job chunk : Nat) (s : State) : State :=
  match getBlock s block with
  | none => s
  | some b =>
    match getJob b job with
    | none => s
    | some j =>
      match j.begun.find? fun c => c.num == chunk with
      | none => s
      | some ch =>
        if 8 ≤ b.die then s else
        let (now, later) := landable s b.die ch.targets
        let s := landSpans s b (laterAddrs s b j chunk) (chunk * 4096) ch.bytes now
        if !later.isEmpty then
          let s := modJob s block job fun j => { j with begun := mapIf (fun c => c.num == chunk) (fun c => { c with targets := later }) j.begun }
          later.foldl (fun s x => x.2.foldl (fun s p => askPlace s b p) s) s
        else
        let s := countBoth s b 0x07 8 ch.bytes.length
        let j1 := { j with begun := j.begun.filter (fun c => c.num != chunk), landed := chunk :: j.landed }
        let j2 := advanceHead j1 (j1.landed.length + 1)
        let delta := j2.landedHead - j.landedHead
        let s := modJob s block job fun _ => { j2 with done := j2.landedHead == j2.len }
        let s := match j.bar with
          | some i => if delta = 0 then s else credit s b i.toNat delta
          | none => s
        let s := if delta = 0 && !(j.faulted && j2.begun.isEmpty) then s else wakeJob s b j
        if j2.landedHead = j2.len then
          let s := endEntry (modBlock s block fun b => { b with jobs := b.jobs.filter fun x => x.num != job }) b (some job)
          tryRetire s b.gang
        else if j.faulted then tryRetire s b.gang else s

def execSluiceChunkLand (block job chunk : Nat) (s : State) : Host.Outcome State Fault Refusal := .next (landChunk block job chunk s)

/-- SLUICE_JOB_FAULT: the job stops holding its cause; its entry leaves the table (R46, R105, R109). -/
def execSluiceJobFault (block job chunk : Nat) (failure : BitVec 3) (s : State) : Host.Outcome State Fault Refusal :=
  .next <|
    match getBlock s block with
    | none => s
    | some b =>
      match getJob b job with
      | none => s
      | some j =>
        if j.done || j.faulted then s
        else
          let (order, s) := freshId s
          let j' := { j with
            faulted := true, cause := jobCause j failure.toNat, faultChunk := chunk, faultOrder := order
            begun := j.begun.filter fun c => c.num != chunk }
          tryRetire (wakeJob (endEntry (modJob s block job fun _ => j') b (some job)) b j) b.gang

/-- FOOTPRINT_ENTRY_GRANT: the oldest entry that waits to re-enter takes a free one; issuers that wait try again by
themselves (R109, R114). -/
def execFootprintEntryGrant (die cluster : Nat) (s : State) : Host.Outcome State Fault Refusal :=
  .next <|
    match reentering s die cluster with
    | [] => s
    | e :: es' =>
      if 64 ≤ heldEntries s die cluster then s
      else
        let old := es'.foldl (fun a x => if x.id < a.id then x else a) e
        let s := { s with footprints := mapIf (fun x => x.id == old.id) (fun x => { x with waiting := false }) s.footprints }
        let more := if es'.isEmpty then [] else [Instr.footprintEntryGrant die cluster]
        match old.job with
        | some n => enqueue (modJob s old.block n fun j => { j with paused := false }) (.sluiceChunkStart old.block n :: more)
        | none => enqueue (modBlock s old.block (wakeStream .edge)) (.mbarwtWake old.block :: more)

end Sys2Proof.Machine
end

