-- ==== Sys2Proof/Machine/Matrix.lean ====
section
/-! DEFINITION. The matrix stream: group 0xB with APOP, its steps and wakes (R79 to R86, R252 to R271), and ILLEGAL_OPCODE. -/

namespace Sys2Proof.Machine

/-! ## The stream of the current block -/

def stream (s : State) : Stream := s.b.stream.getD
  { entry := 0, pc := 0, step := 0, loops := [], phases := 0, began := false, descA := [], descB := [], wait := .none, turn := 0, ended := true
    fault := none, reported := false, paused := false }

def modStream (s : State) (f : Stream → Stream) : State := { s with b := { s.b with stream := s.b.stream.map f } }

/-- The aux word of a stream fault (R259). -/
def streamAux (m : Stream) : Word := BitVec.ofNat 64 (m.step * 256 + (m.pc - m.entry).toNat / 8 % 256)

/-- The stream stops with a cause: its entry leaves the table, and waiting BARWTs and APOPs of the block receive it (R41, R259). -/
def stopStream (s : State) (cause : BitVec 10) (aux : Word) : State :=
  let s := if s.footprints.any fun e => e.block == s.b.uid && e.job == none then endEntry s s.b none else s
  let s := modStream s fun m => { m with fault := some (cause, aux), wait := .none, began := false }
  enqueue s (((waiting s .barwt fun w => w.block == s.b.uid).map fun q => .barwtWake q.1 q.2) ++
    (waiting s .apopEmpty fun w => w.block == s.b.uid).map fun q => .apopWake q.1 q.2)

/-- The stream stops at a fault. The aux word is its step and index for every cause, ILLEGAL_OPCODE included (log entry 31, DEDUCED: R41,
R162, R259 against R170). -/
def streamFault (s : State) (cause : BitVec 10) : State := stopStream s cause (streamAux (stream s))

/-- A stream instruction ends at a PC. -/
def streamGoto (s : State) (pc : Word) : State :=
  modStream s fun m => { m with pc := pc, step := 0, began := false, wait := .none, descA := [], descB := [] }

def streamNext (s : State) : State := streamGoto s ((stream s).pc + 8)
def streamWait (s : State) (r : StreamWait) : State := modStream s fun m => { m with wait := r }

/-- Whether the current block's stream may act: present, not ended, not stopped, its block running (R252, R271). -/
def streamLive (s : State) : Bool :=
  match s.b.stream with
  | some m => !m.ended && m.fault.isNone && !m.paused && s.b.st == .running
  | none => false

/-- The entry of the block's stream in the table, if it holds one. -/
def streamEntry (s : State) : Option FpEntry := s.footprints.find? fun e => e.block == s.b.uid && e.job == none

/-- Takes the stream's entry out of the table, if it holds one. -/
def leaveTable (s : State) : State := if (streamEntry s).isSome then endEntry s s.b none else s

/-- Runs a stream instruction whose entry has no region and that ends in the step in which it begins: it waits while the table has
no free entry (R109, R263). -/
def withEntry (s : State) (body : State → State) : State :=
  if (streamEntry s).isNone && tableFull s s.b.die (clusterOf s.b) then streamWait s .edge else leaveTable (body s)

/-- Runs a stream instruction; a warp that executes it traps STREAM_ONLY (Table 02-5). -/
def runStream (s : State) (i : Instr) (body : State → State) : Host.Outcome State Fault Refusal :=
  if s.onStream then .next (if streamLive s then body s else s)
  else runSeq s fun _ => .error (.trap 0x005 ((encode i).getD 0))

/-! ## Accumulator tiles (R86, R252) -/

def readTile : List (Nat × BitVec 32) → Nat → BitVec 32
  | [], _ => 0
  | (k, v) :: t, n => if k = n then v else readTile t n

/-- Writes one word, in ascending order with zero words unlisted. -/
def writeTile : List (Nat × BitVec 32) → Nat → BitVec 32 → List (Nat × BitVec 32)
  | [], n, v => if v = 0 then [] else [(n, v)]
  | (k, x) :: t, n, v =>
    if n < k then (if v = 0 then (k, x) :: t else (n, v) :: (k, x) :: t)
    else if n = k then (if v = 0 then t else (n, v) :: t)
    else (k, x) :: writeTile t n v

def tileAt (s : State) (n : Nat) : Tile := s.b.tiles.getD n { words := [], flag := false }
def modTile (s : State) (n : Nat) (f : Tile → Tile) : State := { s with b := { s.b with tiles := modAt s.b.tiles n f } }
def tileWord (s : State) (n i j : Nat) : BitVec 32 := readTile (tileAt s n).words (i * 128 + j)
def setTileWord (s : State) (n i j : Nat) (v : BitVec 32) : State := modTile s n fun t => { t with words := writeTile t.words (i * 128 + j) v }

/-! ## Shapes and element codes (R255, R256, Table 07-10) -/

def shapeM (sh : BitVec 5) : Nat := match sh.toNat / 4 with | 0 | 1 | 2 => 32 | 3 | 4 | 5 => 64 | _ => 128
def shapeN (sh : BitVec 5) : Nat := match sh.toNat / 4 with | 0 | 3 => 32 | 1 | 4 | 6 => 64 | _ => 128
def isFp8 (f : BitVec 4) : Bool := f == 9 || f == 10 || f == 12

/-- K-block of an element pair; none where the instruction does not accept it (Table 11-2). -/
def kBlock (q : Bool) (a b : BitVec 4) : Option Nat :=
  if q then (if a = 12 ∧ b = 11 then some 64 else none)
  else if isFp8 a && isFp8 b then some 32
  else if a ≠ b then none
  else match a.toNat with
    | 0 => some 32
    | 5 | 6 => some 16
    | 7 => some 8
    | _ => none

/-- Agreement of a descriptor's FMT and LAYOUT with an element code (R162). -/
def agrees (d : Desc) (f : BitVec 4) : Bool :=
  match f.toNat with
  | 11 => d.layout == 2
  | 12 => d.layout == 1
  | n => d.layout == 0 && d.fmt == n

/-- The checks of one descriptor in the order of R259: none where it passes. -/
def descCheck (d : Desc) (space : Nat) (agree : Bool) (d0 d1 : Nat) : Option (BitVec 10) :=
  if badLayout d then some 0x084
  else if badDesc d || d.space != space then some 0x2C1
  else if !agree then some 0x084
  else if d.dims.getD 0 0 < d0 ∨ d.dims.getD 1 0 < d1 then some 0x2C1
  else none

/-! ## Scratch and B-plane accesses of a step (R95, R258, R260) -/

/-- The scratch places of n bytes: the address is checked for alignment, then range; `code` is the misaligned code. -/
def stepPlaces (s : State) (a : Word) (n align : Nat) (code : BitVec 10) (write : Bool) : Except (BitVec 10) (List Place) :=
  if a.toNat % align ≠ 0 then .error code
  else
    match places s s.b .scratch write a n with
    | .ok ps => .ok ps
    | .error _ => .error (code + 1)

def readScratchAt (s : State) (a : Word) (n align : Nat) : Except (BitVec 10) (List Byte) := do
  let ps ← stepPlaces s a n align 0x150 false
  pure (ps.flatMap fun p => (readPlace s s.b p).1)

/-- Writes bytes at places that were checked. -/
def writeStep (s : State) (x : List Place × List Byte) : State :=
  (x.1.foldl (fun (acc : State × List Byte) p =>
    (writePlace acc.1 acc.1.b p (acc.2.take (placeLen p)), acc.2.drop (placeLen p))) (s, x.2)).1

/-- Address of element (i, k) on the row side: BASE + i × STRIDE1 + byte (R260). -/
def rowAddr (d : Desc) (i byte : Nat) : Word := d.base + BitVec.ofNat 64 i * d.strides.getD 0 0 + BitVec.ofNat 64 byte

/-- Slice and offset of byte `byte` of column n of B (R99). -/
def colPlace (d : Desc) (n byte : Nat) : Nat × Int :=
  ((d.base.toNat / 2 ^ 15 + n) % 64, ((d.base.toNat % 2 ^ 15 : Nat) : Int) + (n / 64 : Nat) * (d.strides.getD 0 0).toInt + (byte : Nat))

/-- Slice and offset of the super-scale of column n for element k of the tensor (R99, R261). -/
def scalePlace (d : Desc) (n k : Nat) : Nat × Int :=
  ((d.base.toNat / 2 ^ 15 + n) % 64,
    ((d.scaleBase.toNat % 2 ^ 15 + n / 64 * (4 * ceilDiv (d.dims.getD 0 0) 256) + 4 * (k / 256) : Nat) : Int))

def inPlane (b : Block) (p : Nat × Int) (n : Nat) : Bool := decide (0 ≤ p.2 ∧ p.2 + n ≤ (b.kernel.bplane * 1024 : Nat))

def planeBytes (b : Block) (p : Nat × Int) (n : Nat) : List Byte := readBytes b.bplane (p.1 * 2 ^ 15 + p.2.toNat) n

/-! ## Exact values (R79 to R81, R85) -/

/-- Multiplies a value by 2^e. -/
def scaleF (x : FVal) (e : Int) : FVal :=
  match x with
  | .fin s m f => .fin s m (f + e)
  | y => y

/-- Product with the special cases of R85. -/
def mulF (a b : FVal) : FVal :=
  match a, b with
  | .nan _ _ _, _ | _, .nan _ _ _ => .nan false true 0
  | .inf s, .inf t => .inf (s != t)
  | .inf s, .fin t m _ => if m = 0 then .nan false true 0 else .inf (s != t)
  | .fin s m _, .inf t => if m = 0 then .nan false true 0 else .inf (s != t)
  | .fin s m e, .fin t n f => .fin (s != t) (m * n) (e + f)

/-- Exact sum of the terms of a K-block (R85). -/
def sumF (xs : List FVal) : FVal :=
  let infs := xs.filterMap fun | .inf s => some s | _ => none
  if xs.any isNaN || (infs.any id && infs.any (!·)) then .nan false true 0
  else
    match infs with
    | s :: _ => .inf s
    | [] =>
      let e := xs.foldl (fun e x => match x with | .fin _ _ f => min e f | _ => e) 0
      let n := xs.foldl (fun (n : Int) x => match x with | .fin s m f => n + signedAt s m f e | _ => n) 0
      if n = 0 then .fin (xs.all signOf) 0 0 else .fin (decide (n < 0)) n.natAbs e

/-- rne(acc + p) in f32; a NaN is the canonical one (R85). -/
def accAdd (acc : BitVec 32) (p : FVal) : BitVec 32 :=
  match unpack .f32 (zx64 acc), p with
  | .nan _ _ _, _ | _, .nan _ _ _ => 0x7FC00000
  | x, y =>
    let r := (fAdd .f32 .rne false x y).1.setWidth 32
    if isNaN (unpack .f32 (zx64 r)) then 0x7FC00000 else r

/-- rne(p) in f32. -/
def accSet (p : FVal) : BitVec 32 :=
  match p with
  | .nan _ _ _ => 0x7FC00000
  | .inf s => (packInf .f32 s).setWidth 32
  | .fin s m e => (roundTo .f32 .rne 0 false s m e).1.setWidth 32

def nanF : FVal := .nan false true 0

/-- The 32 element values of an S8 record (R79). -/
def s8Values (fmt : Nat) (rec : List Byte) : List FVal :=
  let e := (rec.getD 32 0).toNat
  let t := if fmt = 9 then Ty.e4m3 else Ty.e5m2
  (rec.take 32).map fun x =>
    let v := unpack t (zx64 x)
    if e = 255 ∨ isNaN v then nanF else scaleF v ((e : Int) - 127)

/-- The 64 element values of a Q4N record under super-scale bits S (R80, R81). -/
def q4nValues (sup : BitVec 32) (rec : List Byte) : List FVal :=
  let q := (rec.getD 32 0).toNat
  (List.range 64).map fun j =>
    let c := ((rec.getD (j / 2) 0).toNat / (if j % 2 = 0 then 1 else 16)) % 16
    let v := q4nValue c
    mulF (.fin (decide (v < 0)) (v.natAbs * (q + 1)) (-18)) (unpack .f32 (zx64 sup))

/-- Values of plain elements of a format code, `size` bytes each; i8 elements are integers. -/
def plainValues (f : BitVec 4) (size : Nat) (bytes : List Byte) : List FVal :=
  (List.range (bytes.length / size)).map fun i =>
    let v : Word := BitVec.ofNat 64 (ofBytes ((bytes.drop (i * size)).take size))
    if f = 0 then let n := (v.setWidth 8 : BitVec 8).toInt; .fin (decide (n < 0)) n.natAbs 0 else unpack (tyOf f) v

/-- Bytes of the elements [k, k + n) of a row or column: first byte and length. -/
def runOf (d : Desc) (f : BitVec 4) (k n : Nat) : Nat × Nat :=
  match f.toNat with
  | 11 => (k / 64 * d.rstride, (n / 64 - 1) * d.rstride + 33)
  | 12 => (k / 32 * d.rstride, (n / 32 - 1) * d.rstride + 33)
  | _ => (k * elemSize d.fmt, n * elemSize d.fmt)

/-- Values of the elements [k, k + n) from their bytes; `sup` is the super-scale of a Q4N run. -/
def valuesOf (d : Desc) (f : BitVec 4) (n : Nat) (sup : BitVec 32) (bytes : List Byte) : List FVal :=
  match f.toNat with
  | 11 => (List.range (n / 64)).flatMap fun r => q4nValues sup ((bytes.drop (r * d.rstride)).take 33)
  | 12 => (List.range (n / 32)).flatMap fun r => s8Values d.fmt ((bytes.drop (r * d.rstride)).take 33)
  | _ => plainValues f (elemSize d.fmt) bytes

/-- Values of row i of A in K-block elements [k, k + n) (R260). -/
def rowValues (s : State) (d : Desc) (f : BitVec 4) (i k n : Nat) : Except (BitVec 10) (List FVal) := do
  let (byte, len) := runOf d f k n
  if f.toNat = 12 then
    let rs ← (List.range (n / 32)).mapM fun r => readScratchAt s (rowAddr d i (byte + r * d.rstride)) 33 1
    pure (rs.flatMap (s8Values d.fmt))
  else pure (valuesOf d f n 0 (← readScratchAt s (rowAddr d i byte) len (elemSize d.fmt)))

/-- Values of column j of B in elements [k, k + n) (R260, R261). -/
def colValues (b : Block) (d : Desc) (f : BitVec 4) (j k n : Nat) : List FVal :=
  let (byte, len) := runOf d f k n
  let sup : BitVec 32 := BitVec.ofNat 32 (ofBytes (planeBytes b (scalePlace d j k) 4))
  valuesOf d f n sup (planeBytes b (colPlace d j byte) len)

/-! ## A multi-step instruction (R253, R257 to R259, R263) -/

/-- What an instruction's beginning fixes: its steps and its footprint. -/
structure Plan where
  steps : Nat
  reads : List Region
  writes : List Region

/-- How a step ends: a fault, or a wait that leaves everything as it was. -/
inductive StepHalt where
  | fault (c : BitVec 10)
  | wait (r : StreamWait)
  deriving DecidableEq, Repr

def liftStep {α : Type} (x : Except (BitVec 10) α) : Except StepHalt α :=
  match x with
  | .ok a => .ok a
  | .error c => .error (.fault c)

/-- Begins an instruction: snapshots, checks, footprint entry; then its steps are granted one by one (R253, R259, R263). -/
def beginSteps (s : State) (a b : Option (BitVec 6)) (plan : State → Desc → Desc → Except (BitVec 10) Plan) (start : State → State) :
    State :=
  if (stream s).began then s
  else
    let wa := (a.map (descWords s.b)).getD []
    let wb := (b.map (descWords s.b)).getD []
    match plan s (descOf wa) (descOf wb) with
    | .error c => streamFault s c
    | .ok p =>
      if tableFull s s.b.die (clusterOf s.b) then streamWait s .edge
      else
        let s := addEntry s s.b none p.reads p.writes
        modStream (start s) fun m => { m with began := true, step := 0, descA := wa, descB := wb, wait := .none }

/-- Whether a stream has a step ready, of an instruction that has begun or of its next one: it is passed over while it waits at
MBARWT, at MDRAIN with a full queue, or for an edge (R254). -/
def streamReady (b : Block) : Bool :=
  b.uid != 0 && b.st == .running && b.stream.any fun m => !m.ended && m.fault.isNone && !m.paused && m.wait == .none

/-- Grants the next step: without an edge it runs; the last step completes the instruction (R254, R257, R258). -/
def grantStep (s : State) (steps : Nat) (step : State → Nat → Except StepHalt State) : State :=
  if (streamEntry s).any fun e => !entryFree s e then streamWait s .edge
  else
    match step s (stream s).step with
    | .error (.fault c) => streamFault s c
    | .error (.wait r) => streamWait s r
    | .ok t =>
      if (stream s).step + 1 < steps then
        modStream t fun m => { m with step := m.step + 1, wait := .none }
      else streamNext (leaveTable t)

/-- Scratch region of rows of bytes from a descriptor (R263). -/
def rowsRegion (s : State) (d : Desc) (rows n : Nat) : List Region :=
  let r := rowsRange d.base n rows (d.strides.getD 0 0).toInt
  regionsOf s s.b .scratch r.1 r.2

/-! ## MMA and MMAQ (R262) -/

/-- K of a shape for a K-block: the K index doubles it (Table 11-1). -/
def shapeK (x : MmaArgs) (kb : Nat) : Nat := kb * 2 ^ (x.shape.toNat % 4)

/-- Whether every byte of B and its super-scales that the instruction reads lies in the window (R259). -/
def planeOk (b : Block) (d : Desc) (f : BitVec 4) (n k : Nat) : Bool :=
  (List.range n).all fun j =>
    let (byte, len) := runOf d f 0 k
    inPlane b (colPlace d j byte) len &&
      (f != 11 || (List.range (ceilDiv k 256)).all fun r => inPlane b (scalePlace d j (256 * r)) 4)

/-- The B-plane bytes of a slice from the first to the last that n-byte runs at some places of the slice touch. -/
def sliceRegion (b : Block) (ps : List (Nat × Int)) (n : Nat) : List Region :=
  match ps with
  | [] => []
  | p :: ps =>
    let lo := ps.foldl (fun a q => min a q.2.toNat) p.2.toNat
    let hi := ps.foldl (fun a q => max a q.2.toNat) p.2.toNat
    [.bplane b.uid (p.1 * 2 ^ 15 + lo) (p.1 * 2 ^ 15 + hi + n)]

/-- B-plane regions: in every slice used, from B's first to last byte, and the super-scale range (R263). Columns j and j + 64 share
a slice. -/
def planeRegions (b : Block) (d : Desc) (f : BitVec 4) (n k : Nat) : List Region :=
  (List.range (min n 64)).flatMap fun j =>
    let (byte, len) := runOf d f 0 k
    let cols := [j, j + 64].filter fun c => decide (c < n)
    sliceRegion b (cols.map fun c => colPlace d c byte) len ++
      if f = 11 then sliceRegion b (cols.map fun c => scalePlace d c 0) (4 * ceilDiv k 256) else []

def mmaPlan (q : Bool) (x : MmaArgs) (s : State) (da db : Desc) : Except (BitVec 10) Plan :=
  match kBlock q x.af x.bf with
  | none => .error 0x2C0
  | some kb =>
    let m := shapeM x.shape
    let n := shapeN x.shape
    let k := shapeK x kb
    if s.b.kernel.ntiles ≤ x.acc.toNat then .error 0x2C3
    else
      match (descCheck da 1 (agrees da x.af) k m).orElse fun _ => descCheck db 2 (agrees db x.bf) k n with
      | some c => .error c
      | none =>
        if !planeOk s.b db x.bf n k then .error 0x2C2
        else .ok { steps := m / 32 * (n / 32) * (k / kb)
                   reads := rowsRegion s da m ((runOf da x.af 0 k).2) ++ planeRegions s.b db x.bf n k, writes := [] }

/-- Clamps an i8 sum to i32 and says whether it was outside (R86). -/
def clampI32 (n : Int) : BitVec 32 × Bool :=
  let r := clampInt .i32 n
  (BitVec.ofInt 32 r.1, r.2)

/-- The words of a tile with the 32 × 32 words of sub-tile (ti, tj) replaced. -/
def putSub (s : State) (t ti tj : Nat) (f : Nat → Nat → BitVec 32) : State :=
  modTile s t fun x => { x with words := (List.range 32).foldl (fun ws i => (List.range 32).foldl (fun ws j =>
    writeTile ws ((32 * ti + i) * 128 + 32 * tj + j) (f i j)) ws) x.words }

/-- One step of MMA or MMAQ (R85, R86, R262). -/
def mmaStep (q : Bool) (x : MmaArgs) (s : State) (n : Nat) : Except StepHalt State := do
  let m := stream s
  let da := descOf m.descA
  let db := descOf m.descB
  let kb := (kBlock q x.af x.bf).getD 1
  let nk := shapeK x kb / kb
  let nj := shapeN x.shape / 32
  let ti := n / (nj * nk)
  let tj := n / nk % nj
  let k := n % nk * kb
  let rows ← (List.range 32).mapM fun i => liftStep (rowValues s da x.af (32 * ti + i) k kb)
  let cols := (List.range 32).map fun j => colValues s.b db x.bf (32 * tj + j) k kb
  let p := rows.map fun r => cols.map fun c => sumF ((r.zip c).map fun v => mulF v.1 v.2)
  let fresh := x.overwrite && n % nk == 0
  let t := x.acc.toNat
  let old (i j : Nat) : BitVec 32 := tileWord s t (32 * ti + i) (32 * tj + j)
  let term (i j : Nat) : FVal := (p.getD i []).getD j nanF
  if x.af = 0 then
    let total (i j : Nat) : BitVec 32 × Bool :=
      let v : Int := match term i j with | .fin sg m e => signedAt sg m e 0 | _ => 0
      clampI32 (if fresh then v else v + (old i j).toInt)
    let any := (List.range 32).any fun i => (List.range 32).any fun j => (total i j).2
    let s := putSub s t ti tj fun i j => (total i j).1
    pure (if any then modTile s t fun y => { y with flag := true } else s)
  else pure (putSub s t ti tj fun i j => if fresh then accSet (term i j) else accAdd (old i j) (term i j))

def mmaSteps (q : Bool) (x : MmaArgs) : Nat :=
  let kb := (kBlock q x.af x.bf).getD 1
  shapeM x.shape / 32 * (shapeN x.shape / 32) * (shapeK x kb / kb)

def mmaBegin (q : Bool) (x : MmaArgs) (s : State) : State :=
  beginSteps s (some x.adesc) (some x.bdesc) (mmaPlan q x) fun s =>
    if x.overwrite then modTile s x.acc.toNat fun t => { t with flag := false } else s

def execMma (x : MmaArgs) (s : State) : Host.Outcome State Fault Refusal := runStream s (.mma x) (mmaBegin false x)
def execMmaq (x : MmaArgs) (s : State) : Host.Outcome State Fault Refusal := runStream s (.mmaq x) (mmaBegin true x)

/-! ## ACCZ, ACCLD and ACCST (R264) -/

def execAccz (acc : BitVec 2) (s : State) : Host.Outcome State Fault Refusal :=
  runStream s (.accz acc) fun s => withEntry s fun s =>
    if s.b.kernel.ntiles ≤ acc.toNat then streamFault s 0x2C3
    else streamNext (modTile s acc.toNat fun _ => { words := [], flag := false })

/-- The shape checks of a region (R255, R260). -/
def regionShapeBad (sh : BitVec 5) (row col : BitVec 2) : Bool :=
  sh.toNat % 4 != 0 || decide (128 < 32 * row.toNat + shapeM sh) || decide (128 < 32 * col.toNat + shapeN sh)

def regionPlan (x : RegionArgs) (store flag : Bool) (s : State) (d _d : Desc) : Except (BitVec 10) Plan :=
  let m := shapeM x.shape
  let n := shapeN x.shape
  if !(x.af == 5 || x.af == 6 || x.af == 7) || regionShapeBad x.shape x.row x.col then .error 0x2C0
  else if s.b.kernel.ntiles ≤ x.acc.toNat then .error 0x2C3
  else
    match descCheck d 1 (agrees d x.af || (d.layout == 0 && d.fmt == 1 && x.af == 7)) n m with
    | some c => .error c
    | none =>
      let r := rowsRegion s d m (n * elemSize d.fmt)
      let f := if flag then regionsOf s s.b .scratch d.ufcBase.toNat (d.ufcBase.toNat + 1) else []
      .ok { steps := m / 32 * (n / 32), reads := if store then [] else r, writes := if store then r ++ f else [] }

def regionSteps (x : RegionArgs) : Nat := shapeM x.shape / 32 * (shapeN x.shape / 32)

/-- Sub-tile of a step: first row and column of the region (R257). -/
def subOrigin (x : RegionArgs) (n : Nat) : Nat × Nat := (32 * (n / (shapeN x.shape / 32)), 32 * (n % (shapeN x.shape / 32)))

def elemTy (f : BitVec 4) : Ty := if f = 5 then .f16 else if f = 6 then .bf16 else .f32

def accldStep (x : RegionArgs) (s : State) (n : Nat) : Except StepHalt State := do
  let d := descOf (stream s).descA
  let size := elemSize d.fmt
  let (r0, c0) := subOrigin x n
  let rows ← (List.range 32).mapM fun i => liftStep (readScratchAt s (rowAddr d (r0 + i) (c0 * size)) (32 * size) size)
  let word (i j : Nat) : BitVec 32 :=
    let v : Word := BitVec.ofNat 64 (ofBytes (((rows.getD i []).drop (j * size)).take size))
    if x.af = 7 then v.setWidth 32 else (convert (elemTy x.af) .f32 .rne 0 false v).1.setWidth 32
  let s := putSub s x.acc.toNat (x.row.toNat + r0 / 32) (x.col.toNat + c0 / 32) word
  pure (if n + 1 = regionSteps x then modTile s x.acc.toNat fun t => { t with flag := false } else s)

def execAccld (x : RegionArgs) (s : State) : Host.Outcome State Fault Refusal :=
  runStream s (.accld x) fun s => beginSteps s (some x.desc) none (regionPlan x false false) id

/-- The bytes of tile elements of one row, converted in rne (R264). -/
def accstBytes (s : State) (x : RegionArgs) (size i c0 : Nat) : List Byte :=
  (List.range 32).flatMap fun j =>
    let w := zx64 (tileWord s x.acc.toNat (32 * x.row.toNat + i) (32 * x.col.toNat + c0 + j))
    toBytes size (if x.af = 7 then w else (convert .f32 (elemTy x.af) .rne 0 false w).1).toNat

def accstStep (x : RegionArgs) (flag : Bool) (s : State) (n : Nat) : Except StepHalt State := do
  let d := descOf (stream s).descA
  let size := elemSize d.fmt
  let (r0, c0) := subOrigin x n
  let rows ← (List.range 32).mapM fun i => do
    let ps ← liftStep (stepPlaces s (rowAddr d (r0 + i) (c0 * size)) (32 * size) size 0x154 true)
    pure (ps, accstBytes s x size (r0 + i) c0)
  let tail ← if flag && n + 1 == regionSteps x then do
      let ps ← liftStep (stepPlaces s d.ufcBase 1 1 0x154 true)
      pure [(ps, [if (tileAt s x.acc.toNat).flag then (1 : Byte) else 0])]
    else pure []
  pure ((rows ++ tail).foldl writeStep s)

def execAccst (x : RegionArgs) (flag : Bool) (s : State) : Host.Outcome State Fault Refusal :=
  runStream s (.accst x flag) fun s => beginSteps s (some x.desc) none (regionPlan x true flag) id

/-! ## QSTORE (R82, R83, R265) -/

/-- ⌈log2(m·2^e / (7·2^k))⌉ for m > 0. -/
def ceilLog7 (m : Nat) (e k : Int) : Int :=
  let b := bitLen m
  e - k + (b : Int) - 3 + if m * 8 ≤ 7 * 2 ^ b then 0 else 1

def isFin : FVal → Bool
  | .fin _ _ _ => true
  | _ => false

def mantOf : FVal → Nat
  | .fin _ m _ => m
  | _ => 0

def expOf : FVal → Int
  | .fin _ _ e => e
  | _ => 0

/-- The value of largest magnitude among finite values. -/
def maxMag (xs : List FVal) : FVal :=
  xs.foldl (fun a x => if magLt (mantOf a) (expOf a) (mantOf x) (expOf x) then x else a) (.fin false 0 0)

/-- An S8 record and its count from 32 values (R82). -/
def s8Record (t : Ty) (adaptive : Bool) (cprev thr : Nat) (xs : List FVal) : List Byte × Nat :=
  if !xs.all isFin then (List.replicate 32 ((canonNaN t).setWidth 8) ++ [255], 0)
  else
    let m := maxMag xs
    let big : Int := if t == .e4m3 then 6 else 13
    let minsub : Int := if t == .e4m3 then -9 else -16
    let e0 : Int := if mantOf m = 0 then 127 else max 0 (min 254 (127 + ceilLog7 (mantOf m) (expOf m) big))
    let e := if adaptive && decide (thr < cprev) && decide (0 < e0) then e0 - 1 else e0
    let elems := xs.map fun x => ((roundTo t .rne 0 false (signOf x) (mantOf x) (expOf x - (e - 127))).1.setWidth 8 : Byte)
    let lost := (xs.filter fun x => mantOf x != 0 && magLt (mantOf x) (expOf x) 1 (e - 127 + minsub - 1)).length
    (elems ++ [BitVec.ofInt 8 e], min lost 255)

/-- The Q4N code of x under block scale bm·2^be, in rne: the nearest codebook magnitude, a tie to the smaller (R78, R82). -/
def q4nNear (x : FVal) (bm : Nat) (be : Int) : Nat :=
  let e := min (expOf x) be
  let X := 1024 * mantOf x * 2 ^ (expOf x - e).toNat
  let B := bm * 2 ^ (be - e).toNat
  let dist (k : Nat) : Nat := ((X : Int) - (q4nMag.getD k 0 * B : Nat)).natAbs
  let k := if mantOf x = 0 then 0 else (List.range 8).foldl (fun best k => if dist k < dist best then k else best) 0
  if signOf x then 7 - k else 8 + k

/-- A Q4N record and its count from 64 values under the group's super-scale (R82). -/
def q4nRecord (sup : FVal) (adaptive : Bool) (cprev thr : Nat) (xs : List FVal) : List Byte × Nat :=
  let mb := maxMag xs
  let e := min (expOf mb) (expOf sup)
  let num := 256 * mantOf mb * 2 ^ (expOf mb - e).toNat
  let den := mantOf sup * 2 ^ (expOf sup - e).toNat
  let q0 := if den = 0 then 0 else min 255 (ceilDiv num den - 1)
  let q := if adaptive && decide (thr < cprev) && decide (0 < q0) then q0 - 1 else q0
  let bm := mantOf sup * (q + 1)
  let be := expOf sup - 8
  let codes := xs.map fun x => q4nNear x bm be
  let bytes := (List.range 32).map fun i => (BitVec.ofNat 8 (codes.getD (2 * i) 0 + 16 * codes.getD (2 * i + 1) 0) : Byte)
  let lost := (xs.filter fun x => mantOf x != 0 && magLt (2048 * mantOf x) (expOf x) (43 * bm) be).length
  (bytes ++ [BitVec.ofNat 8 q], min lost 255)

def qstorePlan (x : RegionArgs) (s : State) (d _d : Desc) : Except (BitVec 10) Plan :=
  let m := shapeM x.shape
  let n := shapeN x.shape
  let s8 := x.af == 12
  if !(x.af == 12 || x.af == 11) then .error 0x2C5
  else if regionShapeBad x.shape x.row x.col || (!s8 && n == 32) then .error 0x2C0
  else if s.b.kernel.ntiles ≤ x.acc.toNat then .error 0x2C3
  else
    match descCheck d 1 (agrees d x.af) n m with
    | some c => .error c
    | none =>
      if !s8 && d.dims.getD 0 0 != n then .error 0x2C1
      else
        let per := n / (if s8 then 32 else 64)
        let counters := regionsOf s s.b .scratch d.ufcBase.toNat (d.ufcBase.toNat + m * per)
        let scales := if s8 then [] else regionsOf s s.b .scratch d.scaleBase.toNat (d.scaleBase.toNat + 4 * m)
        .ok { steps := if s8 then m / 32 * (n / 32) else m / 32, reads := counters
              writes := rowsRegion s d m ((per - 1) * d.rstride + 33) ++ scales ++ counters }

def qstoreSteps (x : RegionArgs) : Nat :=
  if x.af = 12 then shapeM x.shape / 32 * (shapeN x.shape / 32) else shapeM x.shape / 32

/-- Elements [c, c + n) of region row i as FP32 values. -/
def regionValues (s : State) (x : RegionArgs) (i c n : Nat) : List FVal :=
  (List.range n).map fun j => unpack .f32 (zx64 (tileWord s x.acc.toNat (32 * x.row.toNat + i) (32 * x.col.toNat + c + j)))

/-- Writes one record with its count: the counter byte is read before it is written (R82, R265). -/
def putRecord (s : State) (recAt cntAt : List Place) (mk : Nat → List Byte × Nat) : State :=
  let cprev := ofBytes (cntAt.flatMap fun p => (readPlace s s.b p).1)
  let r := mk cprev
  writeStep (writeStep s (recAt, r.1)) (cntAt, [BitVec.ofNat 8 r.2])

def qstoreStep (x : RegionArgs) (adapt : Bool) (s : State) (n : Nat) : Except StepHalt State := do
  let d := descOf (stream s).descA
  let cols := shapeN x.shape
  let s8 := x.af == 12
  let per := cols / (if s8 then 32 else 64)
  let ti := if s8 then n / (cols / 32) else n
  let recs := if s8 then [n % (cols / 32)] else List.range per
  let at_ (i r : Nat) : Except StepHalt (List Place × List Place) := do
    let a ← liftStep (stepPlaces s (rowAddr d i (r * d.rstride)) 33 1 0x154 true)
    let cAddr := d.ufcBase + BitVec.ofNat 64 (i * per + r)
    let _ ← liftStep (stepPlaces s cAddr 1 1 0x150 false)
    let c ← liftStep (stepPlaces s cAddr 1 1 0x154 true)
    pure (a, c)
  let rows ← (List.range 32).mapM fun i => do
    let ps ← recs.mapM fun r => do let p ← at_ (32 * ti + i) r; pure (r, p)
    let sc ← if s8 then pure [] else liftStep (stepPlaces s (d.scaleBase + BitVec.ofNat 64 (4 * (32 * ti + i))) 4 1 0x154 true)
    pure (32 * ti + i, ps, sc)
  pure (rows.foldl (fun s (row : Nat × List (Nat × List Place × List Place) × List Place) =>
    let (i, ps, sc) := row
    if s8 then
      let t := if d.fmt = 9 then Ty.e4m3 else Ty.e5m2
      ps.foldl (fun s (p : Nat × List Place × List Place) =>
        putRecord s p.2.1 p.2.2 fun c => s8Record t adapt c d.thr (regionValues s x i (32 * p.1) 32)) s
    else
      let group := regionValues s x i 0 cols
      let bad := !group.all isFin
      let sup := match maxMag group with
        | .fin _ m e => FVal.fin false m e
        | y => y
      let s := ps.foldl (fun s (p : Nat × List Place × List Place) =>
        putRecord s p.2.1 p.2.2 fun c =>
          if bad then (List.replicate 32 0x88 ++ [255], 0)
          else q4nRecord sup adapt c d.thr ((group.drop (64 * p.1)).take 64)) s
      writeStep s (sc, toBytes 4 (if bad then 0x7FC00000 else (repack .f32 sup).toNat))) s)

def execQstore (x : RegionArgs) (adapt : Bool) (s : State) : Host.Outcome State Fault Refusal :=
  runStream s (.qstore x adapt) fun s => beginSteps s (some x.desc) none (qstorePlan x) id

/-! ## MDRAIN (R266) -/

def mdrainPlan (shape : BitVec 5) (acc row col : BitVec 2) (s : State) (_ _d : Desc) : Except (BitVec 10) Plan :=
  if regionShapeBad shape row col then .error 0x2C0
  else if s.b.kernel.ntiles ≤ acc.toNat then .error 0x2C3
  else .ok { steps := shapeM shape * (shapeN shape / 32), reads := [], writes := [] }

def mdrainSteps (shape : BitVec 5) : Nat := shapeM shape * (shapeN shape / 32)

/-- Enqueues one row segment; the stream waits while the queue holds 64 (R266). -/
def mdrainStep (shape : BitVec 5) (acc row col : BitVec 2) (s : State) (n : Nat) : Except StepHalt State :=
  if 64 ≤ s.b.drain.length then .error (.wait .mdrain)
  else
    let per := shapeN shape / 32
    let seg := (List.range 32).map fun j => tileWord s acc.toNat (32 * row.toNat + n / per) (32 * col.toNat + 32 * (n % per) + j)
    let s := { s with b := { s.b with drain := s.b.drain ++ [seg] } }
    .ok (enqueue s ((waiting s .apopEmpty fun w => w.block == s.b.uid).map fun q => .apopWake q.1 q.2))

def execMdrain (shape : BitVec 5) (acc row col : BitVec 2) (s : State) : Host.Outcome State Fault Refusal :=
  runStream s (.mdrain shape acc row col) fun s => beginSteps s none none (mdrainPlan shape acc row col) id

/-! ## Barriers of the stream (R268) -/

def mbararvOp (id : BitVec 5) (s : State) : State :=
  match arrive s s.b id.toNat 1 with
  | .error (c, _) => streamFault s c
  | .ok t => streamNext t

def execMbararv (id : BitVec 5) (s : State) : Host.Outcome State Fault Refusal := runStream s (.mbararv id) fun s => withEntry s (mbararvOp id)

/-- MBARWT: a job fault met here stops the stream with the job's cause and aux (R259); BARRIER_BYTES stops it too. While it waits it
holds its entry (R109); the observation that ends it is an acquire at the barrier's scope (R127, R129). -/
def mbarwtOp (id : BitVec 5) (s : State) : State :=
  match barAt s s.b id.toNat with
  | none => streamFault s 0x240
  | some p =>
    match barReport s s.b id.toNat with
    | some r => if r.cause = 0x242 then streamFault r.st 0x242 else stopStream r.st r.cause r.aux
    | none =>
      if (readBar s p).phase = (stream s).phases.getLsbD id.toNat then
        streamWait (if (streamEntry s).isSome then s else addEntry s s.b none [] []) .mbarwt
      else
        let s := acquire (leaveTable s) (barScope id.toNat)
        streamNext (modStream s fun m => { m with phases := m.phases ^^^ BitVec.ofNat 32 (2 ^ id.toNat) })

def execMbarwt (id : BitVec 5) (s : State) : Host.Outcome State Fault Refusal := runStream s (.mbarwt id) fun s =>
    if (streamEntry s).isNone && tableFull s s.b.die (clusterOf s.b) then streamWait s .edge else mbarwtOp id s

/-! ## Loops, jumps and the end (R269, R270) -/

def mloopOp (count : BitVec 12) (off : BitVec 24) (s : State) : State :=
  let m := stream s
  let target := m.pc + 8 * sx64 off
  let jump (loops : List LoopEntry) : State :=
    if inCode s.b.kernel target then streamGoto (modStream s fun m => { m with loops := loops }) target else streamFault s 0x105
  let enter : State :=
    if 4 ≤ m.loops.length then streamFault s 0x2C4
    else if count = 0 then streamNext s
    else jump ({ at_ := m.pc, target := target, left := count.toNat - 1 } :: m.loops)
  match m.loops with
  | top :: rest =>
    if top.at_ = m.pc then
      if 0 < top.left then jump ({ top with left := top.left - 1 } :: rest)
      else streamNext (modStream s fun m => { m with loops := rest })
    else enter
  | [] => enter

def execMloop (count : BitVec 12) (off : BitVec 24) (s : State) : Host.Outcome State Fault Refusal :=
  runStream s (.mloop count off) fun s => withEntry s (mloopOp count off)

def mjmpOp (off : BitVec 24) (s : State) : State :=
  let target := (stream s).pc + 8 * sx64 off
  if inCode s.b.kernel target then
    streamGoto (modStream s fun m => { m with
      loops := m.loops.filter fun e => decide (e.target.toNat ≤ target.toNat ∧ target.toNat ≤ e.at_.toNat) }) target
  else streamFault s 0x105

def execMjmp (off : BitVec 24) (s : State) : Host.Outcome State Fault Refusal := runStream s (.mjmp off) fun s => withEntry s (mjmpOp off)

/-- MEND: the block reaches DRAINING when its warps have also ended (R38, R270). -/
def execMend (s : State) : Host.Outcome State Fault Refusal :=
  runStream s .mend fun s => withEntry s fun s => tryDrain (modStream s fun m => { m with ended := true }) s.b.uid

/-! ## MATRIX_STEP and MBARWT_WAKE -/

/-- One turn of the stream instruction at the stream's PC: its next step where it has begun, else its beginning (R253, R254). -/
def streamTurn (s : State) : Host.Outcome State Fault Refusal :=
  if !streamLive s || (streamEntry s).any (·.waiting) then .next s
  else if !(stream s).began && fetchPoison s s.b (stream s).pc then .next (fetchError s (stream s).pc)
  else
    match fetchWord s s.b (stream s).pc with
    | .error (c, _) => .next (streamFault s c)
    | .ok w =>
      match decode true w with
      | .error (c, _) => .next (streamFault s c)
      | .ok i =>
        let began := (stream s).began
        let go (steps : Nat) (step : State → Nat → Except StepHalt State) (start : Host.Outcome State Fault Refusal) :
            Host.Outcome State Fault Refusal := if began then .next (grantStep s steps step) else start
        match i with
        | .mma x => go (mmaSteps false x) (mmaStep false x) (execMma x s)
        | .mmaq x => go (mmaSteps true x) (mmaStep true x) (execMmaq x s)
        | .accz acc => execAccz acc s
        | .accld x => go (regionSteps x) (accldStep x) (execAccld x s)
        | .accst x flag => go (regionSteps x) (accstStep x flag) (execAccst x flag s)
        | .qstore x adapt => go (qstoreSteps x) (qstoreStep x adapt) (execQstore x adapt s)
        | .mdrain shape acc row col => go (mdrainSteps shape) (mdrainStep shape acc row col) (execMdrain shape acc row col s)
        | .mbararv id => execMbararv id s
        | .mbarwt id => execMbarwt id s
        | .mloop count off => execMloop count off s
        | .mjmp off => execMjmp off s
        | .mend => execMend s
        | _ => .next s

/-- MATRIX_STEP: the matrix unit grants a block's stream its next step (R254, R257). -/
def execMatrixStep (block : Nat) (s : State) : Host.Outcome State Fault Refusal :=
  match getBlock s block with
  | some b => if b.stream.isSome then streamTurn (focusStream s block) else .next s
  | none => .next s

/-- MBARWT_WAKE: the waiting MBARWT observes its barrier again (R268). -/
def execMbarwtWake (block : Nat) (s : State) : Host.Outcome State Fault Refusal :=
  match getBlock s block with
  | some b => if (b.stream.map (·.wait)) == some .mbarwt then streamTurn (focusStream s block) else .next s
  | none => .next s

/-! ## APOP (R267) -/

/-- APOP: in a block with no stream it traps; an empty mask takes nothing; a faulted stream is reported; else it takes the oldest
segment or waits. -/
def execApop (la : BitVec 4) (ms : BitVec 3) (ty : Ty) (s : State) : Host.Outcome State Fault Refusal :=
  let word : Word := (encode (.apop la ms ty)).getD 0
  let row (m : LaneMask) (seg : List (BitVec 32)) : List Entry :=
    lanes32.map fun l => entryOf (if inMask m l then formOf ty (zx64 (seg.getD l 0)) else 0, ty)
  if s.b.stream.isNone then runSeq s fun _ => .error (.trap 0x2C6 word)
  else
    runReport s (fun s => if active s ms = 0 then none else streamReport s) fun s =>
      let m := active s ms
      if m = 0 then .ok (pushPending s la (PendRes.of [row 0 []] .other) 1)
      else
        match s.b.drain with
        | [] => .error (.stall .apopEmpty)
        | seg :: rest =>
          let s := sealWarp { s with b := { s.b with drain := rest } }
          .ok (pushPending { s with b := wakeStream .mdrain s.b } la (PendRes.of [row m seg] .other) 1)

def execApopWake (warp : Nat) (slot : PcSlot) (s : State) : Host.Outcome State Fault Refusal :=
  match heldInstr s warp slot .apopEmpty with
  | some (.apop la ms ty) => execApop la ms ty (resumeSlot s warp slot)
  | _ => .next s

/-! ## ILLEGAL_OPCODE (R170) -/

/-- A word in an unassigned cell: a warp traps with the word as aux, a stream stops. -/
def execIllegalOpcode (w : Word) (s : State) : Host.Outcome State Fault Refusal :=
  if s.onStream then .next (if streamLive s then streamFault s 0x000 else s) else runSeq s fun _ => .error (.trap 0x000 w)

end Sys2Proof.Machine
end

