-- ==== Sys2Proof/Machine/Theodolite.lean ====
section
/-! DEFINITION. The exact geometric predicates: group 0xC with its stages (R272 to R283). -/

namespace Sys2Proof.Machine

/-! ## Determinants over any ring of values (R275, R277) -/

/-- A matrix without row i and its first column. -/
def minorOf {α : Type} (rows : List (List α)) (i : Nat) : List (List α) := (rows.eraseIdx i).map List.tail

/-- The determinant expanded along the first column, each minor the same way, terms summed from the first row down. The fuel is
the dimension. -/
def detOf {α : Type} (zero : α) (add mul : α → α → α) (neg : α → α) : Nat → List (List α) → α
  | 0, _ => zero
  | 1, rows => ((rows.head?).bind List.head?).getD zero
  | n + 1, rows =>
    let terms := rows.mapIdx fun i r =>
      let t := mul (r.headD zero) (detOf zero add mul neg n (minorOf rows i))
      if i % 2 = 0 then t else neg t
    match terms with
    | [] => zero
    | t :: ts => ts.foldl add t

/-- The rows of a predicate's determinant from its points, coordinate differences first (Table 12-2): `last` names the point
that the others are taken from, `lift` adds the column of squared lengths. -/
def rowsOf {α : Type} (add mul : α → α → α) (sub : α → α → α) (k : Predicate) (pts : List (List α)) : List (List α) :=
  let diff (p q : List α) : List α := List.zipWith sub p q
  let from0 : List (List α) := pts.tail.map fun p => diff p (pts.headD [])
  let lift (v : List α) : List α :=
    match v.map fun x => mul x x with
    | [] => v
    | q :: qs => qs.foldl add q :: v
  let fromLast : List (List α) := pts.dropLast.map fun p => lift (diff p (pts.getLastD []))
  match k with
  | .ori2 | .ori3 | .segx => from0
  | .incir | .insph => fromLast

/-! ## Polynomials in ε for the exact value and the tie-break (R275, R279) -/

/-- Terms by ascending exponent of ε, no zero coefficient. -/
abbrev Poly := List (Nat × Int)

def addTerm : Poly → Nat → Int → Poly
  | [], n, c => if c = 0 then [] else [(n, c)]
  | (m, d) :: p, n, c =>
    if n < m then (if c = 0 then (m, d) :: p else (n, c) :: (m, d) :: p)
    else if n = m then (if d + c = 0 then p else (m, d + c) :: p)
    else (m, d) :: addTerm p n c

def addP (p q : Poly) : Poly := q.foldl (fun p t => addTerm p t.1 t.2) p
def negP (p : Poly) : Poly := p.map fun t => (t.1, -t.2)
def subP (p q : Poly) : Poly := addP p (negP q)
def mulP (p q : Poly) : Poly := p.foldl (fun r t => q.foldl (fun r u => addTerm r (t.1 + u.1) (t.2 * u.2)) r) []

/-- Sign of a polynomial as ε → 0+. -/
def signP : Poly → Int
  | [] => 0
  | (_, c) :: _ => if c < 0 then -1 else if 0 < c then 1 else 0

def detP (k : Predicate) (pts : List (List Poly)) : Poly :=
  let rows := rowsOf addP mulP subP k pts
  detOf [] addP mulP negP rows.length rows

/-! ## Coordinates -/

/-- Common exponent of a lane's coordinates, at most 0. -/
def commonExp (pts : List (List FVal)) : Int := (pts.flatMap id).foldl (fun e x => min e (expOf x)) 0

def intAt (e : Int) (x : FVal) : Int := signedAt (signOf x) (mantOf x) (expOf x) e

/-- A point's coordinates as polynomials: constant without the tie-break, else perturbed by its rank (R279). -/
def polyPoint (e : Int) (sos : Bool) (rank : Nat) (p : List FVal) : List Poly :=
  p.mapIdx fun j x => addTerm (if sos then [(2 ^ (rank * p.length + j), (2 ^ (-e).toNat : Nat))] else []) 0 (intAt e x)

/-! ## Results (R273, R275, R276, R279) -/

/-- Ranks of points by ascending address. -/
def ranksOf (qs : List Nat) : List Nat := qs.map fun q => (qs.filter (· < q)).length

/-- Whether two of the points named share an address. -/
def shared (qs : List Nat) : Bool := decide (¬ qs.Nodup)

/-- Sign of a determinant over the points, perturbed under SOS; points at one address give 0 under SOS. -/
def detSign (k : Predicate) (sos : Bool) (e : Int) (pts : List (List FVal × Nat × Nat)) : Int :=
  if sos && shared (pts.map fun p => p.2.1) then 0 else signP (detP k (pts.map fun p => polyPoint e sos p.2.2 p.1))

/-- The four orientations of SEGX: points by number (R277). -/
def segTriples : List (List Nat) := [[0, 1, 2], [0, 1, 3], [2, 3, 0], [2, 3, 1]]

def pick {α : Type} (d : α) (xs : List α) (is : List Nat) : List α := is.map fun i => xs.getD i d

/-- Lexicographic order of integer points. -/
def lexLe (a b : Int × Int) : Bool := decide (a.1 < b.1) || (decide (a.1 = b.1) && decide (a.2 ≤ b.2))

/-- Whether p lies in the box of the segment ab. -/
def inBox (a b p : Int × Int) : Bool :=
  decide (min a.1 b.1 ≤ p.1 ∧ p.1 ≤ max a.1 b.1 ∧ min a.2 b.2 ≤ p.2 ∧ p.2 ≤ max a.2 b.2)

/-- The class of two segments from the four orientations and the points (R276). -/
def segClass (o : List Int) (pts : List (Int × Int)) : Int :=
  let p (n : Nat) : Int × Int := pts.getD n (0, 0)
  let s (n : Nat) : Int := o.getD n 0
  if o.all (· == 0) then
    let lo (a b : Int × Int) := if lexLe a b then a else b
    let hi (a b : Int × Int) := if lexLe a b then b else a
    let l := hi (lo (p 0) (p 1)) (lo (p 2) (p 3))
    let h := lo (hi (p 0) (p 1)) (hi (p 2) (p 3))
    if l = h then 4 else if lexLe l h then 3 else 0
  else if s 0 * s 1 = -1 ∧ s 2 * s 3 = -1 then 1
  else if (s 0 == 0 && inBox (p 0) (p 1) (p 2)) || (s 1 == 0 && inBox (p 0) (p 1) (p 3)) || (s 2 == 0 && inBox (p 2) (p 3) (p 0)) ||
      (s 3 == 0 && inBox (p 2) (p 3) (p 1)) then 2
  else 0

/-- Result of a lane with finite coordinates: points and their addresses. -/
def predResult (k : Predicate) (sos : Bool) (pts : List (List FVal)) (qs : List Nat) : Int :=
  let e := commonExp pts
  let all : List (List FVal × Nat × Nat) := List.zipWith (fun p q => (p, q)) pts (List.zip qs (ranksOf qs))
  match k with
  | .segx =>
    let o := segTriples.map fun t => detSign .ori2 sos e (pick ([], 0, 0) all t)
    if sos then (if o.getD 0 0 * o.getD 1 0 = -1 ∧ o.getD 2 0 * o.getD 3 0 = -1 then 1 else 0)
    else segClass o (pts.map fun p => (intAt e (p.getD 0 (.fin false 0 0)), intAt e (p.getD 1 (.fin false 0 0))))
  | _ => detSign k sos e all

/-! ## Stages (R277) -/

/-- A finite f64 result of an operation of stage 0; none once an intermediate is not finite. -/
def fin64 (w : Word) : Option FVal :=
  match unpack .f64 w with
  | .fin s m e => some (.fin s m e)
  | _ => none

abbrev Stage0 := Option FVal

def add64 (a b : Stage0) : Stage0 := do fin64 (fAdd .f64 .rne false (← a) (← b)).1
def mul64 (a b : Stage0) : Stage0 := do fin64 (fMul .f64 .rne false (← a) (← b)).1
def neg64 (a : Stage0) : Stage0 := a.map fun | .fin s m e => .fin (!s) m e | x => x
def abs64 (a : Stage0) : Stage0 := a.map fun | .fin _ m e => .fin false m e | x => x
def sub64 (a b : Stage0) : Stage0 := add64 a (neg64 b)

/-- D0 and P0. -/
def stage0 (k : Predicate) (pts : List (List FVal)) : Stage0 × Stage0 :=
  let ps := pts.map fun p => p.map some
  let rows := rowsOf add64 mul64 sub64 k ps
  let prows := rowsOf add64 mul64 (fun a b => abs64 (sub64 a b)) k ps
  (detOf none add64 mul64 neg64 rows.length rows, detOf none add64 (fun a b => abs64 (mul64 a b)) id prows.length prows)

/-- B0 in units of 2^−106 (Table 12-3). -/
def bound0 : Predicate → Nat
  | .ori2 | .segx => 3 * 2 ^ 53 + 16
  | .ori3 => 7 * 2 ^ 53 + 56
  | .incir => 10 * 2 ^ 53 + 96
  | .insph => 16 * 2 ^ 53 + 224

/-- Degree of the determinant in the coordinates, which scales the exact value. -/
def degreeOf : Predicate → Int
  | .ori2 | .segx => 2
  | .ori3 => 3
  | .incir => 4
  | .insph => 5

/-- Whether stage 0 decides: |D0| > B0 × P0, every intermediate finite and P0 normal. -/
def stage0Decides (k : Predicate) : Stage0 × Stage0 → Bool
  | (some d0, some p0) =>
    magLt (2 ^ 52 - 1) (-1074) (mantOf p0) (expOf p0) &&
      magLt (bound0 k * mantOf p0) (expOf p0 - 106) (mantOf d0) (expOf d0)
  | _ => false

/-- Whether stage 1 decides a nonzero exact value d · 2^ed: from twice its bound on it must, since D1 lies within one bound of it. -/
def stage1Proves (k : Predicate) (pts : List (List FVal)) (d : Nat) (ed : Int) : Stage0 → Bool
  | some p0 =>
    !magLt d ed (bound0 k * mantOf p0) (expOf p0 - 155) ||
      Sys2Proof.Config.stage1Decides k ((pts.flatMap id).map (repack .f64))
  | none => false

/-- The stage at which a determinant's sign is proved; an exact zero always reaches stage 2 (R277). -/
def detStage (k : Predicate) (pts : List (List FVal)) : Nat :=
  let e := commonExp pts
  let exact := detP k (pts.map fun p => polyPoint e false 0 p)
  let d := ((exact.head?).map fun t => t.2.natAbs).getD 0
  let z := stage0 k pts
  if d = 0 then 2 else if stage0Decides k z then 0 else if stage1Proves k pts d (e * degreeOf k) z.2 then 1 else 2

/-- The stage at which a lane stops. -/
def laneStage (k : Predicate) (pts : List (List FVal)) : Nat :=
  match k with
  | .segx => (segTriples.map fun t => detStage .ori2 (pick [] pts t)).foldl max 0
  | _ => detStage k pts

/-! ## Execution (R273, R274, R280) -/

def pointCount : Predicate → Nat
  | .ori2 => 3
  | .insph => 5
  | _ => 4

def dims : Predicate → Nat
  | .ori3 | .insph => 3
  | _ => 2

/-- Addresses of a lane's points (R273). -/
def pointAddrs (k : Predicate) (x y : Word) : List Nat :=
  (List.range (pointCount k)).map fun i =>
    if i = 0 then x.toNat % 2 ^ 32
    else (((x.toNat % 2 ^ 32 : Nat) : Int) + 8 * (fld y (16 * (i - 1)) 16).toInt) % 2 ^ 32 |>.toNat

/-- Scratch place of a coordinate, or none where it fails the conditions of R95. -/
def coordAt (s : State) (q n : Nat) : Option (Nat × Nat) := do
  if 2 ^ 22 ≤ q then none
  let b ← memberBlock s (q / 2 ^ 20)
  if scratchRun b (q % 2 ^ 20) n then some (b.uid, q % 2 ^ 20) else none

/-- The coordinates of a lane's points, or none where a byte is out of range (R274). -/
def pointsOf (s : State) (k : Predicate) (ty : Ty) (qs : List Nat) : Option (List (List FVal)) :=
  let n := memWidth ty
  qs.mapM fun q => (List.range (dims k)).mapM fun j => do
    let p ← coordAt s ((q + j * n) % 2 ^ 32) n
    pure (unpack ty (BitVec.ofNat 64 (readNat (scratchOf s p.1) p.2 n)))

/-- Lanes as a list with a value each, made a row. -/
def signRow (f : Nat → Int) : Row := lanes32.map fun l => (BitVec.ofInt 64 (f l), .sign)

def predOp (k : Predicate) (p : PredArgs) (s : State) : Op := do
  let a ← readA s p.a .addr p.ty
  let act := active s p.ms
  let y ← readB s act p.b .raw p.ty
  let n := memWidth p.ty
  let qs (l : Nat) : List Nat := pointAddrs k (at_ a l).1 (at_ y l).1
  let pts (l : Nat) : Option (List (List FVal)) := pointsOf s k p.ty (qs l)
  let odd := act &&& maskOf fun l => inMask act l && (qs l).any fun q => q % n != 0
  if odd ≠ 0 then .error (.trap 0x301 (zx64 odd))
  let far := act &&& maskOf fun l => inMask act l && (fld (at_ a l).1 32 32 != 0 || (pts l).isNone)
  if far ≠ 0 then .error (.trap 0x302 (zx64 far))
  let coords (l : Nat) : List (List FVal) := (pts l).getD []
  let nb := act &&& maskOf fun l => inMask act l && (coords l).any fun c => c.any fun x => !isFin x
  if nb ≠ 0 ∧ !p.nf then .error (.trap 0x300 (zx64 nb))
  let res (l : Nat) : Int :=
    if inMask nb l then (if k = .segx then 7 else 2) else if inMask act l then predResult k p.sos (coords l) (qs l) else 0
  let stage (l : Nat) : Nat := if inMask nb l then 0 else laneStage k (coords l)
  let lanes := (lanesOf act).map fun l => (l, stage l)
  let rid := s.w.ridNext
  let s := pushPending s p.la { PendRes.of [mergeRow act p.mz (signRow res) a] .theodolite with
    ready := lanes.isEmpty, lanesLeft := lanes, stage1 := (lanes.filter fun x => decide (1 ≤ x.2)).length
    stage2 := (lanes.filter fun x => decide (2 ≤ x.2)).length } 1
  pure (enqueue s (lanes.map fun x => .theodoliteStageEnd s.w.uid rid (BitVec.ofNat 5 x.1)))

def execOri2 (p : PredArgs) (s : State) : Host.Outcome State Fault Refusal := runSeq s (predOp .ori2 p)
def execOri3 (p : PredArgs) (s : State) : Host.Outcome State Fault Refusal := runSeq s (predOp .ori3 p)
def execIncir (p : PredArgs) (s : State) : Host.Outcome State Fault Refusal := runSeq s (predOp .incir p)
def execInsph (p : PredArgs) (s : State) : Host.Outcome State Fault Refusal := runSeq s (predOp .insph p)
def execSegx (p : PredArgs) (s : State) : Host.Outcome State Fault Refusal := runSeq s (predOp .segx p)

/-- GPCLR waits for the slot's earlier predicates, ignores MS and clears both counts (R283). -/
def execGpclr (ms : BitVec 3) (s : State) : Host.Outcome State Fault Refusal :=
  match ms with
  | _ => runSeq s fun s =>
    if s.w.pend.any fun p => p.kind == .theodolite && p.slot == s.slot then .error (.stall (.pending .theodolite))
    else .ok { s with w := { s.w with gpstat := 0 } }

/-- THEODOLITE_STAGE_END: a lane finishes a stage and stops, or goes on to the next; with the last lane the entry is ready
(R277, R278). -/
def execTheodoliteStageEnd (warp rid : Nat) (lane : BitVec 5) (s : State) : Host.Outcome State Fault Refusal :=
  .next <|
    match (getWarp s warp).bind fun w => w.pend.find? fun p => p.rid == rid with
    | none => s
    | some p =>
      match p.lanesLeft.find? fun x => x.1 == lane.toNat with
      | none => s
      | some (l, n) =>
        let left := if n = 0 then p.lanesLeft.filter fun x => x.1 != l else mapIf (fun x => x.1 == l) (fun x => (x.1, n - 1)) p.lanesLeft
        let put (s : State) : State := modWarp s warp fun w =>
          { w with pend := mapIf (fun p => p.rid == rid) (fun p => { p with lanesLeft := left, ready := left.isEmpty }) w.pend }
        enqueue (put s) (if left.isEmpty then [.resultArrival warp rid] else if n = 0 then [] else [.theodoliteStageEnd warp rid lane])

end Sys2Proof.Machine
end

