-- ==== Sys2Proof/Machine/Telemetry.lean ====
section
/-! DEFINITION. Counters, rings, PC samples and disciplined time (R249 to R251, R404 to R418), with PMRD, PMCFG and TRACE. -/

namespace Sys2Proof.Machine

/-! ## Names and counts -/

/-- A count that saturates. -/
def satInc {n : Nat} (x : BitVec n) : BitVec n := if x = BitVec.allOnes n then x else x + 1

/-- Whether the VF's BAR0 and BAR2 serve requests: its TDI is in RUN, bound with an IDE stream (R331, R344). -/
def served (s : State) (vf : Nat) : Bool := (getVf s vf).any fun v => v.tdi == .run && v.ide

/-! ## Rings (R408) -/

def getRing (v : Vf) (trc : Bool) : Ring := if trc then v.trc else v.smp

def modRing (s : State) (vf : Nat) (trc : Bool) (f : Ring → Ring) : State :=
  modVf s vf fun v => if trc then { v with trc := f v.trc } else { v with smp := f v.smp }

/-- Writes one record, or drops and counts it: the ring is disabled or full, or the write faults, which stops the ring. Answers
whether it was written. -/
def ringWrite (s : State) (vf : Nat) (trc : Bool) (record : List Byte) : Bool × State :=
  match getVf s vf with
  | none => (false, s)
  | some v =>
    let r := getRing v trc
    let drop (s : State) : State := modRing s vf trc fun r => { r with drop := satInc r.drop }
    if !r.enable ∨ 2 ^ r.log2.toNat ≤ (r.tail - r.head).toNat then (false, drop s)
    else
      let va := r.base + BitVec.ofNat 64 (record.length * (r.tail.toNat % 2 ^ r.log2.toNat))
      match (if canonical va then translateClean s vf va 1 else .error 0x141) with
      | .error _ => (false, drop (modRing s vf trc fun r => { r with enable := false }))
      | .ok (k, _, _) => (true, modRing (writeGlobal (countWalk s vf va) k record) vf trc fun r => { r with tail := r.tail + 1 })

/-- RING_CFG: setting ENABLE resets TAIL and HEAD, and is ignored without the grant or with LOG2 outside 4 to 20 (R408, R418). -/
def execRingCfg (vf : Nat) (trc : Bool) (val : Word) (s : State) : Host.Outcome State Fault Refusal :=
  .next <| if !served s vf then s else modVf s vf fun v =>
    let r := getRing v trc
    let log2 : BitVec 5 := fld val 0 5
    let grant := if trc then v.policy.tpmc else v.policy.tsample
    let on := bit val 31 && grant && decide (4 ≤ log2.toNat ∧ log2.toNat ≤ 20)
    let r' := if on && !r.enable then { r with log2 := log2, enable := true, tail := 0, head := 0 }
      else { r with log2 := log2, enable := on }
    if trc then { v with trc := r' } else { v with smp := r' }

/-- RING_DROP_CLEAR (R418). -/
def execRingDropClear (vf : Nat) (trc : Bool) (val : Word) (s : State) : Host.Outcome State Fault Refusal :=
  .next (if served s vf && bit val 63 then modRing s vf trc fun r => { r with drop := 0 } else s)

/-! ## PMRD, PMCFG, TRACE (R251, R409 to R411) -/

def execPmrd (sd : BitVec 5) (n : SOp2) (s : State) : Host.Outcome State Fault Refusal :=
  runSeq s fun s => do
    let v := (getVf s s.b.vf).map (·.counters)
    let at' (i : Nat) : Word := (v.getD []).getD i 0
    match n with
    | .imm k => if 64 ≤ k.toNat then .error (.trap 0x001 ((encode (.pmrd sd n)).getD 0)) else pure (setScal s sd (at' k.toNat))
    | .reg a => pure (setScal s sd (if fld (scal s a) 6 58 = 0 then at' (scal s a).toNat else 0))

/-- Whether the policy of the block's VF grants counters and tracing (Table 19-10). -/
def tpmcGranted (s : State) : Bool := ((getVf s s.b.vf).map fun v => v.policy.tpmc).getD false

/-- PMCFG assigns the event selector and clears the counter; a counter number of 64 or more names none (log entry 13). -/
def execPmcfg (sa : BitVec 5) (n : BitVec 16) (s : State) : Host.Outcome State Fault Refusal :=
  runSeq s fun s =>
    if !tpmcGranted s then .error (.trap 0x340 ((encode (.pmcfg sa n)).getD 0))
    else if 64 ≤ n.toNat then .ok (sealWarp s)
    else .ok (modVf (sealWarp s) s.b.vf fun v => { v with
      counters := setAt v.counters n.toNat 0, selectors := setAt v.selectors n.toNat (fld (scal s sa) 0 8) })

/-- TRACE appends a record of Table 22-6, or drops it, and never waits (R409). -/
def execTrace (sa : BitVec 5) (t : BitVec 16) (s : State) : Host.Outcome State Fault Refusal :=
  runSeq s fun s =>
    if !tpmcGranted s then .error (.trap 0x340 ((encode (.trace sa t)).getD 0))
    else
      .ok (ringWrite (sealWarp s) s.b.vf true (toBytes 8 (gtime s).toNat ++ toBytes 8 (scal s sa).toNat ++ toBytes 2 t.toNat ++ toBytes 2 0 ++
        toBytes 4 s.w.ident.toNat ++ toBytes 8 (cur s).pc.toNat)).2

/-! ## PC samples (R405 to R407) -/

/-- The code of a wait for a pending entry. -/
def pendCode : PendKind → Nat
  | .memory => 0x0B | .theodolite => 0x0C | .other => 0x0D

/-- The place of a warp's quadrant: die, core, quadrant. -/
abbrev QuadKey := Nat × Nat × Nat

def quadOf (s : State) (w : Warp) : QuadKey :=
  match getBlock s w.block with
  | some b => (b.die, b.core, w.quadrant)
  | none => (0, 0, w.quadrant)

def quadRec (s : State) (k : QuadKey) : Quadrant :=
  (s.quadrants.find? fun q => q.die == k.1 && q.core == k.2.1 && q.quad == k.2.2).getD
    { die := k.1, core := k.2.1, quad := k.2.2, granted := false, at_ := 0, last := [31, 31, 31, 31], sampled := 31 }

/-- Whether a slot was granted and issued in the cycle before: its quadrant granted then, and it is the agent that acted last. -/
def issuedNow (s : State) (w : Warp) (p : PcSlot) : Bool :=
  let q := quadRec s (quadOf s w)
  q.granted && q.at_ + 1 == s.cycle && w.uid == s.w.uid && p == s.slot && !s.onStream

/-- Whether a block's stream entry waits to re-enter the table: until it is back no warp of the block issues (R271). -/
def streamAway (s : State) (b : Block) : Bool := s.footprints.any fun e => e.block == b.uid && e.job == none && e.waiting

/-- The code of a slot that may issue and did not: the model times no fetch and no unit, so which of FETCH, UNIT_BUSY and NOT_SELECTED it
is is a free value (log entry 13). -/
def idleCode (f : Word) : Nat := [0x14, 0x15, 0x16].getD (f.toNat % 3) 0x16

/-- The stall reason of a slot that is not FREE (Table 22-1), with a free value where the model leaves it open. -/
def stallCode (s : State) (f : Word) (w : Warp) (p : PcSlot) : Nat :=
  let x := slotOf w p
  if issuedNow s w p then 0x00
  else
  match x.st with
  | .yielded => 0x01
  | .joinwait _ _ _ => 0x02
  | .wait r =>
    match r with
    | .barwt => 0x03
    | .swait => 0x04
    | .fifoFull => 0x05
    | .fifoEmpty => 0x06
    | .apopEmpty => 0x07
    | .waitdep => 0x08
    | .bankcfg => 0x09
    | .pending k => pendCode k
    | .home => 0x0B
    | .drain => 0x0E
    | .fence => 0x0F
    | .guard => 0x10
    | .jobLimit | .footprint => 0x11
    | .qos => 0x12
    | .spill => 0x13
  | .free | .run => if x.yielding then 0x0A else if (getBlock s w.block).any (streamAway s) then 0x11 else idleCode f

def keyLe (a b : QuadKey) : Bool :=
  decide (a.1 < b.1) || (a.1 == b.1 && (decide (a.2.1 < b.2.1) || (a.2.1 == b.2.1 && decide (a.2.2 ≤ b.2.2))))

/-- Inserts a key into a rising list without repeats. -/
def insertKey (k : QuadKey) : List QuadKey → List QuadKey
  | [] => [k]
  | x :: xs => if k = x then x :: xs else if keyLe k x then k :: x :: xs else x :: insertKey k xs

/-- Replaces a quadrant's record, which moves to the end of the list. -/
def putQuad (s : State) (q : Quadrant) : State :=
  { s with quadrants := (s.quadrants.filter fun x => !(x.die == q.die && x.core == q.core && x.quad == q.quad)) ++ [q] }

/-- The place of a slot among the 32 of its quadrant. -/
def slotIndex (w : Warp) (p : PcSlot) : Nat := w.index * 2 + (if p = .b then 1 else 0)

/-- The slots of a VF that are not FREE, of blocks that run (R405). -/
def vfSlots (s : State) (vf : Nat) : List (Warp × PcSlot) :=
  (allWarps s).flatMap fun w =>
    if w.uid != 0 && (getBlock s w.block).any fun b => b.vf == vf && b.st == .running then
      ([PcSlot.a, .b].filter fun p => (slotOf w p).st != .free).map fun p => (w, p)
    else []

/-- The slot whose index follows `from_` first, going round the 32. -/
def nextAfter (from_ : Nat) (xs : List (Warp × PcSlot)) : Option (Warp × PcSlot) :=
  let dist (x : Warp × PcSlot) : Nat := (slotIndex x.1 x.2 + 31 - from_ % 32) % 32
  xs.foldl (fun a x => match a with | none => some x | some y => if dist x < dist y then some x else some y) none

/-- A sampling record (Table 22-2). -/
def sampleRecord (s : State) (w : Warp) (p : PcSlot) (reason : Nat) : List Byte :=
  let x := slotOf w p
  toBytes 6 x.pc.toNat ++ toBytes 1 (reason + (if p = .b then 64 else 0) + (if x.handler.isSome then 128 else 0)) ++ [0] ++
    toBytes 4 w.ident.toNat ++ toBytes 4 (gtime s).toNat

/-- One quadrant's sample of a VF. -/
def sampleQuad (part vf : Nat) (s : State) (k : QuadKey) : State :=
  let q := quadRec s k
  match nextAfter q.sampled ((vfSlots s vf).filter fun x => quadOf s x.1 == k) with
  | none => s
  | some (w, p) =>
    let (f, s) := drawFree s
    let r := stallCode s f w p
    let here (x : Quadrant) : Bool := x.die == k.1 && x.core == k.2.1 && x.quad == k.2.2
    let qs := if s.quadrants.any here then mapIf here (fun x => { x with sampled := slotIndex w p }) s.quadrants
      else { q with sampled := slotIndex w p } :: s.quadrants
    let s := { s with quadrants := qs }
    let granted := ((getVf s vf).map fun v => v.policy.tsample).getD false
    let (written, s) := if granted then ringWrite s vf false (sampleRecord s w p r) else (false, s)
    let s := if granted then countEvent s vf (0x40 + r) 1 else s
    let s := countPage (countPage s part 10 1) part (32 + r) 1
    if written then s else countPage s part 11 1

/-- SAMPLE: every quadrant of the partition samples the next qualifying slot of the running VF, in ascending die, core and
quadrant order (R405, R408). -/
def execSample (part : Nat) (s : State) : Host.Outcome State Fault Refusal :=
  .next <|
    let p := getPart s part
    if p.smpN = 0 ∨ p.vfnum = 0 then s
    else
      let keys := (vfSlots s p.vfnum).foldl (fun ks x => insertKey (quadOf s x.1) ks) []
      keys.foldl (sampleQuad part p.vfnum) s

/-- COUNTER_REFRESH: the page takes the counts, and UPDATED the time (R412). -/
def execCounterRefresh (part : Nat) (s : State) : Host.Outcome State Fault Refusal :=
  .next (modPart s part fun p => { p with page := setPageWord p.live 12 (gtime s) })

/-! ## Disciplined time (R414, R415) -/

/-- An offset in the saturating 32-bit field of TIM.STAT. -/
def satOffset (n : Int) : BitVec 32 :=
  BitVec.ofInt 32 (if n < -(2 ^ 31 : Nat) then -(2 ^ 31 : Nat) else if (2 ^ 31 : Nat) ≤ n then (2 ^ 31 - 1 : Nat) else n)

/-- Whether a message comes by the configured source, port, transport and domain (R414, Table 22-4). -/
def validMessage (t : Tim) (domain : BitVec 8) (m : PtpSource) : Bool :=
  t.src != 0 && m.src == t.src && domain == t.domain && m.xport == t.xport && (t.src != 2 || m.port == t.port)

/-- Cycles in 4 s. -/
abbrev holdoverCycles : Nat := 10800000000

def isHoldover : Instr → Bool
  | .holdover => true
  | _ => false

/-- PTP_MESSAGE: a valid message, of one or two steps, with the path delay that either mechanism has measured, gives the offset; one
above 1 ms steps the clock forward, any other is slewed (log entry 14). -/
def execPtpMessage (domain : BitVec 8) (source : PtpSource) (time : PtpTime) (s : State) : Host.Outcome State Fault Refusal :=
  .next <|
    if !validMessage s.tim domain source then s
    else
      let off : Int := (time.master.toNat : Int) + time.delay.toNat - (gtime s).toNat
      let s := after { s with timers := s.timers.filter fun t => !isHoldover t.2 } holdoverCycles .holdover
      let t := { s.tim with holdover := false, offset := satOffset off, frac := 0, free := 0, heard := some s.cycle }
      if 1000000 < off then { s with timeBase := s.timeBase + off, tim := { t with locked := true, slew := 0 } }
      else { s with tim := { t with locked := decide (-25 ≤ off ∧ off ≤ 25), slew := off } }

/-- HOLDOVER: no valid message for 4 s; the clock free-runs at its last corrected rate (R415, log entry 14). -/
def execHoldover (s : State) : Host.Outcome State Fault Refusal :=
  .next <|
    match s.tim.heard with
    | none => s
    | some c =>
      if s.cycle < c + holdoverCycles then s
      else { s with tim := { s.tim with
        locked := false, holdover := true, slew := 0, frac := 0, free := if s.tim.holdover then s.tim.free else s.tim.slew.sign } }

/-- One cycle of the clock: a rate off the nominal moves %gtime by 1 ns for 27000 cycles, 100 ppm, and backward only in a cycle in
which %gtime advances, so that it never decreases (R415). -/
def tickClock (s : State) : State :=
  let t := s.tim
  let advances := decide (s.cycle * 10 / 27 < (s.cycle + 1) * 10 / 27)
  let rate := if t.holdover then t.free else t.slew.sign
  let s := { s with cycle := s.cycle + 1 }
  if rate = 0 then s
  else if t.frac < 26999 then { s with tim := { t with frac := t.frac + 1 } }
  else if rate < 0 ∧ !advances then s
  else { s with timeBase := s.timeBase + rate, tim := { t with slew := t.slew - t.slew.sign, frac := 0 } }

end Sys2Proof.Machine
end

