-- ==== Sys2Proof/Machine/System.lean ====
section
/-! DEFINITION. INVPG and INVALL (R250, R378). -/

namespace Sys2Proof.Machine

/-- Drops the cached translations of a VF that p selects by 4 KiB page. -/
def dropXlat (s : State) (vf : Nat) (p : Nat → Bool) : State :=
  modVf s vf fun v => { v with trn := { v.trn with tlb := v.trn.tlb.filter fun t => !p t.1 } }

/-- INVPG: the translations of the largest leaf that can hold the page go, which takes in the whole leaf (R378). The slot's
earlier stores have performed first, so that walks that follow observe them (R250, R377). -/
def execInvpg (ms : BitVec 3) (addr : Src) (off : BitVec 16) (s : State) : Host.Outcome State Fault Refusal :=
  runSeq s fun s => do
    let m := active s ms
    let a ← readB s m addr .addr .raw
    let vas := (lanesOf m).map fun l => addOff (at_ a l).1 off
    match vas.find? fun va => !canonical va with
    | some va => .error (.trap 0x141 va)
    | none =>
      let s ← released .home s
      pure (dropXlat s s.b.vf fun t => vas.any fun va => va.toNat / 2 ^ 30 == t / 2 ^ 18)

def execInvall (ms : BitVec 3) (s : State) : Host.Outcome State Fault Refusal :=
  match ms with
  | _ => runSeq s fun s => do let s ← released .home s; pure (dropXlat s s.b.vf fun _ => true)

end Sys2Proof.Machine
end

