-- ==== Sys2Proof/Machine/Dispatcher.lean ====
section
/-! DEFINITION. The dispatcher: launch records and their checks, LAUNCH, WAITDEP and TRIG, placement and its events, completion of
launches, uncorrectable errors (R19 to R24, R34, R37, R187 to R190, R311 to R314, R334, R386, R419). -/

namespace Sys2Proof.Machine

/-! ## Room on a core (R9, R12, R22, R89, R98, R353) -/

def blocksOn (s : State) (d c : Nat) : List Block := (allBlocks s).filter fun b => b.uid != 0 && b.die == d && b.core == c

/-- Queue-file entries that a block of a kernel reserves (R22). -/
def queueRows (k : Kernel) : Nat := k.warps * 32 * (k.depth + k.frame)

/-- Entries of suspended activations held on a core (R66). -/
def callRows (s : State) (bs : List Block) : Nat :=
  ((allWarps s).filter fun w => bs.any fun b => b.uid == w.block).foldl
    (fun n w => n + (w.acts.filter fun a => !a.spilled).foldl (fun n a => n + 32 * (w.depth + a.callerF)) 0) 0

/-- First base in [lo, hi) of a free run of n places, taken runs given as base and length. -/
def freeRun (taken : List (Nat × Nat)) (lo hi n : Nat) : Option Nat :=
  if n = 0 then some lo
  else ((List.range (hi + 1 - lo - n)).map (· + lo)).find? fun b => taken.all fun t => decide (t.1 + t.2 ≤ b) || decide (b + n ≤ t.1)

/-- Whether a core is in service: not removed, its cluster not disabled (R387, R432). -/
def inService (s : State) (d c : Nat) : Bool :=
  decide (d < 8) && decide (c < 144) && !(getDie s d).coreOff.getLsbD c && !(getDie s d).clusterOff.getLsbD (c / 4)

/-- Whether a block's rows, with `own` of suspended activations, its warps, sequencer context and tiles fit beside those that hold theirs
(R9, R12, R22). -/
def shareFits (s : State) (live : List Block) (k : Kernel) (own : Nat) : Bool :=
  let streams := live.filter fun b => b.kernel.ntiles != 0
  decide (live.length < 16) && decide (live.foldl (fun n b => n + queueRows b.kernel) 0 + callRows s live + queueRows k + own ≤ 65536) &&
    decide (live.foldl (fun n b => n + b.kernel.warps) 0 + k.warps ≤ 64) &&
    (k.ntiles == 0 || decide (streams.length < 4 ∧ streams.foldl (fun n b => n + b.kernel.ntiles) 0 + k.ntiles ≤ 4))

/-- Whether a gang is EVICTED; its DRAINING blocks keep their state (R24). -/
def gangEvicted (s : State) (g : Nat) : Bool := (getGang s g).any fun g => g.st == .evicted

/-- Blocks of a core that hold time-shared resources, the gangs of `gone` evicted (R386). -/
def liveOn (s : State) (d c : Nat) (gone : List Nat) : List Block :=
  (blocksOn s d c).filter fun b => !gangEvicted s b.gang && !gone.contains b.gang

/-- Warp slots of a core that the warps of some blocks have: place n is quadrant n mod 4, index n div 4. -/
def placesOf (s : State) (bs : List Block) : List Nat :=
  ((allWarps s).filter fun w => w.uid != 0 && bs.any fun b => b.uid == w.block).map fun w => w.index * 4 + w.quadrant

/-- Free warp slots of a core, numbered index first: those that neither a live block has, the gangs of `gone` evicted, nor an
evicted block of the same VF, whose warps keep their IDs (R404, R434). -/
def freePlaces (s : State) (vf d c : Nat) (gone : List Nat) : List Nat :=
  let own := (blocksOn s d c).filter fun b => b.vf == vf
  let used := placesOf s (liveOn s d c gone ++ own)
  (List.range 64).filter fun n => !used.contains n

/-- Bank window base and B-plane base for a block of a kernel on a core, where it fits with its `own` rows of suspended activations (R22,
R89, R98, R353). -/
def roomOn (s : State) (v : Vf) (k : Kernel) (own : Nat) (gone : List Nat) (d c : Nat) : Option (Nat × Nat) :=
  let bs := blocksOn s d c
  let lo := v.policy.bankBase
  let hi := lo + v.policy.bankCount
  let foreign := bs.any fun b => b.vf != v.number && b.bankModes.length != 0 &&
    decide (b.windowBase < hi ∧ lo < b.windowBase + b.bankModes.length)
  let used := (bs.filter fun b => b.vf == v.number).foldl (fun n b => n + b.kernel.bplane) 0
  let slots := decide (k.warps ≤ (freePlaces s v.number d c gone).length)
  if !inService s d c || !shareFits s (liveOn s d c gone) k own || !slots || foreign || decide (v.policy.bplaneKib < used + k.bplane) then none
  else do
    let w ← freeRun (bs.map fun b => (b.windowBase, b.bankModes.length)) lo hi k.window
    let p ← freeRun (bs.map fun b => (b.bplaneBase, b.kernel.bplane)) 0 32 k.bplane
    pure (w, p)

/-! ## Lazy eviction (R386) and context sizes (Table 19-14, log entry 15) -/

/-- Bytes of a block's state in a context area, without its banks. -/
def contextBytes (b : Block) : Nat :=
  b.kernel.warps * (512 + 272 * (b.kernel.depth + b.kernel.frame)) + 5120 + 128 + 64 * b.jobs.length + 65536 * b.kernel.ntiles

/-- Bytes of its banks and B-plane window. -/
def bankBytes (b : Block) : Nat :=
  4096 * (b.bankModes.filter fun m => m == .scratch || m == .fifo).length + 65536 * b.kernel.bplane

def gangBlocks (s : State) (g : Nat) : List Block := (allBlocks s).filter fun b => b.uid != 0 && b.gang == g

/-- Bytes of a gang's part of a context area: header with tag and sequence, its blocks, and their banks where it leaves its cores. -/
def partBytes (s : State) (g : Nat) (banks : Bool) : Nat :=
  (gangBlocks s g).foldl (fun n b => n + contextBytes b + if banks then bankBytes b else 0) 64

/-- Bytes of a VF's whole state (Table 19-14). -/
def contextSize (s : State) (vf : Nat) : Nat :=
  ((allBlocks s).filter fun b => b.uid != 0 && b.vf == vf).foldl (fun n b => n + contextBytes b + bankBytes b) 64

/-- A VF with room reserved for gangs in its context area, where there is room. -/
def reserveArea (s : State) : List Nat → Vf → Option Vf
  | [], v => some v
  | g :: gs, v => do
    let n := partBytes s g false
    let a ← areaSlot v n
    reserveArea s gs { v with ctx := v.ctx ++ [{ gang := some g, slot := none, off := a, len := n, num := 0 }] }

/-- Whether a VF's context area takes one more gang beside what it holds and those of `taken`. -/
def contextRoom (s : State) (taken : List Nat) (g : Gang) : Bool :=
  let mine := taken.filter fun u => (getGang s u).any fun x => x.vf == g.vf
  (getVf s g.vf).any fun v => (reserveArea s (mine ++ [g.uid]) v).isSome

/-- Gangs whose rows a VF may claim on a core beside those of `gone`, least recently run first: the list of gangs is in that order. One
whose context area has no room left is passed over. -/
def victims (s : State) (vf d c : Nat) (gone : List Nat) : List Nat :=
  let on := s.gangs.filter fun g =>
    g.vf != vf && g.st == .switched && !gone.contains g.uid && (gangBlocks s g.uid).any fun b => b.die == d && b.core == c
  (on.foldl (fun taken g => if contextRoom s taken g then taken ++ [g.uid] else taken) gone).drop gone.length

/-- Core by core, the fewest victims of the core, in order, whose rows make `fits` hold there: free rows are taken first (R386). Beside
`gone` the list of gangs claimed. -/
def claimFor (s : State) (vf d : Nat) (fits : List Nat → Nat → Bool) : List Nat → List Nat → Option (List Nat)
  | [], gone => some gone
  | c :: cs, gone =>
    let vs := victims s vf d c gone
    match ((List.range (vs.length + 1)).map fun n => gone ++ vs.take n).find? fun gone => fits gone c with
    | some gone => claimFor s vf d fits cs gone
    | none => none

/-- A block's state when its gang moves: a DRAINING block stays DRAINING (R24). -/
def moveSt (b : Block) (st : BlockState) : BlockState := if b.st = .draining then .draining else st

/-- The part that holds a gang's state, with its VF. -/
def gangPart (s : State) (g : Gang) : Option (Vf × CtxPart) := do
  let v ← getVf s g.vf
  let p ← v.ctx.find? fun p => p.gang == some g.uid
  pure (v, p)

/-- Writes a gang's state to its VF's context area, with its banks where it leaves its cores, where the area has room and does not hold
it. -/
def sealGang (s : State) (u : Nat) (banks : Bool) : State :=
  match (getGang s u).bind fun g => (getVf s g.vf).map fun v => (g, v) with
  | none => s
  | some (g, v) =>
    let n := partBytes s u banks
    match areaSlot v n with
    | some off => if (gangPart s g).isSome then s else sealPart s v (some u) none off n (contextOf s v fun b => b.gang == u)
    | none => s

/-- A gang's state has been read back: its part is free. -/
def openGang (s : State) (g : Gang) : State := modVf s g.vf fun v => { v with ctx := v.ctx.filter fun p => p.gang != some g.uid }

/-- A part whose tag fails aborts its gang with the context area's error, at the VF physical address of the part, which is the block
that the tag covers (R47, R386). -/
def tornPart (s : State) (g : Gang) : Option State :=
  match gangPart s g with
  | none => none
  | some (v, p) =>
    if partIntact s v p then none
    else some (enqueue (openGang s g) [.uncorrectableError 15 (.gang g.uid) (BitVec.ofNat 64 (areaBase v + p.off))])

/-- Claims the rows of gangs: each is written to its VF's context area, and is EVICTED (R386). -/
def evictGangs (s : State) (gs : List Nat) : State :=
  let s := gs.foldl (fun s u => sealGang s u false) s
  let s := mapBlocks s fun b => if b.uid != 0 && gs.contains b.gang then { b with st := moveSt b .evicted } else b
  { s with gangs := mapIf (fun g => gs.contains g.uid) (fun g => { g with st := .evicted }) s.gangs }

/-! ## Positions (R21, R313) -/

/-- Core groups of a cluster that a gang of n takes. -/
def groupsOf : Nat → List (List Nat)
  | 1 => [[0], [1], [2], [3]]
  | 2 => [[0, 1], [2, 3]]
  | _ => [[0, 1, 2, 3]]

/-- Dies in the order tried: from the one after the previous gang's, wrapping around. -/
def dieOrder (ds : List Nat) : Option Nat → List Nat
  | none => ds
  | some x => ds.filter (fun d => decide (x < d)) ++ ds.filter fun d => decide (d ≤ x)

/-- A place for a gang: die, cores, window and B-plane bases by member, gangs to evict. -/
abbrev GangPlace := Nat × List Nat × List (Nat × Nat) × List Nat

/-- The place on a group of cores of a cluster, where it has room; `own` lists rows of suspended activations by member. -/
def placeAt (s : State) (v : Vf) (k : Kernel) (own : List Nat) (d cl : Nat) (grp : List Nat) : Option GangPlace := do
  let cores := grp.map fun o => 4 * cl + o
  let room (gone : List Nat) (c : Nat) : Option (Nat × Nat) := roomOn s v k (own.getD (cores.idxOf c) 0) gone d c
  let gone ← claimFor s v.number d (fun gone c => (room gone c).isSome) cores []
  let rooms ← cores.mapM fun c => room gone c
  pure (d, cores, rooms, gone)

def findPlace (s : State) (v : Vf) (k : Kernel) (own dies : List Nat) : Option GangPlace :=
  dies.findSome? fun d => (List.range 36).findSome? fun cl => (groupsOf k.gang).findSome? fun grp => placeAt s v k own d cl grp

/-! ## From header to running warp (R59, R62, R63, R90, R174, R252, R311, R312, R434) -/

/-- Values of Table 03-7 for one warp. -/
def preloadOf (k : Kernel) (l : Launch) (b : Block) (gangNo num : Nat) : List Entry :=
  let n (v : Nat) : Entry := ⟨BitVec.ofNat 64 v, .n32, none⟩
  let slots : List (Nat × List Entry) :=
    [(0, [n b.x]), (1, [n b.y]), (2, [n b.z]), (3, [n num]), (4, [⟨BitVec.ofNat 64 gangNo, .n64, none⟩]), (5, [n b.member]), (6, [n b.die]),
      (7, [n b.core]), (8, [n l.gx, n l.gy, n l.gz])]
  slots.flatMap fun p => if k.preload.getLsbD p.1 then p.2 else []

/-- A kernel needs stack slots when it declares more than two records or a call stack (R312). -/
def needsStack (k : Kernel) : Bool := decide (2 < k.ndiv) || decide (0 < k.callstk)

/-- Stack slots of a kernel's arena that no warp holds. -/
def freeStacks (s : State) (k : Kernel) : List Nat :=
  let used := (allWarps s).filterMap fun w =>
    match getBlock s w.block with
    | some b => if b.kernel.handle = k.handle ∧ b.vf = k.vf then w.stackSlot else none
    | none => none
  (List.range k.stkSlots).filter fun i => !used.contains i

/-- The VF-local warp ID of a place on a core (R404). -/
def warpIdent (die core place : Nat) : BitVec 32 := BitVec.ofNat 32 (place % 4 * 16 + place / 4 + core * 64 + die * 2 ^ 14)

/-- A warp at launch. -/
def newWarp (k : Kernel) (l : Launch) (b : Block) (gangNo uid num place : Nat) (stack : Option Nat) : Warp :=
  let pre := preloadOf k l b gangNo num
  let frame := (pre ++ List.replicate k.frame Entry.poison).take k.frame
  { Warp.empty with
      uid := uid, block := b.uid, num := num, quadrant := place % 4, index := place / 4, ident := warpIdent b.die b.core place, prio := k.prio, depth := k.depth
      lanes := List.replicate 32 { queue := List.replicate k.depth .poison, frame := frame, rngctr := 0 }
      scalars := l.args :: List.replicate 31 0
      mode := (if k.strict && k.stepping == 0x00A1 then 0x100 else 0) ||| k.mode.setWidth 9
      stake := { Stake.empty with pc := codeBase k, mask := BitVec.allOnes 32 }
      slotA := { Slot.empty with pc := codeBase k, mask := BitVec.allOnes 32, st := .run }
      stackSlot := stack }

/-- A block at placement. -/
def newBlock (v : Vf) (k : Kernel) (l : Launch) (uid gang gangNo member die core window bplane : Nat) : Block :=
  let i := gangNo * k.gang + member
  let modes := k.bankmap.take k.window
  { Block.empty with
      uid := uid, vf := v.number, part := v.part, launch := l.id, gang := gang, member := member, x := i % l.gx, y := i / l.gx % l.gy
      z := i / (l.gx * l.gy), die := die, core := core, st := .running, kernel := k, args := l.args, windowBase := window
      bankModes := modes, scratchOrder := (List.range modes.length).filter fun n => modes.getD n .off == .scratch
      fifos := (List.range 8).filterMap fun f =>
        if k.fifomask.getLsbD f then
          let r := k.fiforun.getD f (0, 0)
          some { id := f, first := r.1, last := r.2, cap := 512 * (r.2 + 1 - r.1), elems := [] }
        else none
      bplaneBase := bplane, tiles := List.replicate k.ntiles { words := [], flag := false }
      stream := k.matrix.map fun m =>
        { entry := codeBase k + BitVec.ofNat 64 m, pc := codeBase k + BitVec.ofNat 64 m, step := 0, loops := [], phases := 0, began := false
          descA := [], descB := [], wait := .none, turn := 0, ended := false, fault := none, reported := false, paused := false } }

/-- Adds one block of a gang with its warps. -/
def addBlock (v : Vf) (k : Kernel) (l : Launch) (gang gangNo die : Nat) (s : State) (m : Nat × Nat × Nat × Nat) : State :=
  let (member, core, window, bplane) := m
  let places := freePlaces s v.number die core []
  let arena := if needsStack k then (freeStacks s k).map some else List.replicate k.warps none
  let b := newBlock v k l s.nextId gang gangNo member die core window bplane
  let ws := (List.range k.warps).map fun n => newWarp k l b gangNo (s.nextId + 1 + n) n (places.getD n 0) (arena.getD n none)
  { s with blocks := s.blocks ++ [b], warps := s.warps ++ ws, nextId := s.nextId + 1 + k.warps
           gangs := mapIf (fun g => g.uid == gang) (fun g => { g with blocks := g.blocks ++ [b.uid] }) s.gangs }

/-- What retired blocks have left in the banks of some cores of a die is gone: other blocks stand there now (R24). -/
def clearRemains (s : State) (die : Nat) (cores : List Nat) : State :=
  { s with remains := s.remains.filter fun b => !(b.die == die && cores.contains b.core) }

/-- Reserves, preloads, poisons and starts a gang at a place (R22, R17). -/
def startGang (s : State) (v : Vf) (k : Kernel) (l : Launch) (gangNo : Nat) (p : GangPlace) : State :=
  let (die, cores, rooms, gone) := p
  let s := clearRemains (evictGangs s gone) die cores
  let (uid, s) := freshId s
  let s := { s with gangs := s.gangs ++ [{ uid := uid, vf := v.number, launch := l.id, number := gangNo, st := .running, blocks := [], barMarks := [] }] }
  let s := (cores.zip rooms).zipIdx.foldl (fun s x => addBlock v k l uid gangNo die s (x.2, x.1.1, x.1.2.1, x.1.2.2)) s
  modLaunch s v.number l.id fun l => { l with lastDie := some die }

/-! ## Which gang is placed next (R20, R23, R37, R383) -/

/-- Gangs of a launch. -/
def gangTotal (l : Launch) : Nat := l.gx * l.gy * l.gz / max 1 l.gang

/-- The next gang of a launch to be placed: those to be relaunched first, in ascending number (R37, R313). -/
def nextGang (l : Launch) : Option Nat :=
  match l.relaunch with
  | g :: gs => some (gs.foldl min g)
  | [] => if l.nextGang < gangTotal l then some l.nextGang else none

/-- A cooperative launch that has not been placed. -/
def unplacedCoop (l : Launch) : Bool := l.coop && l.nextGang == 0 && !l.aborted && !l.completed

def getKernel (s : State) (vf : Nat) (h : Word) : Option Kernel := s.kernels.find? fun k => k.vf == vf && k.handle == h

/-- Dies of a partition that a launch permits (R187). -/
def launchDies (s : State) (part : Nat) (l : Launch) : List Nat := (partDies s part).filter fun d => l.dieMask.getLsbD d

/-- Warps of a VF on a die that a tick has not saved yet. -/
def unsaved (s : State) (vf die : Nat) : Bool :=
  (allWarps s).any fun w => w.uid != 0 && !w.saved && (getBlock s w.block).any fun b => b.vf == vf && b.die == die && b.st == .switched

/-- Whether a die has still to save a VF of an earlier tick; the incoming VF's work waits for it there (R385). -/
def dieHeld (s : State) (x : Slice) (die : Nat) : Bool := x.before.any fun t => unsaved s t.vf die

/-- Whether the hand-over of a die is over: it has reported the outgoing VF, and saves no earlier one (R384, R385). -/
def dieOpen (s : State) (x : Slice) (die : Nat) : Bool := x.saved.getLsbD die && !dieHeld s x die

/-- Dies on which a VF may place now: not those that the hand-over still holds (R385), and not those kept for the oldest waiting
cooperative launch (R23). -/
def openDies (s : State) (v : Vf) (l : Launch) : List Nat :=
  let p := getPart s v.part
  let kept : List Nat := match p.coop with
    | some (f, id) => if f = l.vf ∧ id = l.id then [] else (((getLaunch s f id).filter unplacedCoop).map (launchDies s v.part)).getD []
    | none => []
  let late (d : Nat) : Bool := p.slice.any fun x => !dieOpen s x d
  (launchDies s v.part l).filter fun d => !kept.contains d && !late d

/-- Places the next gang of a launch, or none. -/
def placeNext (s : State) (v : Vf) (l : Launch) : Option State := do
  let k ← getKernel s v.number l.kobj
  let g ← nextGang l
  if needsStack k ∧ (freeStacks s k).length < k.warps * k.gang then none
  let p ← findPlace s v k [] (dieOrder (openDies s v l) (if g = 0 then none else l.lastDie))
  let s := startGang s v k l g p
  pure (modLaunch s v.number l.id fun l => match l.relaunch with
    | _ :: _ => { l with relaunch := l.relaunch.filter (· != g) }
    | [] => { l with nextGang := l.nextGang + 1 })

/-- Places every gang of a cooperative launch, or none of them (R17, R23). -/
def placeAll (v : Vf) (id : Nat) : Nat → State → Option State
  | 0, s => some s
  | n + 1, s => do
    let l ← getLaunch s v.number id
    placeAll v id n (← placeNext s v l)

/-- A cooperative launch no longer waits: what it held up is placed again, and the next oldest may have waited 1 ms (R23). -/
def endCoop (s : State) (part vf id : Nat) : State :=
  enqueue (modPart s part fun p => if p.coop = some (vf, id) then { p with coop := none } else p) [.coopWaitExpiry part]

def placeLaunch (s : State) (v : Vf) (l : Launch) : Option State :=
  if l.aborted || l.completed || (nextGang l).isNone || (l.deps.any fun d => (getLaunch s v.number d).any unplacedCoop) then none
  else if unplacedCoop l then
    (placeAll v l.id (gangTotal l) s).map fun s => endCoop s v.part v.number l.id
  else placeNext s v l

/-- The running VF of a partition (R383). -/
def placingVf (s : State) (part : Nat) : Option Vf := do
  let p := getPart s part
  let v ← getVf s p.vfnum
  if p.run && p.vfnum != 0 && v.st == .running then some v else none

/-- Whether the dispatcher places new gangs of a VF: at most 256 of its completions wait (R334). -/
def placesNew (v : Vf) : Bool := decide (v.hif.waiting.length ≤ 256)

/-! ## Moving a gang to other cores (R16, R94, R364, R372, R387) -/

/-- Die number of a block that stands on no core: its state is in its VF's context area. -/
def noDie : Nat := 8

/-- Takes a gang's blocks off their cores; its state is in its VF's context area. -/
def unplaceGang (s : State) (g : Gang) : State :=
  let s := mapBlocks s fun b =>
    if b.uid != 0 && b.gang == g.uid then { b with die := noDie, core := 0, st := moveSt b .evicted, l1 := [] } else b
  modGang s g.uid fun g => { g with st := .evicted }

/-- Puts one block of a moved gang on a core, with free warp slots there; its footprint entries go to that core's cluster. -/
def settleBlock (die : Nat) (s : State) (x : Block × Nat × Nat × Nat) : State :=
  let (b, core, window, bplane) := x
  let places := freePlaces s b.vf die core []
  let s := mapWarps s fun w =>
    let n := places.getD w.num 0
    if w.uid != 0 && w.block == b.uid then { w with quadrant := n % 4, index := n / 4, ident := warpIdent die core n } else w
  let s := { s with footprints := mapIf (fun e => e.block == b.uid) (fun e => { e with die := die, cluster := core / 4 }) s.footprints }
  modBlock s b.uid fun b => { b with die := die, core := core, windowBase := window, bplaneBase := bplane, st := moveSt b .switched }

/-- The die after which R313 begins for a gang: that of the launch's previous gang, where it stands, or which received it. -/
def prevDie (s : State) (g : Gang) : Option Nat :=
  if g.number = 0 then none
  else
    let prev := s.gangs.find? fun x => x.vf == g.vf && x.launch == g.launch && x.number + 1 == g.number
    match (prev.bind fun x => (gangBlocks s x.uid).head?).map (·.die) with
    | some d => some d
    | none => (getLaunch s g.vf g.launch).bind (·.lastDie)

/-- Places a gang that has its state again, as a whole, under R22 on some dies in the order of R313: it is SWITCHED on its new cores. -/
def moveGang (s : State) (v : Vf) (dies : List Nat) (g : Gang) : Option State := do
  let bs := gangBlocks s g.uid
  let members ← (List.range bs.length).mapM fun m => bs.find? fun b => b.member == m
  let b ← members.head?
  let order := dieOrder dies (prevDie s g)
  let s := unplaceGang s g
  let (die, cores, rooms, gone) ← findPlace s v b.kernel (members.map fun b => callRows s [b]) order
  let s := clearRemains (evictGangs s gone) die cores
  let s := (members.zip (cores.zip rooms)).foldl (fun s x => settleBlock die s (x.1, x.2.1, x.2.2.1, x.2.2.2)) s
  pure (modGang s g.uid fun g => { g with st := .switched })

def unplaced (s : State) (g : Gang) : Bool := (gangBlocks s g.uid).any fun b => decide (noDie ≤ b.die)

/-- A gang with a block on a core that was removed. -/
def displaced (s : State) (g : Gang) : Bool :=
  (gangBlocks s g.uid).any fun b => decide (b.die < noDie) && (getDie s b.die).coreOff.getLsbD b.core

/-- A displaced gang whose warps are all saved, or an unplaced one that waits for cores: its VF, where it may be placed now. -/
def awaitsCores (s : State) (part : Nat) (g : Gang) : Option Vf := do
  let v ← getVf s g.vf
  let saved := (allWarps s).all fun w => w.uid == 0 || w.saved || !g.blocks.contains w.block
  let may := v.st == .running || ((v.st == .paused || v.st == .stopped) && s.datum.coreBusy)
  if v.part == part && may && liveGang g && g.st != .running && ((displaced s g && saved) || unplaced s g) then some v else none

/-- A gang that does not fit leaves its cores, with its state and its banks in its VF's context area; where that has no room it waits on
the cores that it has (R387, log entry 44). -/
def waitUnplaced (s : State) (g : Gang) : State :=
  if unplaced s g then s
  else
    let t := sealGang (openGang s g) g.uid true
    if (gangPart t g).isSome then unplaceGang t g else s

/-- Dies of a partition that the launch of a gang permits. -/
def gangDies (s : State) (part : Nat) (g : Gang) : List Nat := ((getLaunch s g.vf g.launch).map (launchDies s part)).getD (partDies s part)

/-- Moves the gangs that await cores, as far as they fit; one that does not fit waits (R387). -/
def moveAll (s : State) (part : Nat) : State :=
  let s := s.gangs.foldl (fun s g =>
    match awaitsCores s part g with
    | none => s
    | some v =>
      match tornPart s g, moveGang s v (gangDies s part g) g with
      | some t, _ => t
      | none, some t => openGang (if t.datum.coreBusy then { t with datum := { t.datum with moved := t.datum.moved + 1 } } else t) g
      | none, none => waitUnplaced s g) s
  let onCores (v : Vf) : Bool := v.st == .running || v.st == .paused || v.st == .stopped
  let left := s.gangs.filter fun g => liveGang g && (displaced s g || (unplaced s g && (getVf s g.vf).any onCores))
  let saved (g : Gang) : Bool := (allWarps s).all fun w => w.uid == 0 || w.saved || !g.blocks.contains w.block
  let wait := left.filter saved
  if !s.datum.coreBusy then s
  else { s with datum := { s.datum with coreWaiting := BitVec.ofNat 8 wait.length, coreBusy := !left.isEmpty, coreDone := left.isEmpty } }

/-! ## Resuming a gang (R24, R114, R319, R386) -/

/-- The slot as its VF's slice finds it: a wait is tested again by executing the instruction. -/
def resumeSlotSt (x : Slot) : Slot :=
  match x.st with
  | .wait _ => { x with st := .run }
  | _ => x

/-- The gang's blocks run again on their cores: paused jobs and streams re-enter the footprint table in their order. -/
def resumeGang (s : State) (g : Gang) : State :=
  let bs := gangBlocks s g.uid
  let mine (u : Nat) : Bool := g.blocks.contains u
  let s := mapBlocks s fun b => if mine b.uid && (b.st == .switched || b.st == .evicted) then { b with st := .running } else b
  let s := mapBlocks s fun b => if mine b.uid then { b with stream := b.stream.map fun m => { m with paused := false } } else b
  let s := mapWarps s fun w => if mine w.block then
    { w with slotA := resumeSlotSt w.slotA, slotB := resumeSlotSt w.slotB, saved := false } else w
  let s := modGang s g.uid fun g => { g with st := .running }
  let again := (s.footprints.filter fun e => e.waiting && mine e.block).map fun e => Instr.footprintEntryGrant e.die e.cluster
  let waits := bs.filter fun b => (b.stream.map (·.wait)) == some .mbarwt
  let s := mapBlocks s fun b => if mine b.uid then wakeStream .mdrain (wakeStream .edge b) else b
  let lands := bs.flatMap fun b => b.jobs.flatMap fun j => j.begun.map fun c => Instr.sluiceChunkLand b.uid j.num c.num
  enqueue s (again.eraseDups ++ (waits.map fun b => .mbarwtWake b.uid) ++ lands)

/-- Resumes a SWITCHED or EVICTED gang of the running VF where its rows fit, claiming others' rows (R386). -/
def tryResume (s : State) (vf : Nat) (g : Gang) : Option State := do
  let bs := gangBlocks s g.uid
  let fits (gone : List Nat) (c : Nat) : Bool := (bs.filter fun b => b.core == c).all fun b =>
    let others := liveOn s b.die b.core (g.uid :: gone)
    shareFits s others b.kernel (callRows s [b]) && (placesOf s [b]).all fun n => !(placesOf s others).contains n
  let b ← bs.head?
  let gone ← if g.st = .switched then some [] else claimFor s vf b.die fits (bs.map (·.core)).eraseDups []
  pure ((tornPart s g).getD (resumeGang (openGang (evictGangs s gone) g) g))

/-- The gangs of a VF that wait to run again on dies whose hand-over is done. -/
def pausedGangs (s : State) (vf : Nat) : List Gang :=
  let p := getPart s (((getVf s vf).map (·.part)).getD 0)
  s.gangs.filter fun g => g.vf == vf && (g.st == .switched || g.st == .evicted) && !displaced s g && !unplaced s g && (gangBlocks s g.uid).all fun b =>
    p.slice.all fun x => dieOpen s x b.die

/-- GANG_PLACE: gangs that await cores are placed again, then the dispatcher resumes one waiting gang of the running VF or places the
next gang that fits, and tries again. The oldest cooperative launch goes first once it has waited 1 ms (R23). -/
def execGangPlace (part : Nat) (s : State) : Host.Outcome State Fault Refusal :=
  .next <|
    let s := moveAll s part
    match placingVf s part with
    | none => s
    | some v =>
      let ls := s.launches.filter fun l => l.vf == v.number
      let first := ls.filter fun l => (getPart s part).coop == some (l.vf, l.id)
      match ((pausedGangs s v.number).findSome? fun g => tryResume s v.number g).orElse fun _ =>
          if placesNew v then (first ++ ls).findSome? fun l => placeLaunch s v l else none with
      | some t => enqueue t [.gangPlace part]
      | none => s

/-- COOP_WAIT_EXPIRY: the oldest waiting cooperative launch of the partition has waited 1 ms (R23). -/
def execCoopWaitExpiry (part : Nat) (s : State) : Host.Outcome State Fault Refusal :=
  .next <|
    match s.launches.find? fun l => unplacedCoop l && ((getVf s l.vf).any fun v => v.part == part) with
    | none => s
    | some l =>
      if s.cycle < l.since + 2700000 then s
      else
        enqueue (modLaunch (modPart s part fun p => { p with coop := some (l.vf, l.id) }) l.vf l.id fun l => { l with coopTimeUp := true })
          [.gangPlace part]

/-! ## Launch records (R19, R187 to R189) -/

/-- Why a record is refused. -/
inductive LaunchRefusal where
  | record | codeHash | quota
  deriving DecidableEq, Repr, Inhabited

def launchCause : LaunchRefusal → BitVec 10
  | .record => 0x10A
  | .codeHash => 0x341
  | .quota => 0x342

/-- A little-endian field of a byte string. -/
def byteField (bs : List Byte) (at_ n : Nat) : Nat := ofBytes ((bs.drop at_).take n)

/-- The launch that a record describes (Table 08-4). -/
def launchOf (s : State) (v : Vf) (bs : List Byte) (tag : Word) : Launch :=
  { vf := v.number, id := v.nextLaunch, kobj := BitVec.ofNat 64 (byteField bs 0 8), args := BitVec.ofNat 64 (byteField bs 8 8)
    gx := byteField bs 16 4, gy := byteField bs 20 4, gz := byteField bs 24 4, gang := byteField bs 28 1
    coop := (byteField bs 29 1) % 2 == 1, dieMask := BitVec.ofNat 8 (byteField bs 30 1)
    deps := (List.range (min 4 (byteField bs 31 1 % 8))).map fun i => byteField bs (32 + 8 * i) 8
    tag := tag, nextGang := 0, lastDie := none, retired := 0, triggered := [], aborted := false, cause := 0, aux := 0, completed := false
    relaunch := [], relaunched := [], coopTimeUp := false, since := s.cycle }

/-- The checks that need nothing but the record: true where one fails (R189, step 3). -/
def badRecord (s : State) (v : Vf) (bs : List Byte) (l : Launch) : Bool :=
  let side (n : Nat) : Bool := decide (1 ≤ n ∧ n ≤ 2 ^ 31)
  let ndep := byteField bs 31 1
  decide (2 ≤ byteField bs 29 1) || decide (4 < ndep) ||
    ((List.range 4).any fun i => decide (ndep ≤ i) && byteField bs (32 + 8 * i) 8 != 0) ||
    !(l.gang == 1 || l.gang == 2 || l.gang == 4) || !(side l.gx && side l.gy && side l.gz) || decide (2 ^ 63 ≤ l.gx * l.gy * l.gz) ||
    l.gx * l.gy * l.gz % l.gang != 0 || (l.deps.any fun d => d == 0 || decide (l.id ≤ d) || (getLaunch s v.number d).isNone) ||
    (launchDies s v.part l).isEmpty

/-- The most blocks of a kernel that one empty core holds within the VF's quotas (R9, R12, R89, R353). -/
def blocksPerCore (v : Vf) (k : Kernel) : Nat :=
  let n := min (min 16 (65536 / max 1 (queueRows k))) (64 / max 1 k.warps)
  let n := if k.window = 0 then n else min n (v.policy.bankCount / k.window)
  let n := if k.bplane = 0 then n else min n (v.policy.bplaneKib / k.bplane)
  if k.ntiles = 0 then n else min n (4 / k.ntiles)

/-- Whether a cooperative launch can ever be resident as a whole (R23). -/
def coopFits (s : State) (v : Vf) (k : Kernel) (l : Launch) : Bool :=
  let clusters := ((launchDies s v.part l).map fun d => ((List.range 36).filter fun c => !(getDie s d).clusterOff.getLsbD c).length).foldl (· + ·) 0
  decide (gangTotal l ≤ clusters * (4 / max 1 l.gang) * blocksPerCore v k) &&
    (!needsStack k || decide (gangTotal l * l.gang * k.warps ≤ k.stkSlots))

/-- Launches of a VF that are incomplete (R353). -/
def openLaunches (s : State) (vf : Nat) : Nat := (s.launches.filter fun l => l.vf == vf && !l.completed).length

/-- The checks of R189 from step 3 on, in order. -/
def checkLaunch (s : State) (v : Vf) (bs : List Byte) (tag : Word) : Except LaunchRefusal Launch :=
  let l := launchOf s v bs tag
  if badRecord s v bs l then .error .record
  else
    match getKernel s v.number l.kobj with
    | none => .error .codeHash
    | some k =>
      if !k.live || !v.policy.hashes.contains k.hash then .error .codeHash
      else if k.gang ≠ l.gang then .error .record
      else if (l.coop && !coopFits s v k l) || (v.policy.launchMax ≠ 0 && decide (v.policy.launchMax ≤ openLaunches s v.number)) then .error .quota
      else .ok l

/-- Submits a checked launch under its ID (R188). -/
def submit (s : State) (v : Vf) (l : Launch) : State :=
  let s := modVf { s with launches := s.launches ++ [l] } v.number fun v => { v with nextLaunch := v.nextLaunch + 1 }
  let s := if l.coop then after s 2700000 (.coopWaitExpiry v.part) else s
  enqueue s [.gangPlace v.part]

/-! ## LAUNCH, WAITDEP, TRIG (R34, R189, R190) -/

def execLaunch (sy sx : BitVec 5) (s : State) : Host.Outcome State Fault Refusal :=
  let check (s : State) := checkGlobal s 0 (scal s sx) 64 0 true
  runSeq (holdSlot s (check s)) fun s => do
    let va := scal s sx
    let x ← check s
    if blocking s s.b.vf (slotReq s) (slotPaths s x) ≠ [] then .error (.stall .qos)
    let (bs, s) ← slotLoad x 64 (cacheXlat s s.b.vf x.va)
    match getVf s s.b.vf with
    | none => .error (.trap 0x341 0)
    | some v =>
      match checkLaunch s v bs 0 with
      | .error e => .error (.trap (launchCause e) (if e = .codeHash then BitVec.ofNat 64 (byteField bs 0 8) else va))
      | .ok l => do
        let s ← released .home s
        pure (sealWarp (setScal (submit s v l) sy (BitVec.ofNat 64 l.id)))

/-- Whether a producer has triggered in every block, or has retired (R34). -/
def producerDone (l : Launch) : Bool := l.completed || l.retired == gangTotal l || l.triggered.length == l.gx * l.gy * l.gz

/-- WAITDEP: an aborted producer releases it at once and traps, lowest index first; else an acquire once every producer has
triggered or retired (R34, R190). -/
def execWaitdep (s : State) : Host.Outcome State Fault Refusal :=
  runSeq s fun s =>
    let deps := ((getLaunch s s.b.vf s.b.launch).map (·.deps)).getD []
    let ps := deps.map fun d => getLaunch s s.b.vf d
    match ps.findIdx? fun p => p.any (·.aborted) with
    | some i => .error (.trap 0x10B (BitVec.ofNat 64 i))
    | none =>
      if ps.any fun p => p.any fun l => !producerDone l then .error (.stall .waitdep)
      else do let s ← synced s; pure (if deps.isEmpty then s else acquire s .pkg)

def execWaitdepRelease (warp : Nat) (slot : PcSlot) (s : State) : Host.Outcome State Fault Refusal :=
  match heldInstr s warp slot .waitdep with
  | some .waitdep => execWaitdep (resumeSlot s warp slot)
  | _ => .next s

/-- TRIG: a release at .pkg; the block's first counts for its launch. -/
def execTrig (s : State) : Host.Outcome State Fault Refusal :=
  runSeq s fun s => do
    let s ← released .home s
    let s := sealWarp s
    if s.b.triggered then .ok s
    else
      let b := s.b
      let s := modLaunch { s with b := { s.b with triggered := true } } b.vf b.launch fun l =>
        { l with triggered := (l.triggered ++ [blockIndex l b]).eraseDups }
      .ok (wakeWaitdep s b.vf)

/-! ## The end of a launch (R334) -/

/-- A completion entry of Table 18-4, its phase bit still 0. -/
def completionEntry (tag result : Word) (status kind : Nat) (aux : Word) : List Byte :=
  toBytes 8 tag.toNat ++ toBytes 8 result.toNat ++ toBytes 2 status ++ toBytes 1 kind ++ [0] ++ toBytes 4 0 ++ toBytes 8 aux.toNat

def queueCompletion (s : State) (vf : Nat) (entry : List Byte) : State :=
  enqueue (modVf s vf fun v => { v with hif := { v.hif with waiting := v.hif.waiting ++ [entry] } }) [.completionWrite vf]

/-- Whether a store of a VF whose warp has gone is in flight. -/
def looseStores (s : State) (vf : Nat) : Bool := s.inflight.any fun a => a.vf == vf && (getWarp s a.warp).isNone

/-- LAUNCH_COMPLETION: once the last gang has ended and the accesses still in flight have performed, the KIND 2 entry is queued. -/
def execLaunchCompletion (vf launch : Nat) (s : State) : Host.Outcome State Fault Refusal :=
  .next <|
    match getLaunch s vf launch with
    | none => s
    | some l =>
      if l.completed || !(l.aborted || l.retired == gangTotal l) || looseStores s vf then s
      else
        let s := modLaunch s vf launch fun l => { l with completed := true }
        let s := queueCompletion s vf (completionEntry l.tag (BitVec.ofNat 64 l.id) (if l.aborted then l.cause.toNat else 0) 2 (if l.aborted then l.aux else 0))
        let s := if l.coop && l.nextGang == 0 then
            let part := ((getVf s vf).map (·.part)).getD 0
            enqueue (endCoop s part vf launch) [.gangPlace part]
          else s
        wakeWaitdep s vf

/-! ## Uncorrectable errors (R37, R341, R402, R419, R426) -/

/-- The log that holds an entry: its source, and the stack of an array log or the die of a link log (R420). -/
def logOf (e : LogEntry) : BitVec 8 × BitVec 16 := (e.source, if e.source = 0 then e.unit else e.unit &&& 15)

/-- Puts an entry into the logs that Saltern drains; one whose array log or link log is full is lost and counted (R420, log entry 22). -/
def addLog (s : State) (e : LogEntry) : State :=
  if e.source.toNat < 2 ∧ Sys2Proof.Config.logFull (s.sal.pending.filter fun x => logOf x == logOf e).length then
    { s with sal := { s.sal with lost := modAt s.sal.lost e.source.toNat (· + 1) } }
  else enqueue { s with sal := { s.sal with pending := s.sal.pending ++ [e] } } [.logDrain]

/-- One gang's uncorrectable error: the first of a gang of an idempotent kernel relaunches it, any other aborts its launch. -/
def gangError (cause : BitVec 10) (aux : Word) (s : State) (g : Gang) : State :=
  let idemp := (gangBlocks s g.uid).any fun b => b.kernel.idemp
  let again := ((getLaunch s g.vf g.launch).map fun l => l.relaunched.contains g.number).getD true
  if idemp && !again then
    let s := releaseGang s g .queued
    let s := { s with gangs := s.gangs.filter fun x => x.uid != g.uid }
    modLaunch s g.vf g.launch fun l => { l with relaunch := l.relaunch ++ [g.number], relaunched := g.number :: l.relaunched }
  else abortLaunch s g.vf g.launch cause aux

/-- Stops what owns the structure: a gang, the gangs of a partition, or, for an error of the Datum, every VF, whose launches end with
the cause (R37, R341, log entry 46). -/
def stopOwner (s : State) (cause : BitVec 10) (aux : Word) : ErrOwner → State
  | .gang u => (s.gangs.filter fun g => g.uid == u && !g.blocks.isEmpty).foldl (gangError cause aux) s
  | .partition p => (s.gangs.filter fun g => !g.blocks.isEmpty && ((getVf s g.vf).any fun v => v.part == p)).foldl (gangError cause aux) s
  | .allVfs => (s.launches.filter fun l => !l.completed).foldl (fun s l => abortLaunch s l.vf l.id cause aux) s
  | .word _ _ => s

/-- UNIT of an uncorrectable error (Table 23-6): the die that the aux word of a core's structure names, the home of a memory line, the
index and die of a link, else the die of the gang, or G0 for the Datum (R47). -/
def errUnit (s : State) (detail : BitVec 4) (owner : ErrOwner) (aux : Word) : BitVec 16 :=
  let d := detail.toNat
  BitVec.ofNat 16 <|
    if d < 8 ∨ d = 12 ∨ d = 13 then aux.toNat / 2 ^ 32 % 16
    else if d = 9 ∨ d = 10 then homeOf aux.toNat
    else if d = 11 then aux.toNat / 4 % 8 + 16 * (aux.toNat % 32)
    else
      match owner with
      | .gang u => ((gangBlocks s u).head?.map (·.die)).getD 0
      | _ => 8

/-- The log entry of an uncorrectable error, with SOURCE 6; ADDR is the physical address that the aux word of an L2 or memory line is. -/
def errEntry (s : State) (detail : BitVec 4) (owner : ErrOwner) (aux : Word) : LogEntry :=
  { time := gtime s, source := 6, severity := 2, unit := errUnit s detail owner aux, loc := 0
    addr := if 8 ≤ detail.toNat ∧ detail.toNat ≤ 10 then aux else 0, cause := 0x380 + detail.setWidth 10 }

/-- Stops what owns the structure and logs the error. -/
def stopOwners (s : State) (detail : BitVec 4) (owner : ErrOwner) (aux : Word) : State :=
  addLog (stopOwner s (0x380 + detail.setWidth 10) aux owner) (errEntry s detail owner aux)

/-- An error of the memory array: an uncorrectable one poisons its 64-byte word, and the array log of an HBM stack gets an entry, whose
severity is 1 where no job has been stopped yet (R419, R420, log entry 22). -/
def arrayError (s : State) (k : Nat) (corrected : Bool) : State :=
  let s := if corrected || isHost k then s else { s with poisoned := k / 64 * 64 :: s.poisoned }
  if !isHbm k then s
  else
    let stack := if Sys2Proof.Config.arrayStack k then 1 else 0
    addLog s { time := gtime s, source := 0, severity := if corrected then 0 else 1, unit := BitVec.ofNat 16 (homeOf k + 16 * stack), loc := Sys2Proof.Config.arrayLoc k
               addr := BitVec.ofNat 64 k, cause := 0 }

/-- Whether a structure's data is held elsewhere, so that it is refetched: a cache-way line, or an L2 line that no die holds modified
(R419). -/
def refetched (s : State) (detail : BitVec 4) (aux : Word) : Bool := detail == 4 || (detail == 8 && (modifiedAt s (lineOf aux.toNat)).isNone)

/-- UNCORRECTABLE_ERROR: a clean line is refetched, a memory word is poisoned, and any other structure stops its owner. -/
def execUncorrectableError (detail : BitVec 4) (owner : ErrOwner) (aux : Word) (s : State) : Host.Outcome State Fault Refusal :=
  .next <|
    match owner with
    | .word k corrected => arrayError s k corrected
    | _ => if refetched s detail aux then s else stopOwners s detail owner aux

end Sys2Proof.Machine
end

