-- ==== Sys2Proof/Machine/Slices.lean ====
section
/-! DEFINITION. Time slices: flashback and precise saves, the switch tick with its deadline and grace (R35, R114, R184, R271, R319,
R382 to R385). -/

namespace Sys2Proof.Machine

/-! ## Flashback and precise save (R35, R184) -/

/-- Address and length in words of a recipe; none for one that rebuilds nothing (R304). -/
def recipeAt (k : Kernel) (r : Option (BitVec 12)) : Option (Word × Nat) := do
  let n ← r
  let e ← k.recipes[n.toNat]?
  if e.2 = 0 then none else some (k.obj + BitVec.ofNat 64 e.1, e.2)

/-- The warp as it resumes at its stake: records above the recorded depth gone, the recorded slot at the stake PC with its recipe to
run, the queue discarded (R184, R319). The recorded slot was the only one with lanes, so it owns the records that stay (R30). -/
def flashWarp (k : Kernel) (w : Warp) : Warp :=
  let st := w.stake
  let x := { Slot.empty with pc := st.pc, mask := st.mask, cnt := st.cnt, st := .run }
  let w := setSlot (setSlot w (otherSlot st.slot) .empty) st.slot x
  { w with lanes := mapLanes st.mask (fun _ y => { y with queue := List.replicate w.depth Entry.poison }) w.lanes
           div := (w.div.drop (w.div.length - st.divdepth)).map fun r => { r with owner := st.slot }, pend := []
           recipe := (recipeAt k st.recipe).bind fun _ => st.recipe.map fun r => { recipe := r, pos := 0 } }

/-- Whether a warp is saved precisely at a tick (R35). -/
def savesPrecisely (w : Warp) : Bool := isSealed w || w.slotA.st == .yielded || w.slotB.st == .yielded

/-- Whether no result of a warp is pending and no store of it in flight (R134). -/
def warpQuiet (s : State) (w : Warp) : Bool := w.pend.isEmpty && s.inflight.all fun a => a.warp != w.uid

/-- A warp at a switch tick: flashed back, or saved once every access that it issued has performed (R134). -/
def saveWarp (s : State) (k : Kernel) (precise : Bool) (w : Warp) : Warp :=
  if warpEnded w then { w with saved := true }
  else if !precise && !savesPrecisely w then { flashWarp k w with saved := true }
  else { w with saved := warpQuiet s w }

/-- Warps of the running blocks that p selects. -/
def warpsOf (s : State) (p : Block → Bool) : List Warp :=
  (allWarps s).filter fun w => w.uid != 0 && (getBlock s w.block).any fun b => p b && b.st == .running

/-- Lands the chunks that faulted jobs of the selected blocks had begun before their faults (R105). -/
def landBegun (s : State) (p : Block → Bool) : State :=
  ((allBlocks s).filter fun b => b.uid != 0 && p b).foldl (fun s b =>
    (b.jobs.filter (·.faulted)).foldl (fun s j => j.begun.foldl (fun s c => landChunk b.uid j.num c.num s) s) s) s

/-- A job paused at a chunk boundary (R114): no chunk is landing at a tick, since landing is one step; chunks that have only been
read are read again, and those landed beyond PREFIX are not recorded. -/
def pauseJob (j : Job) : Job := if j.done || j.faulted then j else { j with paused := true, begun := [], landed := [] }

/-- Stops the running blocks of a VF that p selects as a switch tick does: jobs and streams pause with their entries out of the
table, warps are flashed back, or saved once their stores have performed (R134), blocks become SWITCHED, and their gangs become the
last ones run (R114, R271, R384, R386). -/
def stopBlocks (s : State) (vf : Nat) (p : Block → Bool) (precise : Bool) : State :=
  let on (b : Block) : Bool := b.uid != 0 && b.vf == vf && p b
  let s := landBegun s on
  let ws := warpsOf s on
  let count (n : Nat) (q : Warp → Bool) (s : State) : State := countEvent s vf n (ws.filter q).length
  let fl (w : Warp) : Bool := !warpEnded w && !precise && !savesPrecisely w
  let s := count 0x0B fl (count 0x0C (fun w => !warpEnded w && !fl w) s)
  let kernelOf (w : Warp) : Kernel := ((getBlock s w.block).map (·.kernel)).getD .empty
  let stops (w : Warp) : Bool := ws.any fun x => x.uid == w.uid
  let s' := s
  let s := mapWarps s' fun w => if stops w then saveWarp s' (kernelOf w) precise w else w
  let mine (b : Block) : Bool := on b && (b.st == .running || b.st == .draining)
  let blocks := (allBlocks s).filter mine
  let s := { s with footprints := mapIf (fun e => blocks.any fun b => b.uid == e.block) (fun e => { e with waiting := true }) s.footprints }
  let s := mapBlocks s fun b =>
    if mine b then
      { b with jobs := b.jobs.map pauseJob, stream := b.stream.map fun m => { m with paused := true }
               st := if b.st = .running then .switched else b.st }
    else b
  let stopped (g : Gang) : Bool := (g.st == .running || g.st == .draining) && blocks.any fun b => b.gang == g.uid
  { s with gangs := (s.gangs.filter (! stopped ·)) ++ (s.gangs.filter stopped).map fun g => { g with st := .switched } }

/-- Stops everything that a VF runs. -/
def stopVf (s : State) (vf : Nat) (precise : Bool) : State := stopBlocks s vf (fun _ => true) precise

/-! ## The slices of a period (R382) -/

/-- VF number and slice in µs, in ascending number, then the idle rest. -/
def slicePlan (s : State) (part : Nat) : List (Nat × Nat) :=
  let p := getPart s part
  let share (n : Nat) : Nat := match getVf s n with
    | some v => if v.part = part ∧ v.st = .running then v.share.toNat else 0
    | none => 0
  let cut := ((List.range 64).map (· + 1)).filterMap fun n =>
    let us := share n * p.period.toNat / 256
    if us = 0 then none else some (n, us)
  let rest := p.period.toNat - cut.foldl (fun n x => n + x.2) 0
  if rest = 0 then cut else cut ++ [(0, rest)]

/-- The next slice, of this period or of a new one, and what is left. -/
def nextSlice (s : State) (part : Nat) : Nat × Nat × List (Nat × Nat) :=
  match (getPart s part).plan with
  | x :: r => (x.1, x.2, r)
  | [] =>
    match slicePlan s part with
    | x :: r => (x.1, x.2, r)
    | [] => (0, 1000, [])

/-- Dies of a partition as bits. -/
def dieBits (s : State) (part : Nat) : BitVec 8 := (partDies s part).foldl (fun m d => m ||| sharerBit d) 0

/-- The incoming VF runs on the dies that have been handed over: its SWITCHED gangs there resume, the others are tried by
GANG_PLACE. -/
def startIncoming (s : State) (part vf : Nat) : State :=
  let runs := (getVf s vf).any fun v => v.st == .running && v.part == part
  let s := modPart s part fun p => { p with vfnum := if runs then vf else 0 }
  let gs := (pausedGangs s vf).filter fun g => g.st == .switched
  let s := if runs then gs.foldl resumeGang s else s
  enqueue s [.gangPlace part]

/-- A die has reported the outgoing VF (R384). -/
def markSaved (s : State) (part die : Nat) : State :=
  modPart s part fun p => { p with slice := p.slice.map fun x => { x with saved := x.saved ||| sharerBit die } }

/-- The incoming VF starts on the dies whose hand-over is over; the slice has begun everywhere once all are (R385). -/
def startSlice (s : State) (part : Nat) (x : Slice) : State :=
  let rest := (partDies s part).any fun d => !dieOpen s x d
  startIncoming (modPart s part fun p => { p with slice := if rest then some { x with grace := true } else none }) part x.incoming

/-- Ticks whose saves are not over when the next tick stops a VF: that of the hand-over in progress, and those before it. -/
def openTicks (s : State) (part vf : Nat) : List OldTick :=
  match (getPart s part).slice with
  | none => []
  | some x => ({ vf := x.outgoing, since := x.since, deadline := x.deadline } :: x.before).filter fun t =>
      t.vf != vf && (partDies s part).any fun d => unsaved s t.vf d

/-- A partition's running VF has been stopped: its hand-over begins, beside earlier ones that have not ended, with its deadline, and the
dies that have nothing left to save report at once (R384, R385). -/
def beginHandOver (s : State) (part outgoing incoming : Nat) : State :=
  let x : Slice := { outgoing := outgoing, incoming := incoming, since := s.cycle, saved := 0, late := 0, deadline := false, grace := false
                     before := openTicks s part outgoing }
  let s := modPart s part fun q => { q with vfnum := 0, late := 0, slice := some x }
  enqueue (after s 135000 (.saveDeadline part)) (((partDies s part).filter fun d => !unsaved s outgoing d).map fun d => .dieSavedReport part d)

/-- SWITCH_TICK: the slice ends at its instant, the outgoing VF stops, and the next tick is set (R382, R384). A hand-over that has
not ended goes on beside the new one. -/
def execSwitchTick (part : Nat) (s : State) : Host.Outcome State Fault Refusal :=
  .next <|
    let p := getPart s part
    if !p.run then s
    else
      let (vf, us, rest) := nextSlice s part
      let s := beginHandOver (stopVf s p.vfnum false) part p.vfnum vf
      after (modPart s part fun q => { q with plan := rest, ticks := q.ticks + 1 }) (us * 2700) (.switchTick part)

/-- DIE_SAVED_REPORT: a die has saved the outgoing VF; the last report starts the incoming one (R384, R385). -/
def execDieSavedReport (part die : Nat) (s : State) : Host.Outcome State Fault Refusal :=
  .next <|
    match (getPart s part).slice with
    | none => s
    | some x =>
      if x.grace || unsaved s x.outgoing die then s
      else
        let x := { x with saved := x.saved ||| sharerBit die }
        if x.saved &&& dieBits s part = dieBits s part then startSlice s part x else markSaved s part die

/-- Adds n late dies to SCH.LATE, which saturates. -/
def addLate (p : Partition) (n : Nat) : Partition :=
  { p with lateCount := if 2 ^ 32 ≤ p.lateCount.toNat + n then -1 else p.lateCount + BitVec.ofNat 32 n }

/-- The deadline of an earlier tick, which came after the next tick: the dies that still save its VF are late. -/
def oldDeadline (s : State) (part : Nat) (x : Slice) : State :=
  let due (t : OldTick) : Bool := !t.deadline && decide (t.since + 135000 ≤ s.cycle)
  let n := ((x.before.filter due).map fun t => ((partDies s part).filter fun d => unsaved s t.vf d).length).foldl (· + ·) 0
  modPart s part fun p => { addLate p n with slice := some { x with before := mapIf due (fun t => { t with deadline := true }) x.before } }

/-- SAVE_DEADLINE: 50 µs after a tick, the dies that have not reported are late, are counted, and get 20 µs (R385). -/
def execSaveDeadline (part : Nat) (s : State) : Host.Outcome State Fault Refusal :=
  .next <|
    match (getPart s part).slice with
    | none => s
    | some x =>
      let late := dieBits s part &&& ~~~x.saved
      if x.deadline then s
      else if s.cycle < x.since + 135000 then oldDeadline s part x
      else
        let n := popNat 8 late.toNat
        let s := modPart s part fun p => { addLate p n with late := late, slice := some { x with late := late, deadline := true } }
        after s 54000 (.graceExpiry part)

/-- GRACE_EXPIRY: the incoming VF starts on the dies that have reported; the others force-save (R385). -/
def execGraceExpiry (part : Nat) (s : State) : Host.Outcome State Fault Refusal :=
  .next <|
    match (getPart s part).slice with
    | none => s
    | some x =>
      if !x.deadline || x.grace || decide (s.cycle < x.since + 189000) then s
      else startSlice s part x

/-- FORCE_SAVE_COMPLETE: the last pending entry of the outgoing VF, or of an earlier one, on a late die is filled, and the incoming VF
starts there, if it still runs. -/
def execForceSaveComplete (part die : Nat) (s : State) : Host.Outcome State Fault Refusal :=
  .next <|
    match (getPart s part).slice with
    | none => s
    | some x =>
      if !x.grace || unsaved s x.outgoing die || dieHeld s x die then s
      else startSlice s part { x with saved := x.saved ||| sharerBit die }

/-- Notes that the last access of a warp has performed while it was being saved (R384). -/
def noteSaved (s : State) (u : Nat) : State :=
  match getWarp s u with
  | none => s
  | some w =>
    match getBlock s w.block with
    | none => s
    | some b =>
      if b.st = .switched ∧ !w.saved ∧ warpQuiet s w then
        let s := modWarp s u fun w => { w with saved := true }
        if unsaved s b.vf b.die then s
        else
          enqueue s [if (getPart s b.part).slice.any (·.grace) then .forceSaveComplete b.part b.die else .dieSavedReport b.part b.die,
            .gangPlace b.part]
      else s

end Sys2Proof.Machine
end

