-- ==== Sys2Proof/Machine/Wake.lean ====
section
/-! DEFINITION. Arrivals and wakes: results, aged slots, YIELD, fault records, page reports, token refills, timeouts (R32, R36, R52,
R127, R185, R283, R379 to R381, R385, R388, R389, R391). -/

namespace Sys2Proof.Machine

/-! ## Results (R52, R175, R283) -/

/-- A 16-bit count that saturates, in a half of %gpstat. -/
def satAdd16 (a b : Nat) : Nat := min 0xFFFF (a + b)

/-- %gpstat with more lanes entered in stages 1 and 2 (R283). -/
def addGpstat (g : BitVec 32) (n1 n2 : Nat) : BitVec 32 :=
  BitVec.ofNat 32 (satAdd16 (g.toNat % 65536) n1 + 65536 * satAdd16 (g.toNat / 65536) n2)

/-- RESULT_ARRIVAL: a ready result fills its entries at their current ages, or is discarded where they have aged out; its stage
counts and sticky flags are added, and waits for it end. -/
def execResultArrival (warp rid : Nat) (s : State) : Host.Outcome State Fault Refusal :=
  .next <|
    match (getWarp s warp).bind fun w => (w.pend.find? fun r => r.rid == rid).map fun r => (w, r) with
    | none => s
    | some (w, r) =>
      if !r.ready then s
      else
        let s := modWarp s warp fun w => { w with
          lanes := fillEntries rid r.vals w.lanes, pend := w.pend.filter fun x => x.rid != rid
          gpstat := addGpstat w.gpstat r.stage1 r.stage2, fflags := w.fflags ||| r.fflags }
        let vf := warpVf s w
        let part := ((getVf s vf).map (·.part)).getD 0
        let s := if r.kind = .theodolite then
            countPage (countEvent (countEvent s vf 0x09 r.stage1) vf 0x0A r.stage2) part 9 r.stage2
          else s
        noteSaved (wakeWarp s warp [.pending .memory, .pending .theodolite, .pending .other, .drain]) warp

/-- All ones in a host lane's value (R385). -/
def onesOf (e : Entry) : Entry := { e with val := if e.tag = .bool then 1 else formOf e.tag (BitVec.allOnes 64) }

/-- HOST_COMPLETION_TIMEOUT: the lanes of a pending load that read host memory take all ones, and an advisory error is logged. -/
def execHostCompletionTimeout (warp rid : Nat) (s : State) : Host.Outcome State Fault Refusal :=
  .next <|
    match (getWarp s warp).bind fun w => (w.pend.find? fun r => r.rid == rid).map fun r => (w, r) with
    | none => s
    | some (w, r) =>
      if r.host = 0 then s
      else
        let ones (row : List Entry) : List Entry := row.mapIdx fun l e => if inMask r.host l then onesOf e else e
        let s := modWarp s warp fun w => { w with pend := mapIf (fun x => x.rid == rid) (fun x => { x with vals := x.vals.map ones }) w.pend }
        { s with advisory := s.advisory ++ [((getVf s (warpVf s w)).map (·.link)).getD 0] }

/-! ## Slots (R32, R185) and cache-way lines (R127) -/

/-- SLOT_AGED: a slot passed over in 32 eligible cycles is lifted, in the order in which slots age. -/
def execSlotAged (warp : Nat) (slot : PcSlot) (s : State) : Host.Outcome State Fault Refusal :=
  .next <|
    match getWarp s warp with
    | none => s
    | some w =>
      let x := slotOf w slot
      if x.passed < 32 ∨ x.aged.isSome then s
      else
        let (n, s) := freshId s
        modSlot s warp slot fun x => { x with aged := some n }

/-- YIELD_EXPIRY: the slot's n cycles are over. -/
def execYieldExpiry (warp : Nat) (slot : PcSlot) (s : State) : Host.Outcome State Fault Refusal :=
  .next (modSlot s warp slot fun x => { x with yielding := false })

/-- CACHE_LINE_EXPIRY: a line is discarded from the block's cache-way banks. -/
def execCacheLineExpiry (block : Nat) (line : Word) (s : State) : Host.Outcome State Fault Refusal :=
  .next (modBlock s block fun b => { b with l1 := b.l1.filter fun l => l.line != line.toNat })

/-! ## Fault records and page reports (R36, R379 to R381) -/

/-- Delivers a yielded slot's fault to its handler. -/
def deliverYield (s : State) (u : Nat) (p : PcSlot) : State :=
  match (getWarp s u).bind fun w => (slotOf w p).yieldRec with
  | none => s
  | some r => leaveYield s u p fun s =>
    deliverTrap (modCur (focusWarp s u p) fun x => { x with st := .run, yieldRec := none }) r.cause r.va

/-- A fault record (Table 20-2). -/
def faultRecord (r : FaultRec) (seq : BitVec 32) : List Byte :=
  toBytes 8 r.va.toNat ++ toBytes 2 r.cause.toNat ++ [if r.slot = .b then 1 else 0, 0] ++ toBytes 4 r.ident.toNat ++ toBytes 8 r.pc.toNat ++
    toBytes 4 seq.toNat ++ toBytes 4 0

def modTrn (s : State) (vf : Nat) (f : Trn → Trn) : State := modVf s vf fun v => { v with trn := f v.trn }

/-- Every waiting fault goes to its handler: the queue is not enabled. -/
def deliverWaiting (s : State) (vf : Nat) (rs : List FaultRec) : State :=
  rs.foldl (fun s r => deliverYield s r.warp r.slot) (modTrn s vf fun t => { t with waiting := [] })

/-- FAULT_RECORD_WRITE: the oldest waiting record of a VF that runs is written while the queue has room, and MSI-X vector 1 is sent; a
write that faults stops the queue (R363, R379, R381). -/
def execFaultRecordWrite (vf : Nat) (s : State) : Host.Outcome State Fault Refusal :=
  .next <|
    match getVf s vf with
    | none => s
    | some v =>
      let t := v.trn
      match t.waiting with
      | [] => s
      | r :: rest =>
        if v.st != .running then s
        else if !t.fqEnable then deliverWaiting s vf t.waiting
        else if 2 ^ t.fqLog2.toNat ≤ (t.fqTail - t.fqHead).toNat then s
        else
          let va := t.fqBase + BitVec.ofNat 64 (32 * (t.fqTail.toNat % 2 ^ t.fqLog2.toNat))
          match (if canonical va then translateClean s vf va 1 else .error 0x141) with
          | .error _ => deliverWaiting (modTrn s vf fun t => { t with fqEnable := false }) vf t.waiting
          | .ok (k, _, _) =>
            let s := writeGlobal (countWalk s vf va) k (faultRecord r t.seq)
            let s := modTrn s vf fun t => { t with waiting := rest, fqTail := t.fqTail + 1, seq := t.seq + 1 }
            enqueue { s with msix := s.msix ++ [(vf, 1)] } (if rest.isEmpty then [] else [.faultRecordWrite vf])

/-- Slots of a VF in YIELDED whose address p selects. -/
def yieldedSlots (s : State) (vf : Nat) (p : Nat → Bool) : List (Nat × PcSlot) :=
  (allWarps s).flatMap fun w =>
    if w.uid ≠ 0 ∧ warpVf s w = vf then
      ([PcSlot.a, .b].filter fun q => (slotOf w q).st == .yielded && (slotOf w q).yieldRec.any fun r => p r.va.toNat).map fun q => (w.uid, q)
    else []

/-- A report of a range: the yielded slots in it re-execute, or take their trap (R36, R380). -/
def presentRange (s : State) (vf : Nat) (val : Word) : State :=
  let size : Nat := match (fld val 1 2).toNat with
    | 0 => 2 ^ 12 | 1 => 2 ^ 16 | 2 => 2 ^ 21 | _ => 2 ^ 30
  let page := val.toNat / 2 ^ 12 * 2 ^ 12
  if page % size ≠ 0 then s
  else
    let hit := yieldedSlots s vf fun a => decide (page ≤ a ∧ a < page + size)
    if bit val 0 then
      hit.foldl (fun s x => deliverYield s x.1 x.2) s
    else hit.foldl (fun s x => leaveYield s x.1 x.2 fun s => modSlot s x.1 x.2 fun y => { y with st := .run, yieldRec := none }) s

/-- TRN_FQ_CFG (Table 20-3). -/
def execTrnFqCfg (vf : Nat) (val : Word) (s : State) : Host.Outcome State Fault Refusal :=
  .next <|
    let log2 : BitVec 5 := fld val 0 5
    let on := bit val 31 && decide (4 ≤ log2.toNat ∧ log2.toNat ≤ 12)
    if !served s vf then s
    else
      let s := modTrn s vf fun t =>
        if on && !t.fqEnable then { t with fqLog2 := log2, fqEnable := true, fqTail := 0, fqHead := 0, seq := 0 }
        else { t with fqLog2 := log2, fqEnable := on }
      enqueue s [.faultRecordWrite vf]

/-- TRN_FQ_HEAD: the runtime has consumed records, and waiting ones may be written (R379). -/
def execTrnFqHead (vf : Nat) (val : Word) (s : State) : Host.Outcome State Fault Refusal :=
  .next (if served s vf then enqueue (modTrn s vf fun t => { t with fqHead := fld val 0 32 }) [.faultRecordWrite vf] else s)

/-! ## Token buckets (R388, R389, R391) -/

/-- A held request of a warp's pending result goes on: the result is ready with its last. -/
def admitHeld (s : State) (u rid : Nat) : State :=
  match (getWarp s u).bind fun w => w.pend.find? fun r => r.rid == rid with
  | none => s
  | some r =>
    let ready := r.holds ≤ 1 && r.lineWaits.isEmpty && r.lanesLeft.isEmpty
    let s := modWarp s u fun w => { w with pend := mapIf (fun x => x.rid == rid) (fun x => { x with holds := x.holds - 1, ready := ready }) w.pend }
    enqueue s (if ready then [.resultArrival u rid] else [])

/-- A held request goes on; a slot's instruction is tried again by itself in each cycle. -/
def admitReq (s : State) : HeldReq → State
  | .load u rid _ => admitHeld s u rid
  | .pref u addr attr fill ps => match getBlock s u with
    | some b => prefPaths s b addr attr fill ps
    | none => s
  | .slot _ _ => s
  | .chunk u n => enqueue s [.sluiceChunkStart u n]

/-- What admitting a request subtracts; one that is tried again pays when it goes, and until then stays first in its queue. -/
def heldCost : HeldReq → Option Nat
  | .load _ _ cost => some cost
  | .pref _ _ _ _ _ => some (costOf 128)
  | .slot _ _ | .chunk _ _ => none

/-- Admits held requests, oldest first, while tokens remain (R388, R389). -/
def admitAll (n : Nat) : List HeldReq → State → State
  | [], s => s
  | r :: rest, s =>
    let drop (cost : Nat) : State := modBucket s n fun b => { b with tokens := b.tokens - cost, held := rest }
    if !stillHeld s r then admitAll n rest (drop 0)
    else if s.buckets.any fun b => b.num == n && decide (0 < b.tokens) then
      match heldCost r with
      | some cost => admitAll n rest (admitReq (drop cost) r)
      | none => admitReq s r
    else s

/-- TOKEN_REFILL: a metered bucket gains RATE up to BURST and admits requests. -/
def execTokenRefill (n : Nat) (s : State) : Host.Outcome State Fault Refusal :=
  .next <|
    match s.buckets.find? fun b => b.num == n && b.en with
    | none => s
    | some b =>
      let s := modBucket s n fun b => { b with tokens := min (b.burst.toNat : Int) (b.tokens + b.rate.toNat) }
      admitAll n b.held s

/-- QOS_BUCKET: word 0 of a bucket; setting EN fills TOKENS to BURST, and clearing it admits what is held (R391). -/
def execQosBucket (n : Nat) (val : Word) (s : State) : Host.Outcome State Fault Refusal :=
  .next <|
    if 1024 ≤ n then s
    else
      let rate : BitVec 24 := fld val 0 24
      let burst : BitVec 24 := fld val 32 24
      let old := (s.buckets.find? fun b => b.num == n).getD { num := n, rate := 0, burst := 0, en := false, tokens := 0, heldCount := 0, held := [] }
      let b := { old with rate := rate, burst := burst, en := bit val 63, tokens := if bit val 63 then (burst.toNat : Int) else old.tokens }
      let s := { s with buckets := b :: s.buckets.filter fun x => x.num != n }
      if b.en then s
      else old.held.foldl admitReq (modBucket s n fun b => { b with held := [] })

end Sys2Proof.Machine
end

