-- ==== Sys2Proof/Machine/Cadastre.lean ====
section
/-! DEFINITION. The Cadastre: what homes and dies do with the messages of Table 21-2 (R136 to R139, R142, R392 to R399). -/

namespace Sys2Proof.Machine

/-! ## The home of a page -/

/-- The directory entry of a page, created with every field zero where there is none (R393). -/
def entryOfPage (s : State) (page : Nat) : DirEntry := dirFor s page false false

def pendOf (e : DirEntry) (d : Nat) : Option PendMsg := (e.pend.find? fun p => p.1 == d).map (·.2)
def dropPend (e : DirEntry) (d : Nat) : DirEntry := { e with pend := e.pend.filter fun p => p.1 != d }

def isGrant : PendMsg → Bool
  | .grant _ => true
  | _ => false

/-- Sends a message to a die and records it in PEND. -/
def sendPend (s : State) (page d : Nat) (p : PendMsg) (i : Instr) : State :=
  sendMsg (modDir s page fun e => { e with pend := (d, p) :: e.pend }) (homeOfPage page) d i

def sharersOf (e : DirEntry) : List Nat := (List.range 8).filter fun d => e.sharers.getLsbD d

/-- The 128 bytes of a line at its home. -/
def homeLine (s : State) (line : Nat) : List Byte := readBytes s.mem (line * 128) 128

/-- Begins a request (R393, R394, R399): the messages that must be answered first. The phase of a RADV is 0 before the advance; that of
a WREQ is 1 where no die owns a sub-page of the page, whose grant covers all 16. -/
def beginReq (s : State) (page : Nat) (r : HomeReq) : State :=
  let e := entryOfPage s page
  let whole : Bool := match r with
    | .wreq _ _ => e.own.all (· == 0)
    | _ => false
  let s := setDir s { e with busy := some r, phase := if whole then 1 else 0 }
  match r with
  | .rd die line =>
    match ownerOf e (subOf line) with
    | some o => if o = die ∨ e.rounded then s
      else sendPend s page o (.revoke (subBit (subOf line))) (.revoke o page (subBit (subOf line)))
    | none => s
  | .wreq die sub =>
    if owns e die sub then s
    else
      let mask := subBit sub
      let owner := ownerOf e sub
      let s := match owner with
        | some o => sendPend s page o (.revoke mask) (.revoke o page mask)
        | none => s
      if e.rounded then s
      else ((sharersOf e).filter fun d => d != die && some d != owner).foldl (fun s d => sendPend s page d (.inv mask) (.inv d page mask)) s
  | .radv _ _ _ => ((List.range 8).filter fun d => ownMask e d != 0).foldl (fun s d => sendPend s page d .flush (.flush d page)) s
  | .recall =>
    let all : BitVec 16 := BitVec.allOnes 16
    let s := ((List.range 8).filter fun d => ownMask e d != 0).foldl (fun s d => sendPend s page d (.revoke all) (.revoke d page all)) s
    ((sharersOf e).filter fun d => ownMask e d == 0).foldl (fun s d => sendPend s page d (.inv all) (.inv d page all)) s

/-- Ends the request in service. -/
def endReq (s : State) (page : Nat) : State := modDir s page fun e => { e with busy := none, phase := 0 }

/-- The message that made a request. -/
def reqMsg (page : Nat) : HomeReq → List Instr
  | .rd die line => [.rd die line]
  | .wreq die sub => [.wreq die page sub]
  | .radv die warp rid => [.radvreq die page warp rid]
  | .recall => []

/-- A saturating count of 32 or 24 bits. -/
def satUp {w : Nat} (x : BitVec w) : BitVec w := if x = -1 then -1 else x + 1

/-- A recalled entry is free: RECALLS counts it, and the requests that waited for it, or for an entry of its home, arrive again
(R393, R403). -/
def freeEntry (s : State) (e : DirEntry) : State :=
  let home := homeOfPage e.page
  let again := (getDie s home).held
  let s := modDie s home fun x => { x with recalls := satUp x.recalls, held := [] }
  enqueue { s with dirs := s.dirs.filter fun x => x.page != e.page } (e.queue.flatMap (reqMsg e.page) ++ again)

/-- The next part of a request whose messages are all answered. -/
def stepReq (s : State) (page : Nat) (r : HomeReq) : State :=
  let e := entryOfPage s page
  let home := homeOfPage page
  match r with
  | .rd die line =>
    let s := modDir (endReq s page) page fun e => { e with sharers := e.sharers ||| sharerBit die }
    sendMsg (countMoved s (line * 128) 128 false) home die (.data die line (homeLine s line) e.round)
  | .wreq die sub =>
    let mask : BitVec 16 := if e.phase = 1 then BitVec.allOnes 16 else subBit sub
    let s := modDir (endReq s page) page fun e => { e with own := modAt e.own die (· ||| mask), sharers := e.sharers ||| sharerBit die }
    sendPend s page die (.grant mask) (.grant die page mask)
  | .radv die warp rid =>
    if e.phase = 0 then
      let r := e.round + 1
      let s := setDir s { e with round := r, wmap := 0, phase := 1 }
      let nums := if e.push then (List.range 512).filter fun i => e.wmap.getLsbD i else []
      let lines := nums.map fun i => ({ line := page * 512 + i, bytes := homeLine s (page * 512 + i) } : LineData)
      let s := lines.foldl (fun s x => countMoved s (x.line * 128) 128 false) s
      (sharersOf e).foldl (fun s d => sendPend s page d .advance (.advance d page r e.wmap lines)) s
    else sendMsg (endReq s page) home die (.radvdone page warp rid e.round)
  | .recall => freeEntry s e

/-- Serves a page's requests in arrival order, each once the one before it has completed (R395). The fuel bounds the parts. -/
def settleHome (page : Nat) : Nat → State → State
  | 0, s => s
  | n + 1, s =>
    let e := entryOfPage s page
    if !e.pend.isEmpty then s
    else
      match e.busy, e.queue with
      | some r, _ => settleHome page n (stepReq s page r)
      | none, [] => s
      | none, r :: q => settleHome page n (beginReq (setDir s { e with queue := q }) page r)

def serveHome (s : State) (page : Nat) : State := settleHome page (4 * (entryOfPage s page).queue.length + 8) s

/-- Entries that an I/O die holds at most (R393). -/
def ioEntries : Nat := 4194304

/-- The entries of a home. -/
def entriesOf (s : State) (home : Nat) : List DirEntry := s.dirs.filter fun e => homeOfPage e.page == home

/-- Whether a request for a page has to wait until its home, an I/O die, has a free entry (R393). -/
def needsEntry (s : State) (page : Nat) : Bool :=
  let home := homeOfPage page
  decide (8 ≤ home) && (getDir s page).isNone && decide (ioEntries ≤ (entriesOf s home).length)

def isRecall (r : HomeReq) : Bool := r == .recall

/-- A home recalls its least recently used entry, the last in the list, of those that serve no request if there is one; one recall runs
at a time. -/
def startRecall (s : State) (home : Nat) : State :=
  let es := entriesOf s home
  if es.any fun e => e.busy.any isRecall || e.queue.any isRecall then s
  else
    match ((es.filter fun e => e.busy.isNone && e.pend.isEmpty && e.queue.isEmpty).getLast?).orElse fun _ => es.getLast? with
    | none => s
    | some e => serveHome (modDir s e.page fun e => { e with queue := e.queue ++ [.recall] }) e.page

/-- A request arrives at the home. -/
def arriveReq (s : State) (page : Nat) (r : HomeReq) : State :=
  if needsEntry s page then
    startRecall (modDie s (homeOfPage page) fun x => { x with held := x.held ++ reqMsg page r }) (homeOfPage page)
  else
    let e := entryOfPage s page
    serveHome (setDir s { e with queue := e.queue ++ [r] }) page

def execRd (die line : Nat) (s : State) : Host.Outcome State Fault Refusal := .next (arriveReq s (line / 512) (.rd die line))
def execWreq (die page sub : Nat) (s : State) : Host.Outcome State Fault Refusal := .next (arriveReq s page (.wreq die sub))
def execRadvreq (die page warp rid : Nat) (s : State) : Host.Outcome State Fault Refusal := .next (arriveReq s page (.radv die warp rid))

/-! ## Answers at the home (R394, R397, R399) -/

/-- The message outstanding to a die is answered; a revoked owner loses its sub-pages, which HANDOFFS counts where another die
takes them. -/
def answered (s : State) (page d : Nat) : State :=
  let e := entryOfPage s page
  match pendOf e d with
  | some (.revoke m) =>
    let s := setDir s (dropPend { e with own := modAt e.own d fun x => x &&& ~~~m } d)
    let moves := match e.busy with
      | some (.wreq _ _) => true
      | _ => false
    serveHome (if moves then modDie s (homeOfPage page) fun x => { x with handoffs := satUp x.handoffs } else s) page
  | some _ => serveHome (setDir s (dropPend e d)) page
  | none => s

/-- Whether the message outstanding to a die is one that an answer of a kind answers. -/
def pendIs (s : State) (page d : Nat) (p : PendMsg → Bool) : Bool := (pendOf (entryOfPage s page) d).any p

def writeLines (s : State) (ls : List LineData) : State := ls.foldl (fun s l => writeHome s l.line l.bytes) s

/-- Whether a die holds a line of a page, and how many others. -/
def holdsPage (s : State) (d page : Nat) : Bool := (getDie s d).l2.any fun l => l.line / 512 == page
def remaining (s : State) (d line : Nat) : Nat := ((getDie s d).l2.filter fun l => l.line / 512 == line / 512 && l.line != line).length

/-- A die that holds no line of a page has left its sharer vector (R136, Table 21-1). -/
def leaveSharers (s : State) (page d : Nat) : State :=
  if holdsPage s d page then s else modDir s page fun e => { e with sharers := e.sharers &&& ~~~sharerBit d }

/-- An answer arrives. One to a message that a NOTICE has answered is discarded; any other answers the message outstanding to the
die, if it is of the answer's kind (R397). -/
def answerWith (s : State) (page d : Nat) (p : PendMsg → Bool) : State :=
  if (entryOfPage s page).void.contains d then modDir s page fun e => { e with void := e.void.erase d }
  else if pendIs s page d p then answered (leaveSharers s page d) page d
  else s

def execIack (die page : Nat) (s : State) : Host.Outcome State Fault Refusal :=
  .next (answerWith s page die fun p => match p with | .inv _ => true | _ => false)

def execRvack (die page : Nat) (lines : List LineData) (s : State) : Host.Outcome State Fault Refusal :=
  .next (answerWith (writeLines s lines) page die fun p => match p with | .revoke _ => true | _ => false)

def execFack (die page : Nat) (lines : List LineData) (s : State) : Host.Outcome State Fault Refusal :=
  .next (answerWith (writeLines (lines.foldl (fun s l => markDirty s (l.line * 128)) s) lines) page die fun p => match p with
    | .flush => true
    | _ => false)

def execAdvack (die page : Nat) (s : State) : Host.Outcome State Fault Refusal :=
  .next (answerWith s page die fun p => match p with | .advance => true | _ => false)

/-- GONE answers INV, REVOKE, FLUSH or ADVANCE. -/
def execGone (die page : Nat) (s : State) : Host.Outcome State Fault Refusal :=
  .next (answerWith s page die fun p => !isGrant p)

/-- WB: the home writes a line that the die still holds modified, which the die keeps clean, and answers (R236, R398). -/
def execWb (die line : Nat) (bytes : List Byte) (s : State) : Host.Outcome State Fault Refusal :=
  .next <|
    let s := match findL2 s die line with
      | none => s
      | some l =>
        if !l.modified then s
        else if l.bytes ≠ bytes then writeHome s line bytes
        else modDie (writeHome s line bytes) die fun x =>
          { x with l2 := mapIf (fun y => y.line == line) (fun y => { y with modified := false }) x.l2 }
    sendMsg s (homeOfPage (line / 512)) die (.wback die line)

/-- WBACK ends the die's write-back; nothing waits for it. -/
def execWback (die line : Nat) (s : State) : Host.Outcome State Fault Refusal :=
  match die, line with
  | _, _ => .next s

/-- Whether a store is held for a line in a die's L2: the die does not evict it (R397). -/
def storeHeld (s : State) (die line : Nat) : Bool := s.inflight.any fun a => a.die == die && lineOf a.cell.addr == line

/-- NOTICE reaches the home: a modified line is written; with REMAIN 0 the die has left the page, which answers an outstanding message
and withdraws an outstanding grant (R396, R397). -/
def execNotice (die line remain : Nat) (dirty : Option (List Byte)) (s : State) : Host.Outcome State Fault Refusal :=
  .next <|
    let page := line / 512
    let s := match dirty with
      | some bytes => writeHome s line bytes
      | none => s
    if remain ≠ 0 then s
    else
      let s := modDir s page fun e => { e with
        sharers := e.sharers &&& ~~~sharerBit die, own := setAt e.own die 0
        void := if (pendOf e die).any fun p => !isGrant p then die :: e.void else e.void
        withdrawn := if (pendOf e die).any isGrant then die :: e.withdrawn else e.withdrawn }
      answered s page die

/-! ## The L2 slices of a die (R9, R13, R358) -/

/-- Lines that an L2 slice of 3 MiB holds. -/
def sliceLines : Nat := 24576

/-- SLICEGRP of the segment that a line belongs to, of kind 0, 1 or 2; every slice where it belongs to none. -/
def sliceGroup (s : State) (line : Nat) : BitVec 32 :=
  let k := line * 128
  let seg (v : Vf) : Option Nat := match pageOfVf s v k with
    | some (n, _) => some n
    | none =>
      match v.segs.getD 2 none with
      | some g => if hostBase v.link + g.base ≤ k ∧ k < hostBase v.link + g.base + g.len then some 2 else none
      | none => none
  let of (v : Vf) : Option (BitVec 32) := do
    let n ← seg v
    let g ← v.segs.getD n none
    pure g.group
  (s.vfs.findSome? of).getD (BitVec.allOnes 32)

/-- The slice of a line, among those of its group. -/
def sliceOf (s : State) (line : Nat) : Nat :=
  let ns := (List.range 32).filter fun n => (sliceGroup s line).getLsbD n
  ns.getD (Sys2Proof.Config.sliceHash line % max 1 ns.length) 0

/-- The line that a die evicts: the one that has been longest in a slice that holds too many, of those that may go: none whose store is
held (R397), none that waits for pushed data, none of a page of which a line is on its way to the die (log entry 16). -/
def evictedLine (s : State) (d : Nat) : Option L2Line :=
  let ls := (getDie s d).l2
  if ls.length ≤ sliceLines then none
  else
    let coming (page : Nat) : Bool := (getDie s d).reads.any fun l => l / 512 == page
    (List.range 32).findSome? fun n =>
      let mine := ls.filter fun l => sliceOf s l.line == n
      if mine.length ≤ sliceLines then none
      else (mine.filter fun l => !l.pending && !storeHeld s d l.line && !coming (l.line / 512)).getLast?

/-- A die evicts a line: it is gone, with the mirror where it is the page's last, and a NOTICE goes to the home (R136, R396). -/
def evictLine (s : State) (d : Nat) (l : L2Line) : State :=
  let n := remaining s d l.line
  let s := dropL2 s d l.line
  let s := if n = 0 then modDie s d fun x => { x with mirrors := x.mirrors.filter fun m => m.1 != l.line / 512 } else s
  sendMsg s d (homeOf (l.line * 128)) (.notice d l.line n (if l.modified then some l.bytes else none))

/-- The dies whose slices hold too many lines evict one each. -/
def evictions (s : State) : State :=
  s.dies.zipIdx.foldl (fun s x => match evictedLine s x.2 with
    | some l => evictLine s x.2 l
    | none => s) s

/-! ## Messages at a die -/

/-- Modified lines of a page that p selects. -/
def modifiedLines (s : State) (d page : Nat) (p : Nat → Bool) : List LineData :=
  ((getDie s d).l2.filter fun l => l.modified && l.line / 512 == page && p l.line).map fun l => { line := l.line, bytes := l.bytes }

def cleanLines (s : State) (d page : Nat) (p : Nat → Bool) : State :=
  modDie s d fun x => { x with l2 := mapIf (fun l => l.line / 512 == page && p l.line) (fun l => { l with modified := false }) x.l2 }

def toHome (s : State) (d page : Nat) (i : Instr) : State := sendMsg s d (homeOfPage page) i

/-- INV: the die discards its lines of the sub-pages, or holds none of the page. -/
def execInv (die page : Nat) (mask : BitVec 16) (s : State) : Host.Outcome State Fault Refusal :=
  .next (if holdsPage s die page then toHome (dropLines s die (inSubs page mask)) die page (.iack die page)
    else toHome s die page (.gone die page))

/-- REVOKE: the owner writes back the modified lines of the sub-pages and drops its bits; off a rounded page its lines of them go, since
the new owner will write them (log entry 16). -/
def execRevoke (die page : Nat) (mask : BitVec 16) (s : State) : Host.Outcome State Fault Refusal :=
  .next <|
    let t := modDir s page fun e => { e with own := modAt e.own die fun x => x &&& ~~~mask }
    if holdsPage s die page then
      let ls := modifiedLines s die page (inSubs page mask)
      let t := cleanLines t die page (inSubs page mask)
      let t := if (entryOfPage s page).rounded then t else dropLines t die (inSubs page mask)
      toHome t die page (.rvack die page ls)
    else toHome t die page (.gone die page)

/-- FLUSH: the owner writes back its modified lines of the page and keeps them clean. -/
def execFlush (die page : Nat) (s : State) : Host.Outcome State Fault Refusal :=
  .next <|
    if holdsPage s die page then
      let ls := modifiedLines s die page fun _ => true
      toHome (cleanLines s die page fun _ => true) die page (.fack die page ls)
    else toHome s die page (.gone die page)

/-- The VF whose agent fetches a line that its die fetches by itself: the one whose page it is. -/
def vfOfLine (s : State) (line : Nat) : Nat := ((s.vfs.find? fun v => (pageOfVf s v (line * 128)).isSome).map (·.number)).getD 0

/-- Whether a run of a chunk that has been read lands in a page. -/
def landsIn (page : Nat) (c : Chunk) : Bool :=
  c.targets.any fun x => x.2.any fun p => match p with
    | .mem k _ _ => pageOf k == page
    | _ => false

/-- What is held at a die for a page is tried again: stores in flight, and chunks that land. -/
def retryHeld (s : State) (die page : Nat) : State :=
  let stores := (s.inflight.filter fun a => a.die == die && pageOf a.cell.addr == page).map fun a => Instr.accessPerformed a.id
  let chunks := ((allBlocks s).filter fun b => b.uid != 0 && b.die == die).flatMap fun b =>
    b.jobs.flatMap fun j => (j.begun.filter (landsIn page)).map fun c => Instr.sluiceChunkLand b.uid j.num c.num
  enqueue s (stores ++ chunks)

/-- On a rounded page a die that takes sub-pages fetches again its lines of them that are older than the mirror (R142), or that have been
written at the home in this round, so that no other die's store is lost (log entry 11, DEDUCED: R120). -/
def refetchOld (s : State) (die page : Nat) (mask : BitVec 16) : State :=
  let e := entryOfPage s page
  let m := (mirrorOf s die page).getD e.round
  let old (l : L2Line) : Bool := inSubs page mask l.line && !l.modified && (!roundGe l.f m || e.wmap.getLsbD (l.line % 512))
  let lines := ((getDie s die).l2.filter old).map (·.line)
  if !e.rounded then s
  else
    let s := modDie s die fun x => { x with l2 := mapIf old (fun l => { l with f := m - 1 }) x.l2 }
    lines.foldl (fun s line => askLine s (vfOfLine s line) die (line * 128) 0) s

/-- GRANT: what is held for the page is tried again; a die that holds no line of the page sends its WREQ again while a store waits for
it (R397). -/
def execGrant (die page : Nat) (mask : BitVec 16) (s : State) : Host.Outcome State Fault Refusal :=
  .next <|
    let s := modDir s page fun e =>
      if e.withdrawn.contains die then { e with withdrawn := e.withdrawn.erase die }
      else if (pendOf e die).any isGrant then dropPend e die
      else e
    let s := modDie s die fun x => { x with wants := x.wants.filter fun w => !(w.1 == page && mask.getLsbD w.2) }
    let s := if holdsPage s die page then retryHeld (refetchOld s die page mask) die page
      else
        match s.inflight.find? fun a => a.die == die && pageOf a.cell.addr == page with
        | none => s
        | some a => askOwn s die a.cell.addr a.cell.attr
    serveHome s page

/-- Gives the lanes that wait for pushed data of a line their values; a result with no lane left to wait for is ready (R139). -/
def fillWaits (die line : Nat) (s : State) : State :=
  let value (w : Nat × Nat × Nat × Ty) : Entry :=
    entryOf (loadVal w.2.2.2 (match findL2 s die line with | some l => (l.bytes.drop (w.2.1 % 128)).take w.2.2.1 | none => []))
  let hit (w : Nat × Nat × Nat × Ty) : Bool := w.2.2.1 != 0 && lineOf w.2.1 == line
  let fill (r : PendRes) : PendRes :=
    let vals := r.vals.map fun row => row.mapIdx fun l e => match r.lineWaits.find? fun w => hit w && w.1 == l with
      | some w => value w
      | none => e
    let left := r.lineWaits.filter fun w => !hit w
    { r with vals := vals, lineWaits := left, ready := r.ready || (left.isEmpty && r.holds == 0 && r.lanesLeft.isEmpty) }
  let waits (w : Warp) : List (Nat × Nat) :=
    if (getBlock s w.block).any fun b => b.die == die then (w.pend.filter fun r => r.lineWaits.any hit).map fun r => (w.uid, r.rid) else []
  let ids := (allWarps s).flatMap waits
  let s := mapWarps s fun w => { w with pend := mapIf (fun r => ids.contains (w.uid, r.rid)) fill w.pend }
  enqueue s (ids.map fun x => .resultArrival x.1 x.2)

/-- Whether a die still waits for pushed data of a page. -/
def hasPending (s : State) (d page : Nat) : Bool := (getDie s d).l2.any fun l => l.line / 512 == page && l.pending

/-- A line's data reaches a die, with the mirror where it has none (R136). A line that the die holds modified stays its own (R120); off a
rounded page data of a sub-page that another die has come to own is dropped, and whatever needs it asks again (log entry 11). -/
def takeData (s : State) (die line : Nat) (bytes : List Byte) (f : BitVec 32) : State :=
  let e := entryOfPage s (line / 512)
  let s := modDie s die fun x => { x with reads := x.reads.erase line }
  if !e.rounded && (ownerOf e (subOf line)).any (· != die) then s
  else
    let own := (findL2 s die line).any fun l => l.modified
    let s := if own then modDie s die fun x => { x with l2 := mapIf (fun l => l.line == line) (fun l => { l with pending := false }) x.l2 }
      else putL2 s die { line := line, bytes := bytes, modified := false, f := f, pending := false }
    let s := if e.rounded && (mirrorOf s die e.page).isNone then setMirror s die e.page f else s
    fillWaits die line s

/-- A prefetched line that has come into the die's L2 goes into the cache-way banks of the blocks that asked for it (R236). -/
def fillPrefs (s : State) (die line : Nat) : State :=
  ((allBlocks s).filter fun b => b.uid != 0 && b.die == die && b.prefs.contains line).foldl (fun s b =>
    let s := modBlock s b.uid fun b => { b with prefs := b.prefs.filter (· != line) }
    match findL2 s die line with
    | some l => cacheLineOf s b.uid line l.bytes
    | none => s) s

/-- DATA: the line arrives; once the last pending line of an advance is filled the die acknowledges it (R136, R138). -/
def execData (die line : Nat) (bytes : List Byte) (f : BitVec 32) (s : State) : Host.Outcome State Fault Refusal :=
  .next <|
    let page := line / 512
    let was := hasPending s die page
    let s := fillPrefs (takeData s die line bytes f) die line
    retryHeld (if was && !hasPending s die page then toHome s die page (.advack die page) else s) die page

/-- ADVANCE: applied in one step; pushed lines take their data, lines whose data has not come are pending, and the die
acknowledges when none is (R138, R399). Pushed lines that it does not hold are dropped, which R138 allows (log entry 48, DESIGN CHOICE). -/
def execAdvance (die page : Nat) (round : BitVec 32) (map : BitVec 512) (pushed : List LineData) (s : State) :
    Host.Outcome State Fault Refusal :=
  .next <|
    if !holdsPage s die page then
      toHome (modDie s die fun x => { x with mirrors := x.mirrors.filter fun m => m.1 != page }) die page (.gone die page)
    else
      let push := (entryOfPage s page).push
      let apply (l : L2Line) : L2Line :=
        if !map.getLsbD (l.line % 512) then (if l.f = round - 1 then { l with f := round } else l)
        else if push && !l.modified then
          match pushed.find? fun p => p.line == l.line with
          | some p => { l with bytes := p.bytes, f := round, pending := false }
          | none => { l with pending := true }
        else l
      let s := modDie s die fun x => { x with l2 := mapIf (fun l => l.line / 512 == page) apply x.l2 }
      let s := setMirror s die page round
      let s := pushed.foldl (fun s p => fillWaits die p.line s) s
      if hasPending s die page then s else toHome s die page (.advack die page)

/-- RADVDONE: the active lanes of the waiting RADV receive the round (R137). -/
def execRadvdone (page warp rid : Nat) (round : BitVec 32) (s : State) : Host.Outcome State Fault Refusal :=
  match page with
  | _ => .next <|
    match (getWarp s warp).bind fun w => (w.pend.find? fun r => r.rid == rid).map fun r => (w, r) with
    | none => s
    | some (w, r) =>
      let value (l : Nat) (e : Entry) : Entry := if r.lineWaits.any fun x => x.1 == l then ⟨zx64 round, .n32, none⟩ else e
      let s := modWarp s warp fun w => { w with
        pend := mapIf (fun x => x.rid == rid) (fun x => { x with vals := x.vals.map fun row => row.mapIdx value, lineWaits := [], ready := true }) w.pend }
      enqueue (countEvent s (warpVf s w) 0x0F 1) [.resultArrival warp rid]

/-! ## Stores in flight perform (R33, R394) -/

/-- What may go on once a store has performed: the save of its warp, the retirement of its gang, or, where its warp has gone, the
completion of a launch. -/
def afterStore (s : State) (a : Access) : State :=
  match getWarp s a.warp with
  | some w => tryRetire (noteSaved s a.warp) (((getBlock s w.block).map (·.gang)).getD 0)
  | none => enqueue s ((s.launches.filter fun l => l.vf == a.vf && !l.completed).map fun l => .launchCompletion l.vf l.id)

/-- ACCESS_PERFORMED: a store in flight performs, earlier ones of the warp to its line first; where the die lacks the sub-page or the
line it asks the home, and the store stays held until the answer arrives (R394). -/
def execAccessPerformed (id : Nat) (s : State) : Host.Outcome State Fault Refusal :=
  .next <|
    match s.inflight.find? fun a => a.id == id with
    | none => s
    | some a =>
      if canStore s a.die a.cell.addr then afterStore (performAccess s a) a
      else askStore s a.vf a.die a.cell.addr a.cell.attr

/-! ## Statistics (R403) -/

/-- CDS_STAT_CLEAR. -/
def execCdsStatClear (die : Nat) (val : Word) (s : State) : Host.Outcome State Fault Refusal :=
  .next (if bit val 63 then modDie s die fun x => { x with handoffs := 0, recalls := 0 } else s)

end Sys2Proof.Machine
end

