-- ==== Sys2Proof/Machine/Links.lean ====
section
/-! DEFINITION. Chain links: retrain, failover, delivery in route order, and their statistics (R14, R365, R367, R400 to R403). -/

namespace Sys2Proof.Machine

/-- Neighbour of a compute die on a side (Table 01-4): 0 north, 1 south, 2 west, 3 east; 8 and 9 are G0 and G1. -/
def neighbour (die side : Nat) : Nat :=
  match side with
  | 0 | 1 => (die + 4) % 8
  | 2 => if die % 4 = 0 then 8 else die - 1
  | _ => if die % 4 = 3 then 9 else die + 1

/-- The other end of a link between two compute dies: the south side of a row-0 die joins the north side of the row-1 die (R14). -/
def otherEnd (link : Nat) : Option Nat :=
  let n := neighbour (link / 4) (link % 4)
  if 8 ≤ n then none else some (4 * n + match link % 4 with | 0 => 1 | 1 => 0 | 2 => 3 | _ => 2)

def getLink (s : State) (i : Nat) : Link := s.links.getD i .reset

/-- Changes a link at each of its ends. -/
def modLink (s : State) (i : Nat) (f : Link → Link) : State :=
  let ls := modAt s.links i f
  { s with links := match otherEnd i with | some j => modAt ls j f | none => ls }

def sameLink (i j : Nat) : Bool := i == j || otherEnd i == some j

/-- FLIT_CRC_ERROR, which stands for the loss of lock too: a receiver, or a link that loses lock, begins a retrain, which fails the link if
it has not ended 2 µs later (R401, R402). -/
def execFlitCrcError (link : Nat) (s : State) : Host.Outcome State Fault Refusal :=
  .next <|
    let x := getLink s link
    if 32 ≤ link ∨ x.retraining ∨ x.failed then s
    else after (modLink s link fun x => { x with retraining := true, retrains := satInc x.retrains }) 5400 (.linkFailover link)

def isFailover (link : Nat) : Instr → Bool
  | .linkFailover j => sameLink link j
  | _ => false

/-- Links of the way from a compute die to a die in the same column or to the I/O die beside it: along the row to the column, then
down or up it; the fuel is the number of hops (log entry 16). -/
def hopsFrom : Nat → Nat → Nat → List Nat
  | 0, _, _ => []
  | n + 1, d, dst =>
    if d = dst then []
    else
      let col := if dst = 8 then -1 else if dst = 9 then 4 else ((dst % 4 : Nat) : Int)
      let side := if ((d % 4 : Nat) : Int) < col then 3 else if col < ((d % 4 : Nat) : Int) then 2 else if d < 4 then 1 else 0
      let next := neighbour d side
      (4 * d + side) :: if 8 ≤ next then [] else hopsFrom n next dst

/-- Whether a link carries packets. -/
def linkUp (s : State) (link : Nat) : Bool := !(getLink s link).failed && !(getLink s link).closed

/-- Whether the dies of a column are joined by a link that carries packets. -/
def columnUp (s : State) (die : Nat) : Bool := linkUp s (4 * die) || linkUp s (4 * die + 1)

/-- Whether a failover path for a link of a die stays within its partition (R402). -/
def failoverPath (s : State) (link : Nat) : Bool :=
  let d := link / 4
  let side := link % 4
  let n := neighbour d side
  let across := (d + 4) % 8
  let part (x : Nat) : Nat := s.datum.partDie.getD x 0
  if side < 2 then linkUp s (4 * d + (1 - side))
  else if 8 ≤ n then part across == part d && columnUp s d && linkUp s (4 * across + side)
  else
    part across == part d && part ((n + 4) % 8) == part d && columnUp s d && columnUp s n && linkUp s (4 * across + side)

/-- A link of a die's column that carries packets. -/
def columnLink (s : State) (die : Nat) : Nat := if linkUp s (4 * die) then 4 * die else 4 * die + 1

/-- The links that a packet takes for one link of its way: those of the failover path where it has failed; none where no such path stays
within the partition (R402). -/
def detour (s : State) (link : Nat) : Option (List Nat) :=
  let d := link / 4
  let side := link % 4
  let n := neighbour d side
  let across := 4 * ((d + 4) % 8) + side
  if !(getLink s link).failed then some [link]
  else if !failoverPath s link then none
  else if side < 2 then some [4 * d + (1 - side)]
  else if 8 ≤ n then some [columnLink s d, across]
  else some [columnLink s d, across, columnLink s n]

/-- Links of a route, the same ones in both directions; none where a link has failed that no path replaces. -/
def routeLinks (s : State) (src dst : Nat) : Option (List Nat) :=
  let way := if src < 8 then hopsFrom 5 src dst else if dst < 8 then hopsFrom 5 dst src else []
  (way.mapM (detour s)).map fun ls => ls.flatMap id

/-- Whether a route delivers nothing now: a link on it retrains, and its packets are delivered once the replay has brought them whole, or
over the failover path; or a failed link has no such path (R401, R402). -/
def routeStopped (s : State) (src dst : Nat) : Bool :=
  match routeLinks s src dst with
  | none => true
  | some ls => ls.any fun i => (getLink s i).retraining

/-- The packets that still wait on their routes are delivered, each route's in sequence. -/
def resumeRoutes (s : State) : State := enqueue s (s.routes.flatMap fun r => r.packets.map fun p => .packetDelivery r.src r.dst p.1)

/-- RETRAIN_END: the flits after the last acknowledged one are sent again (R401). -/
def execRetrainEnd (link flits : Nat) (s : State) : Host.Outcome State Fault Refusal :=
  .next <|
    if !(getLink s link).retraining then s
    else
      let add (x : BitVec 16) : BitVec 16 := BitVec.ofNat 16 (min 0xFFFF (x.toNat + flits))
      let s := modLink s link fun x => { x with retraining := false, replays := add x.replays }
      resumeRoutes { s with timers := s.timers.filter fun t => !isFailover link t.2 }

/-- LINK_FAILOVER: the retrain has not ended in time; the link fails, and its routes use the failover path. Without one the
partition's gangs stop (R365, R402). -/
def execLinkFailover (link : Nat) (s : State) : Host.Outcome State Fault Refusal :=
  .next <|
    if !(getLink s link).retraining then s
    else
      let s := resumeRoutes (modLink s link fun x => { x with retraining := false, failed := true })
      let d := link / 4
      let p := s.datum.partDie.getD d 0
      let n := neighbour d (link % 4)
      let shared := 8 ≤ n ∨ s.datum.partDie.getD n 0 = p
      if shared ∧ !failoverPath s link then stopOwners s 11 (.partition p) (BitVec.ofNat 64 link) else s

/-- PACKET_DELIVERY: the destination of a route delivers its next packet, whole and once (R400 to R402); a packet that meets a link
that the firewall has closed since it was sent is dropped and counted (R367). -/
def execPacketDelivery (src dst seq : Nat) (s : State) : Host.Outcome State Fault Refusal :=
  .next <|
    match s.routes.find? fun r => r.src == src && r.dst == dst with
    | none => s
    | some r =>
      match r.packets.find? fun p => p.1 == seq with
      | none => s
      | some p =>
        if seq ≠ r.expect ∨ routeStopped s src dst then s
        else
          let r' := { r with expect := r.expect + 1, packets := r.packets.filter fun p => p.1 != seq }
          let s := { s with routes := r' :: s.routes.filter fun x => !(x.src == src && x.dst == dst) }
          if linksClosed s src dst then countDrop s else enqueue s [p.2]

/-- LNK_STAT_CLEAR (R403). -/
def execLnkStatClear (link : Nat) (val : Word) (s : State) : Host.Outcome State Fault Refusal :=
  .next (if bit val 63 then { s with links := modAt s.links link fun x => { x with retrains := 0, replays := 0 } } else s)

/-- FWL_DROP_CLEAR (Table 19-12). -/
def execFwlDropClear (val : Word) (s : State) : Host.Outcome State Fault Refusal :=
  .next (if bit val 63 then { s with datum := { s.datum with drop := 0 } } else s)

end Sys2Proof.Machine
end

