-- ==== Sys2Proof/Machine/Loader.lean ====
section
/-! DEFINITION. Registration of kernel objects: the header of Table 16-1 and the checks of Table 16-3 (R302 to R313). -/

namespace Sys2Proof.Machine

/-! ## Reading a VF's memory for the dispatcher -/

/-- Runs of one 4 KiB page each of n bytes at a. -/
def vfRuns (a n : Nat) : Nat → List (Nat × Nat)
  | 0 => []
  | fuel + 1 => if n = 0 then [] else
      let m := min n (4096 - a % 4096)
      (a, m) :: vfRuns (a + m) (n - m) fuel

/-- n bytes of a VF's memory, translated page by page, or the first fault's cause; a poisoned word is no bytes (log entry 46). -/
def readVf (s : State) (vf : Nat) (va : Word) (n : Nat) : Except (BitVec 10) (List Byte) :=
  match vfRuns va.toNat n (n / 4096 + 2) with
  | xs => xs.foldlM (fun (acc : List Byte) p =>
      if !canonical (BitVec.ofNat 64 p.1) then .error 0x141
      else
        match translateClean s vf (BitVec.ofNat 64 p.1) 0 with
        | .error c => .error c
        | .ok (k, _, _) => if hasPoison s k p.2 then .error (poisonCause k) else .ok (acc ++ coherentBytes s k p.2)) []

/-- Counts such a read: the walks and the bytes that move (Table 22-3). -/
def countVf (s : State) (vf : Nat) (va : Word) (n : Nat) : State :=
  (vfRuns va.toNat n (n / 4096 + 2)).foldl (fun s p =>
    match translate s vf (BitVec.ofNat 64 p.1) 0 with
    | .ok (k, _, _) => countMoved (countWalk s vf (BitVec.ofNat 64 p.1)) k p.2 false
    | .error _ => s) s

/-- Whether every page of n bytes of a VF is readable. -/
def readableVf (s : State) (vf : Nat) (va : Nat) : Nat → Bool
  | 0 => true
  | pages + 1 =>
    canonical (BitVec.ofNat 64 va) && (translateClean s vf (BitVec.ofNat 64 va) 0).toBool && readableVf s vf (va + 4096) pages

/-! ## The header -/

def depthOf (c : Nat) : Nat := match c with | 0 => 8 | 1 => 16 | _ => 32
def frameOfCode (c : Nat) : Nat := match c with | 0 => 0 | 1 => 4 | 2 => 8 | 3 => 16 | _ => 32
def bankModeOf (c : Nat) : BankMode := match c with | 0 => .off | 1 => .cache | 2 => .scratch | _ => .fifo
def optOffset (n : Nat) : Option Nat := if n = 0xFFFFFFFF then none else some n

/-- Slots that a preload mask needs (Table 03-7). -/
def preloadSlots (p : BitVec 9) : Nat := popNat 8 (p.toNat % 256) + (if p.getLsbD 8 then 3 else 0)

/-- The kernel that an object's bytes describe (R303 to R305). -/
def kernelOf (vf : Nat) (handle obj stkBase : Word) (stkSlots : Nat) (o : List Byte) : Kernel :=
  let f := byteField o
  { vf := vf, handle := handle, obj := obj, stepping := BitVec.ofNat 16 (f 6 2), depth := depthOf (f 16 1), frame := frameOfCode (f 17 1)
    preload := BitVec.ofNat 9 (f 18 2), warps := f 20 1 % 64, prio := f 20 1 / 64, gang := f 21 1, mode := BitVec.ofNat 8 (f 22 1)
    strict := f 23 1 % 2 == 1, idemp := f 23 1 / 2 % 2 == 1, window := f 24 2, bplane := f 26 2, ndiv := f 28 2, ntiles := f 30 1
    callstk := f 32 4, scrlen := f 36 4, matrix := if f 30 1 = 0 then none else optOffset (f 40 4), handler := optOffset (f 44 4)
    barmask := BitVec.ofNat 32 (f 48 4), fifomask := BitVec.ofNat 8 (f 52 1)
    bankmap := (List.range 256).map fun i => bankModeOf (f (64 + i / 4) 1 / 4 ^ (i % 4) % 4)
    baraddr := (List.range 32).map fun i => BitVec.ofNat 64 (f (128 + 4 * i) 4)
    fiforun := (List.range 8).map fun i => (f (256 + 2 * i) 1, f (257 + 2 * i) 1)
    codeOff := f 272 4, codeLen := f 276 4
    recipes := (List.range (f 284 2)).map fun i => (f (f 280 4 + 8 * i) 4, f (f 280 4 + 8 * i + 4) 2)
    functions := (List.range (f 292 2)).map fun i => (f (f 288 4 + 8 * i) 4, f (f 288 4 + 8 * i + 4) 1)
    dataOff := f 304 4, dataLen := f 308 4, hash := (o.drop 312).take 32, stkBase := stkBase, stkSlots := stkSlots, live := true }

/-! ## The checks of Table 16-3 -/

/-- The SM3 digest, of 32 bytes (log entry 9). -/
def sm3 (bs : List Byte) : List Byte := fit 32 (Sys2Proof.Config.sm3 bs)

/-- Bytes of an object are zero. -/
def zeroBytes (o : List Byte) (lo n : Nat) : Bool := ((o.drop lo).take n).all (· == 0)

/-- The zero bytes of every entry of the recipe, function and relocation tables (R304 to R306). -/
def tablesClean (o : List Byte) : Bool :=
  let f := byteField o
  let clean (off size n at_ len : Nat) : Bool := (List.range n).all fun i => zeroBytes o (off + size * i + at_) len
  clean (f 280 4) 8 (f 284 2) 6 2 && clean (f 288 4) 8 (f 292 2) 5 3 && clean (f 296 4) 16 (f 300 2) 5 3

/-- Status 2: header fields in their ranges, zero fields zero. -/
def headerOk (o : List Byte) (k : Kernel) : Bool :=
  let f := byteField o
  decide (f 16 1 ≤ 2 ∧ f 17 1 ≤ 4 ∧ f 18 2 < 512 ∧ 1 ≤ k.warps ∧ k.warps ≤ 32 ∧ k.prio ≤ 2) && (k.gang == 1 || k.gang == 2 || k.gang == 4) &&
    f 22 1 % 4 != 3 && decide (f 23 1 < 4 ∧ k.window ≤ 256 ∧ k.bplane ≤ 32 ∧ 2 ≤ k.ndiv ∧ k.ndiv ≤ 4096 ∧ k.ntiles ≤ 4) &&
    zeroBytes o 31 1 && k.callstk % 64 == 0 && decide (k.callstk ≤ 2 ^ 24) && (k.ntiles != 0 || f 40 4 == 0xFFFFFFFF) &&
    zeroBytes o 53 11 && k.codeLen % 8 == 0 && zeroBytes o 286 2 && zeroBytes o 294 2 && zeroBytes o 302 2 && zeroBytes o 344 8 && tablesClean o

/-- Sections as offset and length: code, recipe table, function table, relocation table, data. -/
def sections (o : List Byte) : List (Nat × Nat) :=
  let f := byteField o
  [(f 272 4, f 276 4), (f 280 4, 8 * f 284 2), (f 288 4, 8 * f 292 2), (f 296 4, 16 * f 300 2), (f 304 4, f 308 4)]

def apart (x y : Nat × Nat) : Bool := x.2 == 0 || y.2 == 0 || decide (x.1 + x.2 ≤ y.1) || decide (y.1 + y.2 ≤ x.1)

/-- Each of a list stands apart from those after it. -/
def allApart : List (Nat × Nat) → Bool
  | [] => true
  | x :: xs => xs.all (apart x) && allApart xs

/-- Status 4: sections aligned, inside SIZE and apart. -/
def sectionsOk (o : List Byte) (size : Nat) : Bool :=
  ((sections o).all fun x => if x.2 = 0 then x.1 == 0 else x.1 % 8 == 0 && decide (352 ≤ x.1 ∧ x.1 + x.2 ≤ size)) && allApart (sections o)

def relocs (o : List Byte) : List (Nat × Nat) :=
  (List.range (byteField o 300 2)).map fun i => (byteField o (byteField o 296 4 + 16 * i) 4, byteField o (byteField o 296 4 + 16 * i + 4) 1)

def codeOffsetOk (k : Kernel) (n : Nat) : Bool := n % 8 == 0 && decide (n < k.codeLen)

def ascending : List (Nat × Nat) → Bool
  | x :: y :: xs => decide (x.1 < y.1) && ascending (y :: xs)
  | _ => true

/-- Status 5: offsets inside the code, function offsets ascending, recipes inside the object apart from the other sections. -/
def offsetsOk (o : List Byte) (size : Nat) (k : Kernel) : Bool :=
  (k.ntiles == 0 || k.matrix.any (codeOffsetOk k)) && k.handler.all (codeOffsetOk k) &&
    (k.functions.all fun x => codeOffsetOk k x.1 && [0, 4, 8, 16, 32].contains x.2) && ascending k.functions &&
    ((relocs o).all fun x => codeOffsetOk k x.1 && decide (x.1 + 32 ≤ k.codeLen)) &&
    k.recipes.all fun r => r.2 == 0 || (r.1 % 8 == 0 && decide (352 ≤ r.1 ∧ r.1 + 8 * r.2 ≤ size) && (sections o).all (apart (r.1, 8 * r.2)))

/-- Status 6: the four words of every relocation are SMOVI.raw of one scalar. -/
def relocsOk (o : List Byte) (k : Kernel) : Bool :=
  let dest (at_ : Nat) : Option (BitVec 5) := match decode false (BitVec.ofNat 64 (byteField o (k.codeOff + at_) 8)) with
    | .ok (.smovi .raw sd sa _ _) => if sd = sa then some sd else none
    | _ => none
  (relocs o).all fun x => (x.2 == 1 || x.2 == 2) && (dest x.1).isSome && [8, 16, 24].all fun j => dest (x.1 + j) == dest x.1

/-- Status 7: FIFO runs, barriers and scratch. -/
def banksOk (k : Kernel) : Bool :=
  let fifo (i : Nat) : Bool :=
    let r := k.fiforun.getD i (0, 0)
    !k.fifomask.getLsbD i || (decide (r.1 ≤ r.2 ∧ r.2 < k.window) && (List.range (r.2 + 1 - r.1)).all fun j => k.bankmap.getD (r.1 + j) .off == .fifo)
  let bar (i : Nat) : Bool :=
    let a := (k.baraddr.getD i 0).toNat
    !k.barmask.getLsbD i || (a % 16 == 0 && decide (a % 2 ^ 20 + 16 ≤ k.scrlen) &&
      if i < 16 then decide (a < 2 ^ 20) else decide (a < 2 ^ 22 ∧ a / 2 ^ 20 < k.gang ∧ 1 < k.gang))
  let scratch := ((k.bankmap.take k.window).filter (· == .scratch)).length
  (List.range 8).all fifo && (List.range 32).all bar && decide (k.scrlen ≤ 4096 * scratch)

/-- The object as the digest takes it: CODEHASH and the relocated immediates read as zero (R308). -/
def hashedBytes (o : List Byte) (k : Kernel) : List Byte :=
  let clear (n m : Nat) (xs : List Byte) : List Byte := xs.take n ++ List.replicate (min m (xs.length - n)) 0 ++ xs.drop (n + m)
  (relocs o).foldl (fun xs r => [0, 8, 16, 24].foldl (fun xs j => clearImm xs (k.codeOff + r.1 + j)) xs) (clear 312 32 o)
where
  /-- The imm16 field, bits 25 to 10 (R157), of the word at an offset reads as zero. -/
  clearImm (xs : List Byte) (n : Nat) : List Byte := modAt (setAt (modAt xs (n + 1) (· &&& 0x03)) (n + 2) 0) (n + 3) (· &&& 0xFC)

/-- Status 10: the kernel can never be placed. -/
def neverPlaced (v : Vf) (k : Kernel) : Bool :=
  decide (v.policy.bankCount < k.window) || decide (v.policy.bplaneKib < k.bplane) ||
    (needsStack k && decide (k.stkSlots < k.warps * k.gang))

/-- The status of an object whose header reads as `head`, in the order of Table 16-3, and its kernel. -/
def registerStatus (s : State) (v : Vf) (obj stkBase : Word) (stkSlots : Nat) : Nat × Kernel :=
  match readVf s v.number obj 352 with
  | .error _ => (11, .empty)
  | .ok head =>
    let size := byteField head 8 8
    if byteField head 0 4 ≠ 0x014F4B4D ∨ byteField head 4 2 ≠ 1 ∨ size < 352 ∨
        !readableVf s v.number (obj.toNat / 4096 * 4096) ((obj.toNat % 4096 + size + 4095) / 4096) then (1, .empty)
    else
      match readVf s v.number obj size with
      | .error _ => (1, .empty)
      | .ok o =>
        let k := kernelOf v.number (BitVec.ofNat 64 v.nextKernel) obj stkBase stkSlots o
        let status :=
          if !headerOk o k then 2
          else if k.frame < preloadSlots k.preload then 3
          else if !sectionsOk o size then 4
          else if !offsetsOk o size k then 5
          else if !relocsOk o k then 6
          else if !banksOk k then 7
          else if sm3 (hashedBytes o k) ≠ k.hash then 8
          else if !v.policy.hashes.contains k.hash then 9
          else if neverPlaced v k then 10
          else 0
        (status, k)

/-- A registration record: retires a handle, or registers an object, whose checks come before that of the record's reserved bytes (R307,
R308, R310). Answers result and status. -/
def registerRecord (s : State) (v : Vf) (r : List Byte) : Nat × Nat × State :=
  let obj : Word := BitVec.ofNat 64 (byteField r 0 8)
  let retire : Word := BitVec.ofNat 64 (byteField r 24 8)
  if retire ≠ 0 then
    if zeroBytes r 20 4 ∧ obj = 0 ∧ ((getKernel s v.number retire).any (·.live)) then
      (retire.toNat, 0, { s with kernels := mapIf (fun k => k.vf == v.number && k.handle == retire) (fun k => { k with live := false }) s.kernels })
    else (0, 11, s)
  else
    let (status, k) := registerStatus s v obj (BitVec.ofNat 64 (byteField r 8 8)) (byteField r 16 4)
    let size := match readVf s v.number obj 352 with
      | .ok head => if status = 1 then 352 else byteField head 8 8
      | .error _ => 0
    let s := countVf s v.number obj size
    if status = 0 ∧ !zeroBytes r 20 4 then (0, 11, s)
    else if status = 0 then
      (k.handle.toNat, 0, modVf { s with kernels := s.kernels ++ [k] } v.number fun v => { v with nextKernel := v.nextKernel + 1 })
    else (0, status, s)

end Sys2Proof.Machine
end

