-- ==== Sys2Proof/Machine/HostIo.lean ====
section
/-! DEFINITION. Host links: the inbound ordering point, the submission and completion rings, and their registers (R331 to R339,
R380). -/

namespace Sys2Proof.Machine

def modHif (s : State) (vf : Nat) (f : Hif → Hif) : State := modVf s vf fun v => { v with hif := f v.hif }

/-! ## What a link offers (R330) -/

/-- What the capability structures of a host link give (Table 18-1): Max payload and Max read request in bytes, outstanding non-posted
requests, Relaxed and ID-Based Ordering, MSI-X vectors of a VF and of a PF, CXL.io with CXL.cache, CXL.mem. -/
structure LinkOptions where
  maxPayload : Nat
  maxRead : Nat
  nonPosted : Nat
  relaxed : Bool
  idBased : Bool
  vfVectors : Nat
  pfVectors : Nat
  cxlCache : Bool
  cxlMem : Bool
  deriving DecidableEq, Repr

/-- Table 18-1. -/
def linkOptions : LinkOptions :=
  { maxPayload := 4096, maxRead := 4096, nonPosted := 8192, relaxed := true, idBased := false, vfVectors := 2, pfVectors := 32
    cxlCache := true, cxlMem := false }

/-- Vectors of a function's MSI-X table. -/
def msixVectors (fn : Nat) : Nat := if fn < 1000 then linkOptions.vfVectors else linkOptions.pfVectors

/-- Sends an MSI-X vector that a function has; PF n is function 1000 + n of the list. -/
def sendMsix (s : State) (fn vec : Nat) : State := if vec < msixVectors fn then { s with msix := s.msix ++ [(fn, vec)] } else s

/-! ## The submission ring (R332, R333, R335) -/

/-- A ring stops with a reason of Table 18-6; MSI-X vector 1 is sent. -/
def ringFault (s : State) (vf : Nat) (reason : BitVec 3) (cause : BitVec 10) : State :=
  sendMsix (modHif s vf fun h => { h with fault := true, reason := reason, cause := cause }) vf 1

/-- Whether the dispatcher may process an entry of a VF's ring now (R333, R334, R363). -/
def ringReady (v : Vf) : Bool :=
  v.hif.enable && !v.hif.fault && v.hif.sqHead != v.hif.sqTail && v.st == .running && decide (v.hif.waiting.length ≤ 256)

/-- The bytes of a VF's ring at a virtual address, read as its loads are. -/
def ringBytes (s : State) (vf : Nat) (va : Word) (n : Nat) : Except (BitVec 10) (List Byte) := readVf s vf va n

/-- Address of the entry at HEAD (R333). -/
def entryVa (v : Vf) : Word := v.hif.sqBase + BitVec.ofNat 64 (128 * (v.hif.sqHead.toNat % 2 ^ v.hif.sqLog2.toNat))

def headEntry (s : State) (v : Vf) : Except (BitVec 10) (List Byte) := ringBytes s v.number (entryVa v) 128

/-- The event that processes an entry of a TYPE. -/
def submitEvent (vf type : Nat) : Instr :=
  match type with
  | 0 => .submitNoop vf
  | 2 => .submitRegistration vf
  | _ => .submitLaunch vf

/-- Looks at the next entry of a VF's ring and sets off its processing; a read fault stops the ring. -/
def pumpRing (s : State) (vf : Nat) : State :=
  match getVf s vf with
  | none => s
  | some v =>
    if !ringReady v then s
    else
      match headEntry s v with
      | .error c => ringFault s vf 2 c
      | .ok e => enqueue (countVf s vf (entryVa v) 128) [submitEvent vf (byteField e 64 1)]

/-- HEAD advances, and the next entry is looked at. -/
def consumeEntry (s : State) (vf : Nat) : State := pumpRing (modHif s vf fun h => { h with sqHead := h.sqHead + 1 }) vf

/-- Whether every reserved byte of an entry is zero, its body included where the TYPE gives it zeros (Table 18-3). -/
def entryClean (e : List Byte) : Bool :=
  zeroBytes e 65 7 && zeroBytes e 80 48 &&
    match byteField e 64 1 with
    | 0 => zeroBytes e 0 64
    | 2 => zeroBytes e 32 32
    | _ => true

def tagOf (e : List Byte) : Word := BitVec.ofNat 64 (byteField e 72 8)

/-- Processes the entry at HEAD by `f`, where the ring may and its TYPE is one of `types`; an entry that has another TYPE by now is
processed by the event of that TYPE. -/
def processEntry (s : State) (vf : Nat) (types : Nat → Bool) (f : Vf → List Byte → State) : State :=
  match getVf s vf with
  | none => s
  | some v =>
    if !ringReady v then s
    else
      match headEntry s v with
      | .error c => ringFault s vf 2 c
      | .ok e => if types (byteField e 64 1) then consumeEntry (f v e) vf else enqueue s [submitEvent vf (byteField e 64 1)]

def execSubmitNoop (vf : Nat) (s : State) : Host.Outcome State Fault Refusal :=
  .next (processEntry s vf (· == 0) fun v e =>
    queueCompletion s v.number (completionEntry (tagOf e) 0 (if entryClean e then 0 else 0x10A) 1 0))

/-- SUBMIT_LAUNCH: the record is checked and submitted as LAUNCH does; a reserved TYPE comes here and is refused. -/
def execSubmitLaunch (vf : Nat) (s : State) : Host.Outcome State Fault Refusal :=
  .next (processEntry s vf (fun t => t != 0 && t != 2) fun v e =>
    let no (c : BitVec 10) : State := queueCompletion s v.number (completionEntry (tagOf e) 0 c.toNat 1 0)
    if byteField e 64 1 ≠ 1 ∨ !entryClean e then no 0x10A
    else
      match checkLaunch s v (e.take 64) (tagOf e) with
      | .error r => no (launchCause r)
      | .ok l => queueCompletion (submit s v l) v.number (completionEntry (tagOf e) (BitVec.ofNat 64 l.id) 0 1 0))

def execSubmitRegistration (vf : Nat) (s : State) : Host.Outcome State Fault Refusal :=
  .next (processEntry s vf (· == 2) fun v e =>
    if !entryClean e then queueCompletion s v.number (completionEntry (tagOf e) 0 0x10A 1 0)
    else
      let (result, status, t) := registerRecord s v (e.take 32)
      queueCompletion t v.number (completionEntry (tagOf e) (BitVec.ofNat 64 result) status 3 0))

/-- TAIL takes a doorbell's value: an overrun stops the ring. A VF in STOPPED drops it (R369). -/
def setTail (s : State) (vf : Nat) (val : Word) : State :=
  match getVf s vf with
  | none => s
  | some v =>
    if !v.hif.enable || v.hif.fault || v.st == .stopped then s
    else
      let tail : BitVec 32 := fld val 0 32
      let s := modHif s vf fun h => { h with sqTail := tail }
      if 2 ^ v.hif.sqLog2.toNat < (tail - v.hif.sqHead).toNat then ringFault s vf 1 0 else pumpRing s vf

/-! ## The completion ring (R334, R335) -/

/-- COMPLETION_WRITE: the oldest waiting entry of a VF that runs is written while the ring has room, CQ_TAIL advances, and MSI-X vector 0
follows; of any other VF they stay queued (R334, R363). -/
def execCompletionWrite (vf : Nat) (s : State) : Host.Outcome State Fault Refusal :=
  .next <|
    match getVf s vf with
    | none => s
    | some v =>
      let h := v.hif
      match h.waiting with
      | [] => s
      | e :: rest =>
        if v.st != .running || !h.enable || h.fault || decide (2 ^ h.cqLog2.toNat ≤ (h.cqTail - h.cqHead).toNat) then s
        else
          let va := h.cqBase + BitVec.ofNat 64 (32 * (h.cqTail.toNat % 2 ^ h.cqLog2.toNat))
          match (if canonical va then translateClean s vf va 1 else .error 0x145) with
          | .error c => ringFault s vf 3 c
          | .ok (k, _, _) =>
            let phase : Byte := BitVec.ofNat 8 ((h.cqTail.toNat / 2 ^ h.cqLog2.toNat + 1) % 2)
            let s := writeGlobal (countWalk s vf va) k (setAt e 19 phase)
            let s := modHif s vf fun h => { h with waiting := rest, cqTail := h.cqTail + 1 }
            let s := sendMsix s vf 0
            let s := if rest.isEmpty then s else enqueue s [.completionWrite vf]
            if rest.length = 256 then enqueue (pumpRing s vf) [.gangPlace v.part] else s

def execHifCqHead (vf : Nat) (val : Word) (s : State) : Host.Outcome State Fault Refusal :=
  .next (if served s vf then enqueue (modHif s vf fun h => { h with cqHead := fld val 0 32 }) [.completionWrite vf] else s)

/-- HIF_RING_CFG: while ENABLE = 1 only a write that clears it is taken, and it discards the waiting completions; setting ENABLE
resets the counts and RING_STAT, and needs both LOG2 fields in 4 to 16 (R335, Table 18-6). -/
def execHifRingCfg (vf : Nat) (val : Word) (s : State) : Host.Outcome State Fault Refusal :=
  .next <|
    if !served s vf then s
    else
      let sq : BitVec 5 := fld val 0 5
      let cq : BitVec 5 := fld val 8 5
      let inRange (x : BitVec 5) : Bool := decide (4 ≤ x.toNat ∧ x.toNat ≤ 16)
      let s := modHif s vf fun h =>
        if h.enable then (if bit val 31 then h else { h with sqLog2 := sq, cqLog2 := cq, enable := false, waiting := [] })
        else if bit val 31 && inRange sq && inRange cq then
          { h with sqLog2 := sq, cqLog2 := cq, enable := true, sqTail := 0, sqHead := 0, cqTail := 0, cqHead := 0, fault := false, reason := 0
                   cause := 0 }
        else { h with sqLog2 := sq, cqLog2 := cq }
      enqueue s [.completionWrite vf]

def execInbErrClear (vf : Nat) (val : Word) (s : State) : Host.Outcome State Fault Refusal :=
  .next (if served s vf && bit val 31 then modHif s vf fun h => { h with inbCount := 0, inbCause := 0 } else s)

/-! ## The inbound ordering point (R337, R338) -/

/-- Charges a request of n bytes that enters through a link (Table 20-5, paths 10 and 11). -/
def chargeInbound (s : State) (vf link n : Nat) : State := chargePath s vf (costOf n) (10 + link)

/-- Charges a piece to the paths that it uses: its link, and the memory of its home (R388). -/
def chargePiece (link : Nat) (s : State) (p : Piece) : State :=
  chargePath (chargeInbound s p.vf link p.bytes.length) p.vf (costOf p.bytes.length) (homeOf p.addr)

/-- A piece is dropped: counted, its cause kept, an advisory Unsupported Request in the PF's error log. -/
def dropPiece (s : State) (vf link : Nat) (cause : BitVec 10) : State :=
  let s := modHif s vf fun h => { h with inbCount := satInc h.inbCount, inbCause := cause }
  { s with advisory := s.advisory ++ [link] }

/-- Runs of a request, each in one page of `size` bytes: address and length. -/
def pageRuns (size a n : Nat) : Nat → List (Nat × Nat)
  | 0 => []
  | fuel + 1 =>
    if n = 0 then []
    else
      let m := min n (size - a % size)
      (a, m) :: pageRuns size (a + m) (n - m) fuel

/-- Translates a run of a host request: the package address of each of its 4 KiB parts, in the HBM and second-tier carve-outs. -/
def inboundRun (s : State) (vf va n kind : Nat) : Except (BitVec 10) (List (Nat × Nat)) :=
  (pageRuns 4096 va n (n / 4096 + 2)).mapM fun p =>
    if !canonical (BitVec.ofNat 64 p.1) then .error (cause5 0 kind 1)
    else
      match translateClean s vf (BitVec.ofNat 64 p.1) kind with
      | .error c => .error c
      | .ok (k, seg, _) => if 2 ≤ seg then .error (cause5 0 kind 3) else .ok (k, p.2)

/-- Joins runs that follow one another in the package. -/
def joinRuns : List (Nat × Nat) → List (Nat × Nat)
  | [] => []
  | x :: xs =>
    match joinRuns xs with
    | y :: ys => if x.1 + x.2 = y.1 ∧ homeOf x.1 = homeOf y.1 then (x.1, x.2 + y.2) :: ys else x :: y :: ys
    | [] => [x]

def modOrd (s : State) (link : Nat) (f : OrdPoint → OrdPoint) : State := { s with ords := modAt s.ords link f }
def getOrd (s : State) (link : Nat) : OrdPoint := s.ords.getD link { nextSeq := 0, pieces := [], waits := [] }

/-- Whether a piece is forwarded now: every earlier piece of its route is, and, unless it is relaxed, no piece of an earlier write
on another route is unacknowledged (R338). -/
def mayForward (earlier : List Piece) (p : Piece) : Bool :=
  (earlier.all fun q => q.route != p.route || q.forwarded) && (p.relaxed || earlier.all fun q => q.route == p.route || decide (p.seq ≤ q.seq))

/-- The pieces with those that may be forwarded marked, and the events by which their routes perform them. -/
def forwardAll (link : Nat) : List Piece → List Piece → List Piece × List Instr
  | done, [] => (done, [])
  | done, p :: ps =>
    let go := !p.forwarded && mayForward done p
    let p' := { p with forwarded := p.forwarded || go }
    let r := forwardAll link (done ++ [p']) ps
    (r.1, (if go then [.pieceAck link p.seq p.num] else []) ++ r.2)

def pumpOrd (s : State) (link : Nat) : State :=
  let r := forwardAll link [] (getOrd s link).pieces
  enqueue (modOrd s link fun o => { o with pieces := r.1 }) r.2

/-- Whether a link may take n pieces more: at most 4,096 are held or unacknowledged (R338). -/
def ordRoom (s : State) (link n : Nat) : Bool := decide ((getOrd s link).pieces.length + n ≤ 4096)

/-- A posted write takes the next sequence number, and its pieces join the ordering point. -/
def postPieces (s : State) (link : Nat) (ps : List Piece) : State :=
  let seq := (getOrd s link).nextSeq
  let s := modOrd s link fun o => { o with nextSeq := seq + 1, pieces := o.pieces ++ ps.mapIdx fun i p => { p with seq := seq, num := i } }
  pumpOrd s link

/-- The pieces of a posted write at a VF virtual address, cut at 64 KiB pages; a piece that fails is dropped (R337). -/
def cutWrite (s : State) (v : Vf) (va : Nat) (bytes : List Byte) (relaxed : Bool) : State × List Piece :=
  (pageRuns 65536 va bytes.length 3).foldl (fun (acc : State × List Piece) p =>
    match inboundRun acc.1 v.number p.1 p.2 1 with
    | .error c => (dropPiece acc.1 v.number v.link c, acc.2)
    | .ok ks =>
      (acc.1, acc.2 ++ ((joinRuns ks).foldl (fun (a : Nat × List Piece) k =>
        (a.1 + k.2, a.2 ++ [{ seq := 0, num := 0, route := .home (homeOf k.1), addr := k.1, bytes := (bytes.drop a.1).take k.2, vf := v.number
                              door := none, relaxed := relaxed, forwarded := false }])) (p.1 - va, [])).2)) (s, [])

/-- Counts the walks of n bytes of a VF that a host request names (Table 22-3). -/
def countInbound (s : State) (vf va n : Nat) : State :=
  (pageRuns 4096 va n (n / 4096 + 2)).foldl (fun s p => countWalk s vf (BitVec.ofNat 64 p.1)) s

/-- Whether a posted write comes over the VF's IDE stream from its TDI and is one that a link carries (R330, R331). -/
def takesWrite (s : State) (v : Vf) (path : HostPath) (offset n : Nat) : Bool :=
  path.bound && served s v.number && v.link == path.link && n != 0 && decide (n ≤ linkOptions.maxPayload ∧ offset + n ≤ 2 ^ 40)

/-- A write of a VF virtual address as posted pieces, charged; none where the link has no room for them (R338). -/
def postInbound (s : State) (v : Vf) (va : Word) (bytes : List Byte) (relaxed : Bool) : Option State :=
  let (t, ps) := cutWrite (countInbound s v.number va.toNat bytes.length) v va.toNat bytes relaxed
  if ordRoom s v.link ps.length then some (postPieces (ps.foldl (chargePiece v.link) t) v.link ps) else none

/-- A register write that travels as a piece to the dispatcher (R337, R380), charged as other pieces are (R388). -/
def postDoor (s : State) (v : Vf) (door : Bool) (val : Word) : Option State :=
  if !ordRoom s v.link 1 then none
  else
    some (postPieces (chargeInbound s v.number v.link 8) v.link [{
      seq := 0, num := 0, route := .dispatcher, addr := 0, bytes := [], vf := v.number, door := some (door, val), relaxed := false
      forwarded := false }])

/-- A PF BAR2 write as posted pieces of its link, by home; VF number 0 stands for the PF (R356). -/
def postPf (s : State) (link addr : Nat) (bytes : List Byte) : Option State :=
  let runs := pageRuns 65536 addr bytes.length 3
  let ps : List Piece := runs.map fun r =>
    { seq := 0, num := 0, route := .home (homeOf r.1), addr := r.1, bytes := (bytes.drop (r.1 - addr)).take r.2, vf := 0, door := none
      relaxed := false, forwarded := false }
  if ordRoom s link ps.length then some (postPieces s link ps) else none

/-- A posted write takes its place in its link's order; none where the link has no room (R338). A PF BAR2 write that touches a protected
byte is dropped and logged (R356). -/
def postNow (s : State) (link : Nat) : Posted → Option State
  | .vf vf path offset bytes relaxed =>
    match getVf s vf with
    | none => some s
    | some v =>
      if takesWrite s v path offset bytes.length then postInbound s v (v.hif.inbVa + BitVec.ofNat 64 offset) bytes relaxed else some s
  | .door vf door val =>
    match getVf s vf with
    | none => some s
    | some v => if served s vf then postDoor s v door val else some s
  | .pf addr bytes =>
    if linkOptions.maxPayload < bytes.length || !s.sal.ready then some s
    else if (pageRuns 65536 addr bytes.length 3).any fun r => protectedAddr s r.1 then some { s with advisory := s.advisory ++ [link] }
    else postPf s link addr bytes

/-- A posted write arrives at a link: one for which it has no room waits for a posted credit, and later ones behind it (R338). -/
def postWrite (s : State) (link : Nat) (i : Posted) : State :=
  let hold := modOrd s link fun o => { o with waits := o.waits ++ [i] }
  if (getOrd s link).waits.isEmpty then (postNow s link i).getD hold else hold

/-- Posted writes that wait take their places while there is room. The fuel is the number of them. -/
def postWaits (link : Nat) : Nat → State → State
  | 0, s => s
  | n + 1, s =>
    match (getOrd s link).waits with
    | [] => s
    | i :: rest =>
      match postNow (modOrd s link fun o => { o with waits := rest }) link i with
      | some t => postWaits link n t
      | none => s

/-- Link of a VF. -/
def vfLink (s : State) (vf : Nat) : Nat := ((getVf s vf).map (·.link)).getD 0

/-- INBOUND_WRITE: a posted write to VF BAR2, of at most 4096 bytes. One that does not come over the VF's IDE stream from its TDI is
dropped (R331), and one for which the link has no room waits for a posted credit (R338). -/
def execInboundWrite (vf : Nat) (path : HostPath) (offset : Nat) (bytes : List Byte) (relaxed : Bool) (s : State) :
    Host.Outcome State Fault Refusal := .next (postWrite s (vfLink s vf) (.vf vf path offset bytes relaxed))

/-- HIF_SQ_DB: the doorbell is a piece with the dispatcher as its route; TAIL is set when it is performed. -/
def execHifSqDb (vf : Nat) (val : Word) (s : State) : Host.Outcome State Fault Refusal := .next (postWrite s (vfLink s vf) (.door vf true val))

/-- TRN_PRESENT: the report is a piece with the dispatcher as its route (R380). -/
def execTrnPresent (vf : Nat) (val : Word) (s : State) : Host.Outcome State Fault Refusal :=
  .next (postWrite s (vfLink s vf) (.door vf false val))

/-- PF_BAR2_WRITE: a posted write of the PF's link; dropped and logged when any byte is protected (R356). -/
def execPfBar2Write (pf : Fin 2) (addr : Nat) (bytes : List Byte) (s : State) : Host.Outcome State Fault Refusal :=
  if 2 ^ 42 < addr + bytes.length then .fault (.outsideWindow addr) else .next (postWrite s pf.val (.pf addr bytes))

/-- Performs a piece at its route (R338). -/
def performPiece (s : State) (p : Piece) : State :=
  match p.door with
  | some (true, val) => setTail s p.vf val
  | some (false, val) => presentRange s p.vf val
  | none => writeGlobal (if p.vf = 0 then (linesTouched p.addr p.bytes.length).foldl unsealLine s else s) p.addr p.bytes

/-- PIECE_ACK: a forwarded piece performs after the earlier ones of its route and is acknowledged; what waited for it, or for its place,
goes on. A checkpoint holds every piece (R423). -/
def execPieceAck (link seq piece : Nat) (s : State) : Host.Outcome State Fault Refusal :=
  .next <|
    let ps := (getOrd s link).pieces
    let it (q : Piece) : Bool := q.seq == seq && q.num == piece
    match ps.find? it with
    | none => s
    | some p =>
      if !p.forwarded || s.ckp.began || (ps.takeWhile (! it ·)).any fun q => q.route == p.route then s
      else
        let t := pumpOrd (performPiece (modOrd s link fun o => { o with pieces := o.pieces.filter (! it ·) }) p) link
        postWaits link (getOrd t link).waits.length t

/-- The bytes of one run of a host read: the home's on a rounded page, else the current ones (R339). -/
def hostReadBytes (s : State) (x : Nat × Nat) : List Byte :=
  if roundedPage s x.1 false then readBytes s.mem x.1 x.2 else coherentBytes s x.1 x.2

/-- INBOUND_READ: waits for the earlier pieces of its link, then completes with the data, or with Unsupported Request, which is the
empty reply: of a read that does not come over the VF's IDE stream (R331), of one that translation refuses, and of a poisoned word (log
entry 46). -/
def execInboundRead (vf : Nat) (path : HostPath) (offset len : Nat) (s : State) : Host.Outcome State Fault Refusal :=
  .next <|
    let reply (s : State) (bs : List Byte) : State := { s with replies := s.replies ++ [(path.link, bs)] }
    match getVf s vf with
    | none => reply s []
    | some v =>
      if !path.bound || !served s vf || v.link != path.link || decide (linkOptions.maxRead < len ∨ 2 ^ 40 < offset + len) then reply s []
      else if !(getOrd s v.link).pieces.isEmpty || !(getOrd s v.link).waits.isEmpty then enqueue s [.inboundRead vf path offset len]
      else
        match inboundRun s vf (v.hif.inbVa + BitVec.ofNat 64 offset).toNat len 0 with
        | .error _ => reply s []
        | .ok xs =>
          if xs.any fun x => hasPoison s x.1 x.2 then reply s []
          else
            let t := countInbound s vf (v.hif.inbVa + BitVec.ofNat 64 offset).toNat len
            let t := xs.foldl (fun t x => countMoved t x.1 x.2 false) t
            reply (chargeInbound t vf v.link len) (xs.flatMap (hostReadBytes s))

end Sys2Proof.Machine
end

