-- ==== Sys2Proof/Machine/Tenancy.lean ====
section
/-! DEFINITION. What the Datum's commands share: measurements, policies, segments and their scrubbing, migration records, stopping and
ending a VF, command headers and responses (R341 to R372). -/

namespace Sys2Proof.Machine

/-! ## Measurements (R342) -/

/-- Measured image n of the firmware image, which carries them all: 1 Datum, 2 dispatcher, 3 Saltern, 4 microcode (R430). -/
def imageBytes (image : List Byte) (n : Nat) : List Byte := Sys2Proof.Config.imageBlock image n

/-- Block 5: stepping, disabled clusters, whether there is a checkpoint reserve, the boot journal's outcomes of steps 4, 5 and 7 (R432). -/
def configBytes (s : State) : List Byte :=
  toBytes 2 0x00A1 ++ s.dies.flatMap (fun d => toBytes 5 d.clusterOff.toNat) ++ [if s.ckp.nores then 0 else 1] ++
    [4, 5, 7].map fun k => (s.sal.journal.getD (k - 1) 0).setWidth 8

/-- The measurement blocks 1 to 5 of a boot of the stored image; the Datum holds them until the next. -/
def measure (s : State) : List (List Byte) := [1, 2, 3, 4].map (fun n => sm3 (imageBytes s.sal.fwImage n)) ++ [sm3 (configBytes s)]

def blocks1to5 (s : State) : List Byte := s.datum.blocks.flatten
def fwDigest (s : State) : List Byte := sm3 (blocks1to5 s)

/-- The device's SM2 public key and its certificate chain (Table 19-1). -/
def devKey : List Byte := fit 64 (Sys2Proof.Config.storedBytes 5)
def certChain : List Byte := Sys2Proof.Config.storedBytes 0

def sign (bs : List Byte) : List Byte := fit 64 (Sys2Proof.Config.sm2Sign (sm3 bs))

/-- Whether a 64-byte SM2 key is a device's: a chain to Leniskad's root certifies it (R369, log entry 9). -/
def deviceKey (key : List Byte) : Bool := Sys2Proof.Config.certified key

/-- Whether a signature over bytes verifies under a 64-byte key. -/
def verifies (key sig bs : List Byte) : Bool := Sys2Proof.Config.sm2Verify (key ++ sig) (sm3 bs)

/-! ## Policies (R352, R354) -/

/-- The fields of a policy (Table 19-10). -/
def policyOf (p : List Byte) : Policy :=
  let f := byteField p
  let nh := f 116 2
  let digests (at_ n : Nat) : List (List Byte) := (List.range n).map fun i => (p.drop (at_ + 32 * i)).take 32
  { version := f 8 8, key := (p.drop 16).take 64, hbmMax := f 80 8, tierMax := f 88 8, ctxBytes := f 96 8, bankBase := f 104 1
    bankCount := f 105 2, bplaneKib := f 107 1, minShare := f 108 1, tsample := (f 109 1).testBit 0, tpmc := (f 109 1).testBit 1
    debug := (f 109 1).testBit 2, excl := (f 109 1).testBit 3, migrate := (f 109 1).testBit 4, precopy := (f 109 1).testBit 5
    peer := (f 109 1).testBit 6, fabric := BitVec.ofNat 16 (f 110 2), launchMax := f 112 4, hashes := digests 120 nh
    measures := digests (120 + 32 * nh) (f 118 1), bytes := p }

/-- Length that a policy's counts give. -/
def policyLen (p : List Byte) : Nat := 120 + 32 * (byteField p 116 2 + byteField p 118 1) + 64

/-- A policy that is accepted, or the status that refuses it: 2 or 6 (R352). -/
def acceptPolicy (p : List Byte) : Except Nat Policy :=
  let f := byteField p
  let x := policyOf p
  let n := policyLen p
  if p.length < 184 ∨ f 0 4 ≠ 0x01504B4C ∨ f 4 4 ≠ n ∨ p.length ≠ n then .error 2
  else if !verifies x.key (p.drop (n - 64)) (p.take (n - 64)) then .error 6
  else if x.hbmMax % 65536 ≠ 0 ∨ x.ctxBytes % 65536 ≠ 0 ∨ x.ctxBytes < 65536 ∨ x.bankCount = 0 ∨ 256 < x.bankBase + x.bankCount ∨
      32 < x.bplaneKib ∨ 128 ≤ f 109 1 ∨ 256 < f 116 2 ∨ 8 < f 118 1 ∨ f 119 1 ≠ 0 then .error 2
  else .ok x

/-- Byte offset of the policy field that a VF's present use exceeds, if any; blocks that stand on no core use no banks (R354). -/
def exceeds (s : State) (v : Vf) (p : Policy) : Option Nat :=
  let bs := (allBlocks s).filter fun b => b.uid != 0 && b.vf == v.number && decide (b.die < noDie)
  let len (n : Nat) : Nat := ((v.segs.getD n none).map (·.len)).getD 0
  let isSet (n : Nat) : Bool := (v.segs.getD n none).isSome
  let plane (b : Block) : Nat :=
    (bs.filter fun c => c.die == b.die && c.core == b.core).foldl (fun n c => n + c.kernel.bplane) 0
  if p.hbmMax < len 0 then some 80
  else if p.tierMax < len 1 then some 88
  else if isSet 0 && decide (len 0 ≤ p.ctxBytes) then some 96
  else if bs.any fun b => !b.bankModes.isEmpty && decide (b.windowBase < p.bankBase ∨ p.bankBase + p.bankCount < b.windowBase + b.bankModes.length) then some 104
  else if bs.any fun b => decide (p.bplaneKib < plane b) then some 107
  else if isSet 3 && !p.peer then some 109
  else if p.launchMax ≠ 0 ∧ p.launchMax < openLaunches s v.number then some 112
  else none

/-! ## Ranges of segments (R357 to R361) -/

/-- The page that a Cadastre message on its way is about. -/
def msgPage : Instr → Option Nat
  | .rd _ line | .data _ line _ _ | .notice _ line _ _ | .wb _ line _ | .wback _ line => some (line / 512)
  | .wreq _ page _ | .grant _ page _ | .inv _ page _ | .revoke _ page _ | .radvreq _ page _ _ | .flush _ page | .advance _ page _ _ _
  | .iack _ page | .rvack _ page _ | .fack _ page _ | .advack _ page | .gone _ page => some page
  | _ => none

/-- Takes the messages that p selects off their ways; those that stay on a route keep their order. -/
def dropMessages (s : State) (p : Instr → Bool) : State :=
  { s with
      agenda := s.agenda.filter (! p ·)
      routes := s.routes.map fun r =>
        let ps := r.packets.filter fun q => !p q.2
        { r with next := r.expect + ps.length, packets := ps.mapIdx fun i q => (r.expect + i, q.2) } }

/-- Takes the messages about the pages that p selects off their ways, with the requests of which the dies await an answer. -/
def dropTalk (s : State) (p : Nat → Bool) : State :=
  let s := dropMessages s fun i => (msgPage i).any p
  { s with dies := s.dies.map fun d => { d with
      reads := d.reads.filter fun n => !p (n / 512), wants := d.wants.filter fun w => !p w.1
      held := d.held.filter fun i => !(msgPage i).any p } }

/-- Drops the stores in flight whose pages p selects; what waited for them goes on (R361). -/
def dropStores (s : State) (p : Nat → Bool) : State :=
  let hit (a : Access) : Bool := p (pageOf a.cell.addr)
  let ws := (s.inflight.filter hit).map (·.warp)
  ws.foldl (fun s u => tryRetire (noteSaved s u) ((((getWarp s u).bind fun w => getBlock s w.block).map (·.gang)).getD 0))
    { s with inflight := s.inflight.filter (! hit ·) }

/-- Chunks that have begun write nothing into the pages that p selects any more: those runs have no place in the module left (R361). -/
def dropTargets (s : State) (p : Nat → Bool) : State :=
  let cut : Place → Place
    | .mem k n attr => if p (pageOf k) then .remote n else .mem k n attr
    | x => x
  mapBlocks s fun b => { b with jobs := b.jobs.map fun j => { j with
    begun := j.begun.map fun c => { c with targets := c.targets.map fun t => (t.1, t.2.map cut) } } }

/-- Discards the L2 lines, cache-way lines, prefetches, messages, mirrors and directory entries of the addresses that p selects, by
64 KiB page, and what was about to be written there, so that no copy of them is read again (R360, R361). -/
def scrubPages (s : State) (p : Nat → Bool) : State :=
  let page (n : Nat) : Bool := p (n * 2 ^ 16)
  let line (n : Nat) : Bool := page (n / 512)
  let s := mapBlocks (dropTargets (dropStores (dropTalk s page) page) page) fun b => { b with
    l1 := b.l1.filter fun l => !line l.line, prefs := b.prefs.filter fun n => !line n }
  { s with dirs := s.dirs.filter fun e => !page e.page
           dies := s.dies.map fun d => { d with l2 := d.l2.filter fun l => !line l.line, mirrors := d.mirrors.filter fun m => !page m.1 } }

/-- Releases a segment of a VF: steps 1 and 2 of R360. Its bytes stay, under a key that is retired. -/
def releaseSeg (s : State) (v : Vf) (n : Nat) : State :=
  match v.segs.getD n none with
  | some g =>
    if n < 2 then
      let s := scrubPages s (inRange s v.part n g.base g.len)
      let x : RetiredRange := { part := v.part, seg := n, base := g.base, len := g.len, key := vfKey s v, plain := [] }
      { s with datum := { s.datum with retired := x :: s.datum.retired } }
    else s
  | none => s

/-- Cuts a range out of a retired one: what is left of it below and above. -/
def cutRange (part n base len : Nat) (x : RetiredRange) : List RetiredRange :=
  if x.part ≠ part ∨ x.seg ≠ n ∨ base + len ≤ x.base ∨ x.base + x.len ≤ base then [x]
  else
    [{ x with len := base - x.base }, { x with base := base + len, len := x.base + x.len - (base + len) }].filter fun y => 0 < y.len

/-- Writes zeros to a range before it is granted, under the key of the VF that receives it (R361). -/
def zeroFill (s : State) (part n base len : Nat) : State :=
  let hit := inRange s part n base len
  let s := scrubPages s hit
  { s with mem := s.mem.filter fun c => !hit c.1, poisoned := s.poisoned.filter (! hit ·)
           datum := { s.datum with retired := s.datum.retired.flatMap (cutRange part n base len) } }

/-- Size of the space that segment n lies in: the partition's HBM, the second tier without the checkpoint reserve (R336). -/
def spaceBytes (s : State) (part n : Nat) : Nat :=
  if n = 0 then (partDies s part).length * 2 ^ 37 else (3072 - if s.ckp.nores then 0 else 1088) * 2 ^ 30

/-- Two ranges share a byte. -/
def rangesMeet (a la b lb : Nat) : Bool := decide (a < b + lb ∧ b < a + la)

/-! ## Inbound pieces of a VF (R359, R363) -/

/-- Performs and acknowledges every piece that a link holds, in order; writes that wait have not been held yet. -/
def flushOrd (s : State) (link : Nat) : State :=
  let ps := (getOrd s link).pieces
  ps.foldl performPiece (modOrd s link fun o => { o with pieces := [] })

/-- The pieces of both links, where writes to package memory of any kind may stand. -/
def flushOrds (s : State) : State := flushOrd (flushOrd s 0) 1

/-- The writes that wait at both links take their places. -/
def releaseOrds (s : State) : State :=
  [0, 1].foldl (fun s link => postWaits link (getOrd s link).waits.length s) s

/-- VF of a posted write; 0 for a PF's. -/
def postedVf : Posted → Nat
  | .vf n _ _ _ _ | .door n _ _ => n
  | .pf _ _ => 0

/-! ## Stopping and ending a VF (R360, R362, R363, R371) -/

/-- Whether everything that a VF had begun is saved and has performed. -/
def quiet (s : State) (vf : Nat) : Bool :=
  (allWarps s).all (fun w => w.uid == 0 || w.saved || warpVf s w != vf) && (s.inflight.all fun a => a.vf != vf) &&
    s.ords.all fun o => (o.pieces.all fun p => p.vf != vf) && o.waits.all fun x => postedVf x != vf

/-- Acts on a VF as a switch tick does (R363): while it is the running VF its slice is handed over to nobody. -/
def pauseVf (s : State) (v : Vf) (precise : Bool) : State :=
  let p := getPart s v.part
  let s := stopVf s v.number precise
  let s := modVf s v.number fun v => { v with st := .paused }
  if p.vfnum ≠ v.number then s
  else beginHandOver s v.part v.number 0

/-- Takes a VF's work and resources from the module, scrubs its memory and retires its key (R360, R362). -/
def removeVf (s : State) (v : Vf) : State :=
  let mine (b : Block) : Bool := b.uid != 0 && b.vf == v.number
  let us := ((allBlocks s).filter mine).map (·.uid)
  let s := (List.range 2).foldl (fun s n => releaseSeg s v n) s
  let s := if us.contains s.w.block then { s with w := .empty, slot := .a } else s
  let s := if mine s.b then { s with b := .empty, onStream := false } else s
  let part (p : Partition) : Partition := { p with
    coop := if p.coop.any fun c => c.1 == v.number then none else p.coop
    vfnum := if p.vfnum = v.number then 0 else p.vfnum
    plan := p.plan.map fun x => (if x.1 = v.number then 0 else x.1, x.2) }
  { s with
      blocks := s.blocks.filter (! mine ·), warps := s.warps.filter fun w => !us.contains w.block
      gangs := s.gangs.filter fun g => g.vf != v.number, launches := s.launches.filter fun l => l.vf != v.number
      kernels := s.kernels.filter fun k => k.vf != v.number, footprints := s.footprints.filter fun e => !us.contains e.block
      inflight := s.inflight.filter fun a => a.vf != v.number, buckets := s.buckets.filter fun b => b.num / 16 + 1 != v.number
      vfs := s.vfs.filter fun x => x.number != v.number, parts := modAt s.parts v.part part
      ords := s.ords.map fun o => { o with
        pieces := o.pieces.filter fun p => p.vf != v.number, waits := o.waits.filter fun x => postedVf x != v.number }
      remains := s.remains.filter fun b => b.vf != v.number
      datum := { s.datum with keys := s.datum.keys.filter fun k => k.1 != v.keyId }
      agenda := s.agenda ++ if (getPart s v.part).coop.any fun c => c.1 == v.number then [.coopWaitExpiry v.part, .gangPlace v.part] else [] }

/-! ## The context record of a migration (R371, Table 19-14) -/

/-- Bytes of a VF's context record: what VF.EVICT would write, the ring registers with 32 bytes for each completion entry that
waits, counters and selectors, and 32 for each fault record that waits. -/
def recordSize (s : State) (v : Vf) : Nat := contextSize s v.number + 64 + 640 + 32 * (v.hif.waiting.length + v.trn.waiting.length)

/-! ## Migration records (R368 to R372); their form is the device's own (log entry 17) -/

/-- A record: 64-byte header with segment, index or length, sequence number and tag, then the encrypted body. -/
def record (key : Word) (kind index seq : Nat) (body : List Byte) : List Byte :=
  let data := fit body.length (Sys2Proof.Config.encrypt key.toNat seq body)
  let head := toBytes 8 kind ++ toBytes 8 index ++ toBytes 8 seq
  head ++ fit 16 (Sys2Proof.Config.encrypt key.toNat (2 ^ 64 + seq) (head ++ data)) ++ List.replicate 24 0 ++ data

/-- Kind of the context record and of the finish record; 0 and 1 are pages of that segment. -/
def contextKind : Nat := 0xFF
def finishKind : Nat := 0xFE

/-- A record at the head of a stream: kind, index, sequence number and decrypted body, and the rest; none where its tag fails. -/
def parseRecord (key : Word) (bs : List Byte) : Option ((Nat × Nat × Nat × List Byte) × List Byte) :=
  let kind := byteField bs 0 8
  let index := byteField bs 8 8
  let seq := byteField bs 16 8
  let n := if kind = contextKind then index else if kind = finishKind then 0 else 65536
  let data := (bs.drop 64).take n
  let tag := fit 16 (Sys2Proof.Config.encrypt key.toNat (2 ^ 64 + seq) (bs.take 24 ++ data))
  if bs.length < 64 + n ∨ (bs.drop 24).take 16 ≠ tag then none
  else some ((kind, index, seq, fit n (Sys2Proof.Config.decrypt key.toNat seq data)), bs.drop (64 + n))

/-- Package address of a page of a segment of a VF. -/
def pageAddr (s : State) (v : Vf) (seg index : Nat) : Nat :=
  let base := ((v.segs.getD seg none).map (·.base)).getD 0
  if seg = 0 then partPhys (partDies s v.part) (base + index * 65536) else tierBase + base + index * 65536

/-- Pages of the usable segments 0 and 1 of a VF, ascending. -/
def allPages (v : Vf) : List (Nat × Nat) :=
  [0, 1].flatMap fun n => match v.segs.getD n none with
    | some g => (List.range (usable v n g / 65536)).map fun i => (n, i)
    | none => []

/-- The pages still to be emitted, ascending: all of them before the first round (R370). -/
def dirtyPages (v : Vf) (m : Migration) : List (Nat × Nat) :=
  if m.first then allPages v else (allPages v).filter m.dirty.contains

/-- Whether a page of a segment holds a poisoned word: the Datum takes no bytes from it (log entry 46). -/
def pagePoisoned (s : State) (v : Vf) (p : Nat × Nat) : Bool := !s.poisoned.isEmpty && hasPoison s (pageAddr s v p.1 p.2) 65536

/-- Counts the bytes of pages that the Datum reads (Table 22-3). -/
def countPagesRead (s : State) (v : Vf) (ps : List (Nat × Nat)) : State :=
  ps.foldl (fun s p => countMoved s (pageAddr s v p.1 p.2) 65536 false) s

/-- The records of pages, numbered from seq. -/
def pageRecords (s : State) (v : Vf) (key : Word) : Nat → List (Nat × Nat) → List Byte
  | _, [] => []
  | seq, p :: ps => record key p.1 p.2 seq (coherentBytes s (pageAddr s v p.1 p.2) 65536) ++ pageRecords s v key (seq + 1) ps

/-- A region of a block's footprint under new identifiers. -/
def rebaseRegion (base vf : Nat) : Region → Region
  | .scratch b lo hi => .scratch (b + base) lo hi
  | .bplane b lo hi => .bplane (b + base) lo hi
  | .global _ lo hi => .global vf lo hi

/-- Puts a context into a destination VF: its work under the destination's number and new identifiers, on no core yet (R371, R372). A
cooperative launch begins to wait anew, since the two modules share no cycle count (R23, log entry 17). -/
def installContext (s : State) (v : Vf) (c : Sys2Proof.Config.Context) : State :=
  let base := s.nextId
  let top := (c.blocks.map (·.uid) ++ c.warps.map (·.uid) ++ c.gangs.map (·.uid) ++ c.footprints.map (·.id)).foldl max 0
  let blocks := c.blocks.map fun b => { b with
    uid := b.uid + base, vf := v.number, part := v.part, gang := b.gang + base, die := noDie, core := 0, st := moveSt b .evicted, l1 := [], prefs := [] }
  let warps := c.warps.map fun w => { w with uid := w.uid + base, block := w.block + base, saved := true }
  let gangs := c.gangs.map fun g => { g with
    uid := g.uid + base, vf := v.number, blocks := g.blocks.map (· + base), st := if g.blocks.isEmpty then g.st else .evicted }
  let fps := c.footprints.map fun e => { e with
    id := e.id + base, block := e.block + base, waiting := true, reads := e.reads.map (rebaseRegion base v.number)
    writes := e.writes.map (rebaseRegion base v.number) }
  let keep (x : Vf) : Vf := { x with
    nextLaunch := c.vf.nextLaunch, nextKernel := c.vf.nextKernel, hif := c.vf.hif, smp := c.vf.smp
    trn := { c.vf.trn with tlb := [], waiting := c.vf.trn.waiting.map fun r => { r with warp := r.warp + base } }
    trc := c.vf.trc, counters := c.vf.counters, selectors := c.vf.selectors, ctx := [] }
  let launches := c.launches.map fun l => { l with vf := v.number, since := s.cycle }
  let s := (launches.filter unplacedCoop).foldl (fun s _ => after s 2700000 (.coopWaitExpiry v.part)) s
  modVf { s with blocks := s.blocks ++ blocks, warps := s.warps ++ warps, gangs := s.gangs ++ gangs, footprints := s.footprints ++ fps
                 launches := s.launches ++ launches
                 kernels := s.kernels ++ c.kernels.map fun k => { k with vf := v.number }, nextId := base + top + 1 } v.number keep

/-! ## Command headers and responses (R347 to R351, Table 19-6) -/

def headerBytes (opc : Nat) (c : DtmCmd) : List Byte :=
  toBytes 2 opc ++ toBytes 2 (if c.dest then 1 else 0) ++ toBytes 4 c.seq.toNat ++ toBytes 8 c.handle.toNat ++ toBytes 8 c.bodyAddr.toNat ++
    toBytes 4 c.bodyLen.toNat ++ toBytes 4 c.outLen.toNat ++ toBytes 8 c.outAddr.toNat ++ toBytes 8 c.p0.toNat ++ toBytes 8 c.p1.toNat ++
    toBytes 8 c.p2.toNat

def cmdOf (pf : Fin 2) (h : List Byte) : DtmCmd :=
  let f (at_ n w : Nat) : BitVec w := BitVec.ofNat w (byteField h at_ n)
  { pf := pf, dest := (byteField h 2 1) % 2 == 1, seq := f 4 4 32, handle := f 8 8 64, bodyAddr := f 16 8 64, bodyLen := f 24 4 32
    outLen := f 28 4 32, outAddr := f 32 8 64, p0 := f 40 8 64, p1 := f 48 8 64, p2 := f 56 8 64 }

/-- What a command ends with: status, RES0 to RES3, handle returned, output bytes, state. -/
structure Reply where
  status : Nat
  res0 : Nat := 0
  res1 : Nat := 0
  handle : Option Word := none
  out : List Byte := []
  st : State

/-- A turn of a command: its reply, or the state in which it is still being processed. -/
abbrev Turn := Except State Reply

/-- A command refused with a status and nothing done. -/
def refuse (s : State) (status : Nat) (res0 : Nat := 0) : Turn := .ok { status := status, res0 := res0, st := s }
def accept (s : State) : Turn := .ok { status := 0, st := s }

def getBox (s : State) (pf : Nat) : Mailbox := s.datum.boxes.getD pf .reset
def modBox (s : State) (pf : Nat) (f : Mailbox → Mailbox) : State := { s with datum := { s.datum with boxes := modAt s.datum.boxes pf f } }

/-- Host memory as a PF reaches it: PF 0 over G0's link, PF 1 over G1's (R348). -/
def bodyOf (s : State) (c : DtmCmd) : List Byte := readBytes s.mem (hostBase c.pf.val + c.bodyAddr.toNat) c.bodyLen.toNat

/-- Whether body and output lie in the host's address space (status 9). -/
def hostReachable (c : DtmCmd) : Bool :=
  decide (c.bodyAddr.toNat + c.bodyLen.toNat ≤ 2 ^ 64 ∧ c.outAddr.toNat + c.outLen.toNat ≤ 2 ^ 64)

/-- Fields of the header that a command uses: handle, masks of P0 to P2, body, output, DEST. -/
structure Uses where
  handle : Bool
  p0 : Nat := 0
  p1 : Nat := 0
  p2 : Nat := 0
  body : Bool := false
  out : Bool := false
  dest : Bool := false

/-- Whether every field that the command does not use is zero (R351). -/
def headerOkFor (u : Uses) (c : DtmCmd) : Bool :=
  let within (x : Word) (m : Nat) : Bool := x &&& ~~~(BitVec.ofNat 64 m) == 0
  (u.handle || c.handle == 0) && within c.p0 u.p0 && within c.p1 u.p1 && within c.p2 u.p2 &&
    (if u.body then decide (c.bodyLen.toNat ≤ 2 ^ 20) else c.bodyLen == 0 && c.bodyAddr == 0) &&
    (u.out || (c.outLen == 0 && c.outAddr == 0)) && (u.dest || !c.dest)

/-- The event by which the Datum comes back to the command in a mailbox. -/
def isPoll (pf : Nat) : Instr → Bool
  | .vfPause c => c.pf.val == pf
  | _ => false

/-- The response of a command and the end of its turn (R347, Table 19-5). -/
def respond (s : State) (c : DtmCmd) (r : Reply) : State :=
  let s := { r.st with datum := { r.st.datum with queue := s.datum.queue.drop 1, working := false }
                       agenda := r.st.agenda.filter (! isPoll c.pf.val ·) }
  let s := if r.out.isEmpty then s else { s with mem := writeBytes s.mem (hostBase c.pf.val + c.outAddr.toNat) r.out }
  let s := { s with vfs := mapIf (fun v => v.handle == c.handle && c.handle != 0) (fun v => { v with cmdCount := v.cmdCount + 1 }) s.vfs }
  let rsp := toBytes 2 r.status ++ toBytes 2 0 ++ toBytes 4 c.seq.toNat ++ toBytes 8 (r.handle.getD c.handle).toNat ++
    toBytes 4 r.out.length ++ toBytes 4 0 ++ toBytes 8 r.res0 ++ toBytes 8 r.res1 ++ List.replicate 24 0
  let s := modBox s c.pf.val fun b => { b with busy := false, done := true, status := BitVec.ofNat 8 r.status, seq := c.seq, rsp := rsp }
  sendMsix s (1000 + c.pf.val) 2

/-- The VF that a command names. -/
def vfOf (s : State) (h : Word) : Option Vf := if h = 0 then none else s.vfs.find? fun v => v.handle == h

end Sys2Proof.Machine
end

