-- ==== Sys2Proof/Machine/DatumCmds.lean ====
section
/-! DEFINITION. The Datum's commands of Table 19-8 and the mailboxes that carry them (R345 to R372). -/

namespace Sys2Proof.Machine

/-! ## Creating, policies, segments, shares (R350 to R361, R382) -/

/-- First key ID and first handle that are free: a draw of the generator, or the least number where the draw was given before. -/
def freeKey (s : State) : Option Nat := ((List.range 127).map (· + 1)).find? fun k => !s.datum.keys.any fun x => x.1 == k
def freshHandle (s : State) : Word :=
  let used := s.datum.handles
  let c := Sys2Proof.Config.datumRandom s.datum.draws
  if c ≠ 0 ∧ !used.contains c then c
  else (((List.range (used.length + 1)).map fun i => BitVec.ofNat 64 (i + 1)).find? fun h => !used.contains h).getD 0

def Hif.reset : Hif :=
  { sqBase := 0, cqBase := 0, sqLog2 := 0, cqLog2 := 0, enable := false, sqTail := 0, sqHead := 0, cqTail := 0, cqHead := 0, fault := false
    reason := 0, cause := 0, inbVa := 0, inbCount := 0, inbCause := 0, waiting := [] }

def Trn.reset : Trn :=
  { root := 0, fqBase := 0, fqLog2 := 0, fqEnable := false, fqTail := 0, fqHead := 0, seq := 0, waiting := [], tlb := [] }

def Ring.reset : Ring := { base := 0, log2 := 0, enable := false, tail := 0, head := 0, drop := 0 }

/-- A VF as VF.CREATE makes it. -/
def newVf (handle : Word) (number key part link : Nat) (p : Policy) (dest : Option Migration) : Vf :=
  { handle := handle, number := number, keyId := key, part := part, link := link, st := if dest.isSome then .incoming else .paused
    tdi := .unlocked, ide := false, migrated := dest.isSome, policy := p, segs := [none, none, none, none], cmdCount := 0
    share := 0, nextLaunch := 1, nextKernel := 1, hif := .reset, trn := .reset, smp := .reset, trc := .reset
    counters := List.replicate 64 0, selectors := List.replicate 64 0, msixTable := List.replicate 4 0, migration := dest, ctx := [] }

/-- What a BEGIN blob holds: policy, segment lengths, migration key; its form is the device's own (log entry 17). -/
def beginBlob (v : Vf) (key : Word) (destKey : List Byte) : List Byte :=
  let lens := (List.range 2).flatMap fun n => toBytes 8 (((v.segs.getD n none).map (·.len)).getD 0)
  let head := toBytes 4 v.policy.bytes.length ++ v.policy.bytes ++ lens ++ fit 128 (Sys2Proof.Config.encrypt 0 0 (destKey ++ toBytes 8 key.toNat))
  head ++ devKey ++ sign (head ++ devKey)

/-- A verified BEGIN blob: policy bytes and the migration it begins. -/
def openBlob (bs : List Byte) : Option (List Byte × Migration) :=
  let n := byteField bs 0 4
  let body := bs.take (bs.length - 64)
  let key := (bs.drop (148 + n)).take 64
  if bs.length ≠ n + 276 ∨ !deviceKey key ∨ !verifies key (bs.drop (bs.length - 64)) body then none
  else
    let k := BitVec.ofNat 64 (byteField (Sys2Proof.Config.decrypt 0 0 ((bs.drop (20 + n)).take 128)) 64 8)
    some ((bs.drop 4).take n, { dest := true, key := k, first := true, seq := 0, dirty := []
                                segLens := [byteField bs (4 + n) 8, byteField bs (12 + n) 8], ran := false })

def cmdCreate (c : DtmCmd) (s : State) : Turn :=
  let part := c.p0.toNat
  let link := c.p1.toNat % 2
  let number := c.p1.toNat / 256
  let body := bodyOf s c
  if number = 0 ∨ 64 < number ∨ (partDies s part).isEmpty then refuse s 2
  else
    match (if c.dest then openBlob body else some (body, { dest := true, key := 0, first := true, seq := 0, dirty := [], segLens := [], ran := false })) with
    | none => refuse s 6
    | some (bytes, m) =>
      match acceptPolicy bytes with
      | .error e => refuse s e
      | .ok p =>
        match freeKey s with
        | none => refuse s 7
        | some key =>
          if (getVf s number).isSome then refuse s 7
          else
            let h := freshHandle s
            let v := newVf h number key part link p (if c.dest then some m else none)
            let d := { s.datum with
              keys := (key, s.datum.draws + 1) :: s.datum.keys, handles := h :: s.datum.handles, draws := s.datum.draws + 2 }
            .ok { status := 0, handle := some h, st := { s with vfs := s.vfs ++ [v], datum := d } }

def cmdPolicy (c : DtmCmd) (v : Vf) (s : State) : Turn :=
  match acceptPolicy (bodyOf s c) with
  | .error e => refuse s e
  | .ok p =>
    if p.key ≠ v.policy.key ∨ p.version ≤ v.policy.version then refuse s 11
    else
      match exceeds s v p with
      | some at_ => refuse s 5 at_
      | none =>
        let s := modVf s v.number fun v => { v with
          policy := p, smp := { v.smp with enable := v.smp.enable && p.tsample }, trc := { v.trc with enable := v.trc.enable && p.tpmc } }
        let drops (k : Kernel) : Bool := k.vf == v.number && !p.hashes.contains k.hash
        accept { s with kernels := mapIf drops (fun k => { k with live := false }) s.kernels }

/-- The checks of a new segment (R357, R358): none where it is granted, else status and RES0. -/
def segmentFault (s : State) (v : Vf) (n base len : Nat) (group : BitVec 32) : Option (Nat × Nat) :=
  let others := s.vfs.filter fun x => x.number != v.number
  let meets (x : Vf) : Bool := (n == 1 || x.part == v.part) && (x.segs.getD n none).any fun g => rangesMeet base len g.base g.len
  let excl (x : Vf) : Bool := x.part == v.part && (x.policy.excl || v.policy.excl) && x.segs.any fun g => g.any fun g => g.group &&& group != 0
  if group = 0 ∨ len % 65536 ≠ 0 ∨ len = 0 ∨ (n < 3 ∧ base % 65536 ≠ 0) then some (2, 0)
  else if n < 2 ∧ spaceBytes s v.part n < base + len then some (2, 0)
  else if n = 2 ∧ (2 ^ 44 < len ∨ 2 ^ 64 < base + len) then some (2, 0)
  else if n = 0 ∧ v.policy.hbmMax < len then some (5, 80)
  else if n = 0 ∧ len ≤ v.policy.ctxBytes then some (5, 96)
  else if n = 1 ∧ v.policy.tierMax < len then some (5, 88)
  else if n < 2 ∧ others.any meets then some (8, 0)
  else if others.any excl then some (8, 0)
  else if n ≠ 3 then none
  else
    match vfOf s (BitVec.ofNat 64 base) with
    | none => some (3, 0)
    | some p =>
      if !p.policy.peer || !v.policy.peer || p.policy.key != v.policy.key || p.part != v.part then some (5, 109)
      else if ((p.segs.getD 0 none).map (usable p 0)).getD 0 < len then some (2, 0)
      else none

def cmdSegment (c : DtmCmd) (v : Vf) (s : State) : Turn :=
  let n := c.p0.toNat % 4
  let group : BitVec 32 := fld c.p0 32 32
  let clear := bit c.p0 9
  let base := c.p1.toNat
  let len := c.p2.toNat
  match (if clear then none else segmentFault s v n base len group) with
  | some (e, r) => refuse s e r
  | none =>
    let s := releaseSeg (flushOrds s) v n
    let s := if !clear && decide (n < 2) then zeroFill s v.part n base len else s
    let seg : Option Segment := if clear then none else some { base := base, len := len, ro := bit c.p0 8, group := group }
    accept (releaseOrds (modVf s v.number fun v => { v with segs := setAt v.segs n seg, trn := { v.trn with tlb := [] } }))

/-- Sum of the shares of a partition's VFs. -/
def shareSum (vs : List Vf) (part : Nat) : Nat := (vs.filter fun v => v.part == part).foldl (fun n v => n + v.share.toNat) 0

def cmdSlice (c : DtmCmd) (v : Vf) (s : State) : Turn :=
  let share : BitVec 8 := fld c.p0 0 8
  if share.toNat < v.policy.minShare then refuse s 5 108
  else if 256 < shareSum s.vfs v.part - v.share.toNat + share.toNat then refuse s 8
  else accept (modVf s v.number fun v => { v with share := share })

/-! ## Pause, resume, evict, restore, destroy (R362 to R364) -/

/-- Begins a command that stops a VF, or goes on with it: none once the VF is quiet. Until then the Datum comes back to it, by the event
VF_PAUSE of the mailbox, which is BUSY and takes no new command. -/
def stopping (c : DtmCmd) (v : Vf) (precise : Bool) (s : State) : Except State State :=
  let s := if s.datum.working then s
    else
      let s := { s with datum := { s.datum with working := true } }
      if v.st = .running then pauseVf s v precise else s
  if quiet s v.number then .ok s else .error (enqueue s [.vfPause c])

def cmdPause (c : DtmCmd) (v : Vf) (s : State) : Turn := do
  let s ← stopping c v false s
  accept s

/-- A VF runs: its ring, its gangs, and the entries and records that waited go on. -/
def runVf (s : State) (v : Vf) : State :=
  enqueue (pumpRing (modVf s v.number fun v => { v with st := .running }) v.number)
    [.gangPlace v.part, .completionWrite v.number, .faultRecordWrite v.number]

def cmdResume (v : Vf) (s : State) : Turn :=
  accept (runVf (modVf s v.number fun v => { v with migration := if v.st = .stopped then none else v.migration }) v)

/-- VF.EVICT: the whole context is written to the context area, and the cores are free (R364). -/
def cmdEvict (v : Vf) (s : State) : Turn :=
  let n := contextSize s v.number
  if v.policy.ctxBytes < n then refuse s 7
  else
    let s := sealPart (modVf s v.number fun v => { v with ctx := [] }) v none none 0 n (contextOf s v fun _ => true)
    let s := (s.gangs.filter fun g => g.vf == v.number && !g.blocks.isEmpty).foldl unplaceGang s
    accept (modVf s v.number fun v => { v with st := .evicted })

/-- VF.RESTORE: verifies the tags of the context area, and places every gang, or none (R364). -/
def cmdRestore (v : Vf) (s : State) : Turn :=
  let gs := s.gangs.filter fun g => g.vf == v.number && !g.blocks.isEmpty
  if !v.ctx.all (partIntact s v) then refuse s 10
  else
    match gs.foldlM (fun s g => moveGang s v (partDies s v.part) g) s with
    | none => refuse s 7
    | some t => accept (modVf t v.number fun v => { v with st := .paused, ctx := [] })

def cmdDestroy (c : DtmCmd) (v : Vf) (s : State) : Turn := do
  let s ← stopping c v false s
  accept (removeVf s v)

/-! ## Migration (R368 to R372) -/

/-- A peer window on either side. -/
def peered (s : State) (v : Vf) : Bool :=
  (v.segs.getD 3 none).isSome || s.vfs.any fun x => (x.segs.getD 3 none).any fun g => BitVec.ofNat 64 g.base == v.handle

/-- Whether a device report is one that the policy's measurements accept, and verifies under a key that a chain to Leniskad's root
certifies (R345, R369). -/
def reportAdmitted (p : Policy) (r : List Byte) : Bool :=
  byteField r 0 4 == 0x01414B4C && byteField r 4 1 == 0 && deviceKey ((r.drop 160).take 64) && verifies ((r.drop 160).take 64) ((r.drop 224).take 64) (r.take 224) &&
    (p.measures.isEmpty || p.measures.contains ((r.drop 48).take 32))

def cmdMigrateBegin (c : DtmCmd) (v : Vf) (s : State) : Turn :=
  let r := bodyOf s c
  if !v.policy.migrate || peered s v then refuse s 5 109
  else if r.length ≠ 288 ∨ !reportAdmitted v.policy r then refuse s 6
  else
    let key := Sys2Proof.Config.datumRandom s.datum.draws
    let blob := beginBlob v key ((r.drop 160).take 64)
    if c.outLen.toNat < blob.length then refuse s 12 blob.length
    else
      let m : Migration := { dest := false, key := key, first := true, seq := 0, dirty := [], segLens := [], ran := false }
      let s := modVf { s with datum := { s.datum with draws := s.datum.draws + 1 } } v.number fun v => { v with migration := some m }
      .ok { status := 0, out := blob, st := s }

/-- Emits pages: their records, and what is left dirty. -/
def emitPages (s : State) (v : Vf) (m : Migration) (n : Nat) : List Byte × Migration :=
  let ps := dirtyPages v m
  let now := ps.take n
  (pageRecords s v m.key m.seq now, { m with first := false, seq := m.seq + now.length, dirty := ps.drop n })

def sourceRound (c : DtmCmd) (v : Vf) (m : Migration) (s : State) : Turn :=
  let n := min c.p0.toNat (dirtyPages v m).length
  if !v.policy.precopy then refuse s 5 109
  else if c.outLen.toNat < n * 65600 then refuse s 12 (n * 65600)
  else if ((dirtyPages v m).take n).any (pagePoisoned s v) then refuse s 10
  else
    let t := countPagesRead s v ((dirtyPages v m).take n)
    let (out, m) := emitPages s v m n
    .ok { status := 0, res0 := n, res1 := m.dirty.length, out := out, st := modVf t v.number fun v => { v with migration := some m } }

/-- Applies records in sequence order; false where one fails, and nothing of it onward is applied (R370). -/
def applyRecords (v : Vf) : Nat → Migration → List Byte → State → Bool × Migration × State
  | 0, m, _, s => (true, m, s)
  | fuel + 1, m, bs, s =>
    if bs.isEmpty then (true, m, s)
    else
      match parseRecord m.key bs with
      | none => (false, m, s)
      | some ((kind, index, seq, body), rest) =>
        if seq ≠ m.seq ∨ kind = finishKind then (false, m, s)
        else if kind = contextKind then
          match Sys2Proof.Config.contextOf body with
          | none => (false, m, s)
          | some x => applyRecords v fuel { m with seq := m.seq + 1, first := false } rest (installContext s v x)
        else if !(allPages v).contains (kind, index) then (false, m, s)
        else applyRecords v fuel { m with seq := m.seq + 1 } rest (writeGlobal s (pageAddr s v kind index) body)

def destRound (c : DtmCmd) (v : Vf) (m : Migration) (s : State) : Turn :=
  let lens := (List.range 2).map fun n => ((v.segs.getD n none).map (·.len)).getD 0
  if lens ≠ m.segLens then refuse s 8
  else
    let body := bodyOf s c
    let (ok, m, s) := applyRecords v (body.length / 64 + 1) m body s
    .ok { status := if ok then 0 else 10, st := modVf s v.number fun v => { v with migration := some m } }

def cmdMigrateRound (c : DtmCmd) (v : Vf) (s : State) : Turn :=
  match v.migration with
  | none => refuse s 4
  | some m =>
    if c.dest then
      (if v.st ≠ .incoming then refuse s 4 else if c.p0 ≠ 0 ∨ c.outLen ≠ 0 ∨ c.outAddr ≠ 0 then refuse s 2 else destRound c v m s)
    else if v.st = .incoming then refuse s 4
    else if c.bodyLen ≠ 0 ∨ c.bodyAddr ≠ 0 then refuse s 2
    else sourceRound c v m s

/-- Bytes of a STOP's output: the dirty pages and the context record. -/
def stopBytes (s : State) (v : Vf) (m : Migration) : Nat := (dirtyPages v m).length * 65600 + recordSize s v

/-- The output of a STOP and the migration after it. -/
def stopOutput (s : State) (v : Vf) (m : Migration) : List Byte × Migration :=
  let (pages, m) := emitPages s v m (dirtyPages v m).length
  let size := recordSize s v - 64
  (pages ++ record m.key contextKind size m.seq (fit size (Sys2Proof.Config.contextRecord (contextOf s v fun _ => true))),
    { m with seq := m.seq + 1 })

/-- What keeps a STOP from going out: status and RES0. -/
def stopRefusal (s : State) (v : Vf) (m : Migration) (room : Nat) : Option (Nat × Nat) :=
  if room < stopBytes s v m then some (12, stopBytes s v m)
  else if (dirtyPages v m).any (pagePoisoned s v) then some (10, 0)
  else none

/-- STOP: the VF stops precisely, then its dirty pages and its context record go out. Where OUT is too small, or a page holds a poisoned
word, it has no effect, and a VF that was stopped before its last stores brought this about runs on (R349, R371, log entry 46). -/
def cmdMigrateStop (c : DtmCmd) (v : Vf) (s : State) : Turn :=
  match v.migration with
  | none => refuse s 4
  | some m =>
    match (if s.datum.working then none else stopRefusal s v m c.outLen.toNat) with
    | some (e, r) => refuse s e r
    | none => do
      let s := if s.datum.working then s
        else modVf s v.number fun x => { x with migration := some { m with ran := v.st == .running } }
      let t ← stopping c v true s
      let v' := (getVf t v.number).getD v
      let m := v'.migration.getD m
      match stopRefusal t v' m c.outLen.toNat with
      | some (e, r) => .ok { status := e, res0 := r, st := if m.ran then runVf t v' else t }
      | none =>
        let (out, m) := stopOutput t v' m
        let t := countPagesRead t v' (dirtyPages v' (v'.migration.getD m))
        .ok { status := 0, out := out, st := modVf t v.number fun x => { x with st := .stopped, migration := some m } }

/-- The finish record: the last sequence number, with a tag. -/
def finishRecord (m : Migration) : List Byte := record m.key finishKind 0 (m.seq - 1) []

def cmdMigrateFinish (c : DtmCmd) (v : Vf) (s : State) : Turn :=
  match v.migration with
  | none => refuse s 4
  | some m =>
    if c.dest then
      if v.st ≠ .incoming then refuse s 4
      else if c.outLen ≠ 0 ∨ c.outAddr ≠ 0 then refuse s 2
      else
        match parseRecord m.key (bodyOf s c) with
        | some ((kind, _, seq, _), []) =>
          if kind = finishKind ∧ seq + 1 = m.seq ∧ !m.first then accept (modVf s v.number fun v => { v with st := .paused, migration := none })
          else refuse s 10
        | _ => refuse s 10
    else if v.st ≠ .stopped then refuse s 4
    else if c.bodyLen ≠ 0 ∨ c.bodyAddr ≠ 0 then refuse s 2
    else if c.outLen.toNat < 64 then refuse s 12 64
    else .ok { status := 0, out := finishRecord m, st := removeVf s v }

/-! ## Hard partitions (R365, R366) -/

/-- Die map of P0. -/
def dieMap (p0 : Word) : List Nat := (List.range 8).map fun d => (fld p0 (4 * d) 3).toNat

/-- Dies of a set reached from some of it over chain links in the set: neighbours of Table 01-4. -/
def reach (set : List Nat) : Nat → List Nat → List Nat
  | 0, seen => seen
  | n + 1, seen => reach set n (set.filter fun d => seen.contains d || (List.range 4).any fun k => seen.contains (neighbour d k))

/-- Whether partitions are numbered from 0 without gaps and each is connected (R365). -/
def mapLegal (m : List Nat) : Bool :=
  (List.range 8).all fun p =>
    let ds := (List.range 8).filter fun d => m.getD d 0 == p
    if ds.isEmpty then (List.range 8).all fun q => decide (q < p) || !m.contains q
    else (reach ds 8 (ds.take 1)).length == ds.length

/-- The partition that carries the VFs of an old one: that of its lowest die (log entry 18). -/
def carriedTo (s : State) (m : List Nat) (p : Nat) : Nat := m.getD ((partDies s p).headD 0) 0

/-- Package address of an HBM byte under a new map: its partition physical address keeps its bytes (R366); none where no VF's
partition holds it. -/
def recopied (s : State) (m : List Nat) (k : Nat) : Option Nat :=
  if !isHbm k then some k
  else
    let p := s.datum.partDie.getD (k / 2 ^ 37) 0
    let old := partDies s p
    let q := carriedTo s m p
    let new := (List.range 8).filter fun d => m.getD d 0 == q
    if old = new then some k
    else if !s.vfs.any (fun v => v.part == p) then none
    else
      let a := (k % 2 ^ 37 / 2 ^ 16 * old.length + (old.idxOf (k / 2 ^ 37))) * 2 ^ 16 + k % 2 ^ 16
      if a < new.length * 2 ^ 37 then some (partPhys new a) else none

/-- The data of lines of the pages that p selects that are on their way home is written there (R366). -/
def landTalk (s : State) (p : Nat → Bool) : State :=
  let lines : Instr → List (Nat × List Byte)
    | .rvack _ _ ls | .fack _ _ ls => ls.map fun x => (x.line, x.bytes)
    | .notice _ line _ (some bytes) => [(line, bytes)]
    | _ => []
  (((sentMsgs s).flatMap lines).filter fun x => p (x.1 / 512)).foldl (fun s x => writeHome s x.1 x.2) s

/-- The cooperative launches that wait under a partition's new number get their 1 ms there (R23). -/
def repostCoop (s : State) (moved : Nat → Bool) : State :=
  (s.launches.filter unplacedCoop).foldl (fun s l =>
    match getVf s l.vf with
    | some v => if moved v.part then after s (l.since + 2700000 - s.cycle) (.coopWaitExpiry v.part) else s
    | none => s) s

/-- The links with those between dies of different partitions closed, the others open (R366, R367). -/
def closeLinks (m : List Nat) (ls : List Link) : List Link :=
  ls.mapIdx fun i (x : Link) =>
    let n := neighbour (i / 4) (i % 4)
    { x with closed := decide (n < 8) && m.getD (i / 4) 0 != m.getD n 0 }

def cmdPartSet (c : DtmCmd) (s : State) : Turn :=
  let m := dieMap c.p0
  let dies := List.range 8
  let old (d : Nat) : Nat := s.datum.partDie.getD d 0
  let changed (d : Nat) : Bool := old d != m.getD d 0 || partDies s (old d) != dies.filter fun x => m.getD x 0 == m.getD d 0
  let moved := dies.filter changed
  let holds (p : Nat) : Bool := s.vfs.any fun v => v.part == p
  let busy := s.vfs.any fun v => v.st != .evicted && moved.any fun d => old d == v.part
  let mixed := dies.any fun q =>
    1 < ((moved.filter fun d => m.getD d 0 == q && holds (old d)).map old).eraseDups.length
  let short := s.vfs.any fun v => (v.segs.getD 0 none).any fun g =>
    decide ((dies.filter fun d => m.getD d 0 == carriedTo s m v.part).length * 2 ^ 37 < g.base + g.len)
  let vfs := s.vfs.map fun v => { v with part := carriedTo s m v.part }
  if !mapLegal m || dies.any fun p => decide (256 < shareSum vfs p) then refuse s 8
  else if busy || mixed || short then refuse s 4
  else
    let gone (k : Nat) : Bool := isHbm k && changed (k / 2 ^ 37)
    let page (p : Nat) : Bool := gone (p * 2 ^ 16)
    let s := dropTalk (landTalk (flushOrds s) page) page
    let s := (List.range 8).foldl (fun s d => writeBackLines s d fun line => gone (line * 128)) s
    let mem := s.mem.foldl (fun x cell => match recopied s m cell.1 with | some k => writeCell x k cell.2 | none => x) []
    let dirs := s.dirs.filterMap fun e => (recopied s m (e.page * 2 ^ 16)).map fun k =>
      if gone (e.page * 2 ^ 16) then { newDir (k / 2 ^ 16) e.rounded e.push with round := e.round } else e
    let keep (d : Die) : Die :=
      { d with l2 := d.l2.filter fun l => !gone (l.line * 128), mirrors := d.mirrors.filter fun x => !gone (x.1 * 2 ^ 16) }
    let touched (p : Nat) : Bool := dies.any fun d => changed d && (old d == p || m.getD d 0 == p)
    let parts := s.parts.mapIdx fun p (x : Partition) => if touched p then { x with page := [], live := [], coop := none } else x
    let s := { s with mem := mem, dirs := dirs, vfs := vfs, dies := s.dies.map keep, parts := parts
                      poisoned := s.poisoned.filterMap (recopied s m)
                      datum := { s.datum with retired := s.datum.retired.map fun x => { x with part := carriedTo s m x.part } } }
    let s := enqueue (mapBlocks s fun b => if b.uid = 0 then b else { b with part := ((getVf s b.vf).map (·.part)).getD b.part })
      ((dies.filter touched).map fun p => .coopWaitExpiry p)
    let s := repostCoop s fun p => touched p
    accept (releaseOrds { s with links := closeLinks m s.links, datum := { s.datum with partDie := m, pseq := s.datum.pseq + 1 } })

/-! ## Attestation (R345) -/

def segDigest (v : Vf) : List Byte :=
  sm3 (v.segs.flatMap fun g => toBytes 8 ((g.map (·.len)).getD 0) ++ [if (g.map (·.ro)).getD false then 1 else 0])

/-- The report of Table 19-3. -/
def attestReport (s : State) (v : Option Vf) (nonce : List Byte) : List Byte :=
  let zero : List Byte := List.replicate 32 0
  let head := [0x4C, 0x4B, 0x41, 0x01, if v.isSome then 1 else 0, 0, 0, 0] ++ toBytes 8 ((v.map Vf.handle).getD 0).toNat ++ fit 32 nonce ++
    fwDigest s ++ ((v.map fun v => sm3 v.policy.bytes).getD zero) ++ (v.map segDigest).getD zero ++ toBytes 2 0x00A1 ++ toBytes 6 0 ++
    toBytes 8 ((v.map Vf.cmdCount).getD 0).toNat ++ devKey
  head ++ sign head

def cmdAttest (c : DtmCmd) (v : Option Vf) (s : State) : Turn :=
  if c.bodyLen ≠ 32 then refuse s 2
  else if c.outLen.toNat < 288 then refuse s 12 288
  else .ok { status := 0, out := attestReport s v (bodyOf s c), st := s }

/-! ## One command at a time (R347, R349, R351) -/

/-- A command on a VF in one of the states given. -/
def onVf (c : DtmCmd) (states : List VfState) (s : State) (f : Vf → State → Turn) : Turn :=
  match vfOf s c.handle with
  | none => refuse s 3
  | some v => if s.datum.working || states.contains v.st then f v s else refuse s 4

/-- The header fields that a command uses (Table 19-8). -/
def usesOf : Nat → Option Uses
  | 0x0001 => some { handle := false, p0 := 7, p1 := 0xFF01, body := true, dest := true }
  | 0x0002 => some { handle := true, body := true }
  | 0x0003 => some { handle := true, p0 := 0xFFFFFFFF00000303, p1 := 2 ^ 64 - 1, p2 := 2 ^ 64 - 1 }
  | 0x0004 => some { handle := true, p0 := 0xFF }
  | 0x0009 => some { handle := true, body := true, out := true }
  | 0x000A => some { handle := true, p0 := 2 ^ 64 - 1, body := true, out := true, dest := true }
  | 0x000B => some { handle := true, out := true }
  | 0x000C => some { handle := true, body := true, out := true, dest := true }
  | 0x000E => some { handle := false, p0 := 0x77777777 }
  | 0x000F => some { handle := true, body := true, out := true }
  | 0x0005 | 0x0006 | 0x0007 | 0x0008 | 0x000D => some { handle := true }
  | _ => none

/-- The effect of a command whose header fields are in order. -/
def effectOf (opc : Nat) (c : DtmCmd) (s : State) : Turn :=
  match opc with
  | 0x0001 => cmdCreate c s
  | 0x0002 => onVf c [.paused, .running, .evicted, .incoming] s (cmdPolicy c)
  | 0x0003 => onVf c [.paused, .evicted, .incoming] s (cmdSegment c)
  | 0x0004 => onVf c [.paused, .running, .evicted] s (cmdSlice c)
  | 0x0005 => onVf c [.running] s (cmdPause c)
  | 0x0006 => onVf c [.paused, .stopped] s cmdResume
  | 0x0007 => onVf c [.paused] s cmdEvict
  | 0x0008 => onVf c [.evicted] s cmdRestore
  | 0x0009 => onVf c [.paused, .running] s (cmdMigrateBegin c)
  | 0x000A => onVf c [.paused, .running, .incoming] s (cmdMigrateRound c)
  | 0x000B => onVf c [.paused, .running] s (cmdMigrateStop c)
  | 0x000C => onVf c [.stopped, .incoming] s (cmdMigrateFinish c)
  | 0x000D => onVf c [.paused, .running, .evicted, .incoming, .stopped] s (cmdDestroy c)
  | 0x000E => cmdPartSet c s
  | _ =>
    if c.handle = 0 then cmdAttest c none s
    else onVf c [.paused, .running, .evicted, .incoming, .stopped] s fun v s => cmdAttest c (some v) s

/-- One turn of the command in a mailbox. -/
def turnOf (pf : Fin 2) (s : State) : Turn :=
  let h := (getBox s pf.val).hdr
  let opc := byteField h 0 2
  let c := cmdOf pf h
  match usesOf opc with
  | none => refuse s 1
  | some u =>
    if 1 < byteField h 2 2 ∨ !headerOkFor u c then refuse s 2
    else if !hostReachable c then refuse s 9
    else effectOf opc c s

/-- Processes the commands that wait, oldest first, until one is still being processed; none begins during a checkpoint (R423). -/
def runCommands : Nat → State → State
  | 0, s => s
  | n + 1, s =>
    match s.datum.queue with
    | [] => s
    | pf :: _ =>
      let pf : Fin 2 := if pf = 0 then 0 else 1
      if s.ckp.busy && !s.datum.working then s
      else
        match turnOf pf s with
        | .error t => t
        | .ok r => runCommands n (respond s (cmdOf pf (getBox s pf.val).hdr) r)

/-- DTM.MBOX_DB: the header in the mailbox is submitted; ignored while BUSY, and by a module that has not booted (R347, R431). -/
def ringMailbox (s : State) (pf : Nat) : State :=
  if (getBox s pf).busy || !s.sal.ready then s
  else
    let waits := !s.datum.queue.isEmpty || s.ckp.busy
    let s := modBox s pf fun b => { b with busy := true }
    let s := { s with datum := { s.datum with queue := s.datum.queue ++ [pf] } }
    if waits then s else runCommands 2 s

/-- A command event: the hypervisor writes the header and the doorbell of its mailbox, which it ignores while BUSY; the Datum then goes
on with the mailbox's command, if that is the one it is processing. -/
def mailbox (opc : Nat) (c : DtmCmd) (s : State) : State :=
  let box := getBox s c.pf.val
  if box.busy then (if s.datum.queue.head? = some c.pf.val ∧ s.datum.working then runCommands 2 s else s)
  else ringMailbox (modBox s c.pf.val fun b => { b with hdr := headerBytes opc c }) c.pf.val

def execVfCreate (c : DtmCmd) (s : State) : Host.Outcome State Fault Refusal := .next (mailbox 0x0001 c s)
def execVfPolicy (c : DtmCmd) (s : State) : Host.Outcome State Fault Refusal := .next (mailbox 0x0002 c s)
def execVfSegment (c : DtmCmd) (s : State) : Host.Outcome State Fault Refusal := .next (mailbox 0x0003 c s)
def execVfSlice (c : DtmCmd) (s : State) : Host.Outcome State Fault Refusal := .next (mailbox 0x0004 c s)
def execVfPause (c : DtmCmd) (s : State) : Host.Outcome State Fault Refusal := .next (mailbox 0x0005 c s)
def execVfResume (c : DtmCmd) (s : State) : Host.Outcome State Fault Refusal := .next (mailbox 0x0006 c s)
def execVfEvict (c : DtmCmd) (s : State) : Host.Outcome State Fault Refusal := .next (mailbox 0x0007 c s)
def execVfRestore (c : DtmCmd) (s : State) : Host.Outcome State Fault Refusal := .next (mailbox 0x0008 c s)
def execVfMigrateBegin (c : DtmCmd) (s : State) : Host.Outcome State Fault Refusal := .next (mailbox 0x0009 c s)
def execVfMigrateRound (c : DtmCmd) (s : State) : Host.Outcome State Fault Refusal := .next (mailbox 0x000A c s)
def execVfMigrateStop (c : DtmCmd) (s : State) : Host.Outcome State Fault Refusal := .next (mailbox 0x000B c s)
def execVfMigrateFinish (c : DtmCmd) (s : State) : Host.Outcome State Fault Refusal := .next (mailbox 0x000C c s)
def execVfDestroy (c : DtmCmd) (s : State) : Host.Outcome State Fault Refusal := .next (mailbox 0x000D c s)
def execPartSet (c : DtmCmd) (s : State) : Host.Outcome State Fault Refusal := .next (mailbox 0x000E c s)
def execAttest (c : DtmCmd) (s : State) : Host.Outcome State Fault Refusal := .next (mailbox 0x000F c s)

end Sys2Proof.Machine
end

