-- ==== Sys2Proof/Machine/Spdm.lean ====
section
/-! DEFINITION. SPDM, IDE key management and TDISP as the Datum answers them (R343, R344). The order of the requests is that of SPDM 1.3
(log entry 19). -/

namespace Sys2Proof.Machine

def getSpdm (s : State) (pf : Fin 2) : Spdm := s.datum.spdm.getD pf.val .reset

/-- Changes a PF's connection and sends an answer: the request's place in Table 19-2 and the answer's payload. -/
def answer (s : State) (pf : Fin 2) (code : Nat) (payload : List Byte) (f : Spdm → Spdm) : State :=
  let g (x : Spdm) : Spdm := f { x with answers := x.answers ++ [(code, payload)] }
  { s with datum := { s.datum with spdm := modAt s.datum.spdm pf.val g } }

/-- Negotiation is complete: the requests after NEGOTIATE_ALGORITHMS are answered. -/
def negotiated (s : State) (pf : Fin 2) : Bool := (getSpdm s pf).algorithms

def findSession (s : State) (pf : Fin 2) (id : Nat) : Option Session := (getSpdm s pf).sessions.find? fun x => x.id == id

/-- A session in which KEY_EXCHANGE and FINISH are done. -/
def inSession (s : State) (pf : Fin 2) (id : Nat) : Bool := (findSession s pf id).any (·.finished)

def modSession (id : Nat) (f : Session → Session) (x : Spdm) : Spdm := { x with sessions := mapIf (fun y => y.id == id) f x.sessions }

/-- GET_VERSION begins the connection again. -/
def execGetVersion (pf : Fin 2) (s : State) : Host.Outcome State Fault Refusal :=
  .next (answer s pf 0 (toBytes 2 0x1300) fun x => { x with version := true, capabilities := false, algorithms := false })

/-- The capabilities of the requests of Table 19-2, as SPDM 1.3 numbers them: certificates, challenge, signed measurements, encryption and
its tags, key exchange, heartbeat, key update (log entry 19). -/
def capabilityFlags : List Byte := toBytes 4 0x000062D6

/-- The algorithms of Table 19-2, as SPDM 1.3 numbers them: SM2_P256 signatures, SM3_256, the SM2_P256 group, AEAD_SM4_GCM (log entry
19). -/
def algorithms : List Byte := toBytes 4 0x00000200 ++ toBytes 4 0x00000040 ++ toBytes 2 0x0040 ++ toBytes 2 0x0008

def execGetCapabilities (pf : Fin 2) (s : State) : Host.Outcome State Fault Refusal :=
  .next (if (getSpdm s pf).version then answer s pf 1 capabilityFlags fun x => { x with capabilities := true } else s)

def execNegotiateAlgorithms (pf : Fin 2) (s : State) : Host.Outcome State Fault Refusal :=
  .next (if (getSpdm s pf).capabilities then answer s pf 2 algorithms fun x => { x with algorithms := true } else s)

/-- GET_DIGESTS: SM3 of the chain in slot 0, the only one. -/
def execGetDigests (pf : Fin 2) (s : State) : Host.Outcome State Fault Refusal :=
  .next (if negotiated s pf then answer s pf 3 (sm3 certChain) id else s)

/-- GET_CERTIFICATE: the chain of slot 0; another slot has none. -/
def execGetCertificate (pf : Fin 2) (certSlot : Nat) (s : State) : Host.Outcome State Fault Refusal :=
  .next (if negotiated s pf then answer s pf 4 (if certSlot = 0 then certChain else []) id else s)

/-- CHALLENGE: signed with the device identity key over the chain's digest, the measurements and the nonce. -/
def execChallenge (pf : Fin 2) (nonce : List Byte) (s : State) : Host.Outcome State Fault Refusal :=
  .next (if negotiated s pf then answer s pf 5 (sign (sm3 certChain ++ blocks1to5 s ++ nonce)) id else s)

/-- GET_MEASUREMENTS: blocks 1 to 5, signed with the nonce (R342). -/
def execGetMeasurements (pf : Fin 2) (nonce : List Byte) (s : State) : Host.Outcome State Fault Refusal :=
  .next (if negotiated s pf then answer s pf 6 (blocks1to5 s ++ sign (blocks1to5 s ++ nonce)) id else s)

/-- KEY_EXCHANGE opens one of 64 sessions. -/
def execKeyExchange (pf : Fin 2) (session : Nat) (s : State) : Host.Outcome State Fault Refusal :=
  .next <|
    if !negotiated s pf || (findSession s pf session).isSome || decide (64 ≤ (getSpdm s pf).sessions.length) then s
    else answer s pf 7 (sign (toBytes 8 session)) fun x =>
      { x with sessions := x.sessions ++ [{ id := session, finished := false, generation := 0, ide := [] }] }

def execFinish (pf : Fin 2) (session : Nat) (s : State) : Host.Outcome State Fault Refusal :=
  .next (if (findSession s pf session).isSome then answer s pf 8 [] (modSession session fun x => { x with finished := true }) else s)

def execHeartbeat (pf : Fin 2) (session : Nat) (s : State) : Host.Outcome State Fault Refusal :=
  .next (if inSession s pf session then answer s pf 9 [] id else s)

/-- KEY_UPDATE: the session's keys move to their next generation. -/
def execKeyUpdate (pf : Fin 2) (session : Nat) (s : State) : Host.Outcome State Fault Refusal :=
  .next (if inSession s pf session then answer s pf 10 [] (modSession session fun x => { x with generation := x.generation + 1 }) else s)

def execEndSession (pf : Fin 2) (session : Nat) (s : State) : Host.Outcome State Fault Refusal :=
  .next (if inSession s pf session then answer s pf 11 [] fun x => { x with sessions := x.sessions.filter fun y => y.id != session } else s)

/-- IDE_KM inside a session keys a selective IDE stream for a VF. -/
def execIdeKm (pf : Fin 2) (session : Nat) (handle : Word) (s : State) : Host.Outcome State Fault Refusal :=
  .next <|
    match vfOf s handle with
    | none => s
    | some v =>
      if !inSession s pf session then s
      else modVf (answer s pf 12 [] (modSession session fun x => { x with ide := handle :: x.ide })) v.number fun v => { v with ide := true }

/-- Whether a TDISP request for a VF comes inside the session that keyed its IDE stream. -/
def tdispIn (s : State) (pf : Fin 2) (session : Nat) (v : Vf) : Bool :=
  v.ide && (findSession s pf session).any fun x => x.finished && x.ide.contains v.handle

/-- LOCK_INTERFACE: PAUSED with a segment 0, or a migrated VF not yet locked here, also RUNNING (R344). -/
def execLockInterface (pf : Fin 2) (session : Nat) (handle : Word) (s : State) : Host.Outcome State Fault Refusal :=
  .next <|
    match vfOf s handle with
    | none => s
    | some v =>
      let may := v.st == .paused && (v.segs.getD 0 none).isSome || v.migrated && v.st == .running
      if !tdispIn s pf session v || v.tdi != .unlocked || !may then s
      else modVf (answer s pf 13 [] id) v.number fun v => { v with tdi := .locked, migrated := false }

/-- START_INTERFACE moves a locked TDI to RUN. -/
def execStartInterface (pf : Fin 2) (session : Nat) (handle : Word) (s : State) : Host.Outcome State Fault Refusal :=
  .next <|
    match vfOf s handle with
    | none => s
    | some v =>
      if !tdispIn s pf session v || v.tdi != .locked then s
      else modVf (answer s pf 14 [] id) v.number fun v => { v with tdi := .run }

end Sys2Proof.Machine
end

