-- ==== Sys2Proof/Machine/Sched.lean ====
section
/-! DEFINITION. The scheduling registers of Table 20-7 with an effect of their own: RUN, the late count, core removal (R382, R387,
R391). -/

namespace Sys2Proof.Machine

/-- Gangs with a block on a core, their banks with them. -/
def gangsOn (s : State) (d c : Nat) : List Gang :=
  s.gangs.filter fun g => (gangBlocks s g.uid).any fun b => b.die == d && b.core == c

/-- Removes a core from service: its gangs pause precisely and await other cores (R387). -/
def removeCore (s : State) (d c : Nat) : State :=
  if s.datum.coreBusy || decide (8 ≤ d ∨ 144 ≤ c) then s
  else if (getDie s d).coreOff.getLsbD c then { s with datum := { s.datum with coreDone := true } }
  else
    let gs := gangsOn s d c
    let s := modDie s d fun x => { x with coreOff := x.coreOff ||| BitVec.ofNat 144 (2 ^ c) }
    let s := gs.foldl (fun s g => stopBlocks s g.vf (fun b => b.gang == g.uid) true) s
    let s := { s with datum := { s.datum with coreBusy := true, coreDone := false, moved := 0, coreWaiting := 0 } }
    enqueue s [.gangPlace (s.datum.partDie.getD d 0)]

/-- Returns a removed core to service. -/
def returnCore (s : State) (d c : Nat) : State :=
  if s.datum.coreBusy || decide (8 ≤ d ∨ 144 ≤ c) then s
  else
    let was := (getDie s d).coreOff.getLsbD c
    let s := modDie s d fun x => { x with coreOff := x.coreOff &&& ~~~(BitVec.ofNat 144 (2 ^ c)) }
    let s := { s with datum := { s.datum with coreDone := true } }
    if was then enqueue s [.gangPlace (s.datum.partDie.getD d 0)] else s

def execCoreRemove (die core : Nat) (s : State) : Host.Outcome State Fault Refusal := .next (removeCore s die core)
def execCoreReturn (die core : Nat) (s : State) : Host.Outcome State Fault Refusal := .next (returnCore s die core)

/-- SCH_LATE_CLEAR (Table 20-7). -/
def execSchLateClear (part : Nat) (val : Word) (s : State) : Host.Outcome State Fault Refusal :=
  .next (if bit val 63 then modPart s part fun p => { p with lateCount := 0 } else s)

def isTick (part : Nat) : Instr → Bool
  | .switchTick p => p == part
  | _ => false

/-- SCH.CFG: RUN starts the ticks with the period's first; without it no VF of the partition runs. -/
def setRun (s : State) (part : Nat) (run : Bool) : State :=
  let p := getPart s part
  if run = p.run then s
  else if run then enqueue (modPart s part fun p => { p with run := true, plan := [] }) [.switchTick part]
  else
    let s := beginHandOver (stopVf s p.vfnum false) part p.vfnum 0
    let s := modPart s part fun p => { p with run := false, plan := [] }
    { s with timers := s.timers.filter fun t => !isTick part t.2, agenda := s.agenda.filter fun i => !isTick part i }

end Sys2Proof.Machine
end

