-- ==== Sys2Proof/Machine/Ras.lean ====
section
/-! DEFINITION. Reliability and management: HBM retries, the event log, sensors, checkpoint, firmware, power and reset, and host writes
to package memory (R356, R419 to R433). -/

namespace Sys2Proof.Machine

/-! ## The event log (R420, R428, R429) -/

/-- An event record (Table 23-6), with %gtime of the event and the entries that the log of its source has lost since the record before. -/
def eventRecord (s : State) (e : LogEntry) : List Byte :=
  toBytes 8 e.time.toNat ++ [e.source, e.severity] ++ toBytes 2 e.unit.toNat ++ toBytes 4 e.loc.toNat ++ toBytes 8 e.addr.toNat ++
    toBytes 4 (s.sal.lost.getD e.source.toNat 0) ++ toBytes 2 e.cause.toNat ++ toBytes 2 0

/-- Writes a record: the log keeps the newest 65,536. -/
def writeRecord (s : State) (e : LogEntry) : State :=
  let log := ((s.sal.logTail.toNat, eventRecord s e) :: s.sal.log).take 65536
  { s with sal := { s.sal with log := log, logTail := s.sal.logTail + 1, lost := setAt s.sal.lost e.source.toNat 0 } }

/-- LOG_DRAIN: Saltern takes the entries that wait into the event log. -/
def execLogDrain (s : State) : Host.Outcome State Fault Refusal :=
  .next (s.sal.pending.foldl writeRecord { s with sal := { s.sal with pending := [] } })

/-! ## HBM transfers (R421) -/

def findLane (s : State) (die stack channel lane : Nat) : Option HbmLane :=
  s.sal.hbm.find? fun x => x.die == die && x.stack == stack && x.channel == channel && x.lane == lane

def putLane (s : State) (x : HbmLane) : State :=
  let same (y : HbmLane) : Bool := y.die == x.die && y.stack == x.stack && y.channel == x.channel && y.lane == x.lane
  { s with sal := { s.sal with hbm := x :: s.sal.hbm.filter (! same ·) } }

/-- A link-log entry of a lane. -/
def laneEntry (s : State) (die stack channel lane severity : Nat) : LogEntry :=
  { time := gtime s, source := 1, severity := BitVec.ofNat 8 severity, unit := BitVec.ofNat 16 (die + 16 * stack)
    loc := BitVec.ofNat 32 (lane + 256 * channel), addr := 0, cause := 0 }

/-- Whether a lane's count has reached 8 in the transfer in progress: its swap is due once that ends (R421). -/
def swapDue (x : HbmLane) : Bool := !x.swapped && decide (8 ≤ x.retries ∧ x.retries < 8 + x.caused)

/-- The lanes of a channel that have a record. -/
def onChannel (die stack channel : Nat) (x : HbmLane) : Bool := x.die == die && x.stack == stack && x.channel == channel

/-- The transfer in progress of a channel has ended: the swaps of its lanes are due, and the next one begins with no retry. -/
def endTransfer (s : State) (die stack channel : Nat) : State :=
  let on := onChannel die stack channel
  let due := s.sal.hbm.filter fun x => on x && swapDue x
  enqueue { s with sal := { s.sal with hbm := mapIf on (fun x => { x with caused := 0 }) s.sal.hbm } }
    (due.map fun x => .laneSwap die stack channel x.lane)

/-- HBM_TRANSFER_RETRY: one retry of the transfer in progress of a channel, counted against the lane that caused it until that is swapped.
A transfer that still fails after its 8th retry marks its 64 bytes poisoned; which ones is a free value (log entry 22). -/
def execHbmTransferRetry (die stack channel lane : Nat) (good : Bool) (s : State) : Host.Outcome State Fault Refusal :=
  .next <|
    let x := (findLane s die stack channel lane).getD
      { die := die, stack := stack, channel := channel, lane := lane, retries := 0, caused := 0, swapped := false }
    let s := putLane s { x with retries := if x.swapped then x.retries else x.retries + 1, caused := x.caused + 1 }
    let s := addLog s (laneEntry s die stack channel lane 0)
    let made := ((s.sal.hbm.filter (onChannel die stack channel)).map (·.caused)).foldl (· + ·) 0
    if good then endTransfer s die stack channel
    else if made < 8 then s
    else
      let (f, s) := drawFree (endTransfer s die stack channel)
      { s with poisoned := (die * 2 ^ 37 + f.toNat % 2 ^ 31 * 64) :: s.poisoned }

/-- LANE_SWAP: a lane whose count has reached 8 is steered to one of the two spares of its channel; with none left the channel
is degraded and goes on retrying. -/
def execLaneSwap (die stack channel lane : Nat) (s : State) : Host.Outcome State Fault Refusal :=
  .next <|
    match findLane s die stack channel lane with
    | none => s
    | some x =>
      let spares := s.sal.hbm.filter fun y => y.die == die && y.stack == stack && y.channel == channel && y.swapped
      if x.retries < 8 ∨ x.swapped then s
      else if 2 ≤ spares.length then addLog s (laneEntry s die stack channel lane 1)
      else addLog (putLane s { x with swapped := true }) (laneEntry s die stack channel lane 0)

/-! ## Power (R422, R426, R429, R430) -/

/-- What a loss of power leaves: the flash store, its log and journal, and host memory. No draw of the Datum's generator comes again, and
the model's count of cycles goes on. -/
def powerDown (s : State) : State :=
  let z := State.reset
  { z with
      mem := s.mem.filter fun c => isHost c.1
      sal := { z.sal with
        logTail := s.sal.logTail, log := s.sal.log, fwVersion := s.sal.fwVersion, fwImage := s.sal.fwImage, fwValid := s.sal.fwValid, fwCounter := s.sal.fwCounter
        journal := s.sal.journal, altered := s.sal.altered, retry := s.sal.retry, powered := false }
      datum := { z.datum with draws := s.datum.draws }
      cycle := s.cycle, timeBase := s.timeBase, freeCount := s.freeCount, nextId := s.nextId }

/-- POWER_LOSS: the store is erased while an update writes it, so no valid image is left then (R430). -/
def execPowerLoss (s : State) : Host.Outcome State Fault Refusal := .next (powerDown s)

/-! ## Sensors (R426, R427, Table 23-5) -/

/-- Cycles in 10 ms, over which the input power is averaged (R427). -/
abbrev powerSpan : Nat := 27000000

/-- The input power averaged over 10 ms, in W: the mean of the readings taken in that time. -/
def powerMean (s : State) : Int :=
  let xs := s.sal.power.map fun x => x.2.toInt
  xs.foldl (· + ·) 0 / (max 1 xs.length : Nat)

/-- State of a reading of a sensor that was in state `was`: 0 normal, 1 throttling, which lasts until the value is within its limit again
and not equal to it, 2 shut down. -/
def sensorState (s : State) (i : Nat) (was : BitVec 2) (v : BitVec 32) : BitVec 2 :=
  let x := v.toInt
  let past (a x : Int) : Bool := decide (a < x) || (was != 0 && decide (x = a))
  let above (a b : Int) : BitVec 2 := if b < x then 2 else if past a x then 1 else 0
  if i < 0x08 ∨ i = 0x18 ∨ i = 0x19 then above 95 105
  else if i < 0x18 then above 90 100
  else if i = 0x1A then above 85 95
  else if i = 0x1B then above 40 50
  else if i = 0x1C then 0
  else if i = 0x1D then (if x < 1500 then 2 else if past (-3000) (-x) then 1 else 0)
  else if i = 0x1E then (if x < 40000 ∨ 60000 < x then 2 else 0)
  else if past s.sal.powerCap.toNat (powerMean s) then 1
  else 0

/-- Die or unit of a sensor. -/
def sensorUnit (i : Nat) : BitVec 16 :=
  BitVec.ofNat 16 (if i < 8 then i else if i < 0x18 then (i - 8) / 2 + 16 * ((i - 8) % 2) else if i = 0x18 then 8 else 9)

/-- The dies whose clock a sensor's throttling lowers: a die's own, that of its stacks, an I/O die, the I/O dies for the LPDDR-6, all for
the coolant, the voltage and the power (log entry 24, DEDUCED). -/
def sensorDies (i : Nat) : List Nat :=
  if i < 8 then [i] else if i < 0x18 then [(i - 8) / 2] else if i = 0x18 then [8] else if i = 0x19 then [9] else if i = 0x1A then [8, 9]
  else List.range 10

/-- Clocks after a reading: one step of 100 MHz lower on the dies concerned while the value is past its throttle limit; a die that no
sensor throttles any more runs at the full rate (R426, log entry 24). -/
def throttle (s : State) (i : Nat) : State :=
  let hot (d : Nat) : Bool := s.sal.sensors.zipIdx.any fun x => x.1.2 != 0 && (sensorDies x.2).contains d
  let now := (s.sal.sensors.getD i (0, 0)).2
  { s with dies := s.dies.mapIdx fun d x =>
      { x with slow := if !hot d then 0 else if now != 0 && (sensorDies i).contains d then min 26 (x.slow + 1) else x.slow } }

/-- The limits that a reading crosses: 1 throttle, 2 shutdown. The input voltage has no throttle limit. -/
def crossed (i : Nat) (was now : BitVec 2) : List (BitVec 2) :=
  (if i != 0x1E && ((was == 0) != (now == 0)) then [1] else []) ++ if (was == 2) != (now == 2) then [2] else []

/-- The record of a limit crossed, with the severity of the limit where the value is past it now. -/
def sensorRecord (time : Word) (i : Nat) (now limit : BitVec 2) : LogEntry :=
  let past := limit.toNat ≤ now.toNat
  { time := time, source := 2, severity := if past then limit.setWidth 8 else 0, unit := sensorUnit i, loc := BitVec.ofNat 32 i, addr := 0
    cause := if past ∧ limit = 2 then 0x38F else 0 }

/-- A sensor's value is held to its limits: each crossing of a limit is recorded, clocks are lowered or restored, and a shutdown stops
every VF and removes power from the package. -/
def judgeSensor (s : State) (index : Nat) (value : BitVec 32) : State :=
  let was := (s.sal.sensors.getD index (0, 0)).2
  let now := sensorState s index was value
  let s := { s with sal := { s.sal with sensors := setAt s.sal.sensors index (value, now) } }
  let s := ((crossed index was now).map (sensorRecord (gtime s) index now)).foldl writeRecord s
  if now = 2 then powerDown (stopOwners s 15 .allVfs 0) else throttle s index

/-- SENSOR_POLL: Saltern reads a sensor. -/
def execSensorPoll (index : Nat) (value : BitVec 32) (s : State) : Host.Outcome State Fault Refusal :=
  .next <|
    if 32 ≤ index then s
    else
      let power := (s.cycle, value) :: s.sal.power.filter fun x => decide (s.cycle < x.1 + powerSpan)
      judgeSensor (if index = 0x1F then { s with sal := { s.sal with power := power } } else s) index value

/-! ## Checkpoint (R422 to R424) -/

/-- Pauses every VF that runs (R423, step 1). -/
def pauseRunning (s : State) : State :=
  let vs := s.vfs.filter fun v => v.st == .running
  let s := vs.foldl (fun s v => pauseVf s v false) s
  { s with ckp := { s.ckp with began := true, resume := vs.map (·.number) } }

/-- Whether everything that VFs had begun is saved and has performed, inbound pieces apart. -/
def allSaved (s : State) : Bool := ((allWarps s).all fun w => w.uid == 0 || w.saved) && s.inflight.isEmpty

/-- The SM4-GCM tag under key 0 of a 64 KiB block of HBM as it is stored (R423, log entry 9). -/
def blockTag (s : State) (n : Nat) : List Byte :=
  fit 16 (Sys2Proof.Config.encrypt s.datum.fwKey n ((List.range 512).flatMap fun i => storedLine s (n * 512 + i)))

/-- The tags of the blocks of HBM that list a byte. -/
def blockTags (s : State) : List (Nat × List Byte) :=
  (((s.mem.filter fun c => isHbm c.1).map fun c => c.1 / 2 ^ 16).eraseDups).map fun n => (n, blockTag s n)

/-- The image of the module (R422): HBM with every modified line written back, on-chip state, directory, VF table, and the header. -/
def imageOf (s : State) : CkpImage :=
  { mem := s.mem.filter fun c => isHbm c.1, blocks := allBlocks s, warps := allWarps s, gangs := s.gangs, launches := s.launches
    kernels := s.kernels, vfs := s.vfs, dirs := s.dirs, keys := s.datum.keys, footprints := s.footprints
    handles := s.datum.handles, partDie := s.datum.partDie, fwDigest := fwDigest s, tags := blockTags s
    wrapped := Sys2Proof.Config.wrapKeys (fwDigest s) s.datum.keys, poison := s.poisoned.filter isHbm
    retired := s.datum.retired.filter fun x => x.seg == 0 }

/-- Releases what the checkpoint held: pieces, VFs, Datum commands (R423, step 6). -/
def releaseHeld (s : State) : State :=
  let back := s.ckp.resume
  let s := { s with vfs := mapIf (fun v => back.contains v.number && v.st == .paused) (fun v => { v with st := .running }) s.vfs
                    ckp := { s.ckp with busy := false, began := false, resume := [] } }
  let acks := s.ords.zipIdx.flatMap fun o => (o.1.pieces.filter (·.forwarded)).map fun p => Instr.pieceAck o.2 p.seq p.num
  let waits := back.flatMap fun n => [.completionWrite n, .faultRecordWrite n]
  let s := back.foldl pumpRing (enqueue s (acks ++ ((List.range 8).map fun p => .gangPlace p) ++ waits))
  if s.datum.queue.isEmpty || s.datum.working then s else runCommands 2 s

/-- The longest that the streaming of a checkpoint takes: 0.5 s in cycles (Table 23-3). -/
abbrev ckpCycles : Nat := 1350000000

/-- Steps 3 and 4 of R423 begin: all data on its way home and every modified line is written back, and the streaming ends at a time that
the spec leaves open within its bound (log entry 24). -/
def beginStream (s : State) : State :=
  let s := (List.range 8).foldl (fun s d => writeBackLines s d fun _ => true) (landTalk s fun _ => true)
  let (f, s) := drawFree s
  let n := f.toNat % ckpCycles
  after { s with ckp := { s.ckp with ends := some (s.cycle + n) } } n .checkpoint

/-- Steps 4 to 6 of R423 end: the image with its header stands in the reserve, MS has the time since GO in µs, and what was held goes
on. -/
def endStream (s : State) : State :=
  let s := { s with poisoned := s.poisoned.filter (! inReserve ·) }
  releaseHeld { s with ckp := { s.ckp with
    done := true, valid := true, poison := s.poisoned.any isHbm, ms := BitVec.ofNat 32 ((s.cycle - s.ckp.since) / 2700)
    image := some (imageOf s), ends := none } }

/-- CHECKPOINT: without a reserve it completes at once; else it waits for the Datum command in progress, pauses every VF, waits
until all is saved, streams the image and releases what it held (R423). -/
def checkpointStep (s : State) : State :=
  if s.ckp.nores then { s with ckp := { s.ckp with done := true, ms := 0 } }
  else
    let s := if s.ckp.busy then s else { s with ckp := { s.ckp with busy := true, since := s.cycle } }
    if !s.ckp.began && s.datum.working then enqueue s [.checkpoint]
    else
      match s.ckp.ends with
      | some c => if s.cycle < c then s else endStream s
      | none =>
        let s := if s.ckp.began then s else pauseRunning s
        if allSaved s then beginStream s else enqueue s [.checkpoint]

def execCheckpoint (s : State) : Host.Outcome State Fault Refusal := .next (checkpointStep s)

/-- Loads an image: VFs EVICTED with their state in the image's own parts, their TDI unlocked, their gangs on no core (R424). -/
def restoreImage (s : State) (x : CkpImage) : State :=
  let blocks := x.blocks.map fun b => if b.uid = 0 then b else { b with die := noDie, core := 0, st := moveSt b .evicted, l1 := [], prefs := [] }
  let vfs := x.vfs.map fun v => { v with st := .evicted, tdi := .unlocked, ide := false, migrated := false, trn := { v.trn with tlb := [] }, ctx := [] }
  repostCoop { s with
      mem := x.mem.foldl (fun m c => writeCell m c.1 c.2) s.mem
      blocks := blocks.filter (·.uid != 0), warps := (x.warps.filter (·.uid != 0)).map fun w => { w with saved := true }
      gangs := x.gangs.map fun g => { g with st := if g.blocks.isEmpty then g.st else .evicted }
      launches := x.launches, kernels := x.kernels, vfs := vfs
      dirs := x.dirs.map fun e => { newDir e.page e.rounded e.push with round := e.round }
      footprints := x.footprints.map fun e => { e with waiting := true }, poisoned := s.poisoned ++ x.poison
      links := closeLinks x.partDie s.links
      datum := { s.datum with keys := x.keys, handles := x.handles, partDie := x.partDie, retired := s.datum.retired ++ x.retired } } fun _ => true

/-- Whether an image is whole: its header is of this device and firmware, so that the key that wraps the VF keys is derived again, every
block tag verifies on what is loaded, `t`, and no word of the reserve is damaged (R424). -/
def imageWhole (s : State) (x : CkpImage) (t : State) : Bool :=
  x.fwDigest == fwDigest s && x.wrapped == Sys2Proof.Config.wrapKeys (fwDigest s) x.keys && x.tags == blockTags t && !s.poisoned.any inReserve

/-! ## Boot (R342, R430 to R432): each POWER_ON is one step of the boot, so that a loss of power can fall between two (log entry 21) -/

/-- A step's outcome in the journal; every one other than 1 and 2 writes an event record. -/
def bootRecord (s : State) (step : Nat) (out : BitVec 3) : State :=
  let s := { s with sal := { s.sal with journal := setAt s.sal.journal (step - 1) out } }
  if out = 1 ∨ out = 2 then s
  else
    writeRecord s { time := gtime s, source := 3, severity := if out = 3 then 2 else 1, unit := 9, loc := BitVec.ofNat 32 step, addr := 0
                    cause := 0 }

/-- The Datum's part of a boot: it holds the measurement blocks, and draws the context MAC key and, where there is none yet, the firmware
key (R341, R342). -/
def bootDatum (s : State) : State :=
  let n := s.datum.draws
  { s with datum := { s.datum with
    blocks := measure s, fwKey := if s.datum.fwKey = 0 then n + 1 else s.datum.fwKey, macKey := n + 2, draws := n + 3 } }

/-- A step of the boot runs. -/
def beginStep (s : State) (k : Nat) : State :=
  enqueue (bootRecord { s with sal := { s.sal with bootStep := k } } k 1) [.powerOn]

/-- The rates that PCIe 7.0 offers, in units of 0.1 GT/s (Table 18-1). -/
def linkRates : List Nat := [25, 50, 80, 160, 320, 640, 1280]

/-- The module waits for the host, with G1's link at 2.5 GT/s (R431, R432). -/
def awaitHost (s : State) (recovery : Bool) : State := { s with sal := { s.sal with recovery := recovery, rates := [0, 25] } }

/-- A boot begins: steps that failed at the previous one, or were found running, take their altered form, RETRY clears it (R432). -/
def boot (s : State) : State :=
  let failed : BitVec 9 := (List.range 9).foldl (fun m k =>
    let o := s.sal.journal.getD k 0
    if o = 1 ∨ o = 3 then m ||| BitVec.ofNat 9 (2 ^ k) else m) 0
  let altered := (s.sal.altered ||| failed) &&& ~~~s.sal.retry
  beginStep { s with sal := { s.sal with powered := true, altered := altered, retry := 0, journal := List.replicate 9 0 } } 1

def stepAltered (s : State) (k : Nat) : Bool := s.sal.altered.getLsbD (k - 1)

/-- A step that ends well: done, or done in its altered form; the next one runs. -/
def stepDone (s : State) (k : Nat) : State := beginStep (bootRecord s k (if stepAltered s k then 4 else 2)) (k + 1)

/-- A step that fails: in its normal form the boot begins again, in its altered form it stops, and Saltern waits for the host. -/
def stepFailed (s : State) (k : Nat) : State :=
  let t := bootRecord s k 3
  if stepAltered s k then awaitHost t false else boot t

/-- Disables on every die the clusters that failed the test (R432). -/
def disableClusters (s : State) : State :=
  (List.range 8).foldl (fun s d => let r := drawFree s; modDie r.2 d fun x => { x with clusterOff := r.1.setWidth 36 }) s

/-- Marks the links that failed training, at both ends (R402, R432). -/
def failLinks (s : State) : State :=
  let (f, s) := drawFree s
  let bad (i : Nat) : Bool := f.getLsbD i || (List.range 32).any fun j => f.getLsbD j && otherEnd j == some i
  { s with links := s.links.mapIdx fun i x => { x with failed := x.failed || bad i } }

/-- Step 8: a valid image is loaded where it is whole; its altered form marks the image invalid (R424, R432). -/
def restoreStep (s : State) : State :=
  if stepAltered s 8 then stepDone { s with ckp := { s.ckp with valid := false, image := none } } 8
  else
    match s.ckp.image with
    | none => stepDone s 8
    | some x => let t := restoreImage s x; if imageWhole s x t then stepDone t 8 else stepFailed s 8

/-- Step 9: the host links train to the full rate, or in the altered form to the highest that passes, and the module runs. -/
def trainLinks (s : State) : State :=
  let (f, s) := drawFree s
  let rate := if stepAltered s 9 then linkRates.getD (f.toNat % 7) 25 else 1280
  let s := bootRecord s 9 (if stepAltered s 9 then 4 else 2)
  { s with sal := { s.sal with ready := true, recovery := false, version := s.sal.fwVersion, rates := [rate, rate] } }

/-- The work of steps 2 to 7 and 9, which has not failed. -/
def stepWork (s : State) (k : Nat) : State :=
  let alt := stepAltered s k
  match k with
  | 5 => stepDone (if alt then disableClusters s else s) 5
  | 6 => stepDone (if alt then failLinks s else s) 6
  | 7 =>
    let t := bootRecord { s with ckp := { s.ckp with nores := alt } } 7 (if alt then 4 else 2)
    beginStep (bootDatum t) 8
  | 9 => trainLinks s
  | k => stepDone s k

/-- The step that runs ends. Step 1 checks the stored image; whether the hardware passes any other but step 8 is a free value (log entry
21). -/
def endStep (s : State) : State :=
  let k := s.sal.bootStep
  if k = 1 then (if s.sal.fwValid then beginStep (bootRecord s 1 2) 2 else awaitHost (bootRecord s 1 3) true)
  else if k = 8 then restoreStep s
  else
    let (f, s) := drawFree s
    if bit f 0 then stepFailed s k else stepWork s k

/-- Whether a step of a boot runs. -/
def booting (s : State) : Bool := s.sal.bootStep != 0 && s.sal.journal.getD (s.sal.bootStep - 1) 0 == 1

/-- POWER_ON: of a module that is off or has not booted, the boot begins and %gtime counts from 0 (R415); while a boot is in progress, its
step ends. -/
def execPowerOn (s : State) : Host.Outcome State Fault Refusal :=
  .next (if booting s then endStep s
    else if s.sal.ready || s.sal.recovery || s.sal.bootStep != 0 then s
    else boot { s with timeBase := -((s.cycle * 10 / 27 : Nat) : Int) })

/-- Ranges of the second tier that a reset leaves under the keys of VFs whose keys are lost. -/
def tierLeft (s : State) : List RetiredRange :=
  (s.datum.retired.filter fun x => x.seg == 1) ++ s.vfs.filterMap fun v => (v.segs.getD 1 none).map fun g =>
    { part := v.part, seg := 1, base := g.base, len := g.len, key := vfKey s v, plain := [] }

/-- MODULE_RESET: the second tier and the checkpoint image stay, links that have failed stay so until power-on (R402), and the module
boots again (R422). -/
def execModuleReset (s : State) : Host.Outcome State Fault Refusal :=
  .next <|
    let z := powerDown s
    boot { z with
      mem := s.mem.filter fun c => !isHbm c.1, ckp := { z.ckp with valid := s.ckp.valid, image := s.ckp.image, poison := s.ckp.poison }
      links := s.links.map fun x => { Link.reset with failed := x.failed }, datum := { z.datum with retired := tierLeft s, fwKey := s.datum.fwKey }
      poisoned := s.poisoned.filter (! isHbm ·), replies := s.replies }

/-! ## Firmware (R430, R431) -/

/-- The image that the host offers, over G1's link; none where it cannot be read. -/
def offeredImage (s : State) : Option (List Byte) :=
  let n := s.sal.updLen.toNat
  if 2 ^ 26 < n ∨ 2 ^ 64 < s.sal.updAddr.toNat + n then none else some (readBytes s.mem (hostBase 1 + s.sal.updAddr.toNat) n)

/-- STATUS of an image: 0 where it may be installed. -/
def imageStatus (s : State) : BitVec 3 :=
  match offeredImage s with
  | none => 4
  | some x => if !Sys2Proof.Config.imageSigned x then 2 else if (Sys2Proof.Config.imageVersion x).toNat < s.sal.fwCounter.toNat then 3 else 0

def offeredVersion (s : State) : BitVec 32 := Sys2Proof.Config.imageVersion ((offeredImage s).getD [])

def updateRecord (s : State) (st : BitVec 3) : State :=
  writeRecord s { time := gtime s, source := 4, severity := if st = 1 then 0 else 1, unit := 9, loc := 0, addr := s.sal.updAddr, cause := 0 }

/-- GO of R430: a verified image erases the store and is written; a failed check leaves the store as it is. -/
def startUpdate (s : State) : State :=
  let st := imageStatus s
  if st ≠ 0 then updateRecord { s with sal := { s.sal with updStatus := st } } st
  else
    let v := offeredVersion s
    after { s with sal := { s.sal with
      updBusy := true, updStatus := 0, fwValid := false, updVersion := v, updImage := (offeredImage s).getD [] } } (30 * 2700000000) .firmwareUpdate

/-- The store holds the new image, and the counter its version. -/
def endUpdate (s : State) : State :=
  let v := s.sal.updVersion
  updateRecord { s with sal := { s.sal with
    updBusy := false, updStatus := 1, updImage := [], fwVersion := v, fwImage := s.sal.updImage, fwValid := true, fwCounter := v } } 1

/-- FIRMWARE_UPDATE: GO while Saltern runs, and, while BUSY, the end of the write to the store. -/
def execFirmwareUpdate (s : State) : Host.Outcome State Fault Refusal :=
  .next (if s.sal.updBusy then endUpdate s else if s.sal.ready then startUpdate s else s)

/-- GO in recovery: a verified image is run and written to the store, and the boot goes on (R431). -/
def recover (s : State) : State :=
  let st := imageStatus s
  if st ≠ 0 then { s with sal := { s.sal with updStatus := st } }
  else
    let v := offeredVersion s
    let s := { s with sal := { s.sal with
      updStatus := 1, fwVersion := v, fwImage := (offeredImage s).getD [], fwValid := true, fwCounter := v, recovery := false } }
    beginStep (bootRecord s 1 4) 2

def execFirmwareRecovery (s : State) : Host.Outcome State Fault Refusal := .next (if s.sal.recovery then recover s else s)

end Sys2Proof.Machine
end

