-- ==== Sys2Proof/Machine/Registers.lean ====
section
/-! DEFINITION. Writes to and reads of the registers of PF BAR0 and VF BAR0 (R4, R331, Tables 18-5, 19-4, 19-12, 20-3, 20-7, 21-4, 22-3,
22-4, 22-5 and 23-8). A register with an effect of its own has the effect of its event; RO fields and offsets without a register ignore
a write; WO fields and offsets without a register read as 0. -/

namespace Sys2Proof.Machine

/-- A VF's ring registers (Table 22-5), relative to the ring's base. -/
def writeRing (vf : Nat) (trc : Bool) (offset : Nat) (val : Word) (s : State) : Host.Outcome State Fault Refusal :=
  match offset with
  | 0x00 =>
    .next (modRing s vf trc fun r => if r.enable then r else { r with base := if trc then fld val 5 59 ++ (0 : BitVec 5) else fld val 4 60 ++ (0 : BitVec 4) })
  | 0x08 => execRingCfg vf trc val s
  | 0x18 => .next (modRing s vf trc fun r => { r with head := fld val 0 32 })
  | 0x20 => execRingDropClear vf trc val s
  | _ => .next s

/-- VF BAR0 (Tables 18-5, 20-3, 22-5) and the MSI-X table at 0x2000. -/
def writeVfReg (vf offset : Nat) (val : Word) (s : State) : Host.Outcome State Fault Refusal :=
  if !served s vf then .next s
  else
    match offset with
    | 0x000 => .next (modHif s vf fun h => if h.enable then h else { h with sqBase := fld val 7 57 ++ (0 : BitVec 7) })
    | 0x008 => .next (modHif s vf fun h => if h.enable then h else { h with cqBase := fld val 5 59 ++ (0 : BitVec 5) })
    | 0x010 => execHifRingCfg vf val s
    | 0x018 => execHifSqDb vf val s
    | 0x030 => execHifCqHead vf val s
    | 0x040 => .next (modHif s vf fun h => { h with inbVa := fld val 16 48 ++ (0 : BitVec 16) })
    | 0x048 => execInbErrClear vf val s
    | 0x100 => .next (modTrn s vf fun t => { t with root := zx64 (fld val 12 34) <<< 12 })
    | 0x108 => .next (modTrn s vf fun t => if t.fqEnable then t else { t with fqBase := fld val 5 59 ++ (0 : BitVec 5) })
    | 0x110 => execTrnFqCfg vf val s
    | 0x120 => execTrnFqHead vf val s
    | 0x128 => execTrnPresent vf val s
    | _ =>
      if 0x200 ≤ offset ∧ offset < 0x228 then writeRing vf false (offset - 0x200) val s
      else if 0x240 ≤ offset ∧ offset < 0x268 then writeRing vf true (offset - 0x240) val s
      else if 0x2000 ≤ offset ∧ offset < 0x2020 ∧ offset % 8 = 0 then
        .next (modVf s vf fun v => { v with msixTable := setAt v.msixTable ((offset - 0x2000) / 8) val })
      else .next s

/-- The Datum's mailbox (Tables 19-4 and 19-5). -/
def writeMailbox (pf : Fin 2) (offset : Nat) (val : Word) (s : State) : State :=
  if offset < 0x40 then
    modBox s pf.val fun b => if b.busy then b else { b with hdr := b.hdr.take offset ++ toBytes 8 val.toNat ++ b.hdr.drop (offset + 8) }
  else if offset = 0x40 then (if bit val 0 then ringMailbox s pf.val else s)
  else if offset = 0x48 then modBox s pf.val fun b => { b with done := b.done && !bit val 1 }
  else s

/-- A partition's scheduling registers (Table 20-7). -/
def writeSched (part offset : Nat) (val : Word) (s : State) : Host.Outcome State Fault Refusal :=
  match offset with
  | 0x00 =>
    let us : BitVec 20 := fld val 0 20
    .next (if 100 ≤ us.toNat ∧ us.toNat ≤ 1000000 then modPart s part fun p => { p with period := us } else s)
  | 0x08 => .next (setRun s part (bit val 0))
  | 0x18 => execSchLateClear part val s
  | _ => .next s

/-- SCH.CORE_CTL (Table 20-7). -/
def writeCoreCtl (val : Word) (s : State) : State :=
  let d := (fld val 0 3).toNat
  let c := (fld val 3 8).toNat
  if !bit val 31 then s else if bit val 16 then returnCore s d c else removeCore s d c

/-- SMP.PART_CFG (Table 22-4): a period other than 0 and 10 to 24 is ignored. -/
def writeSmpCfg (part : Nat) (val : Word) (s : State) : State :=
  let n : BitVec 5 := fld val 0 5
  if n = 0 ∨ (10 ≤ n.toNat ∧ n.toNat ≤ 24) then modPart s part fun p => { p with smpN := n } else s

/-- PWR.CAP (Table 23-8): the input power is held to the new cap at once (R427). -/
def writeCap (val : Word) (s : State) : State :=
  let w : BitVec 12 := fld val 0 12
  if 1000 ≤ w.toNat ∧ w.toNat ≤ 3600 then
    judgeSensor { s with sal := { s.sal with powerCap := w } } 0x1F (s.sal.sensors.getD 0x1F (0, 0)).1
  else s

/-- Saltern's, the time and the checkpoint registers (Tables 22-4 and 23-8), relative to 0x200_0000. -/
def writeSaltern (offset : Nat) (val : Word) (s : State) : Host.Outcome State Fault Refusal :=
  match offset with
  | 0x0010 => .next { s with sal := { s.sal with logSel := fld val 0 32 } }
  | 0x0040 => .next { s with sal := { s.sal with sensSel := fld val 0 8 } }
  | 0x0080 => .next { s with sal := { s.sal with updAddr := val } }
  | 0x0088 => .next { s with sal := { s.sal with updLen := fld val 0 32 } }
  | 0x0090 =>
    if !bit val 0 || s.sal.updBusy then .next s
    else if s.sal.recovery then execFirmwareRecovery s
    else execFirmwareUpdate s
  | 0x00C8 => .next { s with sal := { s.sal with retry := s.sal.retry ||| fld val 0 9 } }
  | 0x0100 => if bit val 0 && !s.ckp.busy then execCheckpoint s else .next s
  | 0x0108 => .next { s with ckp := { s.ckp with done := s.ckp.done && !bit val 1 } }
  | 0x0140 => .next (writeCap val s)
  | 0x1000 =>
    .next { s with tim := { s.tim with src := fld val 0 2, port := fld val 2 4, domain := fld val 8 8, xport := fld val 16 2 } }
  | _ => .next s

/-- Partition, metering, firewall, Cadastre and sampling registers, relative to 0x100_0000. -/
def writeOperator (offset : Nat) (val : Word) (s : State) : Host.Outcome State Fault Refusal :=
  if offset = 0x50 then execFwlDropClear val s
  else if 0x100 ≤ offset ∧ offset < 0x300 then writeSched ((offset - 0x100) / 0x40) ((offset - 0x100) % 0x40) val s
  else if offset = 0x400 then .next (writeCoreCtl val s)
  else if offset = 0x408 then .next { s with datum := { s.datum with coreDone := s.datum.coreDone && !bit val 1 } }
  else if 0x1000 ≤ offset ∧ offset < 0x5000 ∧ offset % 16 = 0 then execQosBucket ((offset - 0x1000) / 16) val s
  else if 0x6000 ≤ offset ∧ offset < 0x6040 ∧ offset % 8 = 0 then .next (writeSmpCfg ((offset - 0x6000) / 8) val s)
  else if 0x8000 ≤ offset ∧ offset < 0x8050 ∧ offset % 8 = 0 then execCdsStatClear ((offset - 0x8000) / 8) val s
  else if 0x9000 ≤ offset ∧ offset < 0x9100 ∧ offset % 8 = 0 then execLnkStatClear ((offset - 0x9000) / 8) val s
  else .next s

/-- The word of a PF's MSI-X table of 32 vectors at an offset of its BAR0, whose place the spec leaves open (R330, log entry 33). -/
def pfMsixWord (offset : Nat) : Option Nat :=
  let base := Sys2Proof.Config.pfMsixAt
  if base ≤ offset ∧ offset < base + 512 then some ((offset - base) / 8) else none

/-- Whether a host link is trained and reaches an offset of PF BAR0: before the boot ends, Saltern's registers alone (R431). -/
def pfReached (s : State) (pf : Fin 2) (offset : Nat) : Bool :=
  s.sal.rates.getD pf.val 0 != 0 && (s.sal.ready || decide (0x2000000 ≤ offset))

/-- PF BAR0 (Table 18-2). -/
def writePfReg (pf : Fin 2) (offset : Nat) (val : Word) (s : State) : Host.Outcome State Fault Refusal :=
  if offset % 8 ≠ 0 then .next s
  else if offset < 0x10000 then .next (writeMailbox pf offset val s)
  else if offset < 0x14000 then .next s
  else if 0x1000000 ≤ offset ∧ offset < 0x2000000 then writeOperator (offset - 0x1000000) val s
  else if 0x2000000 ≤ offset ∧ offset < 0x2010000 then writeSaltern (offset - 0x2000000) val s
  else
    match pfMsixWord offset with
    | none => .next s
    | some i => .next { s with datum := { s.datum with pfMsix := modAt s.datum.pfMsix pf.val fun t => setAt t i val } }

/-- REGISTER_WRITE: a write of 8 bytes to BAR0 of a PF or of a VF (Table 18-2). No write comes over a link that is not trained. -/
def execRegisterWrite (target : RegTarget) (offset : Nat) (val : Word) (s : State) : Host.Outcome State Fault Refusal :=
  match target with
  | .pf n =>
    if 0x4000000 ≤ offset then .fault (.outsideWindow offset)
    else if pfReached s n offset then writePfReg n offset val s
    else .next s
  | .vf n bound => if 0x4000 ≤ offset then .fault (.outsideWindow offset) else if bound then writeVfReg n offset val s else .next s

/-! ## Reads (R4, R331) -/

/-- The register whose fields stand at the given bits. -/
def fields (fs : List (Nat × Nat)) : Word := BitVec.ofNat 64 (fs.foldl (fun n f => n + f.2 * 2 ^ f.1) 0)

/-- The 8 bytes at an offset of a byte string. -/
def word8 (bs : List Byte) (offset : Nat) : Word := BitVec.ofNat 64 (ofBytes ((bs.drop offset).take 8))

def readRing (r : Ring) : Nat → Word
  | 0x00 => r.base
  | 0x08 => fields [(0, r.log2.toNat), (31, r.enable.toNat)]
  | 0x10 => zx64 r.tail
  | 0x18 => zx64 r.head
  | 0x20 => zx64 r.drop
  | _ => 0

/-- HIF.RING_CFG, HIF.RING_STAT and HIF.INB_ERR (Table 18-6) among the ring registers of Table 18-5. -/
def readHif (h : Hif) : Nat → Word
  | 0x00 => h.sqBase
  | 0x08 => h.cqBase
  | 0x10 => fields [(0, h.sqLog2.toNat), (8, h.cqLog2.toNat), (31, h.enable.toNat)]
  | 0x20 => zx64 h.sqHead
  | 0x28 => zx64 h.cqTail
  | 0x30 => zx64 h.cqHead
  | 0x38 => fields [(0, h.fault.toNat), (1, h.reason.toNat), (16, h.cause.toNat)]
  | 0x40 => h.inbVa
  | 0x48 => fields [(0, h.inbCount.toNat), (16, h.inbCause.toNat)]
  | _ => 0

/-- TRN.STAT: the slots of a VF in YIELDED and the records that wait for queue space, both saturating (Table 20-3). -/
def trnStat (s : State) (v : Vf) : Word :=
  fields [(0, min 0xFFFF (yieldedSlots s v.number fun _ => true).length), (16, min 0xFFFF v.trn.waiting.length)]

/-- The translation registers of Table 20-3, relative to 0x100. -/
def readTrn (s : State) (v : Vf) : Nat → Word
  | 0x00 => v.trn.root
  | 0x08 => v.trn.fqBase
  | 0x10 => fields [(0, v.trn.fqLog2.toNat), (31, v.trn.fqEnable.toNat)]
  | 0x18 => zx64 v.trn.fqTail
  | 0x20 => zx64 v.trn.fqHead
  | 0x30 => trnStat s v
  | _ => 0

/-- VF BAR0. -/
def readVfReg (s : State) (v : Vf) (offset : Nat) : Word :=
  if offset < 0x100 then readHif v.hif offset
  else if offset < 0x200 then readTrn s v (offset - 0x100)
  else if offset < 0x228 then readRing v.smp (offset - 0x200)
  else if 0x240 ≤ offset ∧ offset < 0x268 then readRing v.trc (offset - 0x240)
  else if 0x2000 ≤ offset ∧ offset < 0x2020 then v.msixTable.getD ((offset - 0x2000) / 8) 0
  else 0

/-- The Datum's mailbox (Tables 19-4 and 19-5). -/
def readMailbox (b : Mailbox) (offset : Nat) : Word :=
  if offset < 0x40 then word8 b.hdr offset
  else if offset = 0x48 then fields [(0, b.busy.toNat), (1, b.done.toNat), (8, b.status.toNat), (32, b.seq.toNat)]
  else if 0x80 ≤ offset ∧ offset < 0xC0 then word8 b.rsp (offset - 0x80)
  else 0

/-- A word of the operator's page of a partition (Table 22-3). -/
def readCounterPage (p : Partition) (word : Nat) : Word := ((p.page.find? fun x => x.1 == word).map (·.2)).getD 0

/-- FWL.LINK_MASK of a die (Table 19-12). -/
def linkMask (s : State) (die : Nat) : Word :=
  fields ((List.range 4).flatMap fun i => [(i, (getLink s (4 * die + i)).closed.toNat), (4 + i, (getLink s (4 * die + i)).failed.toNat)])

/-- A partition's scheduling registers (Table 20-7). -/
def readSched (p : Partition) : Nat → Word
  | 0x00 => zx64 p.period
  | 0x08 => fields [(0, p.run.toNat)]
  | 0x10 => fields [(0, p.vfnum), (8, p.late.toNat), (16, p.ticks.toNat)]
  | 0x18 => zx64 p.lateCount
  | _ => 0

/-- The two words of a bucket (Table 20-7). -/
def readBucket (s : State) (n word : Nat) : Word :=
  match s.buckets.find? fun b => b.num == n with
  | none => 0
  | some b =>
    if word = 0 then fields [(0, b.rate.toNat), (32, b.burst.toNat), (63, b.en.toNat)]
    else fields [(0, (BitVec.ofInt 32 b.tokens).toNat), (32, b.heldCount.toNat)]

/-- LNK.STAT (Table 21-4). -/
def linkStat (l : Link) : Word :=
  fields [(0, if l.failed then 2 else if l.retraining then 1 else 0), (16, l.retrains.toNat), (32, l.replays.toNat)]

/-- Partition, metering, firewall, Cadastre and sampling registers, relative to 0x100_0000. -/
def readOperator (s : State) (offset : Nat) : Word :=
  if offset = 0 then fields ((List.range 8).map fun d => (4 * d, s.datum.partDie.getD d 0))
  else if offset < 0x48 then linkMask s ((offset - 8) / 8)
  else if offset = 0x48 then fields [(0, s.datum.changing.toNat), (8, s.datum.pseq.toNat)]
  else if offset = 0x50 then zx64 s.datum.drop
  else if 0x100 ≤ offset ∧ offset < 0x300 then readSched (getPart s ((offset - 0x100) / 0x40)) ((offset - 0x100) % 0x40)
  else if offset = 0x408 then
    fields [(0, s.datum.coreBusy.toNat), (1, s.datum.coreDone.toNat), (8, s.datum.moved.toNat), (16, s.datum.coreWaiting.toNat)]
  else if 0x500 ≤ offset ∧ offset < 0x5C0 then
    BitVec.ofNat 64 ((getDie s ((offset - 0x500) / 0x18)).coreOff.toNat / 2 ^ (64 * ((offset - 0x500) % 0x18 / 8)))
  else if 0x608 ≤ offset ∧ offset ≤ 0x800 then ((getVf s ((offset - 0x600) / 8)).map fun v => zx64 v.share).getD 0
  else if 0x1000 ≤ offset ∧ offset < 0x5000 then readBucket s ((offset - 0x1000) / 16) (offset % 16)
  else if 0x6000 ≤ offset ∧ offset < 0x6040 then zx64 (getPart s ((offset - 0x6000) / 8)).smpN
  else if 0x8000 ≤ offset ∧ offset < 0x8050 then
    let d := getDie s ((offset - 0x8000) / 8)
    fields [(0, d.handoffs.toNat), (32, d.recalls.toNat)]
  else if 0x9000 ≤ offset ∧ offset < 0x9100 then linkStat (getLink s ((offset - 0x9000) / 8))
  else 0

/-- The selected record of the event log; one that is overwritten or not yet written reads as zero (R429). -/
def logData (s : State) : List Byte := ((s.sal.log.find? fun r => r.1 == s.sal.logSel.toNat).map (·.2)).getD []

/-- Saltern's, the time and the checkpoint registers (Tables 22-4 and 23-8), relative to 0x200_0000. -/
def readSaltern (s : State) (offset : Nat) : Word :=
  let sensor := s.sal.sensors.getD s.sal.sensSel.toNat (0, 0)
  match offset with
  | 0x0000 => fields [(0, s.sal.ready.toNat), (1, s.sal.recovery.toNat), (32, s.sal.version.toNat)]
  | 0x0008 => zx64 s.sal.logTail
  | 0x0010 => zx64 s.sal.logSel
  | 0x0018 | 0x0020 | 0x0028 | 0x0030 => word8 (logData s) (offset - 0x18)
  | 0x0040 => zx64 s.sal.sensSel
  | 0x0048 => fields [(0, sensor.1.toNat), (32, sensor.2.toNat)]
  | 0x0080 => s.sal.updAddr
  | 0x0088 => zx64 s.sal.updLen
  | 0x0098 => fields [(0, s.sal.updBusy.toNat), (1, s.sal.updStatus.toNat)]
  | 0x00C0 => fields ((List.range 9).map fun k => (3 * k, (s.sal.journal.getD k 0).toNat))
  | 0x0108 =>
    fields [(0, s.ckp.busy.toNat), (1, s.ckp.done.toNat), (2, s.ckp.poison.toNat), (3, s.ckp.nores.toNat), (4, s.ckp.valid.toNat),
      (32, s.ckp.ms.toNat)]
  | 0x0140 => zx64 s.sal.powerCap
  | 0x1000 => fields [(0, s.tim.src.toNat), (2, s.tim.port.toNat), (8, s.tim.domain.toNat), (16, s.tim.xport.toNat)]
  | 0x1008 => fields [(0, s.tim.locked.toNat), (1, s.tim.holdover.toNat), (32, s.tim.offset.toNat)]
  | 0x1010 => gtime s
  | _ => 0

/-- PF BAR0 (Table 18-2). -/
def readPfReg (s : State) (pf : Fin 2) (offset : Nat) : Word :=
  if offset % 8 ≠ 0 then 0
  else if offset < 0x10000 then readMailbox (getBox s pf.val) offset
  else if offset < 0x14000 then readCounterPage (getPart s ((offset - 0x10000) / 0x800)) (offset % 0x800 / 8)
  else if 0x1000000 ≤ offset ∧ offset < 0x2000000 then readOperator s (offset - 0x1000000)
  else if 0x2000000 ≤ offset ∧ offset < 0x2010000 then readSaltern s (offset - 0x2000000)
  else ((pfMsixWord offset).map fun i => (s.datum.pfMsix.getD pf.val []).getD i 0).getD 0

/-- A read of 8 bytes of BAR0 of a PF or of a VF; none where it completes with Unsupported Request (R331) or no link brings it. -/
def readRegister (s : State) (target : RegTarget) (offset : Nat) : Option Word :=
  match target with
  | .pf n => if pfReached s n offset then some (readPfReg s n offset) else none
  | .vf n bound =>
    match getVf s n with
    | none => none
    | some v => if bound && served s n then some (readVfReg s v offset) else none

end Sys2Proof.Machine
end

