-- ==== Sys2Proof/Machine/Dispatch.lean ====
section
/-! DEFINITION. The one match from an instruction or event to its meaning. -/

namespace Sys2Proof.Machine

/-- The meaning of every instruction and event of the opcode table. -/
def exec (i : Instr) (s : State) : Host.Outcome State Fault Refusal :=
  match i with
  | .nop => Sys2Proof.Machine.execNop s
  | .bra off => Sys2Proof.Machine.execBra off s
  | .brc cond off => Sys2Proof.Machine.execBrc cond off s
  | .brz ms off => Sys2Proof.Machine.execBrz ms off s
  | .brnz ms off => Sys2Proof.Machine.execBrnz ms off s
  | .brd ms jid off => Sys2Proof.Machine.execBrd ms jid off s
  | .join jid c pi => Sys2Proof.Machine.execJoin jid c pi s
  | .call nargs nres off => Sys2Proof.Machine.execCall nargs nres off s
  | .calli nargs nres target => Sys2Proof.Machine.execCalli nargs nres target s
  | .ret => Sys2Proof.Machine.execRet s
  | .loop k off => Sys2Proof.Machine.execLoop k off s
  | .exit => Sys2Proof.Machine.execExit s
  | .stake k => Sys2Proof.Machine.execStake k s
  | .yield n => Sys2Proof.Machine.execYield n s
  | .svc n => Sys2Proof.Machine.execSvc n s
  | .bkpt k => Sys2Proof.Machine.execBkpt k s
  | .launch sy sx => Sys2Proof.Machine.execLaunch sy sx s
  | .waitdep => Sys2Proof.Machine.execWaitdep s
  | .trig => Sys2Proof.Machine.execTrig s
  | .eret => Sys2Proof.Machine.execEret s
  | .eretM ms => Sys2Proof.Machine.execEretM ms s
  | .abort => Sys2Proof.Machine.execAbort s
  | .save ms a dst => Sys2Proof.Machine.execSave ms a dst s
  | .dup ms mz a => Sys2Proof.Machine.execDup ms mz a s
  | .pushi h v => Sys2Proof.Machine.execPushi h v s
  | .qperm pi => Sys2Proof.Machine.execQperm pi s
  | .settag h a => Sys2Proof.Machine.execSettag h a s
  | .tile log2w => Sys2Proof.Machine.execTile log2w s
  | .setmode val wen => Sys2Proof.Machine.execSetmode val wen s
  | .lane2s ms a b k => Sys2Proof.Machine.execLane2s ms a b k s
  | .rdsr ms mz r => Sys2Proof.Machine.execRdsr ms mz r s
  | .wrsr ms a r => Sys2Proof.Machine.execWrsr ms a r s
  | .sadd x => Sys2Proof.Machine.execSadd x s
  | .ssub x => Sys2Proof.Machine.execSsub x s
  | .smul x => Sys2Proof.Machine.execSmul x s
  | .smulh x => Sys2Proof.Machine.execSmulh x s
  | .sand x => Sys2Proof.Machine.execSand x s
  | .sor x => Sys2Proof.Machine.execSor x s
  | .sxor x => Sys2Proof.Machine.execSxor x s
  | .sshl x => Sys2Proof.Machine.execSshl x s
  | .sshr x => Sys2Proof.Machine.execSshr x s
  | .ssar x => Sys2Proof.Machine.execSsar x s
  | .smin x => Sys2Proof.Machine.execSmin x s
  | .smax x => Sys2Proof.Machine.execSmax x s
  | .scmp ty sa b ccw => Sys2Proof.Machine.execScmp ty sa b ccw s
  | .smov ty sd sa ccw => Sys2Proof.Machine.execSmov ty sd sa ccw s
  | .smovi ty sd sa v ccw => Sys2Proof.Machine.execSmovi ty sd sa v ccw s
  | .ssel cond ty sd sa b => Sys2Proof.Machine.execSsel cond ty sd sa b s
  | .sclz ty sd sa ccw => Sys2Proof.Machine.execSclz ty sd sa ccw s
  | .spopc ty sd sa ccw => Sys2Proof.Machine.execSpopc ty sd sa ccw s
  | .sbfe x => Sys2Proof.Machine.execSbfe x s
  | .sld ty sd sa off => Sys2Proof.Machine.execSld ty sd sa off s
  | .sst ty sd sa off => Sys2Proof.Machine.execSst ty sd sa off s
  | .iadd h sat a b => Sys2Proof.Machine.execIadd h sat a b s
  | .isub h sat a b => Sys2Proof.Machine.execIsub h sat a b s
  | .imul h sat a b => Sys2Proof.Machine.execImul h sat a b s
  | .imulh h a b => Sys2Proof.Machine.execImulh h a b s
  | .imad h sat a b c => Sys2Proof.Machine.execImad h sat a b c s
  | .ineg h sat a => Sys2Proof.Machine.execIneg h sat a s
  | .iabs h sat a => Sys2Proof.Machine.execIabs h sat a s
  | .imin h a b => Sys2Proof.Machine.execImin h a b s
  | .imax h a b => Sys2Proof.Machine.execImax h a b s
  | .and h a b => Sys2Proof.Machine.execAnd h a b s
  | .or h a b => Sys2Proof.Machine.execOr h a b s
  | .xor h a b => Sys2Proof.Machine.execXor h a b s
  | .not h a => Sys2Proof.Machine.execNot h a s
  | .shl h sat a b => Sys2Proof.Machine.execShl h sat a b s
  | .shr h a b => Sys2Proof.Machine.execShr h a b s
  | .sar h a b => Sys2Proof.Machine.execSar h a b s
  | .rotl h a b => Sys2Proof.Machine.execRotl h a b s
  | .bfe h a b => Sys2Proof.Machine.execBfe h a b s
  | .bfi h a b c => Sys2Proof.Machine.execBfi h a b c s
  | .popc h a => Sys2Proof.Machine.execPopc h a s
  | .clz h a => Sys2Proof.Machine.execClz h a s
  | .brev h a => Sys2Proof.Machine.execBrev h a s
  | .icmp h cc a b => Sys2Proof.Machine.execIcmp h cc a b s
  | .sel h a b c => Sys2Proof.Machine.execSel h a b c s
  | .lea ms mz a b c => Sys2Proof.Machine.execLea ms mz a b c s
  | .fadd h rm na nb a b => Sys2Proof.Machine.execFadd h rm na nb a b s
  | .fsub h rm na nb a b => Sys2Proof.Machine.execFsub h rm na nb a b s
  | .fmul h rm na nb a b => Sys2Proof.Machine.execFmul h rm na nb a b s
  | .ffma h rm na nb nc a b c => Sys2Proof.Machine.execFfma h rm na nb nc a b c s
  | .fmin h na nb a b => Sys2Proof.Machine.execFmin h na nb a b s
  | .fmax h na nb a b => Sys2Proof.Machine.execFmax h na nb a b s
  | .fabs h a => Sys2Proof.Machine.execFabs h a s
  | .fcmp h cc a b => Sys2Proof.Machine.execFcmp h cc a b s
  | .fclass h a => Sys2Proof.Machine.execFclass h a s
  | .frnd h rm na a => Sys2Proof.Machine.execFrnd h rm na a s
  | .fscale h rm na a b => Sys2Proof.Machine.execFscale h rm na a b s
  | .fdiv la h rm na nb a b => Sys2Proof.Machine.execFdiv la h rm na nb a b s
  | .fsqrt la h rm na a => Sys2Proof.Machine.execFsqrt la h rm na a s
  | .cvt h rm dty a => Sys2Proof.Machine.execCvt h rm dty a s
  | .cvtsr h dty a b => Sys2Proof.Machine.execCvtsr h dty a b s
  | .frcp la h a => Sys2Proof.Machine.execFrcp la h a s
  | .frsq la h a => Sys2Proof.Machine.execFrsq la h a s
  | .fexp2 la h a => Sys2Proof.Machine.execFexp2 la h a s
  | .flog2 la h a => Sys2Proof.Machine.execFlog2 la h a s
  | .fsin la h a => Sys2Proof.Machine.execFsin la h a s
  | .fcos la h a => Sys2Proof.Machine.execFcos la h a s
  | .ftanh la h a => Sys2Proof.Machine.execFtanh la h a s
  | .rng h k => Sys2Proof.Machine.execRng h k s
  | .bsinit ms a b n => Sys2Proof.Machine.execBsinit ms a b n s
  | .bsrd ms mz n b c => Sys2Proof.Machine.execBsrd ms mz n b c s
  | .shfl la h op a b => Sys2Proof.Machine.execShfl la h op a b s
  | .vote ms op a c => Sys2Proof.Machine.execVote ms op a c s
  | .redux la h op rm a => Sys2Proof.Machine.execRedux la h op rm a s
  | .scan la h excl op rm a => Sys2Proof.Machine.execScan la h excl op rm a s
  | .matchLanes ms ty op a c => Sys2Proof.Machine.execMatch ms ty op a c s
  | .mset ms a c => Sys2Proof.Machine.execMset ms a c s
  | .mand a b c => Sys2Proof.Machine.execMand a b c s
  | .mor a b c => Sys2Proof.Machine.execMor a b c s
  | .mxor a b c => Sys2Proof.Machine.execMxor a b c s
  | .mnot a c => Sys2Proof.Machine.execMnot a c s
  | .mpopc a k => Sys2Proof.Machine.execMpopc a k s
  | .mfirst a k => Sys2Proof.Machine.execMfirst a k s
  | .mfroms k c => Sys2Proof.Machine.execMfroms k c s
  | .mtos a k => Sys2Proof.Machine.execMtos a k s
  | .ld m cp => Sys2Proof.Machine.execLd m cp s
  | .ld2 m cp => Sys2Proof.Machine.execLd2 m cp s
  | .st m data cp => Sys2Proof.Machine.execSt m data cp s
  | .st2 m data cp => Sys2Proof.Machine.execSt2 m data cp s
  | .lds m cp => Sys2Proof.Machine.execLds m cp s
  | .sts m data cp => Sys2Proof.Machine.execSts m data cp s
  | .ldb m k stale => Sys2Proof.Machine.execLdb m k stale s
  | .lda m scope cp => Sys2Proof.Machine.execLda m scope cp s
  | .stl m data scope cp => Sys2Proof.Machine.execStl m data scope cp s
  | .pref m cp => Sys2Proof.Machine.execPref m cp s
  | .cctl m op => Sys2Proof.Machine.execCctl m op s
  | .atom m data scope ord op => Sys2Proof.Machine.execAtom m data scope ord op s
  | .atomc m data scope ord cmp => Sys2Proof.Machine.execAtomc m data scope ord cmp s
  | .atomf m data scope ord op => Sys2Proof.Machine.execAtomf m data scope ord op s
  | .red m data scope ord op => Sys2Proof.Machine.execRed m data scope ord op s
  | .atoms m data scope ord op => Sys2Proof.Machine.execAtoms m data scope ord op s
  | .atomsc m data scope ord cmp => Sys2Proof.Machine.execAtomsc m data scope ord cmp s
  | .radv m scope => Sys2Proof.Machine.execRadv m scope s
  | .rdround m => Sys2Proof.Machine.execRdround m s
  | .fence kind scope ms => Sys2Proof.Machine.execFence kind scope ms s
  | .barinit id sx sy => Sys2Proof.Machine.execBarinit id sx sy s
  | .bararv id n => Sys2Proof.Machine.execBararv id n s
  | .barwt id sx => Sys2Proof.Machine.execBarwt id sx s
  | .barexp id sy => Sys2Proof.Machine.execBarexp id sy s
  | .fqput ms ty a k => Sys2Proof.Machine.execFqput ms ty a k s
  | .fqget h k => Sys2Proof.Machine.execFqget h k s
  | .bankcfg bank mode => Sys2Proof.Machine.execBankcfg bank mode s
  | .scopy j src dst => Sys2Proof.Machine.execScopy j src dst s
  | .scopy2 j src dst => Sys2Proof.Machine.execScopy2 j src dst s
  | .stcopy j toDesc other desc => Sys2Proof.Machine.execStcopy j toDesc other desc s
  | .sgath j src dst esz idxScratch => Sys2Proof.Machine.execSgath j src dst esz idxScratch s
  | .sscat j src dst esz idxScratch => Sys2Proof.Machine.execSscat j src dst esz idxScratch s
  | .sfill j dst esz => Sys2Proof.Machine.execSfill j dst esz s
  | .swait wp sx => Sys2Proof.Machine.execSwait wp sx s
  | .squery sy sx => Sys2Proof.Machine.execSquery sy sx s
  | .tdset desc w sx => Sys2Proof.Machine.execTdset desc w sx s
  | .tdget sy desc w => Sys2Proof.Machine.execTdget sy desc w s
  | .tdinv desc => Sys2Proof.Machine.execTdinv desc s
  | .invpg ms addr off => Sys2Proof.Machine.execInvpg ms addr off s
  | .invall ms => Sys2Proof.Machine.execInvall ms s
  | .pmrd sd n => Sys2Proof.Machine.execPmrd sd n s
  | .pmcfg sa n => Sys2Proof.Machine.execPmcfg sa n s
  | .trace sa t => Sys2Proof.Machine.execTrace sa t s
  | .mma x => Sys2Proof.Machine.execMma x s
  | .mmaq x => Sys2Proof.Machine.execMmaq x s
  | .accz acc => Sys2Proof.Machine.execAccz acc s
  | .accld x => Sys2Proof.Machine.execAccld x s
  | .accst x flag => Sys2Proof.Machine.execAccst x flag s
  | .qstore x adapt => Sys2Proof.Machine.execQstore x adapt s
  | .mdrain shape acc row col => Sys2Proof.Machine.execMdrain shape acc row col s
  | .mbararv id => Sys2Proof.Machine.execMbararv id s
  | .mbarwt id => Sys2Proof.Machine.execMbarwt id s
  | .mloop count off => Sys2Proof.Machine.execMloop count off s
  | .mjmp off => Sys2Proof.Machine.execMjmp off s
  | .mend => Sys2Proof.Machine.execMend s
  | .apop la ms ty => Sys2Proof.Machine.execApop la ms ty s
  | .ori2 p => Sys2Proof.Machine.execOri2 p s
  | .ori3 p => Sys2Proof.Machine.execOri3 p s
  | .incir p => Sys2Proof.Machine.execIncir p s
  | .insph p => Sys2Proof.Machine.execInsph p s
  | .segx p => Sys2Proof.Machine.execSegx p s
  | .gpclr ms => Sys2Proof.Machine.execGpclr ms s
  | .illegalOpcode w => Sys2Proof.Machine.execIllegalOpcode w s
  | .accessPerformed id => Sys2Proof.Machine.execAccessPerformed id s
  | .resultArrival warp rid => Sys2Proof.Machine.execResultArrival warp rid s
  | .slotAged warp slot => Sys2Proof.Machine.execSlotAged warp slot s
  | .yieldExpiry warp slot => Sys2Proof.Machine.execYieldExpiry warp slot s
  | .barwtWake warp slot => Sys2Proof.Machine.execBarwtWake warp slot s
  | .mbarwtWake block => Sys2Proof.Machine.execMbarwtWake block s
  | .fqputLand warp slot => Sys2Proof.Machine.execFqputLand warp slot s
  | .fqgetWake warp slot => Sys2Proof.Machine.execFqgetWake warp slot s
  | .swaitWake warp slot => Sys2Proof.Machine.execSwaitWake warp slot s
  | .apopWake warp slot => Sys2Proof.Machine.execApopWake warp slot s
  | .waitdepRelease warp slot => Sys2Proof.Machine.execWaitdepRelease warp slot s
  | .bankcfgDrainEnd warp slot => Sys2Proof.Machine.execBankcfgDrainEnd warp slot s
  | .faultRecordWrite vf => Sys2Proof.Machine.execFaultRecordWrite vf s
  | .theodoliteStageEnd warp rid lane => Sys2Proof.Machine.execTheodoliteStageEnd warp rid lane s
  | .matrixStep block => Sys2Proof.Machine.execMatrixStep block s
  | .sluiceChunkStart block job => Sys2Proof.Machine.execSluiceChunkStart block job s
  | .sluiceChunkLand block job chunk => Sys2Proof.Machine.execSluiceChunkLand block job chunk s
  | .sluiceJobFault block job chunk failure => Sys2Proof.Machine.execSluiceJobFault block job chunk failure s
  | .footprintEntryGrant die cluster => Sys2Proof.Machine.execFootprintEntryGrant die cluster s
  | .launchCompletion vf launch => Sys2Proof.Machine.execLaunchCompletion vf launch s
  | .gangPlace part => Sys2Proof.Machine.execGangPlace part s
  | .coopWaitExpiry part => Sys2Proof.Machine.execCoopWaitExpiry part s
  | .uncorrectableError detail owner aux => Sys2Proof.Machine.execUncorrectableError detail owner aux s
  | .switchTick part => Sys2Proof.Machine.execSwitchTick part s
  | .dieSavedReport part die => Sys2Proof.Machine.execDieSavedReport part die s
  | .saveDeadline part => Sys2Proof.Machine.execSaveDeadline part s
  | .graceExpiry part => Sys2Proof.Machine.execGraceExpiry part s
  | .forceSaveComplete part die => Sys2Proof.Machine.execForceSaveComplete part die s
  | .firmwareUpdate => Sys2Proof.Machine.execFirmwareUpdate s
  | .cacheLineExpiry block line => Sys2Proof.Machine.execCacheLineExpiry block line s
  | .tokenRefill n => Sys2Proof.Machine.execTokenRefill n s
  | .sample part => Sys2Proof.Machine.execSample part s
  | .counterRefresh part => Sys2Proof.Machine.execCounterRefresh part s
  | .logDrain => Sys2Proof.Machine.execLogDrain s
  | .rd die line => Sys2Proof.Machine.execRd die line s
  | .data die line bytes f => Sys2Proof.Machine.execData die line bytes f s
  | .wreq die page sub => Sys2Proof.Machine.execWreq die page sub s
  | .grant die page mask => Sys2Proof.Machine.execGrant die page mask s
  | .inv die page mask => Sys2Proof.Machine.execInv die page mask s
  | .revoke die page mask => Sys2Proof.Machine.execRevoke die page mask s
  | .notice die line remain dirty => Sys2Proof.Machine.execNotice die line remain dirty s
  | .wb die line bytes => Sys2Proof.Machine.execWb die line bytes s
  | .radvreq die page warp rid => Sys2Proof.Machine.execRadvreq die page warp rid s
  | .flush die page => Sys2Proof.Machine.execFlush die page s
  | .advance die page round map pushed => Sys2Proof.Machine.execAdvance die page round map pushed s
  | .iack die page => Sys2Proof.Machine.execIack die page s
  | .rvack die page lines => Sys2Proof.Machine.execRvack die page lines s
  | .wback die line => Sys2Proof.Machine.execWback die line s
  | .fack die page lines => Sys2Proof.Machine.execFack die page lines s
  | .advack die page => Sys2Proof.Machine.execAdvack die page s
  | .gone die page => Sys2Proof.Machine.execGone die page s
  | .radvdone page warp rid round => Sys2Proof.Machine.execRadvdone page warp rid round s
  | .checkpoint => Sys2Proof.Machine.execCheckpoint s
  | .linkFailover link => Sys2Proof.Machine.execLinkFailover link s
  | .packetDelivery src dst seq => Sys2Proof.Machine.execPacketDelivery src dst seq s
  | .pieceAck link seq piece => Sys2Proof.Machine.execPieceAck link seq piece s
  | .inboundRead vf path offset len => Sys2Proof.Machine.execInboundRead vf path offset len s
  | .submitNoop vf => Sys2Proof.Machine.execSubmitNoop vf s
  | .submitLaunch vf => Sys2Proof.Machine.execSubmitLaunch vf s
  | .submitRegistration vf => Sys2Proof.Machine.execSubmitRegistration vf s
  | .completionWrite vf => Sys2Proof.Machine.execCompletionWrite vf s
  | .vfPause c => Sys2Proof.Machine.execVfPause c s
  | .vfMigrateStop c => Sys2Proof.Machine.execVfMigrateStop c s
  | .vfDestroy c => Sys2Proof.Machine.execVfDestroy c s
  | .flitCrcError link => Sys2Proof.Machine.execFlitCrcError link s
  | .retrainEnd link flits => Sys2Proof.Machine.execRetrainEnd link flits s
  | .inboundWrite vf path offset bytes relaxed => Sys2Proof.Machine.execInboundWrite vf path offset bytes relaxed s
  | .hifSqDb vf val => Sys2Proof.Machine.execHifSqDb vf val s
  | .hifCqHead vf val => Sys2Proof.Machine.execHifCqHead vf val s
  | .hifRingCfg vf val => Sys2Proof.Machine.execHifRingCfg vf val s
  | .inbErrClear vf val => Sys2Proof.Machine.execInbErrClear vf val s
  | .trnPresent vf val => Sys2Proof.Machine.execTrnPresent vf val s
  | .trnFqCfg vf val => Sys2Proof.Machine.execTrnFqCfg vf val s
  | .trnFqHead vf val => Sys2Proof.Machine.execTrnFqHead vf val s
  | .ringCfg vf trc val => Sys2Proof.Machine.execRingCfg vf trc val s
  | .ringDropClear vf trc val => Sys2Proof.Machine.execRingDropClear vf trc val s
  | .getVersion pf => Sys2Proof.Machine.execGetVersion pf s
  | .getCapabilities pf => Sys2Proof.Machine.execGetCapabilities pf s
  | .negotiateAlgorithms pf => Sys2Proof.Machine.execNegotiateAlgorithms pf s
  | .getDigests pf => Sys2Proof.Machine.execGetDigests pf s
  | .getCertificate pf certSlot => Sys2Proof.Machine.execGetCertificate pf certSlot s
  | .challenge pf nonce => Sys2Proof.Machine.execChallenge pf nonce s
  | .getMeasurements pf nonce => Sys2Proof.Machine.execGetMeasurements pf nonce s
  | .keyExchange pf session => Sys2Proof.Machine.execKeyExchange pf session s
  | .finish pf session => Sys2Proof.Machine.execFinish pf session s
  | .heartbeat pf session => Sys2Proof.Machine.execHeartbeat pf session s
  | .keyUpdate pf session => Sys2Proof.Machine.execKeyUpdate pf session s
  | .endSession pf session => Sys2Proof.Machine.execEndSession pf session s
  | .ideKm pf session handle => Sys2Proof.Machine.execIdeKm pf session handle s
  | .lockInterface pf session handle => Sys2Proof.Machine.execLockInterface pf session handle s
  | .startInterface pf session handle => Sys2Proof.Machine.execStartInterface pf session handle s
  | .vfCreate c => Sys2Proof.Machine.execVfCreate c s
  | .vfPolicy c => Sys2Proof.Machine.execVfPolicy c s
  | .vfSegment c => Sys2Proof.Machine.execVfSegment c s
  | .vfSlice c => Sys2Proof.Machine.execVfSlice c s
  | .vfResume c => Sys2Proof.Machine.execVfResume c s
  | .vfEvict c => Sys2Proof.Machine.execVfEvict c s
  | .vfRestore c => Sys2Proof.Machine.execVfRestore c s
  | .vfMigrateBegin c => Sys2Proof.Machine.execVfMigrateBegin c s
  | .vfMigrateRound c => Sys2Proof.Machine.execVfMigrateRound c s
  | .vfMigrateFinish c => Sys2Proof.Machine.execVfMigrateFinish c s
  | .partSet c => Sys2Proof.Machine.execPartSet c s
  | .attest c => Sys2Proof.Machine.execAttest c s
  | .coreRemove die core => Sys2Proof.Machine.execCoreRemove die core s
  | .coreReturn die core => Sys2Proof.Machine.execCoreReturn die core s
  | .schLateClear part val => Sys2Proof.Machine.execSchLateClear part val s
  | .qosBucket n val => Sys2Proof.Machine.execQosBucket n val s
  | .fwlDropClear val => Sys2Proof.Machine.execFwlDropClear val s
  | .cdsStatClear die val => Sys2Proof.Machine.execCdsStatClear die val s
  | .lnkStatClear link val => Sys2Proof.Machine.execLnkStatClear link val s
  | .ptpMessage domain source time => Sys2Proof.Machine.execPtpMessage domain source time s
  | .holdover => Sys2Proof.Machine.execHoldover s
  | .hbmTransferRetry die stack channel lane good => Sys2Proof.Machine.execHbmTransferRetry die stack channel lane good s
  | .laneSwap die stack channel lane => Sys2Proof.Machine.execLaneSwap die stack channel lane s
  | .sensorPoll index value => Sys2Proof.Machine.execSensorPoll index value s
  | .hostCompletionTimeout warp rid => Sys2Proof.Machine.execHostCompletionTimeout warp rid s
  | .firmwareRecovery => Sys2Proof.Machine.execFirmwareRecovery s
  | .powerOn => Sys2Proof.Machine.execPowerOn s
  | .registerWrite target offset val => Sys2Proof.Machine.execRegisterWrite target offset val s
  | .pfBar2Write pf addr bytes => Sys2Proof.Machine.execPfBar2Write pf addr bytes s
  | .powerLoss => Sys2Proof.Machine.execPowerLoss s
  | .moduleReset => Sys2Proof.Machine.execModuleReset s

end Sys2Proof.Machine
end

