-- ==== Sys2Proof/Machine/Issue.lean ====
section
/-! DEFINITION. What one step of the module adds around the meaning of an instruction: the clock and the events it makes due, the choice of
the agent that acts, fetching, recipes, and the counts of Tables 22-3 and 22-7 (R31, R32, R44, R151, R254, R319, R320, R404 to R412). -/

namespace Sys2Proof.Machine

/-! ## The clock (R382, R388, R405, R412) -/

/-- Cores in service of a partition. -/
def coresOf (s : State) (part : Nat) : Nat :=
  (partDies s part).foldl (fun n d => n + (144 - popNat 144 ((getDie s d).coreOff.toNat ||| clusterCores (getDie s d).clusterOff))) 0
where
  /-- Cores of disabled clusters as bits. -/
  clusterCores (off : BitVec 36) : Nat := (List.range 36).foldl (fun n c => if off.getLsbD c then n ||| 15 * 2 ^ (4 * c) else n) 0

/-- Events that the module's own clocks raise in a cycle: samples, the 10 µs refresh of the pages, the µs refill of buckets. -/
def periodic (s : State) : List Instr :=
  let ps := List.range 8
  let n (p : Nat) : Nat := (getPart s p).smpN.toNat
  (ps.filter fun p => decide (10 ≤ n p) && s.cycle % 2 ^ n p == 0).map (fun p => .sample p) ++
    (if s.cycle % 27000 = 0 then ps.map fun p => .counterRefresh p else []) ++
    (if s.cycle % 2700 = 0 then (s.buckets.filter (·.en)).map fun b => .tokenRefill b.num else [])

/-- Counts of a cycle: core cycles of each partition since power-on, nanoseconds of the VFs that run (Tables 22-3 and 22-7). -/
def countCycle (s : State) (ns : Nat) : State :=
  s.parts.zipIdx.foldl (fun s p =>
    let s := if (partDies s p.2).isEmpty || !(s.sal.ready || s.sal.recovery) then s else countPage s p.2 0 (coresOf s p.2)
    let v := p.1.vfnum
    if v = 0 ∨ ns = 0 then s else countEvent s v 0x12 ns) s

/-- One cycle: the clock advances, and timers that have run out and periodic events join the agenda. -/
def tick (s : State) : State :=
  let ns := (s.cycle + 1) * 10 / 27 - s.cycle * 10 / 27
  let c := tickClock s
  let due := s.timers.filter fun t => decide (t.1 ≤ s.cycle + 1)
  evictions { countCycle c ns with
      timers := s.timers.filter fun t => !decide (t.1 ≤ s.cycle + 1), agenda := s.agenda ++ due.map (·.2) ++ periodic c }

/-! ## Counting what an instruction did (Tables 22-3 and 22-7) -/

/-- The recipe that the current slot runs, with its first word's address and its length: none where it runs none. -/
def runningRecipe (s : State) : Option (RecipeRun × Word × Nat) := do
  let r ← s.w.recipe
  let e ← recipeAt s.b.kernel (some r.recipe)
  if s.slot = s.w.stake.slot then some (r, e) else none

/-- Bytes that a memory instruction loads and stores in its active lanes. -/
def bytesOf (s : State) : Instr → Nat × Nat
  | .ld m _ | .ldb m _ _ | .lda m _ _ => (lanes m, 0)
  | .ld2 m _ => (2 * lanes m, 0)
  | .st m _ _ | .stl m _ _ _ => (0, lanes m)
  | .st2 m _ _ => (0, 2 * lanes m)
  | .sld ty _ _ _ => (memWidth ty, 0)
  | .sst ty _ _ _ => (0, memWidth ty)
  | _ => (0, 0)
where
  lanes (m : MArgs) : Nat := popNat 32 (active s m.ms).toNat * memWidth m.ty

/-- Lines of a block's cache-way banks that loads at some addresses hit (R91, Table 22-7). -/
def hitLines (s : State) (b : Block) (vas : List Word) : Nat :=
  let line (va : Word) : Option Nat := match translate s b.vf va 0 with
    | .ok (k, _, attr) => if roundedPage s k (rndAttr attr) then none else some (lineOf k)
    | .error _ => none
  ((vas.filterMap line).eraseDups.filter fun n => (findL1 b n).isSome).length

/-- The cache-way lines that an instruction hits; an LDA invalidates before it reads. -/
def l1Hits (s : State) : Instr → Nat
  | .ld m _ | .ld2 m _ | .ldb m _ _ => hitLines s s.b (vas m)
  | .lda m scope _ => hitLines s (acquire s scope).b (vas m)
  | .sld _ _ sa off => hitLines s s.b [addOff (scal s sa) off]
  | _ => 0
where
  vas (m : MArgs) : List Word := (lanesOf (active s m.ms)).map fun l => addOff (srcValue s l .addr m.addr).1 m.off

/-- Whether a word stands in groups 0x3 to 0x6. -/
def vectorWord (w : Word) : Bool := decide (3 ≤ opGroup w ∧ opGroup w ≤ 6)

def slotStalled (s : State) (u : Nat) (p : PcSlot) : Bool :=
  (getWarp s u).any fun w => match (slotOf w p).st with | .wait _ => true | _ => false

/-- The address of the current slot's next word: its PC, or the word of the recipe that it runs (R319). -/
def fetchPc (s : State) : Word :=
  match runningRecipe s with
  | none => (cur s).pc
  | some (r, start, _) => start + BitVec.ofNat 64 (8 * r.pos)

/-- A fetch of the current slot moves a line where it misses; which fetches miss the spec leaves open (R31, log entry 13). -/
def countFetch (s t : State) : State :=
  let (f, t) := drawFree t
  match translate s s.b.vf (fetchPc s) 3 with
  | .ok (k, _, _) => countMoved t k (if bit f 0 then 128 else 0) false
  | .error _ => t

/-- Counts an instruction that a slot issued: s is the state before it and t the state after. -/
def countIssue (s : State) (word : Word) (i : Instr) (t : State) : State :=
  let b := s.b
  let u := s.w.uid
  let p := s.slot
  if slotStalled t u p then t
  else
    let x := ((getWarp t u).map fun w => slotOf w p).getD .empty
    let done := x.pc == (cur s).pc + 8
    let lanes := if vectorWord word then popNat 32 (active s (fMS word)).toNat else 0
    let n := if done then bytesOf s i else (0, 0)
    let t := countFetch s t
    let t := countBoth (countBoth t b 0x01 1 1) b 0x02 2 lanes
    countEvent (countEvent (countEvent t b.vf 0x03 n.1) b.vf 0x04 n.2) b.vf 0x05 (if done then l1Hits s i else 0)

/-- Counts an event: matrix steps, instructions that a wake lets complete. -/
def countAfter (s : State) (e : Instr) (t : State) : State :=
  let woke (u : Nat) (p : PcSlot) : State :=
    match (getWarp s u).bind fun w => (getBlock s w.block).map fun b => (w, b) with
    | none => t
    | some (w, b) =>
      if ((getWarp t u).any fun x => (slotOf x p).pc == (slotOf w p).pc) then t else countBoth t b 0x01 1 1
  match e with
  | .matrixStep u =>
    match getBlock s u with
    | none => t
    | some b =>
      let at_ (s : State) : Option (Word × Nat) := (getBlock s u).bind fun b => b.stream.map fun m => (m.pc, m.step)
      if at_ s = at_ t then t else countBoth t b 0x08 7 1
  | .barwtWake u p | .fqputLand u p | .fqgetWake u p | .swaitWake u p | .apopWake u p | .waitdepRelease u p | .bankcfgDrainEnd u p => woke u p
  | _ => t

/-! ## Recipes (R319, R320) -/

/-- Opcode cells outside groups 0x3 and 0x4 that a recipe may hold: DUP, PUSHI, SETTAG, RDSR, CVT to FTANH, SHFL, REDUX, SCAN. -/
def recipeCells : List Nat :=
  [0x041, 0x042, 0x044, 0x048, 0x140, 0x141, 0x142, 0x143, 0x144, 0x145, 0x146, 0x147, 0x148, 0x180, 0x182, 0x183]

/-- Whether a recipe may hold a word: an instruction of the list of R320, which a CVT with RM sr is not. -/
def recipeMay (word : Word) : Bool :=
  let opc := opGroup word * 64 + opIndex word
  !unassigned word && (opGroup word == 3 || opGroup word == 4 || recipeCells.contains opc) && !(opc == 0x140 && vRM word == 4)

/-- After a recipe's word, which leaves the slot at the stake PC: the next one, or, after the last, the recorded CNT. A word that
waits leaves the PC where it was, and is tried again. -/
def stepRecipe (s : State) : State :=
  match runningRecipe s with
  | none => s
  | some (r, _, len) =>
    let st := s.w.stake
    if (cur s).pc = st.pc then s
    else if r.pos + 1 < len then
      let s := modCur s fun x => { x with pc := st.pc }
      { s with w := { s.w with recipe := some { r with pos := r.pos + 1 } } }
    else
      let s := modCur s fun x => { x with pc := st.pc, cnt := st.cnt }
      { s with w := { s.w with recipe := none } }

/-! ## One instruction of a slot or a stream -/

/-- The current slot's next word: a recipe's words are not held to the code range. -/
def fetchSlot (s : State) : Except (BitVec 10 × Word) Word :=
  let pc := fetchPc s
  if (runningRecipe s).isNone then fetchWord s s.b pc
  else
    match translate s s.b.vf pc 3 with
    | .error c => .error (c, pc)
    | .ok (k, _, _) => .ok (BitVec.ofNat 64 (coherentNat s k 8))

/-- Applies f to a next state. -/
def mapNext (f : State → State) : Host.Outcome State Fault Refusal → Host.Outcome State Fault Refusal
  | .next s => .next (f s)
  | o => o

/-- Makes a slot current and runnable. -/
def prepare (s : State) (u : Nat) (p : PcSlot) : State := modCur (focusWarp s u p) fun x => { x with st := .run }

/-- A trap that fetching or decoding raises, in the slot's turn. -/
def trapTurn (s : State) (c : BitVec 10) (a : Word) : Host.Outcome State Fault Refusal := runCtl s fun _ => .error (.trap c a)

/-- Executes one decoded instruction in the current slot, with its counts and its place in a recipe. -/
def execSlot (s : State) (word : Word) (i : Instr) : Host.Outcome State Fault Refusal :=
  mapNext (fun t => stepRecipe (countIssue s word i t)) (exec i s)

/-- The number of the recipe that the current slot runs, if the word is none that a recipe may hold (R320). -/
def strayWord (s : State) (word : Word) : Option (BitVec 12) :=
  match runningRecipe s with
  | some (r, _, _) => if recipeMay word then none else some r.recipe
  | none => none

/-- Fetches, decodes and executes one instruction of a slot (R151, R170, R171). -/
def runSlot (s : State) (u : Nat) (p : PcSlot) : Host.Outcome State Fault Refusal :=
  let s := prepare s u p
  if fetchPoison s s.b (fetchPc s) then .next (fetchError s (fetchPc s)) else
  match fetchSlot s with
  | .error (c, a) => trapTurn s c a
  | .ok word =>
    match strayWord s word, decode false word with
    | some k, _ => trapTurn s 0x109 (zx64 k)
    | none, .error (c, a) => trapTurn s c a
    | none, .ok i => execSlot s word i

/-- Fetches, decodes and begins one instruction of a block's stream (R253). -/
def runStreamTurn (s : State) (u : Nat) : Host.Outcome State Fault Refusal :=
  let s := focusStream s u
  if fetchPoison s s.b (stream s).pc then .next (fetchError s (stream s).pc) else
  match fetchWord s s.b (stream s).pc with
  | .error (c, _) => .next (streamFault s c)
  | .ok word =>
    match decode true word with
    | .error (c, _) => .next (streamFault s c)
    | .ok i => exec i s

/-! ## Which agent acts (R31, R32, R254) -/

/-- Who acts in a step. -/
inductive Agent where
  | event (e : Instr)
  | slot (u : Nat) (p : PcSlot)
  | stream (u : Nat)
  | idle
  deriving DecidableEq, Repr

/-- A slot in RUN or HANDLER, or one whose instruction is tried again in each cycle (R31). -/
def mayTry (x : Slot) : Bool :=
  x.mask != 0 && !x.yielding && match x.st with
    | .run => true
    | .wait r => retries r
    | _ => false

/-- The slots that may be tried, of running blocks: warp, quadrant, slot. -/
def candidates (s : State) : List (Nat × QuadKey × PcSlot) :=
  (allWarps s).flatMap fun w =>
    if w.uid != 0 && (getBlock s w.block).any fun b => b.st == .running && !streamAway s b then
      ([PcSlot.a, .b].filter fun p => mayTry (slotOf w p)).map fun p => (w.uid, quadOf s w, p)
    else []

/-- Tries each slot: one whose instruction would wait is put in its wait; the others are eligible. -/
def trySlots : List (Nat × PcSlot) → State → List (Nat × PcSlot) × State
  | [], s => ([], s)
  | x :: xs, s =>
    match runSlot s x.1 x.2 with
    | .next t =>
      if slotStalled t x.1 x.2 then trySlots xs (modSlot t x.1 x.2 fun y => { y with passed := 0 })
      else let r := trySlots xs s; (x :: r.1, r.2)
    | _ => let r := trySlots xs s; (x :: r.1, r.2)

/-- Class of a slot: 3 in HANDLER, else its warp's priority (R32). -/
def slotClass (w : Warp) (p : PcSlot) : Nat := if (slotOf w p).handler.isSome then 3 else w.prio

/-- Place of a slot in R32's order: aged slots by age, then class by class, round robin after the slot granted last. -/
def rank (q : Quadrant) (w : Warp) (p : PcSlot) : Nat × Nat × Nat :=
  let c := slotClass w p
  match (slotOf w p).aged with
  | some n => (0, n, 3 - c)
  | none => (1, 3 - c, (slotIndex w p + 31 - q.last.getD c 31 % 32) % 32)

def rankLt (a b : Nat × Nat × Nat) : Bool :=
  decide (a.1 < b.1) || (a.1 == b.1 && (decide (a.2.1 < b.2.1) || (a.2.1 == b.2.1 && decide (a.2.2 < b.2.2))))

/-- The first of the eligible slots. -/
def best (s : State) (q : Quadrant) (xs : List (Nat × PcSlot)) : Option (Nat × PcSlot) :=
  let r (x : Nat × PcSlot) : Nat × Nat × Nat := rank q ((getWarp s x.1).getD .empty) x.2
  xs.foldl (fun a x => match a with | none => some x | some y => if rankLt (r x) (r y) then some x else some y) none

/-- A grant: the slot loses its aged mark, the other eligible slots are passed over, and at the 32nd time age, those of one cycle by
higher class (R32). -/
def grantSlot (s : State) (q : Quadrant) (elig : List (Nat × PcSlot)) (x : Nat × PcSlot) : State :=
  let w := (getWarp s x.1).getD .empty
  let s := putQuad s { q with granted := true, at_ := s.cycle, last := setAt q.last (slotClass w x.2) (slotIndex w x.2) }
  let others := elig.filter (· != x)
  let s := others.foldl (fun s y => modSlot s y.1 y.2 fun z => { z with passed := z.passed + 1 }) s
  let ages (c : Nat) (y : Nat × PcSlot) : Bool := (getWarp s y.1).any fun w =>
    slotClass w y.2 == c && decide (32 ≤ (slotOf w y.2).passed) && (slotOf w y.2).aged.isNone
  let old := [3, 2, 1, 0].flatMap fun c => others.filter (ages c)
  let s := modSlot s x.1 x.2 fun z => { z with passed := 0, aged := none }
  enqueue s (old.map fun y => .slotAged y.1 y.2)

/-- The slot that the first quadrant with an eligible one grants. -/
def pickSlot : List QuadKey → State → Option (Nat × PcSlot) × State
  | [], s => (none, s)
  | k :: ks, s =>
    let xs := ((candidates s).filter fun x => x.2.1 == k).map fun x => (x.1, x.2.2)
    let (elig, s) := trySlots xs s
    match best s (quadRec s k) elig with
    | none => pickSlot ks s
    | some x => (some x, grantSlot s (quadRec s k) elig x)

/-- Quadrants with candidates: those that have granted none first, then the one that granted longest ago (log entry 3). -/
def quadKeys (s : State) : List QuadKey :=
  let ks := (candidates s).foldl (fun ks x => insertKey x.2.1 ks) []
  let seen := (s.quadrants.filter (·.granted)).map fun q => (q.die, q.core, q.quad)
  ks.filter (fun k => !seen.contains k) ++ seen.filter ks.contains

/-- The stream that the matrix units grant next: of those with a step ready, the one granted longest ago (R254). -/
def nextStream (s : State) : Option (Nat × Nat) :=
  let ready := (allBlocks s).filter fun b => streamReady b && !streamAway s b
  (ready.filterMap fun b => b.stream.map fun m => (m.turn, b.uid)).foldl
    (fun a x => match a with | none => some x | some y => if x.1 < y.1 then some x else some y) none

/-- A stream's turn: its next step where its instruction has begun, else its next instruction. -/
def streamAgent (s : State) (u : Nat) : Agent × State :=
  let began : Bool := (getBlock s u).any fun b => b.stream.any (·.began)
  (if began then .event (.matrixStep u) else .stream u,
    modBlock s u fun b => { b with stream := b.stream.map fun m => { m with turn := s.cycle } })

/-- A slot or a stream that may act, in turn, if there is one. -/
def chooseAgent (s : State) : Option (Agent × State) × State :=
  let m := nextStream s
  match (if s.cycle / 2 % 2 = 1 then m else none) with
  | some x => (some (streamAgent s x.2), s)
  | none =>
    match pickSlot (quadKeys s) s with
    | (some x, t) => (some (.slot x.1 x.2, t), t)
    | (none, t) => (m.map fun x => streamAgent t x.2, t)

/-- The agent that acts next, and the state in which it does: in turn a due event, and a slot or a stream (log entry 5). -/
def choose (s : State) : Agent × State :=
  let due (t : State) : Agent × State := match t.agenda with
    | e :: rest => (.event e, { t with agenda := rest })
    | [] => (.idle, t)
  if s.cycle % 2 = 0 && !s.agenda.isEmpty then due s
  else
    match chooseAgent s with
    | (some x, _) => x
    | (none, t) => due t

/-- What the chosen agent does. -/
def act (a : Agent) (s : State) : Host.Outcome State Fault Refusal :=
  match a with
  | .event e => mapNext (countAfter s e) (exec e s)
  | .slot u p => runSlot s u p
  | .stream u => runStreamTurn s u
  | .idle => .next s

/-- One step: a cycle of the clock, then one agent acts. -/
def cycleStep (s : State) : Host.Outcome State Fault Refusal :=
  let r := choose (tick s)
  act r.1 r.2

/-! ## A machine whose next step runs a given word -/

/-- A page-table entry of the model's placed program: present, writable, executable. -/
def placedPte (leaf : Bool) (pa : Nat) : Nat := pa + (if leaf then 1 + 4 + 8 else 1 + 2)

def placedPolicy : Policy :=
  { version := 1, key := [], hbmMax := 2 ^ 30, tierMax := 0, ctxBytes := 65536, bankBase := 0, bankCount := 256, bplaneKib := 32, minShare := 0
    tsample := false, tpmc := true, debug := true, excl := false, migrate := false, precopy := false, peer := false, fabric := 0xFFFF
    launchMax := 0, hashes := [], measures := [], bytes := [] }

def placedVf : Vf :=
  { newVf 1 1 1 0 0 placedPolicy none with
      st := .running, segs := [some { base := 0, len := 2 ^ 30, ro := false, group := 1 }, none, none, none] }

/-- The kernel of a placed word: its code is the 32 KiB from VA 0x2000. -/
def placedKernel : Kernel := { Kernel.empty with vf := 1, handle := 1, obj := 0x2000, codeLen := 32768, ntiles := 1, matrix := some 0, live := true }

/-- The launch of a placed block. -/
def placedLaunch : Launch :=
  { vf := 1, id := 1, kobj := 1, args := 0, gx := 1, gy := 1, gz := 1, gang := 1, coop := false, dieMask := 1, deps := [], tag := 0, nextGang := 1
    lastDie := none, retired := 0, triggered := [], aborted := false, cause := 0, aux := 0, completed := false, relaunch := [], relaunched := []
    coopTimeUp := false, since := 0 }

/-- Bytes of the tables and of the word: VA 0 to 1 GiB maps to VF physical 0. -/
def placedMem (s : State) (w : Nat) : Memory :=
  let m := writeBytes s.mem 0 (toBytes 8 (placedPte false 0x1000))
  let m := writeBytes m 0x1000 (toBytes 8 (placedPte true 0))
  writeBytes m 0x2000 (toBytes 8 w)

/-- A state in which a word is the next that the module fetches: one VF, one running block, its warp or its stream at the word. -/
def place (s : State) (isStream : Bool) (w : Nat) : State :=
  let m : Stream := { entry := 0x2000, pc := 0x2000, step := 0, loops := [], phases := 0, began := false, descA := [], descB := [], wait := .none
                      turn := 0, ended := false, fault := none, reported := false, paused := false }
  let b : Block := { Block.empty with
    uid := 1, vf := 1, launch := 1, gang := 3, st := .running, kernel := placedKernel, tiles := [{ words := [], flag := false }]
    stream := some (if isStream then m else { m with ended := true }) }
  let x : Slot := { Slot.empty with pc := 0x2000, mask := if isStream then 0 else BitVec.allOnes 32, st := .run }
  { s with
      mem := placedMem s w, vfs := [placedVf], kernels := [placedKernel], launches := [placedLaunch], b := b, onStream := isStream, slot := .a
      w := { Warp.empty with uid := 2, block := 1, slotA := x }, warps := [], blocks := [], remains := []
      gangs := [{ uid := 3, vf := 1, launch := 1, number := 0, st := .running, blocks := [1], barMarks := [] }]
      parts := setAt s.parts 0 { getPart s 0 with run := true, vfnum := 1 }, agenda := [], timers := [], nextId := 4 }

end Sys2Proof.Machine
end

