-- ==== Sys2Proof/Machine/Step.lean ====
section
/-! DEFINITION. One step of the module, and the state whose next step runs a given word. -/

namespace Sys2Proof.Machine

/-- One step: a cycle of the clock, then a due event, a slot's instruction or a stream's instruction. -/
def step (s : State) : Host.Outcome State Fault Refusal := cycleStep s

/-- s with an instruction placed where step fetches next (log entry 8 says how a program comes to run from reset). The table's
words have 64 bits, so nothing stands above them. -/
def State.withFetchWord (s : State) (nbits w : Nat) : State :=
  let word := w % 2 ^ min nbits 64
  place s (streamWord (BitVec.ofNat 64 word)) word

end Sys2Proof.Machine
end

