-- ==== Sys2Proof/Safety.lean ====
section
/-! DEFINITION. What counts as a safe run and a sound state, and the terms in which the statements about instructions are made:
the turn of a slot, the row an instruction pushes, the slot's next instruction. -/

namespace Sys2Proof.Machine

/-- A state is sound when its memory is in the canonical form: addresses strictly rising, no listed byte equal to what an
unlisted address reads as. -/
def State.Inv (s : State) : Prop := Memory.wf s.mem = true

/-- The next n steps all answer a next state. -/
def runsFor : Nat → State → Prop
  | 0, _ => True
  | n + 1, s => ∃ t, step s = .next t ∧ runsFor n t

/-- An outcome that a run goes on from. -/
def goesOn (o : Host.Outcome State Fault Refusal) : Prop := ∃ t, o = .next t

/-! ## The turn of a slot -/

/-- The slot's turn begins in s1: no lookahead window that ends now waits for its result (R166). -/
def InTurn (s s1 : State) : Prop := stepWindows s = .ok s1

/-- As InTurn, for an instruction that first waits for the slot's pending entries and ends its windows (R166). -/
def InDrainedTurn (s s2 : State) : Prop := ∃ s1, stepWindows s = .ok s1 ∧ drain s1 = .ok s2

/-- The slot continues at PC + 8; lanes suppressed by ERET.m were so for this execution only (R40). -/
def nextInstr (s : State) : State := modCur s fun x => { x with pc := x.pc + 8, suppress := 0 }

/-- The slot continues at a target. -/
def jumpTo (pc : Word) (s : State) : State := modCur s fun x => { x with pc := pc, suppress := 0 }

/-- The slot's turn ends in a trap with this cause and aux word (R39, R52). -/
def Traps (i : Instr) (s : State) (cause : BitVec 10) (aux : Word) : Prop := exec i s = .next (takeTrap s cause aux)

/-- The slot waits at its instruction for this reason; nothing else changes (R26). -/
def WaitsAt (i : Instr) (s : State) (r : WaitReason) : Prop :=
  exec i s = .next (modCur s fun x => { x with st := .wait r })

/-! ## Pushing (R49 to R55) -/

/-- From s, one row has been pushed in every member lane, and nothing else has changed: each member lane's queue has the row's
entry at age 1 and every other entry one age older, CNT has counted one push, open windows are one age older (R25, R49, R166). -/
structure PushedRow (s t : State) (row : List Entry) : Prop where
  rest : t = { s with w := t.w }
  warp : t.w = { s.w with lanes := t.w.lanes, slotA := t.w.slotA, slotB := t.w.slotB }
  slot : cur t = { cur s with
    cnt := (cur s).cnt + 1, windows := (cur s).windows.map fun w => { w with age := w.age + 1 } }
  other : slotOf t.w (otherSlot s.slot) = slotOf s.w (otherSlot s.slot)
  lanes : t.w.lanes.length = s.w.lanes.length
  member : ∀ l, l < s.w.lanes.length → inMask (members s) l = true →
    lane t l = { lane s l with queue := row.getD l .poison :: (lane s l).queue.take (s.w.depth - 1) }
  masked : ∀ l, inMask (members s) l = false → lane t l = lane s l

/-- An instruction whose one effect is to push a row, from the state in which its turn begins (R53, R165). -/
def Pushes (i : Instr) (s s1 : State) (row : List Entry) : Prop :=
  ∃ t, exec i s = .next (nextInstr t) ∧ PushedRow s1 t row

/-- An entry that holds a value, with its tag. -/
def valued (v : Val) : Entry := { val := v.1, tag := v.2, pend := none }

/-- The row of a result-producing instruction: res in the active lanes, and in the masked-off lanes operand A or, with MZ, zero
with the result's tag (R53, Table 03-3). -/
def resultRow (s : State) (ms : BitVec 3) (mz : Bool) (tag : Nat → Ty) (res a : Nat → Val) : List Entry :=
  lanes32.map fun l => valued (if inMask (active s ms) l then res l else if mz then (0, tag l) else a l)

/-- The row of an instruction whose results carry one tag, in the form of Table 03-4 (R55). -/
def typedRow (s : State) (h : VHead) (t : Ty) (f : Nat → Word) (a : Row) : List Entry :=
  resultRow s h.ms h.mz (fun _ => t) (fun l => (formOf t (f l), t)) fun l => at_ a l

/-- n pushes of the pending entries of result rid onto a queue of depth d, the first result pushed first (R50, R52). -/
def pendQueue (d rid n : Nat) (q : List Entry) : List Entry :=
  (List.range n).foldl (fun q i => { val := 0, tag := .raw, pend := some (rid, i) } :: q.take (d - 1)) q

/-- From s, n rows of pending entries of a new result r have been pushed, and nothing else has changed: r stands in the warp's pending
results, in strict mode a window of la instructions is open, and where its values are known its arrival is due (R52, R166). -/
structure PendPushed (s t : State) (la : BitVec 4) (r : PendRes) (n : Nat) : Prop where
  rest : t = { s with w := t.w, agenda := t.agenda }
  agenda : t.agenda = s.agenda ++ if r.ready then [.resultArrival s.w.uid s.w.ridNext] else []
  warp : t.w = { s.w with
    lanes := t.w.lanes, slotA := t.w.slotA, slotB := t.w.slotB, ridNext := s.w.ridNext + 1
    pend := { r with rid := s.w.ridNext, slot := s.slot, mask := members s } :: s.w.pend }
  slot : cur t = { cur s with
    cnt := (cur s).cnt + BitVec.ofNat 16 n
    windows := (if s.w.mode.getLsbD 8 ∧ s.w.recipe = none then
        [{ rid := s.w.ridNext, age := 1, width := n, left := la.toNat }] else []) ++
      (cur s).windows.map fun w => { w with age := w.age + n } }
  other : slotOf t.w (otherSlot s.slot) = slotOf s.w (otherSlot s.slot)
  lanes : t.w.lanes.length = s.w.lanes.length
  member : ∀ l, l < s.w.lanes.length → l < 32 → inMask (members s) l = true →
    lane t l = { lane s l with queue := pendQueue s.w.depth s.w.ridNext n (lane s l).queue }
  masked : ∀ l, inMask (members s) l = false → lane t l = lane s l

/-- An instruction whose one effect is to push n rows of a pending result. -/
def Pends (i : Instr) (s s1 : State) (la : BitVec 4) (r : PendRes) (n : Nat) : Prop :=
  ∃ t, exec i s = .next (nextInstr t) ∧ PendPushed s1 t la r n

/-- The slot as it is after a wait for its pending entries: no window is open (R166). -/
def noWindows (s : State) : State := modCur s fun x => { x with windows := [] }

/-- A branch from s1, with t as the state its other effect leaves: not taken it continues at PC + 8, taken it moves the slot to the
target, and taken outside the kernel's code it traps BRANCH_RANGE with the target, leaving that other effect undone (R178). -/
def BranchRule (i : Instr) (s s1 t : State) (taken : Bool) (target : Word) : Prop :=
  (taken = false → exec i s = .next (nextInstr t)) ∧
  (taken = true → inCode s1.b.kernel target = true → exec i s = .next (jumpTo target t)) ∧
  (taken = true → inCode s1.b.kernel target = false → Traps i s 0x105 target)

/-- The divergence stack of the current warp replaced. -/
def withDiv (s : State) (rs : List DivRec) : State := { s with w := { s.w with div := rs } }

/-- The state with the caller's activation opened (R64). -/
def withCall (s : State) (nres : BitVec 5) : State :=
  { s with w := { s.w with acts :=
      { rpc := (cur s).pc + 8, nres := nres, callerF := frameSize s, mask := members s, cnt := (cur s).cnt
        dbase := divBase s, base := s.w.div.length
        queues := s.w.lanes.mapIdx fun l y => if inMask (members s) l then y.queue else []
        frames := s.w.lanes.mapIdx fun l y => if inMask (members s) l then y.frame else []
        spilled := false } :: s.w.acts } }

/-- The effect of CALL and CALLI on a target that passes every check (R64, R181). t0 is s2 with the activation opened and with the
oldest activations written to the call stack that the core's rows do not hold (R66). -/
def callEffect (s2 t0 t : State) (nargs : BitVec 5) (target : Word) : Prop :=
  let f' := calleeFrame s2.b.kernel target
  t = { t0 with w := t.w } ∧
  t.w = { t0.w with lanes := t.w.lanes, slotA := t.w.slotA, slotB := t.w.slotB, sealed := true } ∧
  cur t = { cur t0 with pc := target, cnt := 0, suppress := 0 } ∧
  ∀ l, l < t0.w.lanes.length → lane t l = if inMask (members s2) l then
    { lane t0 l with
        queue := ((lane t0 l).queue.take nargs.toNat ++ List.replicate s2.w.depth Entry.poison).take s2.w.depth
        frame := List.replicate f' Entry.poison }
    else lane t0 l

/-! ## Scalars and flags (R173, R199) -/

/-- A w-bit result as s[SD] holds it: sign-extended for i32, zero-extended for n32. -/
def scalarForm (t : Ty) (r : Nat) : Word :=
  match t with
  | .i32 => (BitVec.ofNat 32 r).signExtend 64
  | .n32 => (BitVec.ofNat 32 r).zeroExtend 64
  | _ => BitVec.ofNat 64 r

/-- The flags after a w-bit result: those whose CCW bits are set take Z (r is zero), N (bit w − 1 of r), C and V. -/
def flagged (w : Warp) (bits : Nat) (ccw : BitVec 4) (r : Nat) (c v : Bool) : Warp :=
  { w with
      flagZ := if ccw.getLsbD 3 then decide (r = 0) else w.flagZ
      flagN := if ccw.getLsbD 2 then decide (2 ^ (bits - 1) ≤ r) else w.flagN
      flagC := if ccw.getLsbD 1 then c else w.flagC
      flagV := if ccw.getLsbD 0 then v else w.flagV }

/-- After a scalar instruction: s[SD] holds the w-bit result r extended, the enabled flags are written, nothing else changes
(R199, R173). -/
def scalarDone (s : State) (t : Ty) (sd : BitVec 5) (ccw : BitVec 4) (r : Nat) (c v : Bool) : State :=
  nextInstr { s with w := { flagged s.w (intWidth t) ccw r c v with scalars := setAt s.w.scalars sd.toNat (scalarForm t r) } }

/-- Operand a of a scalar instruction: bits w − 1 to 0 of a scalar. -/
def scalarA (s : State) (t : Ty) (n : BitVec 5) : Nat := (scal s n).toNat % 2 ^ intWidth t

/-- Operand b: a scalar, or imm16 extended by the signedness of TY (R199). -/
def scalarB (s : State) (t : Ty) : SOp2 → Nat
  | .reg n => (scal s n).toNat % 2 ^ intWidth t
  | .imm v => (if isSigned t then (v.signExtend 64 : Word) else v.zeroExtend 64).toNat % 2 ^ intWidth t

/-- A w-bit pattern as a signed number. -/
def signedOf (w n : Nat) : Int := if n < 2 ^ (w - 1) then n else (n : Int) - (2 : Int) ^ w

/-- Whether an integer lies outside the signed w-bit range. -/
def signedOverflow (w : Nat) (n : Int) : Bool := decide (n < -(2 : Int) ^ (w - 1) ∨ (2 : Int) ^ (w - 1) ≤ n)

/-! ## Vector values -/

/-- An operand value as an integer of TY's width, signed for i32 and i64 (R208). -/
def vInt (t : Ty) (v : Word) : Int :=
  let p := v.toNat % 2 ^ intWidth t
  if isSigned t then signedOf (intWidth t) p else p

/-- An operand value as an unsigned integer of TY's width. -/
def vNat (t : Ty) (v : Word) : Nat := v.toNat % 2 ^ intWidth t

/-- The smallest and the largest value of an integer type. -/
def tyLo (t : Ty) : Int := if isSigned t then -(2 : Int) ^ (intWidth t - 1) else 0
def tyHi (t : Ty) : Int := if isSigned t then (2 : Int) ^ (intWidth t - 1) - 1 else (2 : Int) ^ intWidth t - 1

/-- An exact value clamped to TY's range with SAT (R70); formOf reduces it modulo 2^w. -/
def intResult (t : Ty) (sat : Bool) (n : Int) : Word :=
  BitVec.ofInt 64 (if sat then max (tyLo t) (min (tyHi t) n) else n)

/-- A float operand as the exact value that the instruction reads: negated, flushed under ftz (R76, R203). -/
def vFloat (s : State) (t : Ty) (neg : Bool) (x : Row) (l : Nat) : FVal := readF t (s.w.mode.getLsbD 2) neg (at_ x l).1

/-- The number ±m·2^e. -/
def ratOf (s : Bool) (m : Nat) (e : Int) : Rat := (if s then -1 else 1) * m * (2 : Rat) ^ e

/-- w is the value of format t to which mode rm rounds the number that lies at or above the numbers of `le` and at or below those of `ge`
(R74, Table 04-3): in rne no other value of t is nearer, and between two that are equally near it is the even one; in the directed modes
it is the last value of t on its side. -/
def RoundsTo (t : Ty) (rm : Rm) (le ge : Rat → Prop) (w : Word) : Prop :=
  ∃ s m e, unpack t w = .fin s m e ∧ ∀ w' s' m' e', unpack t w' = .fin s' m' e' →
    let v := ratOf s m e
    let y := ratOf s' m' e'
    match rm with
    | .rne => (y < v → le ((v + y) / 2) ∧ (ge ((v + y) / 2) → m % 2 = 0)) ∧ (v < y → ge ((v + y) / 2) ∧ (le ((v + y) / 2) → m % 2 = 0))
    | .rdn => le v ∧ (le y → y ≤ v)
    | .rup => ge v ∧ (ge y → v ≤ y)
    | .rtz => (le 0 → le v ∧ (le y → y ≤ v)) ∧ (ge 0 → ge v ∧ (ge y → v ≤ y))
    | .sr => True

/-- A result without overflow is the number x rounded to t in mode rm, inexact where it is not x itself. -/
def RoundsOnce (t : Ty) (rm : Rm) (x : Rat) (r : Word × Flags) : Prop :=
  r.2 &&& fOF = 0 → RoundsTo t rm (· ≤ x) (x ≤ ·) r.1 ∧
    ∀ s m e, unpack t r.1 = .fin s m e → (r.2 &&& fNX = 0 ↔ ratOf s m e = x)

/-- n is the integer to which mode rm rounds x. -/
def RoundsInt (rm : Rm) (x : Rat) (n : Int) : Prop :=
  match rm with
  | .rne => (n : Rat) - 1 / 2 ≤ x ∧ x ≤ (n : Rat) + 1 / 2 ∧ (x = (n : Rat) - 1 / 2 ∨ x = (n : Rat) + 1 / 2 → n % 2 = 0)
  | .rdn => (n : Rat) ≤ x ∧ x < (n : Rat) + 1
  | .rup => x ≤ (n : Rat) ∧ (n : Rat) - 1 < x
  | .rtz => (0 ≤ x → (n : Rat) ≤ x ∧ x < (n : Rat) + 1) ∧ (x ≤ 0 → x ≤ (n : Rat) ∧ (n : Rat) - 1 < x)
  | .sr => True

/-- A short floating-point instruction whose results and flags are f: an enabled exception traps with the lowest detail and its lanes;
without one the sticky flags that the active lanes raise are set and the results pushed (R175, R206). -/
def FloatPushes (i : Instr) (s s1 : State) (h : VHead) (t : Ty) (f : Nat → Word × Flags) (x : Row) : Prop :=
  let fl := lanes32.map fun l => (f l).2
  (∀ c a, fpTrap s1 (active s1 h.ms) fl = some (c, a) → Traps i s c a) ∧
  (fpTrap s1 (active s1 h.ms) fl = none →
    Pushes i s (stickFlags s1 (unionFlags (active s1 h.ms) fl)) (typedRow s1 h t (fun l => (f l).1) x))

/-- As FloatPushes for a long-latency instruction: a pending row is pushed, and results and flags come when it completes. -/
def FloatPends (i : Instr) (s s1 : State) (la : BitVec 4) (h : VHead) (t : Ty) (f : Nat → Word × Flags) (x : Row) : Prop :=
  let fl := lanes32.map fun l => (f l).2
  (∀ c a, fpTrap s1 (active s1 h.ms) fl = some (c, a) → Traps i s c a) ∧
  (fpTrap s1 (active s1 h.ms) fl = none → Pends i s s1 la
    { PendRes.of [typedRow s1 h t (fun l => (f l).1) x] .other with fflags := unionFlags (active s1 h.ms) fl } 1)

/-- A tile lists its words by rising index, none of them zero. -/
def tileSorted : List (Nat × BitVec 32) → Bool
  | (m, v) :: (n, w) :: t => decide (m < n) && v != 0 && tileSorted ((n, w) :: t)
  | [(_, v)] => v != 0
  | [] => true

/-! ## Exact geometry (R275, R276, R279) -/

/-- The number that a finite coordinate stands for. -/
def ratVal : FVal → Rat
  | .fin s m e => ratOf s m e
  | _ => 0

/-- The sign of a number. -/
def signOfRat (x : Rat) : Int := if x < 0 then -1 else if 0 < x then 1 else 0

/-- Determinants of two, three and four rows, expanded along the first row. -/
def det2 (m : Nat → Nat → Rat) : Rat := m 0 0 * m 1 1 - m 0 1 * m 1 0
def minor0 (m : Nat → Nat → Rat) (c i j : Nat) : Rat := m (i + 1) (if j < c then j else j + 1)
def det3 (m : Nat → Nat → Rat) : Rat :=
  m 0 0 * det2 (minor0 m 0) - m 0 1 * det2 (minor0 m 1) + m 0 2 * det2 (minor0 m 2)
def det4 (m : Nat → Nat → Rat) : Rat :=
  m 0 0 * det3 (minor0 m 0) - m 0 1 * det3 (minor0 m 1) + m 0 2 * det3 (minor0 m 2) - m 0 3 * det3 (minor0 m 3)

/-- The determinant of Table 12-2 over points p, by point and coordinate; for SEGX the orientation of its first three points. -/
def exactDet (k : Predicate) (p : Nat → Nat → Rat) : Rat :=
  match k with
  | .ori2 | .segx => det2 fun i j => p (i + 1) j - p 0 j
  | .ori3 => det3 fun i j => p (i + 1) j - p 0 j
  | .incir => det3 fun i j => if j = 0 then (p i 0 - p 3 0) ^ 2 + (p i 1 - p 3 1) ^ 2 else p i (j - 1) - p 3 (j - 1)
  | .insph => det4 fun i j =>
      if j = 0 then (p i 0 - p 4 0) ^ 2 + (p i 1 - p 4 1) ^ 2 + (p i 2 - p 4 2) ^ 2 else p i (j - 1) - p 4 (j - 1)

/-- Points by point and coordinate, each coordinate moved by ε to the power 2^(rank · d + j); ε = 0 moves none (R279). -/
def movedPoints (d : Nat) (pts : List (List FVal)) (qs : List Nat) (eps : Rat) (i j : Nat) : Rat :=
  ratVal ((pts.getD i []).getD j (.fin false 0 0)) + eps ^ (2 ^ ((qs.filter (· < qs.getD i 0)).length * d + j))

/-- A point of the closed segment from a to b. -/
def OnSegment (a b p : Rat × Rat) : Prop :=
  ∃ t : Rat, 0 ≤ t ∧ t ≤ 1 ∧ p.1 = a.1 + t * (b.1 - a.1) ∧ p.2 = a.2 + t * (b.2 - a.2)

/-- c is the class of the segments from point 0 to point 1 and from point 2 to point 3 (R276). -/
def SegmentClass (p : Nat → Nat → Rat) (c : Int) : Prop :=
  let pt (i : Nat) : Rat × Rat := (p i 0, p i 1)
  let meet (q : Rat × Rat) : Prop := OnSegment (pt 0) (pt 1) q ∧ OnSegment (pt 2) (pt 3) q
  let one (q : Rat × Rat) : Prop := meet q ∧ ∀ r, meet r → r = q
  let line : Prop := ∀ i j k, i < 4 → j < 4 → k < 4 → det2 (fun n m => p (if n = 0 then j else k) m - p i m) = 0
  let ends (q : Rat × Rat) : Prop := ∃ i, i < 4 ∧ q = pt i
  (c = 0 ∧ ∀ q, ¬ meet q) ∨ (c = 1 ∧ ¬ line ∧ ∃ q, one q ∧ ¬ ends q) ∨ (c = 2 ∧ ¬ line ∧ ∃ q, one q ∧ ends q) ∨
    (c = 3 ∧ line ∧ ∃ q r, q ≠ r ∧ meet q ∧ meet r) ∨ (c = 4 ∧ line ∧ ∃ q, one q)

/-- The magnitude of a number. -/
def absRat (x : Rat) : Rat := if x < 0 then -x else x

/-! ## Lane masks -/

/-- The lanes of a mask. -/
def laneIn (m : LaneMask) (l : Nat) : Prop := inMask m l = true

/-! ## Memory as software sees it -/

/-- The lines that the compute dies hold and the directory fit together: a line stands once in a die, is 128 bytes long, and is modified
only where its die owns its sub-page; an entry has a word for each of the eight dies, and one die at most owns a sub-page (R394); rounded
pages lie in HBM (R135, R392); memory is canonical. -/
structure LinesOk (s : State) : Prop where
  memory : s.Inv
  unique : ∀ d l l', l ∈ (getDie s d).l2 → l' ∈ (getDie s d).l2 → l.line = l'.line → l = l'
  length : ∀ d l, l ∈ (getDie s d).l2 → l.bytes.length = 128
  owned : ∀ d l, d < 8 → l ∈ (getDie s d).l2 → l.modified = true → ∃ e, getDir s (l.line / 512) = some e ∧ owns e d (subOf l.line) = true
  rounded : ∀ e, e ∈ s.dirs → e.rounded = true → isHbm (e.page * 2 ^ 16) = true
  exclusive : ∀ e d d' sub, e ∈ s.dirs → owns e d sub = true → owns e d' sub = true → d = d'
  ownLength : ∀ e, e ∈ s.dirs → e.own.length = 8

/-- From s to t the bytes from k up have been written, and every other byte of memory reads as before. -/
def Written (s t : State) (k : Nat) (bytes : List Byte) : Prop :=
  ∀ a, coherentByte t a = if k ≤ a ∧ a < k + bytes.length then bytes.getD (a - k) 0 else coherentByte s a

/-- Where a die holds the line of an address, it holds the line's current bytes. -/
def HoldsCurrent (s : State) (d k : Nat) : Prop :=
  ∀ l, findL2 s d (lineOf k) = some l → ∀ i, i < 128 → l.bytes.getD i 0 = coherentByte s (lineOf k * 128 + i)

/-- The state with the fields that a load of global memory whose lines are at hand may change taken from t: cached translations, counts,
token buckets, events, the L1 lines of the block. -/
def loadFrame (s t : State) : State :=
  { s with vfs := t.vfs, parts := t.parts, buckets := t.buckets, agenda := t.agenda, timers := t.timers, b := { s.b with l1 := t.b.l1 } }

/-! ## Accesses in flight (R33, R120, R122 to R128) -/

/-- The accesses of the slot's member lanes have taken place: no store is in flight, no load waits for data (R124, R128). -/
def Released (s : State) : Prop := membersWait s = false ∧ ∀ a ∈ s.inflight, ofMembers s a = false

/-- The release stores of the slot's member lanes have performed (R122). -/
def Synced (s : State) : Prop := ∀ a ∈ s.inflight, a.sync = true → ofMembers s a = false

/-- What an atomic's ORD waits for has taken place (R121, R122, R124). -/
def OrdMet (s : State) : Ord → Prop
  | .rel | .acqrel => Released s
  | .plain => Synced s
  | .acq => True

/-- From s the accesses of some cells have been put in flight, in their order, each with the event in which it performs; their requests
have left the token buckets, and nothing else has changed. -/
structure Issued (s t : State) (sync : Bool) (cells : List AccessCell) : Prop where
  rest : t = { s with inflight := t.inflight, buckets := t.buckets, timers := t.timers, nextId := t.nextId, freeCount := t.freeCount }
  inflight : t.inflight = s.inflight ++ cells.zipIdx.map fun c =>
    { id := s.nextId + c.2, warp := s.w.uid, vf := s.b.vf, die := s.b.die, sync := sync, cell := c.1 }
  timers : t.timers = s.timers ++ cells.zipIdx.map fun c =>
    (s.cycle + (Sys2Proof.Config.freeValue (s.freeCount + c.2)).toNat % 13500, Instr.accessPerformed (s.nextId + c.2))
  nextId : t.nextId = s.nextId + cells.length
  freeCount : t.freeCount = s.freeCount + cells.length

/-- The slot waits until homes have answered what it asks of them for its instruction (log entry 29). -/
def AsksHome (i : Instr) (s : State) (xs : List HomeAsk) : Prop :=
  exec i s = .next (modCur (askHome s xs) fun x => { x with st := .wait .home })

/-- A die may write an address and holds its line with the current bytes, and no copy of the line is on its way home. -/
structure MayStore (s : State) (d k : Nat) : Prop where
  lines : LinesOk s
  die : d < 8
  present : d < s.dies.length
  owner : canStore s d k = true
  current : HoldsCurrent s d k
  settled : onWayHome s (lineOf k) = none

/-- The byte at an address after some stores in their order. -/
def storedByte (s : State) (xs : List Access) (p : Nat) : Byte :=
  xs.foldl (fun v x => if x.cell.addr ≤ p ∧ p < x.cell.addr + x.cell.bytes.length then x.cell.bytes.getD (p - x.cell.addr) 0 else v)
    (coherentByte s p)

/-! ## Runs of bytes that engines and streams write -/

/-- Two places share no byte. -/
def placesApart : Place → Place → Prop
  | .mem k n _, .mem l m _ => k + n ≤ l ∨ l + m ≤ k
  | .scratch u b n, .scratch v c m => u ≠ v ∨ b + n ≤ c ∨ c + m ≤ b
  | .bplane a n, .bplane c m => a + n ≤ c ∨ c + m ≤ a
  | _, _ => True

/-- What a place of a block holds; a remote package's memory is outside the module. -/
def heldAt (s : State) (u : Nat) : Place → List Byte
  | .mem k n _ => coherentBytes s k n
  | .scratch v byte n => readBytes (scratchOf s v) byte n
  | .bplane a n => readBytes (((getBlock s u).map (·.bplane)).getD []) a n
  | .remote _ => []

/-- From s to t some runs of places of a block have been written: each holds its bytes, where no two runs share one, and no other byte of
memory, scratch or B-plane has changed. -/
structure PlacesWritten (s t : State) (u : Nat) (xs : List (List Place × List Byte)) : Prop where
  bytes : (xs.flatMap (·.1)).Pairwise placesApart → ∀ x ∈ xs, (∀ n, Place.remote n ∉ x.1) → x.1.flatMap (heldAt t u) = x.2
  memory : ∀ a, (∀ x ∈ xs, ∀ k n attr, Place.mem k n attr ∈ x.1 → ¬(k ≤ a ∧ a < k + n)) → coherentByte t a = coherentByte s a
  scratch : ∀ v a, (∀ x ∈ xs, ∀ b n, Place.scratch v b n ∈ x.1 → ¬(b ≤ a ∧ a < b + n)) →
    readCell (scratchOf t v) a = readCell (scratchOf s v) a
  plane : ∀ v a, (v = u → ∀ x ∈ xs, ∀ b n, Place.bplane b n ∈ x.1 → ¬(b ≤ a ∧ a < b + n)) →
    readCell (((getBlock t v).map (·.bplane)).getD []) a = readCell (((getBlock s v).map (·.bplane)).getD []) a

/-- The memories of every block are canonical. -/
def BlocksWf (s : State) : Prop := ∀ b ∈ allBlocks s, Memory.wf b.scratch = true ∧ Memory.wf b.bplane = true

/-- The places of a run of the gang's scratch that the current block's stream writes. -/
def runAt (s : State) (a : Word) (n : Nat) : List Place :=
  match places s s.b .scratch true a n with
  | .ok ps => ps
  | .error _ => []

/-- The bytes that a QSTORE step gives the record of elements [c, c + n) of region row i, and its count (R82, R265): `prev` is the count
that its counter byte held. -/
def qstoreRecord (s : State) (x : RegionArgs) (adapt : Bool) (d : Desc) (i c prev : Nat) : List Byte × Nat :=
  if x.af = 12 then s8Record (if d.fmt = 9 then .e4m3 else .e5m2) adapt prev d.thr (regionValues s x i c 32)
  else
    let group := regionValues s x i 0 (shapeN x.shape)
    if group.all isFin then
      q4nRecord (.fin false (mantOf (maxMag group)) (expOf (maxMag group))) adapt prev d.thr ((group.drop c).take 64)
    else (List.replicate 32 0x88 ++ [255], 0)

/-! ## Messages between homes and dies (R394 to R402) -/

/-- A message has been sent: it is due at its own die, or on its way to another; the firewall may have dropped it. -/
def Sent (t : State) (src dst : Nat) (i : Instr) : Prop :=
  (src = dst ∧ i ∈ t.agenda) ∨ (src ≠ dst ∧ linksClosed t src dst = true) ∨
    (src ≠ dst ∧ ∃ r ∈ t.routes, r.src = src ∧ r.dst = dst ∧ i ∈ r.packets.map (·.2))

/-- The message p outstanding to a die is answered: e is the page's entry by then. A revoked owner loses its sub-pages, which HANDOFFS
counts where another die takes them, and the page's requests go on (R394, R397, R403). -/
def answeredBy (s : State) (page d : Nat) (e : DirEntry) (p : PendMsg) : State :=
  let own := match p with
    | .revoke m => modAt e.own d fun x => x &&& ~~~m
    | _ => e.own
  let t := setDir s { e with own := own, pend := e.pend.filter fun x => x.1 != d }
  let moves : Bool := match p, e.busy with
    | .revoke _, some (.wreq _ _) => true
    | _, _ => false
  serveHome (if moves then modDie t (homeOfPage page) fun x => { x with handoffs := satUp x.handoffs } else t) page

/-! ## Commands of the hypervisor -/

/-- The mailbox of c's PF with c in it as command opc, taken by the Datum (R347). -/
def submitted (s : State) (opc : Nat) (c : DtmCmd) : State :=
  let t := modBox s c.pf.val fun b => { b with hdr := headerBytes opc c, busy := true }
  { t with datum := { t.datum with queue := t.datum.queue ++ [c.pf.val] } }

/-- The first turn of a command of Table 19-8 that the Datum has taken: the header's unused fields, then what the host serves, then
its effect (R348, R351). -/
def commandTurn (s : State) (opc : Nat) (u : Uses) (c : DtmCmd) : Turn :=
  if headerOkFor u c = false then refuse s 2 else if hostReachable c = false then refuse s 9 else effectOf opc c s

/-- What the event of a command does: with its mailbox free and the Datum idle it is taken and answered in one turn, or goes on in a
later one; otherwise it waits in its mailbox; a mailbox that is BUSY takes nothing, and a module that has not booted takes no command
(R347, R349, R431). -/
def CommandRule (s : State) (e : Instr) (opc : Nat) (u : Uses) (c : DtmCmd) : Prop :=
  let t := submitted s opc c
  ((getBox s c.pf.val).busy = false → s.sal.ready = true → c.pf.val < s.datum.boxes.length → s.datum.queue = [] → s.ckp.busy = false →
    (∀ r, commandTurn t opc u c = .ok r → exec e s = .next (respond t c r)) ∧
    (∀ x, commandTurn t opc u c = .error x → exec e s = .next x)) ∧
  ((getBox s c.pf.val).busy = false → s.sal.ready = true → (s.datum.queue ≠ [] ∨ s.ckp.busy = true) → exec e s = .next t) ∧
  ((getBox s c.pf.val).busy = false → s.sal.ready = false →
    exec e s = .next (modBox s c.pf.val fun b => { b with hdr := headerBytes opc c })) ∧
  ((getBox s c.pf.val).busy = true → s.datum.working = false → exec e s = .next s)

end Sys2Proof.Machine
end

