-- ==== Sys2Proof/Certificates/Slice0/Obligations.lean ====
section
/-! DEFINITION. The statements about hs-eec9a338566a for the provers. A statement about an instruction begins where its turn begins
(InTurn, InDrainedTurn); its conclusion is the next state that the spec's own effect of the instruction leaves, field by field, so that
what an instruction does not write is stated unchanged with it. -/

open Sys2Proof Sys2Proof.Machine

/-! ## Control flow -/

/-- R192: NOP is the all-zero word; it changes nothing but the PC, in the one cycle that a step advances; any other word with OPC
0x000 traps RESERVED_FIELD with the word. -/
def Obligations.NopOnlyAdvances : Prop :=
  (∀ w : Word, decode false w = .ok .nop ↔ w = 0) ∧
  (∀ s s1 : State, InTurn s s1 → exec .nop s = .next (nextInstr s1)) ∧
  (∀ s : State, (tick s).cycle = s.cycle + 1) ∧
  ∀ w : Word, fld w 54 10 = 0 → w ≠ 0 → decode false w = .error (0x001, w)

/-- R178: the five branches: taken or not, target, BRANCH_RANGE only when taken, and LOOP's counter. -/
def Obligations.BranchesMoveTheSlot : Prop :=
  ∀ (s s1 : State) (off : BitVec 24), InTurn s s1 →
    let target := (cur s1).pc + 8 * off.signExtend 64
    BranchRule (.bra off) s s1 s1 true target ∧
    (∀ c, BranchRule (.brc c off) s s1 s1 (condHolds s1.w c) target) ∧
    (∀ ms, BranchRule (.brz ms off) s s1 s1 (active s1 ms == 0) target) ∧
    (∀ ms, BranchRule (.brnz ms off) s s1 s1 (active s1 ms != 0) target) ∧
    (∀ k, BranchRule (.loop k off) s s1 (setScal s1 k (scal s1 k - 1)) (scal s1 k - 1 != 0) target)

/-- R184, R185, R197: STAKE records and clears the seal when the other slot is FREE, YIELD makes the slot ineligible for n cycles,
TILE sets the width and SETMODE the enabled mode bits. -/
def Obligations.StakeYieldTileSetmode : Prop :=
  ∀ s s1 s2 : State, InTurn s s1 → drain s1 = .ok s2 →
    (∀ k : BitVec 12, s1.b.kernel.recipes.length ≤ k.toNat → Traps (.stake k) s 0x109 (zx64 k)) ∧
    (∀ k : BitVec 12, k.toNat < s1.b.kernel.recipes.length →
      exec (.stake k) s = .next (nextInstr (if (slotOf s1.w (otherSlot s1.slot)).mask = 0 then
        { s2 with w := { s2.w with
            stake := { pc := (cur s1).pc + 8, recipe := some k, slot := s1.slot, mask := members s1, cnt := (cur s1).cnt
                       divdepth := s1.w.div.length, calldepth := s1.w.acts.length }
            sealed := false } }
        else s2))) ∧
    exec (.yield 0) s = .next (nextInstr s2) ∧
    (∀ n : BitVec 10, n ≠ 0 → exec (.yield n) s = .next (nextInstr
      { modCur s2 fun x => { x with yielding := true } with
          timers := s2.timers ++ [(s2.cycle + n.toNat, .yieldExpiry s2.w.uid s2.slot)] })) ∧
    (∀ k : BitVec 3, exec (.tile k) s = .next (nextInstr { s1 with w := { s1.w with tile := 2 ^ k.toNat } })) ∧
    (∀ val wen : BitVec 8,
      let mode : BitVec 8 := (fld s1.w.mode 0 8 &&& ~~~wen) ||| (val &&& wen)
      (fld mode 0 2 ≠ (3 : BitVec 2) →
        exec (.setmode val wen) s = .next (nextInstr { s1 with w := { s1.w with mode := fld s1.w.mode 8 1 ++ mode } })) ∧
      (fld mode 0 2 = (3 : BitVec 2) → Traps (.setmode val wen) s 0x001 ((encode (.setmode val wen)).getD 0)))

/-- R186: SVC and BKPT take their traps with aux s0 after the wait for pending entries; BKPT without the policy's debug right
raises DEBUG_DENIED.
R40, R191: ERET and ERET.m give back the lanes' queues and CNT of the trap and continue at the faulting instruction, or after
SVC, BKPT and DEBUG_DENIED at the next; ERET.m suppresses its lanes there. ABORT ends the launch with the handler's cause and aux.
Outside a handler each traps ERET_OUTSIDE. -/
def Obligations.HandlersAreEnteredAndLeft : Prop :=
  (∀ s s1 s2 : State, InTurn s s1 → drain s1 = .ok s2 →
     (∀ n : BitVec 5, Traps (.svc n) s (0x3C0 + n.setWidth 10) (scal s1 0)) ∧
     (∀ k : BitVec 5, debugGranted s1 = true → Traps (.bkpt k) s (0x3E0 + k.setWidth 10) (scal s1 0)) ∧
     (∀ k : BitVec 5, debugGranted s1 = false → Traps (.bkpt k) s 0x343 (scal s1 0))) ∧
  (∀ s s1 : State, InTurn s s1 →
     ((cur s1).handler = none → Traps .eret s 0x107 0 ∧ (∀ ms, Traps (.eretM ms) s 0x107 0) ∧ Traps .abort s 0x107 0) ∧
     (∀ h s2, (cur s1).handler = some h → drain s1 = .ok s2 →
       let back (sup : LaneMask) (t : State) : Prop :=
         t = { s2 with w := t.w } ∧ t.w = { s2.w with lanes := t.w.lanes, slotA := t.w.slotA, slotB := t.w.slotB } ∧
         slotOf t.w (otherSlot s2.slot) = slotOf s2.w (otherSlot s2.slot) ∧
         cur t = { cur s2 with
           pc := if fld h.cause 6 4 = 15 ∨ h.cause = 0x343 then h.pc + 8 else h.pc
           cnt := h.cnt, st := .run, handler := none, suppress := sup &&& members s1 } ∧
         (∀ l, inMask (members s1) l = false → lane t l = lane s1 l) ∧
         (∀ l, l < s1.w.lanes.length → inMask (members s1) l = true → lane t l = { lane s1 l with queue := h.queues.getD l [] })
       (∃ t, exec .eret s = .next t ∧ back 0 t) ∧
       (∀ ms, ∃ t, exec (.eretM ms) s = .next t ∧ back (maskReg s1 ms) t) ∧
       exec .abort s = .next (abortLaunch s2 s2.b.vf s2.b.launch h.cause h.aux)))

/-- R39, R36: a trap whose slot has no pending entry enters the handler: the lanes' queues and CNT set aside, four seeded pushes on
a poisoned queue, CNT 0, the warp sealed, the VF's count of delivered traps one higher, every other field as it was. A not-present
page yields the slot while the VF's fault queue is enabled: a fault record waits, and where the VF's context area has room the slot's
precise state goes there (log entry 47); while the queue is disabled it is delivered as any other trap. The walk of a translation fault
is counted and consumes what it reads (R412, R419).
R39, R320: with no handler, and in a recipe, a trap ends the launch with its cause; inside a handler it ends it with
HANDLER_TRAP and the inner cause as aux. While a pending entry is left the slot waits first (R52). -/
def Obligations.TrapsAreTaken : Prop :=
  (∀ (s : State) (cause : BitVec 10) (aux : Word), pendingIn s (members s) = false →
     let s0 := if fld cause 6 4 = (6 : BitVec 4) ∨ fld cause 6 4 = (7 : BitVec 4) then touchWalk s s.b.vf aux else s
     let served := isNotPresent cause = true ∧ ((getVf s s.b.vf).map fun v => v.trn.fqEnable) = some true
     s0 = { s with parts := s0.parts, agenda := s0.agenda } ∧ (s.poisoned = [] → s0.agenda = s.agenda) ∧
     (served →
       ∃ t, takeTrap s cause aux = t ∧ (cur t).st = .yielded ∧ (cur t).pc = (cur s).pc ∧ t.w.lanes = s.w.lanes ∧
         t.w.scalars = s.w.scalars ∧ t.agenda.getLast? = some (.faultRecordWrite s.b.vf) ∧
         (∀ v, getVf s s.b.vf = some v → areaSlot v (slotBytes s) = none → t.mem = s.mem) ∧
         ∀ v, getVf s s.b.vf = some v → ∃ v', getVf t s.b.vf = some v' ∧
           (∃ r ∈ v'.trn.waiting, r.warp = s.w.uid ∧ r.ident = s.w.ident ∧ r.slot = s.slot ∧ r.va = aux ∧ r.cause = cause ∧
             r.pc = (cur s).pc) ∧
           ∀ off, areaSlot v (slotBytes s) = some off → ∃ p ∈ v'.ctx, p.slot = some (s.w.uid, s.slot) ∧ p.off = off) ∧
     (¬ served → (cur s).handler = none → s.w.recipe = none → ∀ entry, s.b.kernel.handler = some entry →
       ∃ t, takeTrap s cause aux = t ∧ t = { s0 with w := t.w, vfs := (countEvent s s.b.vf 0x0E 1).vfs } ∧
         t.w = { s.w with lanes := t.w.lanes, slotA := t.w.slotA, slotB := t.w.slotB, sealed := true } ∧
         slotOf t.w (otherSlot s.slot) = slotOf s.w (otherSlot s.slot) ∧
         cur t = { cur s with
           pc := codeBase s.b.kernel + BitVec.ofNat 64 entry, cnt := 0, st := .run, windows := [], suppress := 0
           handler := some { queues := s.w.lanes.map (·.queue), cnt := (cur s).cnt, cause := cause, aux := aux, pc := (cur s).pc } } ∧
         (∀ l, inMask (members s) l = false → lane t l = lane s l) ∧
         (∀ l, l < s.w.lanes.length → inMask (members s) l = true → lane t l = { lane s l with
           queue := ([valued (zx64 (members s), .n32), valued ((cur s).pc, .addr), valued (aux, .raw), valued (zx64 cause, .n32)] ++
             List.replicate s.w.depth Entry.poison).take s.w.depth }))) ∧
  (∀ (s : State) (cause : BitVec 10) (aux : Word),
     (pendingIn s (members s) = true → takeTrap s cause aux = modCur s fun x => { x with st := .wait .drain }) ∧
     (pendingIn s (members s) = false →
       let s0 := if fld cause 6 4 = (6 : BitVec 4) ∨ fld cause 6 4 = (7 : BitVec 4) then touchWalk s s.b.vf aux else s
       ¬ (isNotPresent cause = true ∧ ((getVf s s.b.vf).map fun v => v.trn.fqEnable) = some true) →
       ((cur s).handler.isSome = true → takeTrap s cause aux = abortLaunch s0 s.b.vf s.b.launch 0x108 (zx64 cause)) ∧
       ((cur s).handler = none → (s.w.recipe.isSome = true ∨ s.b.kernel.handler = none) →
         takeTrap s cause aux = abortLaunch s0 s.b.vf s.b.launch cause aux)))

/-- R27, R179: BRD with no lane taken falls through, with every lane taken moves the slot, and else splits it: the taken lanes go to
the other slot when that is FREE and are parked otherwise, with a record of the join ID, mask, CNT and path; a parked path keeps its
open windows (R316). -/
def Obligations.BrdSplitsTheSlot : Prop :=
  ∀ (s s1 : State) (ms : BitVec 3) (jid : BitVec 6) (off : BitVec 24), InTurn s s1 →
    let taken := active s1 ms
    let rest := members s1 &&& ~~~taken
    let target := (cur s1).pc + 8 * off.signExtend 64
    let q := otherSlot s1.slot
    (∀ r, s1.w.div.length < s1.b.kernel.ndiv → (s1.w.div.length < 2 → pushDiv s1 r = .ok (withDiv s1 (r :: s1.w.div))) ∧
      ∀ t0, pushDiv s1 r = .ok t0 → t0.w = { s1.w with div := r :: s1.w.div }) ∧
    (taken = 0 → exec (.brd ms jid off) s = .next (nextInstr s1)) ∧
    (taken ≠ 0 → inCode s1.b.kernel target = false → Traps (.brd ms jid off) s 0x105 target) ∧
    (taken ≠ 0 → inCode s1.b.kernel target = true →
      (rest = 0 → exec (.brd ms jid off) s = .next (jumpTo target s1)) ∧
      (rest ≠ 0 → s1.b.kernel.ndiv ≤ s1.w.div.length →
        Traps (.brd ms jid off) s 0x102 (BitVec.ofNat 64 s1.w.div.length)) ∧
      (rest ≠ 0 → (slotOf s1.w q).mask = 0 → ∀ t0,
        pushDiv s1 { pc := 0, jid := jid, st := .both, tslot := q, ptaken := false, mask := 0, base := (cur s1).cnt, count := 0
                     owner := s1.slot, windows := [] } = .ok t0 →
        exec (.brd ms jid off) s = .next (endSuppress (modCur
          { t0 with w := setSlot t0.w q { cur s1 with pc := target, mask := taken, st := .run, suppress := 0, passed := 0, aged := none } }
          fun x => { x with pc := x.pc + 8, mask := rest }))) ∧
      (rest ≠ 0 → (slotOf s1.w q).mask ≠ 0 → ∀ t0,
        pushDiv s1 { pc := target, jid := jid, st := .parked, tslot := s1.slot, ptaken := true, mask := taken, base := (cur s1).cnt
                     count := 0, owner := s1.slot, windows := (cur s1).windows } = .ok t0 →
        exec (.brd ms jid off) s = .next (endSuppress (modCur t0 fun x => { x with pc := x.pc + 8, mask := rest }))))

/-- R29, R68, R180: JOIN at the record of its ID. A parked path takes the slot and the arriving one is recorded; the second arrival
merges the masks when both push counts are c, and otherwise traps JOIN_COUNT; with both paths in slots the first waits in JOINWAIT
and the second merges them in the taken path's slot. A JOIN with no open record traps JOIN_ID. Records below the two that the core
holds are read back first, and those that move down a place are written again (R312). -/
def Obligations.JoinMergesThePaths : Prop :=
  ∀ (s s1 s2 : State) (id c : BitVec 6) (pi : BitVec 24), InTurn s s1 → drain s1 = .ok s2 →
    let x := cur s2
    let c16 : BitVec 16 := c.setWidth 16
    let y := slotOf s2.w (otherSlot s2.slot)
    (∀ cause va, fillJoin s2 id = .error (.trap cause va) → Traps (.join id c pi) s cause va) ∧
    (fillJoin s2 id = .ok () →
    (findJoin s2 id = none → Traps (.join id c pi) s 0x101 (zx64 id)) ∧
    (∀ i r, findJoin s2 id = some (i, r) →
      (r.st = .parked →
        let r' : DivRec :=
          { r with pc := x.pc, mask := x.mask, count := x.cnt - r.base, st := .arrived, ptaken := !r.ptaken, windows := [] }
        (∀ cause va, putDiv s2 i r' = .error (.trap cause va) → Traps (.join id c pi) s cause va) ∧
        (∀ t0, putDiv s2 i r' = .ok t0 → t0.w = { s2.w with div := setAt s2.w.div i r' } ∧
          (i < 2 → t0 = withDiv s2 (setAt s2.w.div i r')) ∧
          exec (.join id c pi) s = .next (endSuppress (modCur (sealJoin t0 i)
            fun x => { x with pc := r.pc, mask := r.mask, cnt := r.base, windows := r.windows })))) ∧
      (r.st = .arrived → r.count = c16 → x.cnt - r.base = c16 → ∀ t0, popDiv s2 i = .ok t0 → ∃ t, exec (.join id c pi) s = .next t ∧
        cur t = { x with mask := x.mask ||| r.mask, pc := x.pc + 8, cnt := r.base + c16, suppress := 0 } ∧
        t.w.div = s2.w.div.eraseIdx i ∧ t.w.scalars = s2.w.scalars ∧ t.mem = s2.mem ∧
        (∀ l, l < s2.w.lanes.length → lane t l = { lane s2 l with
          queue := if inMask (if r.ptaken then r.mask else x.mask) l then permute pi (lane s2 l).queue else (lane s2 l).queue })) ∧
      (r.st = .arrived → (r.count ≠ c16 ∨ x.cnt - r.base ≠ c16) →
        Traps (.join id c pi) s 0x100 (zx64 r.count <<< 16 ||| zx64 (x.cnt - r.base))) ∧
      (r.st = .both → (∀ d e, y.st ≠ .joinwait id d e) → exec (.join id c pi) s = .next (endSuppress
        (sealJoin (modCur s2 fun x => { x with st := .joinwait id c pi }) i))) ∧
      (r.st = .both → (∃ d e, y.st = .joinwait id d e) → y.cnt - r.base = c16 → x.cnt - r.base = c16 →
        ∀ t0, popDiv s2 i = .ok t0 → ∃ t, exec (.join id c pi) s = .next t ∧
          slotOf t.w (otherSlot r.tslot) = .empty ∧
          (slotOf t.w r.tslot).mask = x.mask ||| y.mask ∧ (slotOf t.w r.tslot).pc = x.pc + 8 ∧
          (slotOf t.w r.tslot).cnt = r.base + c16 ∧ (slotOf t.w r.tslot).st = .run ∧
          t.w.scalars = s2.w.scalars ∧ t.mem = s2.mem ∧
          (∀ l, l < s2.w.lanes.length → lane t l = { lane s2 l with
            queue := if inMask (slotOf s2.w r.tslot).mask l then permute pi (lane s2 l).queue else (lane s2 l).queue })) ∧
      (r.st = .both → (∃ d e, y.st = .joinwait id d e) → (y.cnt - r.base ≠ c16 ∨ x.cnt - r.base ≠ c16) →
        Traps (.join id c pi) s 0x100 (zx64 (y.cnt - r.base) <<< 16 ||| zx64 (x.cnt - r.base))) ∧
      (r.st = .exited → x.cnt - r.base ≠ c16 → Traps (.join id c pi) s 0x100 (zx64 (x.cnt - r.base) <<< 16)) ∧
      (r.st = .exited → x.cnt - r.base = c16 → ∀ t0, popDiv s2 i = .ok t0 → ∃ t, exec (.join id c pi) s = .next t ∧
        cur t = { x with st := .run, pc := x.pc + 8, cnt := r.base + c16, windows := [], suppress := 0 } ∧
        t.w.div = s2.w.div.eraseIdx i ∧ t.w.scalars = s2.w.scalars ∧ t.mem = s2.mem)))

/-- R64, R181: CALL and CALLI check in the spec's order, open the activation, give the callee its arguments on a poisoned queue and a
fresh frame, restart CNT and seal the warp; R66: activations that the core's rows do not hold go to the call stack, the oldest first.
R65, R182: RET gives the caller's lanes the top m results on the caller's queue, its frame, and CNT advanced by m, continues at
the return address and seals; a record open above the activation traps JOIN_ID, no open call RET_EMPTY. -/
def Obligations.CallsAndReturns : Prop :=
  (∀ (s s1 s2 : State) (nargs nres : BitVec 5), InTurn s s1 → drain s1 = .ok s2 → pendingIn s2 (members s2) = false →
     let d := s2.w.depth
     let rule (i : Instr) (target : Word) : Prop :=
       (inCode s2.b.kernel target = false → Traps i s 0x105 target) ∧
       (inCode s2.b.kernel target = true → (d < nargs.toNat ∨ d < nres.toNat) →
         Traps i s 0x046 (zx64 nargs <<< 8 ||| zx64 nres)) ∧
       (inCode s2.b.kernel target = true → nargs.toNat ≤ d → nres.toNat ≤ d →
         let need := actsBytes d s2.w.acts + actBytes d (frameSize s2)
         (s2.b.kernel.callstk < need → Traps i s 0x103 (BitVec.ofNat 64 s2.w.acts.length)) ∧
         (need ≤ s2.b.kernel.callstk →
           let opened := withCall s2 nres
           (∀ cause va, spillOldest (s2.w.acts.length + 1) opened = .error (.trap cause va) → Traps i s cause va) ∧
           (heldRows opened ≤ freeRows opened → spillOldest (s2.w.acts.length + 1) opened = .ok opened) ∧
           ∀ t0, spillOldest (s2.w.acts.length + 1) opened = .ok t0 → ∃ t, exec i s = .next t ∧ callEffect s2 t0 t nargs target))
     (∀ off : BitVec 24, rule (.call nargs nres off) ((cur s2).pc + 8 * off.signExtend 64)) ∧
     (∀ k : BitVec 5, fld (scal s2 k) 0 3 ≠ (0 : BitVec 3) → Traps (.calli nargs nres k) s 0x106 (scal s2 k)) ∧
     (∀ k : BitVec 5, fld (scal s2 k) 0 3 = (0 : BitVec 3) → rule (.calli nargs nres k) (scal s2 k))) ∧
  (∀ (s s1 s2 : State), InTurn s s1 → drain s1 = .ok s2 →
     let found := s2.w.acts.zipIdx.find? fun p => p.1.mask &&& members s2 != 0
     (found = none → Traps .ret s 0x104 0) ∧
     (∀ a i, found = some (a, i) →
       (∀ r rs, s2.w.div.take (s2.w.div.length - a.base) = r :: rs → Traps .ret s 0x101 (zx64 r.jid)) ∧
       let back := fillBytes s2 (actAddr s2 (s2.w.acts.reverse.take (s2.w.acts.length - 1 - i))) (actBytes s2.w.depth a.callerF)
       (s2.w.div.take (s2.w.div.length - a.base) = [] → a.spilled = true → ∀ cause va, back = .error (.trap cause va) →
         Traps .ret s cause va) ∧
       (s2.w.div.take (s2.w.div.length - a.base) = [] → (a.spilled = false ∨ back = .ok ()) → ∃ t, exec .ret s = .next t ∧
         t = { s2 with w := t.w } ∧
         t.w = { s2.w with lanes := t.w.lanes, acts := s2.w.acts.eraseIdx i, slotA := t.w.slotA, slotB := t.w.slotB, sealed := true } ∧
         cur t = { cur s2 with pc := a.rpc, cnt := a.cnt + a.nres.setWidth 16, suppress := 0 } ∧
         ∀ l, l < s2.w.lanes.length → lane t l = if inMask (members s2) l then
           { lane s2 l with
               queue := ((lane s2 l).queue.take a.nres.toNat ++ a.queues.getD l []).take s2.w.depth, frame := a.frames.getD l [] }
           else lane s2 l)))

/-- R30, R38, R183, R185: EXIT removes the slot's lanes from every activation and gives the slot the path that its record holds,
leaves it FREE when no record concerns it, and seals while a lane is left; with the last lane the block may drain. A path that goes on
in the slot goes on in its handler context (Table 02-2). A record of two
running paths becomes EXITED, and the other path, where it waits at the JOIN, completes it alone; a record that is EXITED goes. -/
def Obligations.ExitRemovesTheLanes : Prop :=
  ∀ (s s1 s2 : State), InTurn s s1 → drain s1 = .ok s2 →
    let q := otherSlot s2.slot
    let acts := (s2.w.acts.map fun a => { a with mask := a.mask &&& ~~~members s2 }).filter fun a => a.mask != 0
    let left (w : Warp) : State := { s2 with w := { w with acts := acts } }
    let gone := modCur (left s2.w) fun x => { x with mask := 0, windows := [], suppress := 0 }
    (recordOf s2.slot s2.w.div = none → (slotOf s2.w q).mask ≠ 0 →
      exec .exit s = .next (sealWarp (left (setSlot s2.w s2.slot .empty)))) ∧
    (recordOf s2.slot s2.w.div = none → (slotOf s2.w q).mask = 0 → (s2.w.div.all fun r => r.st == .both || r.st == .exited) = true →
      exec .exit s = .next (tryDrain (left (setSlot s2.w s2.slot .empty)) s2.w.block)) ∧
    (∀ i r, recordOf s2.slot s2.w.div = some (i, r) → r.st = .parked ∨ r.st = .arrived → r.mask ≠ 0 →
      (∀ cause va, putDiv gone i { r with st := .exited } = .error (.trap cause va) → Traps .exit s cause va) ∧
      (i < 2 → putDiv gone i { r with st := .exited } = .ok (withDiv gone (setAt s2.w.div i { r with st := .exited }))) ∧
      ∀ t0, putDiv gone i { r with st := .exited } = .ok t0 →
        exec .exit s = .next (sealWarp { t0 with w := setSlot t0.w s2.slot { cur gone with
          pc := r.pc, mask := r.mask, cnt := if r.st = .parked then r.base else r.base + r.count, st := .run
          windows := if r.st = .parked then r.windows else [] } })) ∧
    (∀ i r, recordOf s2.slot s2.w.div = some (i, r) → r.st = .both → (slotOf s2.w q).mask ≠ 0 →
      let r' : DivRec := { r with st := .exited, ptaken := r.tslot == q, owner := q }
      (i < 2 → putDiv gone i r' = .ok (withDiv gone (setAt s2.w.div i r'))) ∧
      ∀ t0, putDiv gone i r' = .ok t0 →
        let t1 : State := { t0 with w := { setSlot t0.w s2.slot .empty with
          div := t0.w.div.take (i + 1) ++ reown s2.slot q (t0.w.div.drop (i + 1)) } }
        ((∀ id c pi, (slotOf s2.w q).st ≠ .joinwait id c pi) → exec .exit s = .next (sealWarp t1)) ∧
        (∀ c pi, (slotOf s2.w q).st = .joinwait r.jid c pi → (slotOf s2.w q).cnt - r.base = c.setWidth 16 →
          ∀ u, popDiv t1 i = .ok u → ∃ t, exec .exit s = .next t ∧ slotOf t.w s2.slot = .empty ∧ t.w.sealed = true ∧
            t.w.div = t1.w.div.eraseIdx i ∧ slotOf t.w q = { slotOf s2.w q with
              st := .run, pc := (slotOf s2.w q).pc + 8, cnt := r.base + c.setWidth 16, windows := [] })) ∧
    ∀ i r, recordOf s2.slot s2.w.div = some (i, r) → r.st = .exited → (slotOf s2.w q).mask ≠ 0 → ∀ t0, popDiv gone i = .ok t0 →
      recordOf s2.slot t0.w.div = none → exec .exit s = .next (sealWarp { t0 with w := setSlot t0.w s2.slot .empty })

/-! ## The queue, operands and special registers -/

/-- R49: each lane's queue has the D entries, 8, 16 or 32, that the kernel header declares, of 64 value bits and a 4-bit tag; a push
moves every entry one age older, discards the entry at age D and places the new one at age 1, in the slot's member lanes alone;
reading an age greater than D traps AGE_RANGE with the age, and reading another age never does. -/
def Obligations.PushAgesTheQueue : Prop :=
  (∀ vf handle obj stkBase stkSlots o, (kernelOf vf handle obj stkBase stkSlots o).depth ∈ [8, 16, 32]) ∧
  (∀ k l b gangNo uid num place stack, (newWarp k l b gangNo uid num place stack).depth = k.depth ∧
    (newWarp k l b gangNo uid num place stack).lanes.length = 32 ∧
    ∀ x ∈ (newWarp k l b gangNo uid num place stack).lanes, x.queue.length = k.depth) ∧
  (∀ (s : State) (row : List Entry), PushedRow s (pushRow s row) row ∧ (0 < s.w.depth → ∀ l, (lane s l).queue.length = s.w.depth →
    (lane (pushRow s row) l).queue.length = s.w.depth)) ∧
  (∀ (s : State) (n : BitVec 5) (exp ty : Ty) (any : Bool) (m : LaneMask),
    (s.w.depth ≤ n.toNat → readRow s (.age n) exp ty any m = .error (.trap 0x040 (BitVec.ofNat 64 (n.toNat + 1)))) ∧
    (n.toNat < s.w.depth → ∀ aux, readRow s (.age n) exp ty any m ≠ .error (.trap 0x040 aux)))

/-- R52, R166: in strict mode a read inside an open window traps LOOKAHEAD with the age; a read of an entry that is pending in a member lane
waits. R58: a frame slot of index F or more traps FRAME_RANGE. R57, R59, R60, Table 03-5: an operand that is readable and carries the
expected tag in the lanes that are checked is read as it stands; a poisoned entry traps POISON in check mode with the field; another tag
traps TAG_MISMATCH in check mode, is converted between numeric tags in convert mode, and is taken as it stands in ignore mode. That a tag
trap's aux names the lowest-numbered failing lane's tag is log entry 27, that a conversion flushes nothing log entry 28 (both DEDUCED). -/
def Obligations.OperandsAreChecked : Prop :=
  (∀ (s : State) (n : BitVec 5) (exp ty : Ty) (any : Bool) (m : LaneMask), n.toNat < s.w.depth →
     ((∃ w ∈ (cur s).windows, w.age ≤ n.toNat + 1 ∧ n.toNat + 1 < w.age + w.width) →
       readRow s (.age n) exp ty any m = .error (.trap 0x043 (BitVec.ofNat 64 (n.toNat + 1)))) ∧
     ((∀ w ∈ (cur s).windows, ¬ (w.age ≤ n.toNat + 1 ∧ n.toNat + 1 < w.age + w.width)) →
       (∃ l, l < 32 ∧ inMask (members s) l = true ∧ ((lane s l).queue.getD n.toNat .poison).pend ≠ none) →
       ∃ k, readRow s (.age n) exp ty any m = .error (.stall (.pending k)))) ∧
  (∀ (s : State) (n : BitVec 5) (exp ty : Ty) (any : Bool) (m : LaneMask), frameSize s ≤ n.toNat →
     readRow s (.frame n) exp ty any m = .error (.trap 0x041 (zx64 n))) ∧
  (∀ (s : State) (x : Src) (exp ty : Ty) (any : Bool) (m : LaneMask), srcRange s x = .ok () → srcPending s x = false →
     let tagMode := (fld s.w.mode 0 2 : BitVec 2).toNat
     let v (l : Nat) : Val := srcValue s l exp x
     ((∀ l, l < 32 → inMask m l = true → (v l).2 = exp ∧ exp ≠ .poison) → readRow s x exp ty any m = .ok (lanes32.map v)) ∧
     (any = true → (∀ l, l < 32 → inMask m l = true → (v l).2 ≠ .poison) → readRow s x exp ty any m = .ok (lanes32.map v)) ∧
     (tagMode = 0 → (∃ l, l < 32 ∧ inMask m l = true ∧ (v l).2 = .poison) →
       readRow s x exp ty any m = .error (.trap 0x042 (zx64 (srcField x)))) ∧
     (∀ k, k < 32 → inMask m k = true → (v k).2 ≠ exp → (∀ l, l < k → inMask m l = true → (v l).2 = exp) →
       (tagMode = 0 → any = false → (∀ l, l < 32 → inMask m l = true → (v l).2 ≠ .poison) → readRow s x exp ty any m =
         .error (.trap 0x080 (zx64 (tyCode (v k).2) <<< 4 ||| zx64 (tyCode ty)))) ∧
       (tagMode = 1 → ((v k).2 = .poison ∨ any = false ∧ (isNumeric (v k).2 && isNumeric exp) = false) →
         readRow s x exp ty any m = .error (.trap 0x081 (zx64 (tyCode (v k).2) <<< 4 ||| zx64 (tyCode ty))))) ∧
     (tagMode = 1 → any = false → (∀ l, l < 32 → inMask m l = true → isNumeric (v l).2 = true ∧ isNumeric exp = true) →
       readRow s x exp ty any m = .ok (lanes32.map fun l =>
         if inMask m l ∧ (v l).2 ≠ exp then ((convert (v l).2 exp .rne 0 false (v l).1).1, exp) else v l)) ∧
     (2 ≤ tagMode → readRow s x exp ty any m = .ok (lanes32.map v)))

/-- R193 to R196: SAVE writes the slot in the active lanes alone; DUP, PUSHI and SETTAG push their row.
R68, R195: QPERM puts at age i + 1 of every member lane the entry that π entry i names, all reads before all writes; ages above
8, CNT and every other lane stay. -/
def Obligations.QueueMovesAndPermutes : Prop :=
  (∀ s s1 : State, InTurn s s1 →
     (∀ ms a k x, readB s1 (active s1 ms) a .raw .raw true = .ok x →
       (frameSize s1 ≤ k.toNat → Traps (.save ms a k) s 0x041 (zx64 k)) ∧
       (k.toNat < frameSize s1 → ∃ t, exec (.save ms a k) s = .next (nextInstr t) ∧ t = { s1 with w := t.w } ∧
         t.w = { s1.w with lanes := t.w.lanes } ∧
         ∀ l, l < s1.w.lanes.length → lane t l = if inMask (active s1 ms) l then
           { lane s1 l with frame := setAt (lane s1 l).frame k.toNat (valued (at_ x l)) } else lane s1 l)) ∧
     (∀ ms mz a x, readA s1 a .raw .raw true = .ok x →
       Pushes (.dup ms mz a) s s1 (resultRow s1 ms mz (fun l => (at_ x l).2) (at_ x) (at_ x))) ∧
     (∀ h v, Pushes (.pushi h v) s s1 (lanes32.map fun l => valued
       (if inMask (activeAll s1 h.ms) l ∨ h.mz = false then
         formOf h.ty (match h.ty with | .i32 | .i64 | .raw => v.signExtend 64 | _ => v.zeroExtend 64) else 0, h.ty))) ∧
     (∀ h a x, readA s1 a .raw h.ty true = .ok x →
       Pushes (.settag h a) s s1 (resultRow s1 h.ms h.mz (fun _ => h.ty) (fun l => (reshape h.ty (at_ x l).1, h.ty)) (at_ x)))) ∧
  (∀ (s s1 : State) (pi : BitVec 24), InTurn s s1 → 8 ≤ s1.w.depth → (cur s1).windows = [] →
     (∀ l, inMask (members s1) l = true → ∀ e ∈ (lane s1 l).queue.take 8, e.pend = none) →
     ∃ t, exec (.qperm pi) s = .next (nextInstr t) ∧ t = { s1 with w := t.w } ∧ t.w = { s1.w with lanes := t.w.lanes } ∧
       ∀ l, l < s1.w.lanes.length → lane t l = if inMask (members s1) l then { lane s1 l with
           queue := ((List.range 8).map fun i => (lane s1 l).queue.getD (fld pi (3 * i) 3 : BitVec 3).toNat .poison) ++
             (lane s1 l).queue.drop 8 }
         else lane s1 l)

/-- R177, R198: LANE2S takes the value that lane j reads, or 0 where j is not a member; RDSR pushes the register's value and Table
08-2's tag; WRSR writes each active lane's counter, or the warp's register from the lowest active lane. An empty mask writes
nothing. -/
def Obligations.SpecialRegistersAndLane2s : Prop :=
  ∀ s s1 : State, InTurn s s1 →
    (∀ ms a b k x y, readB s1 0 a .raw .raw true = .ok x → readB s1 (laneBit (lowLane (active s1 ms))) b .n32 .raw = .ok y →
      let j := (at_ y (lowLane (active s1 ms))).1.toNat % 32
      (active s1 ms = 0 → exec (.lane2s ms a b k) s = .next (nextInstr s1)) ∧
      (active s1 ms ≠ 0 → inMask (members s1) j = true → ∀ z, readB s1 (laneBit j) a .raw .raw true = .ok z →
        exec (.lane2s ms a b k) s = .next (nextInstr (setScal s1 k (at_ z j).1))) ∧
      (active s1 ms ≠ 0 → inMask (members s1) j = false → exec (.lane2s ms a b k) s = .next (nextInstr (setScal s1 k 0)))) ∧
    (∀ ms mz r, changesLater s1 r = false → Pushes (.rdsr ms mz r) s s1
      (resultRow s1 ms mz (fun l => (specialVal s1 l r).2) (fun l => specialVal s1 l r) fun l => (0, (specialVal s1 l r).2))) ∧
    (∀ ms mz r, changesLater s1 r = true → ∃ k, WaitsAt (.rdsr ms mz r) s (.pending k)) ∧
    (∀ ms a r x, readB s1 (active s1 ms) a .n64 .raw = .ok x →
      let v := (at_ x (lowLane (active s1 ms))).1
      (active s1 ms = 0 → exec (.wrsr ms a r) s = .next (nextInstr s1)) ∧
      (active s1 ms ≠ 0 →
        (r = .fflags → exec (.wrsr ms a r) s = .next (nextInstr { s1 with w := { s1.w with fflags := fld v 0 5 } })) ∧
        (r = .mode → fld v 0 2 ≠ (3 : BitVec 2) → fld v 9 55 = (0 : BitVec 55) → exec (.wrsr ms a r) s = .next (nextInstr
          { s1 with w := { s1.w with mode := fld s1.w.mode 8 1 ++ fld v 0 8 } })) ∧
        (r = .mode → (fld v 0 2 = (3 : BitVec 2) ∨ fld v 9 55 ≠ (0 : BitVec 55)) → Traps (.wrsr ms a r) s 0x045 0) ∧
        (r = .rngctr → ∃ t, exec (.wrsr ms a r) s = .next (nextInstr t) ∧ t = { s1 with w := t.w } ∧
          t.w = { s1.w with lanes := t.w.lanes } ∧ ∀ l, l < s1.w.lanes.length → lane t l =
            if inMask (active s1 ms) l then { lane s1 l with rngctr := (at_ x l).1 } else lane s1 l)))

/-! ## Scalars -/

/-- R199, R200: SADD, SSUB, SMUL, SMULH, SMIN and SMAX: the w-bit result, C and V. -/
def Obligations.ScalarArithmetic : Prop :=
  ∀ (s s1 : State) (x : SArgs), InTurn s s1 → tyScalar x.ty = true →
    let w := intWidth x.ty
    let a := scalarA s1 x.ty x.sa
    let b := scalarB s1 x.ty x.b
    let done := scalarDone s1 x.ty x.sd x.ccw
    let val (n : Nat) : Int := if isSigned x.ty then signedOf w n else n
    exec (.sadd x) s = .next (done ((a + b) % 2 ^ w) (decide (2 ^ w ≤ a + b)) (signedOverflow w (signedOf w a + signedOf w b))) ∧
    exec (.ssub x) s = .next (done ((2 ^ w + a - b) % 2 ^ w) (decide (b ≤ a)) (signedOverflow w (signedOf w a - signedOf w b))) ∧
    exec (.smul x) s = .next (done (a * b % 2 ^ w) (decide (2 ^ w ≤ a * b)) (signedOverflow w (signedOf w a * signedOf w b))) ∧
    exec (.smulh x) s = .next (done ((val a * val b / 2 ^ w) % 2 ^ w).toNat false false) ∧
    exec (.smin x) s = .next (done (if val a ≤ val b then a else b) false false) ∧
    exec (.smax x) s = .next (done (if val b ≤ val a then a else b) false false)

/-- R199, R200: the bitwise operations, and the shifts with their carry, 0 or all sign bits from n = w on.
R200, R201: SCMP writes the flags of SSUB alone; SMOV, SMOVI, SSEL, SCLZ, SPOPC and SBFE their results, with C = V = 0 and no flag
for SSEL. -/
def Obligations.ScalarLogicShiftsAndMoves : Prop :=
  (∀ (s s1 : State) (x : SArgs), InTurn s s1 → tyScalar x.ty = true →
     let w := intWidth x.ty
     let a := scalarA s1 x.ty x.sa
     let n := scalarB s1 x.ty x.b
     let done := scalarDone s1 x.ty x.sd x.ccw
     exec (.sand x) s = .next (done (a &&& n) false false) ∧
     exec (.sor x) s = .next (done (a ||| n) false false) ∧
     exec (.sxor x) s = .next (done (a ^^^ n) false false) ∧
     exec (.sshl x) s = .next (done (if w ≤ n then 0 else a * 2 ^ n % 2 ^ w) (decide (1 ≤ n ∧ n ≤ w ∧ a.testBit (w - n))) false) ∧
     exec (.sshr x) s = .next (done (if w ≤ n then 0 else a / 2 ^ n) (decide (1 ≤ n ∧ n ≤ w ∧ a.testBit (n - 1))) false) ∧
     exec (.ssar x) s = .next (done ((signedOf w a / 2 ^ min n w) % 2 ^ w).toNat (decide (1 ≤ n ∧ a.testBit (min n w - 1))) false)) ∧
  (∀ (s s1 : State) (ty : Ty) (sd sa : BitVec 5) (b2 : SOp2) (ccw : BitVec 4), InTurn s s1 → tyScalar ty = true →
     let w := intWidth ty
     let a := scalarA s1 ty sa
     let b := scalarB s1 ty b2
     let done := scalarDone s1 ty sd ccw
     (let flags := flagged s1.w w ccw ((2 ^ w + a - b) % 2 ^ w) (decide (b ≤ a)) (signedOverflow w (signedOf w a - signedOf w b))
      exec (.scmp ty sa b2 ccw) s = .next (nextInstr { s1 with w := flags })) ∧
     exec (.smov ty sd sa ccw) s = .next (done a false false) ∧
     (∀ v : BitVec 16, exec (.smovi ty sd sa v ccw) s = .next (done
       (if ty = .raw then ((scal s1 sa).toNat * 2 ^ 16 + v.toNat) % 2 ^ 64 else scalarB s1 ty (.imm v)) false false)) ∧
     (∀ c, exec (.ssel c ty sd sa b2) s = .next (scalarDone s1 ty sd 0 (if condHolds s1.w c then a else b) false false)) ∧
     exec (.sclz ty sd sa ccw) s = .next (done (w - bitLen a) false false) ∧
     exec (.spopc ty sd sa ccw) s = .next (done ((List.range w).countP fun i => a.testBit i) false false) ∧
     (let pos := b % 64
      let len := min (b / 64 % 128) 64
      let wide : Int := if isSigned ty then signedOf w a else a
      let field := (wide / 2 ^ pos % 2 ^ len).toNat
      exec (.sbfe { ty := ty, sd := sd, sa := sa, b := b2, ccw := ccw }) s = .next (done
        (if len = 0 then 0 else ((if isSigned ty then signedOf len field else (field : Int)) % 2 ^ w).toNat) false false)))

/-! ## Vector integer -/

/-- R203, R208, Table 09-3: the integer arithmetic and logic: the exact value modulo 2^w, or clamped with SAT, in the active lanes. -/
def Obligations.VectorIntegerArithmetic : Prop :=
  ∀ (s s1 : State) (h : VHead) (a b c : Src) (x y z : Row), InTurn s s1 → tyScalar h.ty = true → readA s1 a h.ty h.ty = .ok x →
    let m := active s1 h.ms
    let i (l : Nat) : Int := vInt h.ty (at_ x l).1
    let j (l : Nat) : Int := vInt h.ty (at_ y l).1
    let one (ins : Instr) (f : Nat → Word) : Prop := Pushes ins s s1 (typedRow s1 h h.ty f x)
    one (.not h a) (fun l => ~~~(at_ x l).1) ∧
    (isInt h.ty = true → ∀ sat, one (.ineg h sat a) (fun l => intResult h.ty sat (-i l)) ∧
      one (.iabs h sat a) (fun l => intResult h.ty sat (i l).natAbs)) ∧
    (readB s1 m b h.ty h.ty = .ok y →
      one (.and h a b) (fun l => (at_ x l).1 &&& (at_ y l).1) ∧
      one (.or h a b) (fun l => (at_ x l).1 ||| (at_ y l).1) ∧
      one (.xor h a b) (fun l => (at_ x l).1 ^^^ (at_ y l).1) ∧
      (isInt h.ty = true →
        (∀ sat, one (.iadd h sat a b) (fun l => intResult h.ty sat (i l + j l)) ∧
          one (.isub h sat a b) (fun l => intResult h.ty sat (i l - j l)) ∧
          one (.imul h sat a b) (fun l => intResult h.ty sat (i l * j l)) ∧
          (readB s1 m c h.ty h.ty = .ok z →
            one (.imad h sat a b c) (fun l => intResult h.ty sat (i l * j l + vInt h.ty (at_ z l).1)))) ∧
        one (.imulh h a b) (fun l => intResult h.ty false (i l * j l / 2 ^ intWidth h.ty)) ∧
        one (.imin h a b) (fun l => intResult h.ty false (min (i l) (j l))) ∧
        one (.imax h a b) (fun l => intResult h.ty false (max (i l) (j l)))))

/-- R209, Table 09-4: shifts, rotate, bit fields and counts, for every amount.
R210: ICMP pushes bool in TY's signedness, SEL the chosen operand, with its tag when TY is raw, LEA the address with tag addr. -/
def Obligations.VectorShiftsFieldsAndCompares : Prop :=
  (∀ (s s1 : State) (h : VHead) (a b c : Src) (x y z : Row), InTurn s s1 → tyScalar h.ty = true → readA s1 a h.ty h.ty = .ok x →
     let m := active s1 h.ms
     let w := intWidth h.ty
     let v (l : Nat) : Nat := vNat h.ty (at_ x l).1
     let out (ins : Instr) (t : Ty) (f : Nat → Nat) : Prop := Pushes ins s s1 (typedRow s1 h t (fun l => BitVec.ofNat 64 (f l)) x)
     out (.popc h a) .n32 (fun l => (List.range w).countP fun i => (v l).testBit i) ∧
     out (.clz h a) .n32 (fun l => w - bitLen (v l)) ∧
     out (.brev h a) h.ty (fun l => ((List.range w).filter fun i => (v l).testBit (w - 1 - i)).foldl (fun n i => n + 2 ^ i) 0) ∧
     (readB s1 m b .n32 h.ty = .ok y →
       let n (l : Nat) : Nat := (at_ y l).1.toNat % 2 ^ 32
       let pos (l : Nat) : Nat := (at_ y l).1.toNat % 256
       let len (l : Nat) : Nat := (at_ y l).1.toNat / 256 % 256
       (∀ sat, Pushes (.shl h sat a b) s s1
         (typedRow s1 h h.ty (fun l => intResult h.ty sat (vInt h.ty (at_ x l).1 * 2 ^ n l)) x)) ∧
       out (.shr h a b) h.ty (fun l => if w ≤ n l then 0 else v l / 2 ^ n l) ∧
       out (.sar h a b) h.ty (fun l => (signedOf w (v l) / 2 ^ min (n l) w % 2 ^ w).toNat) ∧
       out (.rotl h a b) h.ty (fun l => (v l * 2 ^ (n l % w) + v l / 2 ^ (w - n l % w)) % 2 ^ w) ∧
       out (.bfe h a b) h.ty (fun l =>
         if len l = 0 then 0
         else
           let wide : Int := if isSigned h.ty then signedOf w (v l) else v l
           let f := (wide / 2 ^ pos l % 2 ^ len l).toNat
           ((if isSigned h.ty then signedOf (len l) f else (f : Int)) % 2 ^ w).toNat)) ∧
     (readB s1 m b h.ty h.ty = .ok y → readB s1 m c .n32 h.ty = .ok z →
       let pos (l : Nat) : Nat := (at_ z l).1.toNat % 256
       let len (l : Nat) : Nat := min ((at_ z l).1.toNat / 256 % 256) (w - pos l)
       out (.bfi h a b c) h.ty (fun l => ((List.range w).filter fun i =>
         if pos l ≤ i ∧ i < pos l + len l then (vNat h.ty (at_ y l).1).testBit (i - pos l) else (v l).testBit i).foldl
           (fun n i => n + 2 ^ i) 0))) ∧
  (∀ (s s1 : State) (h : VHead) (a b c : Src) (x y z : Row), InTurn s s1 →
     let m := active s1 h.ms
     (readA s1 a h.ty h.ty = .ok x → readB s1 m b h.ty h.ty = .ok y →
       let holds (cc : Cmp) (p : Int → Int → Prop) [DecidableRel p] : Prop := Pushes (.icmp h cc a b) s s1
         (typedRow s1 h .bool (fun l => if p (vInt h.ty (at_ x l).1) (vInt h.ty (at_ y l).1) then 1 else 0) x)
       holds .eq (· = ·) ∧ holds .ne (· ≠ ·) ∧ holds .lt (· < ·) ∧ holds .le (· ≤ ·) ∧ holds .gt (· > ·) ∧ holds .ge (· ≥ ·)) ∧
     (readA s1 a h.ty h.ty (h.ty == .raw) = .ok x → readB s1 m b h.ty h.ty (h.ty == .raw) = .ok y →
       readB s1 m c .bool h.ty = .ok z →
       let chosen (l : Nat) : Val := if (at_ z l).1 ≠ 0 then at_ x l else at_ y l
       Pushes (.sel h a b c) s s1 (resultRow s1 h.ms h.mz (fun _ => h.ty)
         (fun l => if h.ty = .raw then chosen l else (formOf h.ty (chosen l).1, h.ty)) (at_ x))) ∧
     (readA s1 a .addr .addr = .ok x → readB s1 m b .i64 .addr = .ok y → readB s1 m c .n32 .addr = .ok z →
       Pushes (.lea h.ms h.mz a b c) s s1 (typedRow s1 { h with ty := .addr } .addr
         (fun l => (at_ x l).1 + (at_ y l).1 * BitVec.ofNat 64 ((at_ z l).1.toNat % 2 ^ 32)) x)))

/-! ## Vector floating point, conversion, special functions -/

/-- R206, R211: FADD, FSUB, FMUL, FFMA, FRND and FSCALE round the exact value once; the flags stick or trap.
R212 to R214: FMIN and FMAX choose, FCMP pushes bool with its flags, FABS clears the sign bit and FCLASS names the class, both
without flags. -/
def Obligations.FloatArithmeticAndCompares : Prop :=
  (∀ (s s1 : State) (h : VHead) (rm : Rm) (na nb nc : Bool) (a b c : Src) (x y z : Row), InTurn s s1 → readA s1 a h.ty h.ty = .ok x →
     let m := active s1 h.ms
     let ftz := s1.w.mode.getLsbD 2
     let u := vFloat s1 h.ty na x
     let out (i : Instr) (f : Nat → Word × Flags) : Prop := FloatPushes i s s1 h h.ty f x
     out (.frnd h rm na a) (fun l => fRnd h.ty rm ftz (u l)) ∧
     (readB s1 m b .i32 h.ty = .ok y →
       out (.fscale h rm na a b) (fun l => fScale h.ty rm ftz (u l) (vInt .i32 (at_ y l).1))) ∧
     (readB s1 m b h.ty h.ty = .ok y →
       let v := vFloat s1 h.ty nb y
       out (.fadd h rm na nb a b) (fun l => fAdd h.ty rm ftz (u l) (v l)) ∧
       out (.fsub h rm na nb a b) (fun l => fAdd h.ty rm ftz (u l) (subtrahend (v l))) ∧
       out (.fmul h rm na nb a b) (fun l => fMul h.ty rm ftz (u l) (v l)) ∧
       (readB s1 m c h.ty h.ty = .ok z →
         out (.ffma h rm na nb nc a b c) (fun l => fFma h.ty rm ftz (u l) (v l) (vFloat s1 h.ty nc z l))))) ∧
  (∀ (s s1 : State) (h : VHead) (na nb : Bool) (a b : Src) (x y : Row), InTurn s s1 → readA s1 a h.ty h.ty = .ok x →
     let u := vFloat s1 h.ty na x
     let v := vFloat s1 h.ty nb y
     Pushes (.fabs h a) s s1 (typedRow s1 h h.ty (fun l => (at_ x l).1 &&& ~~~BitVec.ofNat 64 (2 ^ (fpWidth h.ty - 1))) x) ∧
     Pushes (.fclass h a) s s1 (typedRow s1 h .n32 (fun l => fClass h.ty (at_ x l).1) x) ∧
     (readB s1 (active s1 h.ms) b h.ty h.ty = .ok y →
       FloatPushes (.fmin h na nb a b) s s1 h h.ty (fun l => fMinMax h.ty false (u l) (v l)) x ∧
       FloatPushes (.fmax h na nb a b) s s1 h h.ty (fun l => fMinMax h.ty true (u l) (v l)) x ∧
       ∀ cc, FloatPushes (.fcmp h cc a b) s s1 h .bool (fun l =>
         let r := fCmp cc (vFloat s1 h.ty false x l) (vFloat s1 h.ty false y l)
         (if r.1 then 1 else 0, r.2)) x))

/-- R74, R77, R78, R211: of finite operands FADD, FSUB, FMUL, FFMA, FDIV, FSQRT, FRND, FSCALE and the conversions give the exact real
result rounded once; ftz puts a zero in the place of a subnormal result (R76).
R82: the records of QSTORE: an S8 scale is the least at which the largest magnitude needs no saturation, a Q4N step the least whose block
scale reaches it, each one lower where the last pass lost too many; elements are rounded once, and those lost to zero are counted.
R211 to R214, R72: the cases the spec lists apart from rounding: invalid operations give the canonical NaN and invalid, a
division of a nonzero number by zero gives infinity and divide by zero, zeros of opposite sign cancel to +0 or in rdn −0, −0 is less
than +0 in FMIN and equal to it in FCMP, every comparison but ne and un is false of a NaN, and FCLASS sets one of ten bits.
Table 09-6: the values of the special functions at ±0 and ±∞, with their flags, in every type that has them. -/
def Obligations.ListedFloatValues : Prop :=
  ((∀ (t : Ty) (rm : Rm) (z sa sb : Bool) (e e' : Int) (m : Nat) (_ : m ≠ 0),
     let nan := (canonNaN t, fIV)
     fAdd t rm z (.inf sa) (.inf !sa) = nan ∧ fMul t rm z (.fin sa 0 e) (.inf sb) = nan ∧ fMul t rm z (.inf sa) (.fin sb 0 e) = nan ∧
     fDiv t rm z (.inf sa) (.inf sb) = nan ∧ fDiv t rm z (.fin sa 0 e) (.fin sb 0 e') = nan ∧ fSqrt t rm z (.fin true m e) = nan ∧
     fDiv t rm z (.fin sa m e) (.fin sb 0 e') = (packInf t (sa != sb), fDZ) ∧
     fSqrt t rm z (.fin sa 0 e) = (packBits t sa 0 0, 0) ∧
     fAdd t rm z (.fin false 0 e) (.fin true 0 e') = (packBits t (rm == .rdn) 0 0, 0) ∧
     fRnd t rm z (.inf sa) = (packInf t sa, 0)) ∧
   (∀ (t : Ty) (e e' : Int), fMinMax t false (.fin true 0 e) (.fin false 0 e') = (repack t (.fin true 0 e), 0) ∧
     fMinMax t true (.fin true 0 e) (.fin false 0 e') = (repack t (.fin false 0 e'), 0) ∧
     fCmp .eq (.fin true 0 e) (.fin false 0 e') = (true, 0)) ∧
   (∀ (q s : Bool) (f : Nat) (b : FVal), (∀ s' f', b ≠ .nan s' false f') →
     (fCmp .eq (.nan s q f) b).1 = false ∧ (fCmp .lt (.nan s q f) b).1 = false ∧ (fCmp .ge (.nan s q f) b).1 = false ∧
     (fCmp .ne (.nan s q f) b).1 = true ∧ (fCmp .un (.nan s q f) b).1 = true ∧ (fCmp .ord (.nan s q f) b).1 = false ∧
     fCmp .lt (.nan s q f) b = (false, fIV) ∧ fCmp .eq (.nan s q f) b = (false, if q then 0 else fIV)) ∧
   (∀ (t : Ty) (v : Word), isFloat t = true → ∃ k, k < 10 ∧ fClass t v = BitVec.ofNat 64 (2 ^ k))) ∧
  (∀ (t : Ty) (z : Bool), tySpecial t = true →
     let zero (s : Bool) : Word := packBits t s 0 0
     let one (s : Bool) : Word := packBits t s (bias t) 0
     let nan := (canonNaN t, fIV)
     (∀ s, special .rcp t z (zero s) = (packInf t s, fDZ) ∧ special .rsq t z (zero s) = (packInf t s, fDZ) ∧
       special .exp2 t z (zero s) = (one false, 0) ∧ special .log2 t z (zero s) = (packInf t true, fDZ) ∧
       special .sin t z (zero s) = (zero s, 0) ∧ special .cos t z (zero s) = (one false, 0) ∧
       special .tanh t z (zero s) = (zero s, 0) ∧ special .rcp t z (packInf t s) = (zero s, 0) ∧
       special .sin t z (packInf t s) = nan ∧ special .cos t z (packInf t s) = nan ∧ special .tanh t z (packInf t s) = (one s, 0)) ∧
     special .rsq t z (packInf t false) = (zero false, 0) ∧ special .rsq t z (packInf t true) = nan ∧
     special .exp2 t z (packInf t false) = (packInf t false, 0) ∧ special .exp2 t z (packInf t true) = (zero false, 0) ∧
     special .log2 t z (packInf t false) = (packInf t false, 0) ∧ special .log2 t z (packInf t true) = nan) ∧
  (∀ (t : Ty) (rm : Rm) (sa sb sc : Bool) (ma mb mc : Nat) (ea eb ec : Int), t ∈ [Ty.f64, .f32, .f16, .bf16] → rm ≠ .sr →
     ma < 2 ^ 53 → mb < 2 ^ 53 →
     let a := FVal.fin sa ma ea
     let b := FVal.fin sb mb eb
     let x := ratOf sa ma ea
     let y := ratOf sb mb eb
     let root := fSqrt t rm false a
     RoundsOnce t rm (x + y) (fAdd t rm false a b) ∧ RoundsOnce t rm (x - y) (fAdd t rm false a (subtrahend b)) ∧
     RoundsOnce t rm (x * y) (fMul t rm false a b) ∧ RoundsOnce t rm (x * y + ratOf sc mc ec) (fFma t rm false a b (.fin sc mc ec)) ∧
     (mb ≠ 0 → RoundsOnce t rm (x / y) (fDiv t rm false a b)) ∧
     (sa = false → root.2 &&& fOF = 0 → RoundsTo t rm (fun v => v < 0 ∨ v * v ≤ x) (fun v => 0 ≤ v ∧ x ≤ v * v) root.1) ∧
     (∃ n : Int, RoundsInt rm x n ∧ ((fRnd t rm false a).2 &&& fOF = 0 → RoundsTo t rm (· ≤ (n : Rat)) ((n : Rat) ≤ ·) (fRnd t rm false a).1)) ∧
     (-1200 ≤ ea → ea ≤ 1200 → ∀ n : Int, RoundsOnce t rm (x * (2 : Rat) ^ n) (fScale t rm false a n)) ∧
     ∀ s m e, unpack t (fAdd t rm false a b).1 = .fin s m e → (fAdd t rm true a b).1 =
       if 0 < m ∧ m < 2 ^ fracBits t ∧ t ≠ .f64 then packBits t s 0 0 else (fAdd t rm false a b).1) ∧
  (∀ (t : Ty) (adaptive : Bool) (prev thr : Nat) (xs : List FVal), t = .e4m3 ∨ t = .e5m2 → xs.length = 32 →
     let r := s8Record t adaptive prev thr xs
     let top : Rat := if t = .e4m3 then 448 else 57344
     let least : Rat := if t = .e4m3 then 1 / 512 else 1 / 65536
     let scale (e : Nat) : Rat := (2 : Rat) ^ ((e : Int) - 127)
     let x (j : Nat) : Rat := ratVal (xs.getD j nanF)
     ((∃ v ∈ xs, isFin v = false) → r = (List.replicate 32 ((canonNaN t).setWidth 8) ++ [255], 0)) ∧
     ((∀ v ∈ xs, isFin v = true) → r.1.length = 33 ∧ ∃ e0 e : Nat, e0 ≤ 254 ∧ r.1.getD 32 0 = BitVec.ofNat 8 e ∧
       ((∀ v ∈ xs, ratVal v = 0) → e0 = 127) ∧
       ((∃ v ∈ xs, ratVal v ≠ 0) → (e0 < 254 → ∀ v ∈ xs, absRat (ratVal v) ≤ top * scale e0) ∧
         (0 < e0 → ∃ v ∈ xs, top * scale (e0 - 1) < absRat (ratVal v))) ∧
       e = (if adaptive = true ∧ thr < prev ∧ 0 < e0 then e0 - 1 else e0) ∧
       (∀ j, j < 32 → RoundsTo t .rne (fun v => v ≤ x j / scale e) (fun v => x j / scale e ≤ v) (zx64 (r.1.getD j 0))) ∧
       r.2 = min 255 (xs.countP fun v => decide (ratVal v ≠ 0 ∧ absRat (ratVal v) < scale e * least / 2)))) ∧
  (∀ (m : Nat) (ex : Int) (adaptive : Bool) (prev thr : Nat) (xs : List FVal), xs.length = 64 → (∀ v ∈ xs, isFin v = true) →
     let sup := ratOf false m ex
     (∀ v ∈ xs, absRat (ratVal v) ≤ sup) →
     let r := q4nRecord (.fin false m ex) adaptive prev thr xs
     let value (c : Nat) : Rat := (q4nValue c : Rat) / 1024
     let code (j : Nat) : Nat := (r.1.getD (j / 2) 0).toNat / (if j % 2 = 0 then 1 else 16) % 16
     r.1.length = 33 ∧ ∃ q0 q : Nat, q0 ≤ 255 ∧ r.1.getD 32 0 = BitVec.ofNat 8 q ∧ (sup = 0 → q0 = 0) ∧
       (∀ v ∈ xs, 256 * absRat (ratVal v) ≤ ((q0 : Rat) + 1) * sup) ∧ (0 < q0 → ∃ v ∈ xs, (q0 : Rat) * sup < 256 * absRat (ratVal v)) ∧
       q = (if adaptive = true ∧ thr < prev ∧ 0 < q0 then q0 - 1 else q0) ∧
       let scale : Rat := sup * ((q : Rat) + 1) / 256
       (∀ j, j < 64 →
         let x := ratVal (xs.getD j nanF)
         let far (c : Nat) : Rat := absRat (value c - x / scale)
         (scale ≠ 0 → ∀ k, k < 16 → far (code j) ≤ far k ∧ (far (code j) = far k → absRat (value (code j)) ≤ absRat (value k))) ∧
         (x = 0 → code j = if signOf (xs.getD j nanF) then 7 else 8)) ∧
       r.2 = min 255 (xs.countP fun v => decide (ratVal v ≠ 0 ∧ absRat (ratVal v) < scale * (43 / 1024) / 2))) ∧
  (∀ (rm : Rm) (i : Bool) (s : Bool) (m : Nat) (e : Int), rm ≠ .sr →
     let x := ratOf s m e
     (∀ t, isFloat t = true ∨ t = .e4m3 ∨ t = .e5m2 → RoundsOnce t rm x (convTo t rm 0 false i (.fin s m e))) ∧
     (∀ t, isInt t = true → ∃ n : Int, RoundsInt rm x n ∧ (convTo t rm 0 false i (.fin s m e)).1 = intResult t true n) ∧
     let r := convTo .q4n rm 0 false i (.fin s m e)
     let q (c : Nat) : Rat := (q4nValue c : Rat) / 1024
     let c := r.1.toNat
     m ≠ 0 → c < 16 ∧ (r.2 = 0 ↔ ∃ k, k < 16 ∧ q k = x) ∧ (r.2 = 0 ∨ r.2 = fNX) ∧
       (rm = .rne → ∀ k, k < 16 → (q c - x) * (q c - x) ≤ (q k - x) * (q k - x) ∧
         ((q c - x) * (q c - x) = (q k - x) * (q k - x) → q c * q c ≤ q k * q k)) ∧
       (rm = .rdn ∨ rm = .rtz ∧ s = false → (43 / 1024 ≤ x ∨ rm = .rdn ∧ -1 ≤ x) → q c ≤ x ∧ ∀ k, k < 16 → q k ≤ x → q k ≤ q c) ∧
       (rm = .rup ∨ rm = .rtz ∧ s = true → (x ≤ -43 / 1024 ∨ rm = .rup ∧ x ≤ 1) → x ≤ q c ∧ ∀ k, k < 16 → x ≤ q k → q c ≤ q k))

/-- R165, R211, R217: FDIV, FSQRT and the special functions push a pending row at issue; results and flags come at completion.
R75, R207, R215, R216, R219: CVT and CVTSR convert; CVT with sr draws in every active lane, advances its counter, and seals;
CVTSR takes its value from operand B and advances nothing. -/
def Obligations.LongFloatsAndConversions : Prop :=
  (∀ (s s1 : State) (la : BitVec 4) (h : VHead) (rm : Rm) (na nb : Bool) (a b : Src) (x y : Row), InTurn s s1 →
     readA s1 a h.ty h.ty = .ok x →
     let ftz := s1.w.mode.getLsbD 2
     let u := vFloat s1 h.ty na x
     let fn (i : Instr) (k : SpecialFn) : Prop := FloatPends i s s1 la h h.ty (fun l => special k h.ty ftz (at_ x l).1) x
     FloatPends (.fsqrt la h rm na a) s s1 la h h.ty (fun l => fSqrt h.ty rm ftz (u l)) x ∧
     (readB s1 (active s1 h.ms) b h.ty h.ty = .ok y →
       FloatPends (.fdiv la h rm na nb a b) s s1 la h h.ty (fun l => fDiv h.ty rm ftz (u l) (vFloat s1 h.ty nb y l)) x) ∧
     fn (.frcp la h a) .rcp ∧ fn (.frsq la h a) .rsq ∧ fn (.fexp2 la h a) .exp2 ∧ fn (.flog2 la h a) .log2 ∧
     fn (.fsin la h a) .sin ∧ fn (.fcos la h a) .cos ∧ fn (.ftanh la h a) .tanh) ∧
  (∀ (s s1 : State) (h : VHead) (rm : Rm) (dty : Ty) (a b : Src) (x y : Row), InTurn s s1 → readA s1 a h.ty h.ty = .ok x →
     let m := active s1 h.ms
     let ftz := s1.w.mode.getLsbD 2
     (rm ≠ .sr → FloatPushes (.cvt h rm dty a) s s1 h dty (fun l => convert h.ty dty rm 0 ftz (at_ x l).1) x) ∧
     (readB s1 m b .n32 h.ty = .ok y →
       FloatPushes (.cvtsr h dty a b) s s1 h dty (fun l => convert h.ty dty .sr ((at_ y l).1.setWidth 32) ftz (at_ x l).1) x) ∧
     (let f (l : Nat) : Word × Flags := convert h.ty dty .sr (srDraw s1 l) ftz (at_ x l).1
      let fl := lanes32.map fun l => (f l).2
      fpTrap s1 m fl = none → ∃ t, exec (.cvt h .sr dty a) s = .next (nextInstr (sealIf (advanceRng t m) m)) ∧
        PushedRow (stickFlags s1 (unionFlags m fl)) t (typedRow s1 h dty (fun l => (f l).1) x)))

/-- R218, R220, R221: RNG pushes the generator's block of each active lane and advances its counter, sealing when a lane is active;
BSINIT writes window and cursor, its operand A checked in the active lanes alone (log entry 25, DEDUCED); BSRD reads a field, keeps the
window unless it crosses bit 63, and moves the cursor. -/
def Obligations.RandomAndBitStreams : Prop :=
  ∀ (s s1 : State), InTurn s s1 →
    (∀ (h : VHead) (k : BitVec 5),
      let m := active s1 h.ms
      let key : Four := (fld (scal s1 k) 0 32, fld (scal s1 k) 32 32, fld (scal s1 (k + 1)) 0 32, fld (scal s1 (k + 1)) 32 32)
      ∃ t, exec (.rng h k) s = .next (nextInstr (sealIf (advanceRng t m) m)) ∧
        PushedRow s1 t (typedRow s1 h h.ty
          (fun l => rngBlock (lane s1 l).rngctr (BitVec.ofNat 32 (l + 32 * s1.w.num)) 0 key)
          (lanes32.map fun _ => (scal s1 k, .raw)))) ∧
    (∀ (ms : BitVec 3) (a b : Src) (n : BitVec 5) (x y : Row),
      readB s1 (active s1 ms) a .raw .raw = .ok x → readB s1 (active s1 ms) b .n32 .raw = .ok y →
      (frameSize s1 ≤ n.toNat + 1 → ∃ k, Traps (.bsinit ms a b n) s 0x041 k) ∧
      (n.toNat + 1 < frameSize s1 → ∃ t, exec (.bsinit ms a b n) s = .next (nextInstr t) ∧ t = { s1 with w := t.w } ∧
        t.w = { s1.w with lanes := t.w.lanes } ∧ ∀ l, l < s1.w.lanes.length → lane t l =
          if inMask (active s1 ms) l then { lane s1 l with
            frame := setAt (setAt (lane s1 l).frame n.toNat (valued ((at_ x l).1, .raw))) (n.toNat + 1)
              (valued (BitVec.ofNat 64 (min ((at_ y l).1.toNat % 2 ^ 32) 64), .n32)) }
          else lane s1 l)) ∧
    (∀ (ms : BitVec 3) (mz : Bool) (n : BitVec 5) (b c : Src) (win u y z : Row),
      n.toNat + 1 < frameSize s1 → readA s1 (.frame n) .raw .n32 = .ok win →
      readB s1 (active s1 ms) (.frame (n + 1)) .n32 .n32 = .ok u → readB s1 (active s1 ms) b .n32 .n32 = .ok y →
      readB s1 (active s1 ms) c .raw .n32 = .ok z →
      (∀ l, inMask (active s1 ms) l = true → (at_ u l).1.toNat % 2 ^ 32 ≤ 64) →
      let width (l : Nat) : Nat := ((at_ y l).1.toNat % 2 ^ 32 + 31) % 32 + 1
      let cursor (l : Nat) : Nat := (at_ u l).1.toNat % 2 ^ 32
      let stays (l : Nat) : Bool := decide (cursor l + width l ≤ 64)
      let field (l : Nat) : Nat := if stays l then (at_ win l).1.toNat / 2 ^ cursor l % 2 ^ width l
        else (at_ win l).1.toNat / 2 ^ cursor l + (at_ z l).1.toNat % 2 ^ (cursor l + width l - 64) * 2 ^ (64 - cursor l)
      ∃ t t', exec (.bsrd ms mz n b c) s = .next (nextInstr t') ∧
        PushedRow s1 t (resultRow s1 ms mz (fun _ => .n32) (fun l => (BitVec.ofNat 64 (field l), .n32)) (at_ win)) ∧
        t' = { t with w := { t.w with lanes := t'.w.lanes } } ∧
        ∀ l, l < s1.w.lanes.length → lane t' l = if inMask (active s1 ms) l then { lane t l with
            frame := setAt (if stays l then (lane s1 l).frame else setAt (lane s1 l).frame n.toNat (valued ((at_ z l).1, .raw)))
              (n.toNat + 1)
              (valued (BitVec.ofNat 64 (if stays l then cursor l + width l else cursor l + width l - 64), .n32)) }
          else lane t l)

/-! ## Lane exchange and masks -/

/-- R222 to R224: SHFL takes operand A of the lane that its rule names, or of the lane itself where that is no member; REDUX gives each
active lane its tile's result and SCAN the result of the lanes before it; all three push a pending row. -/
def Obligations.LaneExchangePends : Prop :=
  ∀ (s s1 : State) (la : BitVec 4) (h : VHead) (a b : Src) (x y : Row), InTurn s s1 →
    let m := active s1 h.ms
    let w := s1.w.tile
    (∀ op, readA s1 a h.ty h.ty (h.ty == .raw) = .ok x → readB s1 m b .n32 h.ty = .ok y →
      let n (l : Nat) : Nat := (at_ y l).1.toNat % 2 ^ 32
      let i (l : Nat) : Nat := l % w
      let named (l : Nat) : Nat := match op with
        | .idx => l - i l + n l % w
        | .up => if n l ≤ i l then l - n l else l
        | .down => if i l + n l < w then l + n l else l
        | .xor => l - i l + (i l ^^^ n l) % w
      let from' (l : Nat) : Val := at_ x (if inMask (members s1) (named l) then named l else l)
      Pends (.shfl la h op a b) s s1 la (PendRes.of [resultRow s1 h.ms h.mz (fun _ => h.ty)
        (fun l => if h.ty = .raw then from' l else (formOf h.ty (from' l).1, h.ty)) (at_ x)] .other) 1) ∧
    (∀ op rm, readA s1 a h.ty h.ty = .ok x →
      let z := s1.w.mode.getLsbD 2
      let tile (l : Nat) : List Nat := (List.range w).map fun k => l - l % w + k
      let input (l : Nat) : List (Option Word) := (tile l).map fun j => if inMask m j then some (at_ x j).1 else none
      let before (l : Nat) : List (Option Word) := (tile l).map fun j =>
        if l - l % w < j ∧ inMask m (j - 1) then some (at_ x (j - 1)).1 else none
      let redux (l : Nat) := reduxTree (redNode h.ty op rm z) 5 (input l)
      let scan (xs : List (Option Word)) := scanTree (redNode h.ty op rm z) xs
      FloatPends (.redux la h op rm a) s s1 la h h.ty (fun l => ((redux l).1.getD (redIdentity h.ty op), (redux l).2)) x ∧
      FloatPends (.scan la h false op rm a) s s1 la h h.ty
        (fun l => (((scan (input l)).1.getD (l % w) none).getD (redIdentity h.ty op), (scan (input l)).2)) x ∧
      FloatPends (.scan la h true op rm a) s s1 la h h.ty
        (fun l => (((scan (before l)).1.getD (l % w) none).getD (redIdentity h.ty op), (scan (before l)).2)) x)

/-- R225 to R227: VOTE, MATCH and MSET write mask bits of the slot's members alone: an active lane's bit by the operation over the
lanes active in its tile, a masked-off member's bit 0; an empty active mask writes nothing.
R228, Table 09-9, R59: the whole-mask instructions; m0 reads the slot's membership, and a word that names it as destination traps
MASK_READONLY with the word. That operand A is checked in the active lanes alone is log entry 25, that MATCH compares low bits log entry
28 (both DEDUCED). -/
def Obligations.MaskInstructions : Prop :=
  (∀ (s s1 : State) (ms c : BitVec 3) (a : Src) (x : Row), InTurn s s1 → c ≠ 0 → c.toNat < s1.w.masks.length →
     let m := active s1 ms
     let w := s1.w.tile
     let tile (l : Nat) : List Nat := ((List.range w).map fun k => l - l % w + k).filter fun j => inMask m j
     let writes (i : Instr) (bit : Nat → Bool) : Prop :=
       (m = 0 → exec i s = .next (nextInstr s1)) ∧
       (m ≠ 0 → ∃ v, exec i s = .next (nextInstr (setMaskReg s1 c v)) ∧
         ∀ l, l < 32 → inMask v l = if inMask (members s1) l then inMask m l && bit l else inMask (maskReg s1 c) l)
     let on (l : Nat) : Bool := (at_ x l).1 != 0
     (readB s1 m a .bool .raw = .ok x → writes (.mset ms a c) on) ∧
     (readB s1 m a .bool .bool = .ok x →
       writes (.vote ms .conj a c) (fun l => (tile l).all on) ∧
       writes (.vote ms .disj a c) (fun l => (tile l).any on) ∧
       writes (.vote ms .same a c) (fun l => (tile l).all on || !(tile l).any on) ∧
       writes (.vote ms .each a c) on ∧
       writes (.vote ms .odd a c) (fun l => (tile l).countP on % 2 == 1)) ∧
     (∀ ty, readB s1 m a ty ty (ty == .raw) = .ok x →
       let y := lowBits ty x
       writes (.matchLanes ms ty .dup a c) (fun l => (tile l).any fun j => j != l && at_ y j == at_ y l) ∧
       writes (.matchLanes ms ty .same a c) (fun l => (tile l).all fun j => at_ y j == at_ y l) ∧
       writes (.matchLanes ms ty .lead a c) (fun l => (tile l).find? (fun j => at_ y j == at_ y l) == some l))) ∧
  (∀ (s s1 : State) (a b c : BitVec 3) (k : BitVec 5), InTurn s s1 →
     let m (n : BitVec 3) : LaneMask := if n = 0 then members s1 else s1.w.masks.getD n.toNat 0
     exec (.mand a b c) s = .next (nextInstr (setMaskReg s1 c (m a &&& m b))) ∧
     exec (.mor a b c) s = .next (nextInstr (setMaskReg s1 c (m a ||| m b))) ∧
     exec (.mxor a b c) s = .next (nextInstr (setMaskReg s1 c (m a ^^^ m b))) ∧
     exec (.mnot a c) s = .next (nextInstr (setMaskReg s1 c (~~~(m a)))) ∧
     exec (.mpopc a k) s = .next (nextInstr (setScal s1 k (BitVec.ofNat 64 ((List.range 32).countP fun i => (m a).getLsbD i)))) ∧
     exec (.mfirst a k) s = .next (nextInstr (setScal s1 k
       (BitVec.ofNat 64 (((List.range 32).find? fun i => (m a).getLsbD i).getD 32)))) ∧
     exec (.mfroms k c) s = .next (nextInstr (setMaskReg s1 c ((scal s1 k).setWidth 32))) ∧
     exec (.mtos a k) s = .next (nextInstr (setScal s1 k ((m a).setWidth 64)))) ∧
  ∀ (ms a b : BitVec 3) (k n : BitVec 5) (op : VoteOp) (rel : MatchOp),
    let refused (i : Instr) : Prop := ∃ w, encode i = some w ∧ decode false w = .error (0x044, w)
    refused (.mand a b 0) ∧ refused (.mor a b 0) ∧ refused (.mxor a b 0) ∧ refused (.mnot a 0) ∧ refused (.mfroms k 0) ∧
    refused (.mset ms (.age n) 0) ∧ refused (.vote ms op (.age n) 0) ∧ refused (.matchLanes ms .i32 rel (.age n) 0)

/-! ## Memory -/

/-- R230 to R235, R139: LD, LD2, LDB and LDA, whose operand and addresses pass their checks, push pending entries, two rows for LD2,
whose values are those that the lanes' accesses read; the result is ready unless a lane waits for pushed data or a token bucket holds its
request. Nothing but the block's L1, cached translations, counts, buckets and events changes besides the queue. Where the die lacks a line
the slot asks its home and waits (log entry 29). LDA waits for a release store of its location (R122), and acquires first. -/
def Obligations.LoadsPendTheirValues : Prop :=
  ∀ (s s1 : State) (m : MArgs) (a : Row), InTurn s s1 → readA s1 m.addr .addr m.ty = .ok a →
    let w := memWidth m.ty
    let rule (i : Instr) (s0 : State) (cp : Cp) (bd : Bound) (bounded : Bool) (n : Nat) : Prop :=
      (∀ c x, checkLanes s0 (active s1 m.ms) a m.off (w * n) 0 (w == 4 || w == 8) = .error (.trap c x) → Traps i s c x) ∧
      ∀ xs, checkLanes s0 (active s1 m.ms) a m.off (w * n) 0 (w == 4 || w == 8) = .ok xs →
        let s2 := cacheAll s0 xs
        let asks := loadAsks s2 bd bounded xs
        (asks ≠ [] → AsksHome i s asks) ∧
        (asks = [] →
          let acc := xs.foldl (loadLane s2 m.ty cp bd n s1.w.ridNext)
            { st := s2, rows := List.replicate n (lanes32.map fun _ => (0, (loadVal m.ty []).2)), waits := [], held := 0 }
          acc.st = loadFrame s1 acc.st ∧
          Pends i s acc.st m.la { PendRes.of (acc.rows.map fun r => mergeRow (active s1 m.ms) m.mz r a) .memory with
            ready := acc.waits.isEmpty && acc.held == 0, holds := acc.held, lineWaits := acc.waits
            host := maskOf fun l => xs.any fun x => x.lane == l && isHost x.addr } n ∧
          ∀ (i : Nat) x bs, i < n → xs = [x] → x.lane < 32 → loadBytes s2 (x.addr + i * w) x.attr w bd = .bytes bs →
            at_ (acc.rows.getD i []) x.lane = loadVal m.ty bs)
    (∀ cp, rule (.ld m cp) s1 cp { k := 0, stale := false } false 1 ∧ rule (.ld2 m cp) s1 cp { k := 0, stale := false } false 2) ∧
    (∀ k stale, rule (.ldb m k stale) s1 .dflt { k := k.toNat, stale := stale } true 1) ∧
    (∀ sc cp, (behindRelease s1 m = true → WaitsAt (.lda m sc cp) s .home) ∧
      (behindRelease s1 m = false → rule (.lda m sc cp) (if active s1 m.ms ≠ 0 ∧ invalidates s1 sc = true then dropL1 s1 else s1) cp
        { k := 0, stale := false } false 1))

/-- R15, R91, R120, R136, R139, R230, R232: where a load's bytes come from, and that reading changes no byte of memory. A line that the
block's L1 holds answers a page that is not rounded, by its package address and so for every alias; else the die's L2, where it holds the
line, with the current bytes where its copy is current, and of a rounded page one that is not too many rounds behind; a line that it does
not hold has to come from the home, whose byte is the current one where no die holds it modified. Host windows take the same path. The
warp's own stores in flight are seen over each. What a load puts into the L1 changes nothing else; asking a home changes no line and no
byte, and a line that its own die is home of is asked for by RD, once (log entry 29). -/
def Obligations.LoadsReadCoherentMemory : Prop :=
  (∀ (s : State) (k : Nat) (attr : BitVec 4) (n : Nat) (bd : Bound), roundedPage s k (rndAttr attr) = false →
    (∀ l, findL1 s.b (lineOf k) = some l → loadBytes s k attr n bd = .bytes (forward s k ((l.bytes.drop (k % 128)).take n))) ∧
    (findL1 s.b (lineOf k) = none →
      (findL2 s s.b.die (lineOf k) = none → loadBytes s k attr n bd = .missing) ∧
      ∀ l, findL2 s s.b.die (lineOf k) = some l →
        loadBytes s k attr n bd = .bytes (forward s k ((l.bytes.drop (k % 128)).take n)) ∧
        (LinesOk s → HoldsCurrent s s.b.die k → k % 128 + n ≤ 128 →
          loadBytes s k attr n bd = .bytes (forward s k (coherentBytes s k n))))) ∧
  (∀ (s : State) (d : Nat) (attr : BitVec 4) (bd : Bound) (line : Nat) (l : L2Line),
    roundedPage s (line * 128) (rndAttr attr) = true → findL2 s d line = some l →
    let e := dirFor s (line / 512) (rndAttr attr) (pshAttr attr)
    let m := (mirrorOf s d e.page).getD e.round
    let serves := l.modified = true ∨ bd.k = 31 ∨ (l.f - (m - BitVec.ofNat 32 bd.k)).toNat < 2 ^ 31
    (serves → readLine s d attr bd line = .bytes l.bytes) ∧
    (¬ serves → l.pending = true → bd.stale = true → e.push = true → readLine s d attr bd line = .waits) ∧
    (¬ serves → (l.pending = false ∨ bd.stale = false ∨ e.push = false) → readLine s d attr bd line = .missing)) ∧
  (∀ (s : State) (k : Nat), modifiedAt s (lineOf k) = none → onWayHome s (lineOf k) = none → coherentByte s k = readCell s.mem k) ∧
  (∀ (s : State) (k : Nat) (attr : BitVec 4) (cp : Cp) (bd : Bound),
    let t := fillFor s k attr cp bd
    t = { s with b := { s.b with l1 := t.b.l1 }, timers := t.timers } ∧ (cp = .nc ∨ roundedPage s k (rndAttr attr) = true → t = s)) ∧
  (∀ (s : State) (x : HomeAsk), x.write = false →
    let t := askHome s [x]
    t.w = s.w ∧ t.b = s.b ∧ t.mem = s.mem ∧ (∀ d, (getDie t d).l2 = (getDie s d).l2) ∧
    ((getDie s s.b.die).reads.contains (lineOf x.addr) = false → s.b.die < s.dies.length → homeOf x.addr = s.b.die →
      t.agenda = s.agenda ++ [.rd s.b.die (lineOf x.addr)] ∧ (getDie t s.b.die).reads.contains (lineOf x.addr) = true)) ∧
  (∀ bytes : List Byte, loadVal .sign bytes = (sx64 (fld (BitVec.ofNat 64 (ofBytes bytes)) 0 8 : BitVec 8), .i32) ∧
    loadVal .bool bytes = (if ofBytes bytes % 2 ^ 64 = 0 then 0 else 1, .bool) ∧
    (∀ t, t ≠ .sign → t ≠ .bool → loadVal t bytes = (formOf t (BitVec.ofNat 64 (ofBytes bytes)), t)))

/-- R231 to R235, R33, R124: ST, ST2 and STL compute each active lane's address as a load does and hold its bytes; they put them in
flight and leave every byte of memory as it was until the access performs (log entry 29), ST2 with the field one above DATA at the lower
address; where lanes write one byte the highest-numbered of them does (R119); STL waits until the member lanes' earlier accesses have
taken place. SST stores bits of s[SD], for the lowest member lane (log entry 45). -/
def Obligations.StoresGoInFlight : Prop :=
  ∀ (s s1 : State) (m : MArgs) (data : Src) (cp : Cp) (a v : Row), InTurn s s1 →
    readB s1 (active s1 m.ms) m.addr .addr m.ty = .ok a →
    readB s1 (active s1 m.ms) data (dataTag m.ty) m.ty (m.ty == .raw) = .ok v →
    let w := memWidth m.ty
    let cell (y : Row) (up : Nat) (x : LaneAddr) : AccessCell :=
      { lane := x.lane, va := x.va + BitVec.ofNat 64 up, addr := x.addr + up, attr := x.attr, bytes := storeBytes m.ty (at_ y x.lane).1 }
    let InFlight (i : Instr) (s0 : State) (sync : Bool) (cells : List AccessCell) : Prop :=
      ∃ t, exec i s = .next (nextInstr t) ∧ Issued s0 t sync cells
    (∀ xs, checkLanes s1 (active s1 m.ms) a m.off w 1 (w == 4 || w == 8) = .ok xs →
      let cells := lastWriters (xs.map (cell v 0))
      InFlight (.st m data cp) (cacheAll s1 xs) false cells ∧
      ∀ sc, (cells = [] → exec (.stl m data sc cp) s = .next (nextInstr (cacheAll s1 xs))) ∧
        (cells ≠ [] → ¬ Released s1 → WaitsAt (.stl m data sc cp) s .home) ∧
        (cells ≠ [] → Released s1 → InFlight (.stl m data sc cp) (cacheAll s1 xs) true cells)) ∧
    (∀ c x, checkLanes s1 (active s1 m.ms) a m.off w 1 (w == 4 || w == 8) = .error (.trap c x) →
      Traps (.st m data cp) s c x ∧ ∀ sc, Traps (.stl m data sc cp) s c x) ∧
    (∀ u xs, readB s1 (active s1 m.ms) (nextSrc data) (dataTag m.ty) m.ty (m.ty == .raw) = .ok u →
      checkLanes s1 (active s1 m.ms) a m.off (2 * w) 1 true = .ok xs →
      InFlight (.st2 m data cp) (cacheAll s1 xs) false (lastWriters (xs.flatMap fun x => [cell u 0 x, cell v w x]))) ∧
    (∀ (ty : Ty) (sd sa : BitVec 5) (off : BitVec 16) x,
      let n := if intWidth ty = 32 then 4 else 8
      checkGlobal s1 (lowLane (members s1)) (addOff (scal s1 sa) off) n 1 true = .ok x →
      InFlight (.sst ty sd sa off) (cacheXlat s1 s1.b.vf x.va) false [⟨x.lane, x.va, x.addr, x.attr, toBytes n (scal s1 sd).toNat⟩])

/-- R119, R120, R394: a write of bytes of one line by a die that may write them changes those bytes and no other byte of memory, and leaves
lines and directory sound; one to a host window stands in host memory at once. A store in flight that its die may perform does so, after
the stores of its warp to its line that issued before it, of every lane: each byte of memory is then what the last of them wrote, or what
it was; accesses to other lines stay in flight. A store for which the die lacks the line or the sub-page sends RD or WREQ and stays. -/
def Obligations.StoresPerform : Prop :=
  (∀ (s : State) (d k : Nat) (bytes : List Byte), k % 128 + bytes.length ≤ 128 → bytes ≠ [] → MayStore s d k →
    let t := writeOwned s d k bytes
    LinesOk t ∧ Written s t k bytes ∧ canStore t d k = true ∧
    (isHost k = true → ∀ i, i < bytes.length → readCell t.mem (k + i) = bytes.getD i 0)) ∧
  (∀ (s : State) (id : Nat), (s.inflight.find? fun a => a.id == id) = none → exec (.accessPerformed id) s = .next s) ∧
  (∀ (s : State) (a : Access), (s.inflight.find? fun x => x.id == a.id) = some a →
    let older := s.inflight.filter (performsWith a)
    let t := performAccess s a
    (canStore s a.die a.cell.addr = true → exec (.accessPerformed a.id) s = .next (afterStore t a)) ∧
    (MayStore s a.die a.cell.addr →
      (∀ x ∈ older, x.die = a.die ∧ x.cell.addr % 128 + x.cell.bytes.length ≤ 128 ∧ x.cell.bytes ≠ []) →
      LinesOk t ∧ (∀ p, coherentByte t p = storedByte s older p) ∧ t.inflight = s.inflight.filter (fun x => !performsWith a x) ∧
      t.w = s.w ∧ t.agenda = s.agenda) ∧
    (canStore s a.die a.cell.addr = false → a.die = homeOf a.cell.addr → a.die = homeOfPage (pageOf a.cell.addr) →
      ∃ t, exec (.accessPerformed a.id) s = .next t ∧ t.inflight = s.inflight ∧ t.w = s.w ∧ t.mem = s.mem ∧ t.agenda = s.agenda ++
        (if holdsFresh s a.die a.cell.addr || (getDie s a.die).reads.contains (lineOf a.cell.addr) then []
          else [.rd a.die (lineOf a.cell.addr)]) ++
        (if mayWrite s a.die a.cell.addr || (getDie s a.die).wants.contains (pageOf a.cell.addr, subOf (lineOf a.cell.addr)) then []
          else [.wreq a.die (pageOf a.cell.addr) (subOf (lineOf a.cell.addr))])))

/-- R94 to R96, R231, R238: LDS pushes the lanes' bytes of scratch; STS writes them, in ascending lane order; ATOMS and ATOMSC put the
new value of each lane in the place of the old one and push the old ones; with no lane active they push operand A's row and do not
seal (R35, R54). A store over bytes that an engine has yet to read waits, and an atomic for the accesses that its ORD orders before it
(R121, R122). -/
def Obligations.ScratchAccesses : Prop :=
  ∀ (s s1 : State) (m : MArgs) (data : Src), InTurn s s1 →
    let act := active s1 m.ms
    let w := memWidth m.ty
    (∀ cp a xs, readA s1 m.addr .addr m.ty = .ok a → checkScratchLanes s1 act a m.off w 0 = .ok xs →
      Pends (.lds m cp) s s1 m.la (PendRes.of [mergeRow act m.mz (xs.foldl (fun row x =>
        setAt row x.lane (loadVal m.ty (readBytes (scratchOf s1 x.block) x.byte w)))
        (lanes32.map fun _ => (0, (loadVal m.ty []).2))) a] .memory) 1) ∧
    (∀ cp a v xs, readB s1 act m.addr .addr m.ty = .ok a → readB s1 act data (dataTag m.ty) m.ty (m.ty == .raw) = .ok v →
      checkScratchLanes s1 act a m.off w 1 = .ok xs →
      ((xs.any fun x => guarded s1 x.block x.byte w) = true → WaitsAt (.sts m data cp) s .guard) ∧
      ((xs.any fun x => guarded s1 x.block x.byte w) = false → exec (.sts m data cp) s = .next (nextInstr
        (xs.foldl (fun s x => modBlock s x.block fun b => { b with scratch := writeBytes b.scratch x.byte (storeBytes m.ty (at_ v x.lane).1) })
          s1)))) ∧
    (∀ (sc : Scope) (ord : Ord) a d c xs, readA s1 m.addr .addr m.ty = .ok a → readB s1 act data m.ty m.ty = .ok d →
      checkScratchLanes s1 act a m.off w 2 = .ok xs → (xs.any fun x => guarded s1 x.block x.byte w) = false → act ≠ 0 → OrdMet s1 ord →
      let rule (i : Instr) (f : Nat → Word → Word) : Prop :=
        let r := xs.foldl (fun (acc : Row × State) x =>
          let old : Word := BitVec.ofNat 64 (readNat (scratchOf acc.2 x.block) x.byte w)
          (setAt acc.1 x.lane (formOf m.ty old, m.ty), writeScratch acc.2 x.block x.byte (toBytes w (f x.lane old).toNat)))
          (rowOf m.ty fun _ => 0, s1)
        Pends i s (sealWarp (if (ord = .acq ∨ ord = .acqrel) ∧ sc ≠ .wp ∧ sc ≠ .bk ∧ 1 < gangSize r.2 then dropL1 r.2 else r.2)) m.la
          (PendRes.of [mergeRow act m.mz r.1 a] .memory) 1
      (∀ op, rule (.atoms m data sc ord op) fun l old => atomNew m.ty op old (at_ d l).1) ∧
      (∀ cmp, readB s1 act (.age cmp) m.ty m.ty = .ok c → rule (.atomsc m data sc ord cmp) fun l old =>
        if old.toNat % 2 ^ (8 * w) = (at_ c l).1.toNat % 2 ^ (8 * w) then (at_ d l).1 else old)) ∧
    (∀ (sc : Scope) (ord : Ord) a d c xs, readA s1 m.addr .addr m.ty = .ok a → readB s1 act data m.ty m.ty = .ok d →
      checkScratchLanes s1 act a m.off w 2 = .ok xs →
      let both (p : Instr → Prop) : Prop := (∀ op, p (.atoms m data sc ord op)) ∧
        ∀ cmp, readB s1 act (.age cmp) m.ty m.ty = .ok c → p (.atomsc m data sc ord cmp)
      ((xs.any fun x => guarded s1 x.block x.byte w) = true → both fun i => WaitsAt i s .guard) ∧
      ((xs.any fun x => guarded s1 x.block x.byte w) = false → act ≠ 0 → ¬ OrdMet s1 ord → both fun i => WaitsAt i s .home) ∧
      (act = 0 → both fun i => Pends i s s1 m.la (PendRes.of [mergeRow act m.mz (rowOf m.ty fun _ => 0) a] .memory) 1))

/-- R237, R238, R121, R122, R394: ATOM, ATOMC, ATOMF and RED: in ascending lane order each active lane's location takes its new value, and
all but RED push the old ones; with no lane active they change no location and do not seal (R35, R54). They resolve in one step, once the
accesses that their ORD orders before them have taken place, no own store in flight overlaps them, and the die holds the lines and owns
the sub-pages; else they wait, in the last case for the homes that they ask (log entry 29). The old value is then the current one, and no
other byte changes. -/
def Obligations.AtomicsReadModifyWrite : Prop :=
  (∀ (s s1 : State) (m : MArgs) (data : Src) (sc : Scope) (ord : Ord) (a d : Row), InTurn s s1 →
    readB s1 (active s1 m.ms) data m.ty m.ty = .ok d → active s1 m.ms ≠ 0 →
    let act := active s1 m.ms
    let w := memWidth m.ty
    let run (xs : List LaneAddr) (f : Nat → Word → Word) : Row × State := xs.foldl (fun (acc : Row × State) x =>
      let r := rmwGlobal acc.2 x w (f x.lane)
      (setAt acc.1 x.lane (formOf m.ty r.1, m.ty), r.2)) (rowOf m.ty fun _ => 0, cacheAll s1 xs)
    let after (t : State) : State :=
      sealWarp (if (ord = .acq ∨ ord = .acqrel) ∧ invalidates t sc = true then dropL1 t else t)
    let rule (push : Bool) (i : Instr) (window : Bool) (f : Nat → Word → Word) : Prop :=
      (∀ c x, checkLanes s1 act a m.off w 2 window = .error (.trap c x) → Traps i s c x) ∧
      ∀ xs, checkLanes s1 act a m.off w 2 window = .ok xs →
        let asks := atomAsks (cacheAll s1 xs) xs
        let past := xs.any fun x => storeOver s1 x.addr w
        (¬ OrdMet s1 ord ∨ past = true → WaitsAt i s .home) ∧
        (OrdMet s1 ord → past = false → asks ≠ [] → AsksHome i s asks) ∧
        (OrdMet s1 ord → past = false → asks = [] →
          if push then Pends i s (after (run xs f).2) m.la (PendRes.of [mergeRow act m.mz (run xs f).1 a] .memory) 1
          else exec i s = .next (nextInstr (after (run xs f).2)))
    let win (op : AtomOp) : Bool := (w == 4 || w == 8) && (op == .add || op == .exch)
    (readA s1 m.addr .addr m.ty = .ok a →
      (∀ op, rule true (.atom m data sc ord op) (win op) fun l old => atomNew m.ty op old (at_ d l).1) ∧
      (∀ op, rule true (.atomf m data sc ord op) (win op) fun l old => atomNew m.ty op old (at_ d l).1) ∧
      (∀ cmp c, readB s1 act (.age cmp) m.ty m.ty = .ok c → rule true (.atomc m data sc ord cmp) (w == 4 || w == 8) fun l old =>
        if old.toNat % 2 ^ (8 * w) = (at_ c l).1.toNat % 2 ^ (8 * w) then (at_ d l).1 else old)) ∧
    (readB s1 act m.addr .addr m.ty = .ok a → ∀ op,
      rule false (.red m data sc ord op) (win op) fun l old => atomNew m.ty op old (at_ d l).1)) ∧
  (∀ (s s1 : State) (m : MArgs) (data : Src) (sc : Scope) (ord : Ord) (a c d : Row), InTurn s s1 → active s1 m.ms = 0 →
    readB s1 (active s1 m.ms) data m.ty m.ty = .ok d →
    let none' (i : Instr) : Prop :=
      Pends i s s1 m.la (PendRes.of [mergeRow (active s1 m.ms) m.mz (rowOf m.ty fun _ => 0) a] .memory) 1
    (readA s1 m.addr .addr m.ty = .ok a → (∀ op, none' (.atom m data sc ord op) ∧ none' (.atomf m data sc ord op)) ∧
      ∀ cmp, readB s1 (active s1 m.ms) (.age cmp) m.ty m.ty = .ok c → none' (.atomc m data sc ord cmp)) ∧
    (readB s1 (active s1 m.ms) m.addr .addr m.ty = .ok a → ∀ op, exec (.red m data sc ord op) s = .next (nextInstr s1))) ∧
  (∀ (s : State) (x : LaneAddr) (n : Nat) (f : Word → Word), 0 < n → n ≤ 8 → x.addr % 128 + n ≤ 128 →
    MayStore s s.b.die x.addr →
    (rmwGlobal s x n f).1 = BitVec.ofNat 64 (coherentNat s x.addr n) ∧
    Written s (rmwGlobal s x n f).2 x.addr (toBytes n (f (BitVec.ofNat 64 (coherentNat s x.addr n))).toNat)) ∧
  (∀ (t : Ty) (old d : Word), atomNew t .exch old d = d ∧ (isInt t = true →
    atomNew t .and old d = old &&& d ∧ atomNew t .or old d = old ||| d ∧ atomNew t .xor old d = old ^^^ d ∧
    formOf t (atomNew t .add old d) = formOf t (BitVec.ofInt 64 (vInt t old + vInt t d)) ∧
    vInt t (atomNew t .min old d) = min (vInt t old) (vInt t d) ∧ vInt t (atomNew t .max old d) = max (vInt t old) (vInt t d)))

/-- R202, R236, R389: SLD loads s[SD], sign-extended for i32; it waits while a token bucket holds its request, and for the home where the
die lacks the line (log entry 29). PREF sends RD for each passing lane's line that the die neither holds nor has asked for, with the
cache-way banks as its destination but for nc, and traps nothing, or waits in a bucket that holds it; it changes no line and no byte.
CCTL.inv and .invall discard lines of the block's L1, .clean asks for the write-back of modified lines.
R137, R141, R239, R392: RADV at any scope but .pkg traps, and of a host window's page NOT_ROUNDED; with no active lane it pushes its row
and advances nothing; else, once the member lanes' accesses have taken place, it pushes one pending entry per member lane, seals, and
sends RADVREQ to the page's home. RDROUND pushes the die's mirror of the page's counter, or the home's where it holds none. -/
def Obligations.ScalarLoadsCacheControlAndRounds : Prop :=
  (∀ (s s1 : State) (ty : Ty) (sd sa : BitVec 5) (off : BitVec 16) x,
     let check (s : State) := checkGlobal s 0 (addOff (scal s sa) off) (scalarWidth ty) 0 true
     let s2 := cacheXlat s1 s1.b.vf x.va
     let held := blocking s2 s2.b.vf (slotReq s2) (slotPaths s2 x)
     InTurn (holdSlot s (check s)) s1 → tyScalar ty = true → check s1 = .ok x →
     (held ≠ [] → exec (.sld ty sd sa off) s = .next (modCur (holdSlot s (check s)) fun y => { y with st := .wait .qos })) ∧
     (held = [] →
       let r := loadBytes s2 x.addr x.attr (scalarWidth ty) { k := 0, stale := false }
       (∀ bs, r = .bytes bs → ∃ t, exec (.sld ty sd sa off) s = .next (nextInstr (setScal t sd (scalarForm ty (ofBytes bs)))) ∧
         t = loadFrame s1 t) ∧
       ((∀ bs, r ≠ .bytes bs) → exec (.sld ty sd sa off) s = .next (modCur
         (askHome (holdSlot s (check s)) [{ addr := x.addr, attr := x.attr, write := false, bounded := false }])
         fun y => { y with st := .wait .home })))) ∧
  (∀ (s s1 : State), InTurn s s1 →
     (∀ (m : MArgs) (a : Row), readB s1 (active s1 m.ms) m.addr .addr .raw = .ok a →
       let lanes := passing s1 (active s1 m.ms) a m.off
       (∀ cp, ∃ t, exec (.pref m cp) s = .next (nextInstr t) ∧ t.w = s1.w ∧ t.mem = s1.mem ∧
         (∀ d, (getDie t d).l2 = (getDie s1 d).l2) ∧ (lanes = [] → t = s1) ∧
         (∀ x, lanes = [x] →
           let line := lineOf x.addr
           let fills : Bool := cp != .nc && !roundedPage s1 x.addr (rndAttr x.attr)
           (∀ p ps, pathsOf s1.b.die x.addr = p :: ps → heldOn s1 s1.b.vf none p = true →
             t = hold s1 s1.b.vf p (.pref s1.b.uid x.addr x.attr (cp != .nc) ps)) ∧
           (((pathsOf s1.b.die x.addr).any (heldOn s1 s1.b.vf none)) = false →
             (findL2 s1 s1.b.die line = none → homeOf x.addr = s1.b.die →
               t.agenda = s1.agenda ++ (if (getDie s1 s1.b.die).reads.contains line then [] else [.rd s1.b.die line]) ∧
               t.b.prefs = if fills then line :: s1.b.prefs else s1.b.prefs) ∧
             (∀ l, findL2 s1 s1.b.die line = some l → t.agenda = s1.agenda ∧ t.dies = s1.dies ∧
               (fills = true → cacheWays s1.b ≠ 0 → ∃ c, findL1 t.b line = some c ∧ c.bytes = l.bytes))))) ∧
       exec (.cctl m .inv) s = .next (nextInstr { s1 with b := { s1.b with
         l1 := s1.b.l1.filter fun l => !(lanes.map fun x => lineOf x.addr).contains l.line } }) ∧
       (∀ xs, checkLanes s1 (active s1 m.ms) a m.off 1 0 false = .ok xs → ∃ t, exec (.cctl m .clean) s = .next (nextInstr t) ∧
         t.w = s1.w ∧ t.mem = s1.mem ∧ t.dies = s1.dies ∧ t.b = s1.b ∧
         (∀ x l, xs = [x] → findL2 s1 s1.b.die (lineOf x.addr) = some l → l.modified = true → homeOf x.addr = s1.b.die →
           t.agenda = (cacheAll s1 xs).agenda ++ [.wb s1.b.die l.line l.bytes]))) ∧
     (∀ m : MArgs, exec (.cctl m .invall) s = .next (nextInstr
       (if active s1 m.ms = 0 then s1 else { s1 with b := { s1.b with l1 := [] } })))) ∧
  (∀ (s s1 : State) (m : MArgs) (a : Row), InTurn s s1 → readA s1 m.addr .addr m.ty = .ok a →
     let act := active s1 m.ms
     let va (l : Nat) : Word := addOff (at_ a l).1 m.off
     (∀ sc, sc ≠ .pkg → Traps (.radv m sc) s 0x202 (scopeCode sc)) ∧
     (act = 0 → Pends (.radv m .pkg) s s1 m.la (PendRes.of [mergeRow 0 m.mz (rowOf .n32 fun _ => 0) a] .memory) 1) ∧
     (act ≠ 0 → (∃ l, l < 32 ∧ inMask act l = true ∧ va l ≠ va (lowLane act)) → ∃ x, Traps (.radv m .pkg) s 0x201 x) ∧
     (act ≠ 0 → (∀ l, l < 32 → inMask act l = true → va l = va (lowLane act)) → ∀ x,
       checkGlobal s1 (lowLane act) (va (lowLane act)) 4 2 true = .ok x → isHost x.addr = true → Traps (.radv m .pkg) s 0x200 x.va) ∧
     (act ≠ 0 → (∀ l, l < 32 → inMask act l = true → va l = va (lowLane act)) → ∀ x,
       checkGlobal s1 (lowLane act) (va (lowLane act)) 4 2 false = .ok x →
       (roundedEntry s1 x = none → Traps (.radv m .pkg) s 0x200 x.va) ∧
       ((roundedEntry s1 x).isSome = true → ¬ Released s1 → WaitsAt (.radv m .pkg) s .home) ∧
       (∀ e, roundedEntry s1 x = some e → Released s1 → homeOf x.addr = s1.b.die →
         ∃ t u, exec (.radv m .pkg) s = .next (nextInstr t) ∧ PendPushed u { t with agenda := u.agenda } m.la
           { PendRes.of [mergeRow act m.mz (rowOf .n32 fun _ => 0) a] .memory with
             ready := false, lineWaits := (lanesOf act).map fun l => (l, 0, 0, .n32) } 1 ∧
           u.w = { s1.w with sealed := true } ∧ u.inflight = s1.inflight ∧
           t.agenda = u.agenda ++ [.radvreq s1.b.die e.page s1.w.uid s1.w.ridNext])) ∧
     (∀ xs x, checkLanes s1 act a m.off 4 0 true = .ok xs → (xs.find? fun x => (roundedEntry s1 x).isNone) = some x →
       Traps (.rdround m) s 0x200 x.va) ∧
     (∀ xs, checkLanes s1 act a m.off 4 0 true = .ok xs → (∀ x ∈ xs, (roundedEntry s1 x).isSome = true) →
       ∃ t row, Pends (.rdround m) s t m.la (PendRes.of [row] .memory) 1 ∧ t.w = s1.w ∧ t.mem = s1.mem ∧
         t.dies = s1.dies ∧
         ∀ x e, xs = [x] → roundedEntry s1 x = some e → row = mergeRow act m.mz (setAt (rowOf .n32 fun _ => 0) x.lane
           (zx64 ((mirrorOf s1 s1.b.die (pageOf x.addr)).getD e.round), .n32)) a))

/-! ## Fences, barriers, FIFOs and bank modes -/

/-- R112, R113, R126 to R129, R240 to R242, R122: FENCE waits on its release side until the member lanes' accesses have taken place (log
entry 29) and discards the block's L1 lines on its acquire side where its scope asks for it; FENCE.xp.wp traps. BARINIT, BARARV and BAREXP
write the barrier's 16-byte word, completing the phase where both counts are met, and seal; BARARV is a release first. BARWT goes on when
the phase differs from its operand and waits while it does not. BARINIT leaves a mark of unreported bytes standing (log entry 36). An
undeclared barrier traps BARRIER_ID.
R112: a barrier word's fields are read as they were written, and writing it changes no other byte of any block's scratch. -/
def Obligations.FencesBarriersAndTheirWords : Prop :=
  (∀ (s s1 : State), InTurn s s1 →
     (∀ (sc : Scope) (ms : BitVec 3),
       let inval (t : State) : State := if invalidates t sc = true then { t with b := { t.b with l1 := [] } } else t
       (Released s1 → exec (.fence .rel sc ms) s = .next (nextInstr s1) ∧ exec (.fence .full sc ms) s = .next (nextInstr (inval s1)) ∧
         (sc ≠ .wp → exec (.fence .xp sc ms) s = .next (nextInstr { s1 with b := { s1.b with l1 := [] } }))) ∧
       (¬ Released s1 → WaitsAt (.fence .rel sc ms) s .home ∧ WaitsAt (.fence .full sc ms) s .fence ∧
         (sc ≠ .wp → WaitsAt (.fence .xp sc ms) s .fence)) ∧
       (membersWait s1 = false → Synced s1 → exec (.fence .acq sc ms) s = .next (nextInstr (inval s1))) ∧
       (membersWait s1 = true ∨ ¬ Synced s1 → WaitsAt (.fence .acq sc ms) s .home) ∧
       (sc = .wp → Traps (.fence .xp sc ms) s 0x244 0)) ∧
     (∀ id : BitVec 5, barAt s1 s1.b id.toNat = none → (∀ sx sy, Traps (.barinit id sx sy) s 0x240 (zx64 id)) ∧ (∀ n, Traps (.bararv id n) s 0x240 (zx64 id)) ∧
       (∀ sx, Traps (.barwt id sx) s 0x240 (zx64 id)) ∧ ∀ sy, Traps (.barexp id sy) s 0x240 (zx64 id)) ∧
     (∀ (id : BitVec 5) p, barAt s1 s1.b id.toNat = some p →
       let x := readBar s1 p
       let woken (t : State) : State := wakeBarrier t (barBlocks s1 s1.b id.toNat)
       let settled (y : Bar) : Bar :=
         if y.arrv = y.expa ∧ y.bytes = y.expb ∧ ¬(y.expa = 0 ∧ y.expb = 0) then { y with arrv := 0, bytes := 0, phase := !y.phase } else y
       (∀ sx sy, exec (.barinit id sx sy) s = .next (nextInstr (sealWarp (woken (writeBar s1 p
         { expa := (scal s1 sx).toNat % 2 ^ 16, arrv := 0, phase := false, expb := (scal s1 sy).toNat % 2 ^ 32, bytes := 0 }))))) ∧
       (∀ n : BitVec 8, (¬ Released s1 → WaitsAt (.bararv id n) s .home) ∧
         (Released s1 → x.expa < x.arrv + n.toNat → Traps (.bararv id n) s 0x241 (zx64 id)) ∧
         (Released s1 → x.arrv + n.toNat ≤ x.expa → exec (.bararv id n) s = .next (nextInstr (sealWarp (woken
           (writeBar s1 p (settled { x with arrv := x.arrv + n.toNat }))))))) ∧
       (∀ sy, let e := (scal s1 sy).toNat % 2 ^ 32
         (e < x.bytes → Traps (.barexp id sy) s 0x242 (zx64 id)) ∧
         (x.bytes ≤ e → ¬ Synced s1 → WaitsAt (.barexp id sy) s .home) ∧
         (x.bytes ≤ e → Synced s1 →
           exec (.barexp id sy) s = .next (nextInstr (sealWarp (woken (writeBar s1 p (settled { x with expb := e }))))))) ∧
       (∀ sx, barReport s1 s1.b id.toNat = none → streamReport s1 = none →
         (x.phase = (scal s1 sx).getLsbD 0 → WaitsAt (.barwt id sx) s .barwt) ∧
         (x.phase ≠ (scal s1 sx).getLsbD 0 → ¬ Synced s1 → WaitsAt (.barwt id sx) s .home) ∧
         (x.phase ≠ (scal s1 sx).getLsbD 0 → Synced s1 → exec (.barwt id sx) s = .next (nextInstr
           (if 16 ≤ id.toNat ∧ 1 < gangSize s1 then dropL1 s1 else s1))))) ∧
     (∀ (id sx : BitVec 5) p r, barAt s1 s1.b id.toNat = some p → pendingIn s1 (members s1) = false →
       ((barReport s1 s1.b id.toNat).orElse fun _ => streamReport s1) = some r →
       exec (.barwt id sx) s = .next (deliverTrap r.st r.cause r.aux))) ∧
  (∀ (s : State) (u at' : Nat) (x : Bar), (getBlock s u).isSome = true → x.expa < 2 ^ 16 → x.arrv < 2 ^ 16 → x.expb < 2 ^ 32 → x.bytes < 2 ^ 32 →
     (∀ b, getBlock s u = some b → Memory.wf b.scratch = true) →
     readBar (writeBar s (u, at') x) (u, at') = x ∧
     (∀ a, (a < at' ∨ at' + 16 ≤ a) → readCell (scratchOf (writeBar s (u, at') x) u) a = readCell (scratchOf s u) a) ∧
     ∀ v, v ≠ u → scratchOf (writeBar s (u, at') x) v = scratchOf s v)

/-- R97, R129, R243, R244, R92: FQPUT adds the active lanes' values when the FIFO has room for all of them and waits otherwise, and for the
member lanes' accesses, which it releases; FQGET pushes the oldest elements in ascending active lanes, 0 in the others, and waits while
there are too few; an undeclared FIFO traps, with an empty active mask too (log entry 36). BANKCFG gives a bank its mode by Table 05-2; a
FIFO-mode bank of no FIFO changes at once (log entry 48). -/
def Obligations.FifosAndBankModes : Prop :=
  ∀ (s s1 : State), InTurn s s1 →
    (∀ (ms : BitVec 3) (ty : Ty) (a : Src) (k : BitVec 3) (x : Row), readB s1 (active s1 ms) a ty ty (ty == .raw) = .ok x →
      let ls := lanesOf (active s1 ms)
      (getFifo s1 k = none → Traps (.fqput ms ty a k) s 0x243 (zx64 k)) ∧
      (∀ f, getFifo s1 k = some f →
        (active s1 ms = 0 → exec (.fqput ms ty a k) s = .next (nextInstr s1)) ∧
        (active s1 ms ≠ 0 → f.cap < f.elems.length + ls.length → WaitsAt (.fqput ms ty a k) s .fifoFull) ∧
        (active s1 ms ≠ 0 → f.elems.length + ls.length ≤ f.cap → ¬ Released s1 → WaitsAt (.fqput ms ty a k) s .home) ∧
        (active s1 ms ≠ 0 → f.elems.length + ls.length ≤ f.cap → Released s1 → ∃ t, exec (.fqput ms ty a k) s = .next (nextInstr t) ∧
          t = { s1 with w := t.w, b := t.b, agenda := t.agenda } ∧ t.w = { s1.w with sealed := true } ∧
          t.b = { s1.b with fifos := t.b.fifos } ∧
          t.b.fifos = s1.b.fifos.map fun g =>
            if g.id = k.toNat then { g with elems := g.elems ++ ls.map fun l => (at_ (lowBits ty x) l).1 } else g))) ∧
    (∀ (h : VHead) (k : BitVec 3),
      let ls := lanesOf (active s1 h.ms)
      (getFifo s1 k = none → Traps (.fqget h k) s 0x243 (zx64 k)) ∧
      (∀ f, getFifo s1 k = some f →
        (f.elems.length < ls.length → WaitsAt (.fqget h k) s .fifoEmpty) ∧
        (ls.length ≤ f.elems.length → ¬ Synced s1 → WaitsAt (.fqget h k) s .home) ∧
        (ls.length ≤ f.elems.length → Synced s1 → ∃ u t, exec (.fqget h k) s = .next (nextInstr { t with agenda := u }) ∧
          PushedRow { s1 with
            w := { s1.w with sealed := s1.w.sealed || active s1 h.ms != 0 }
            b := { s1.b with fifos := s1.b.fifos.map fun g => if g.id = k.toNat then { g with elems := g.elems.drop ls.length } else g } } t
            (lanes32.map fun l => valued (if inMask (active s1 h.ms) l then f.elems.getD (ls.idxOf l) 0 else 0, h.ty))))) ∧
    (∀ (bank : BitVec 8) (mode : BankMode),
      let n := bank.toNat
      let old := s1.b.bankModes.getD n .off
      let put (t : State) : State := { t with b := setBank t.b n mode }
      let bad := Traps (.bankcfg bank mode) s 0x246 (BitVec.ofNat 64 (n * 256 + bankCode mode))
      (s1.b.bankModes.length ≤ n → Traps (.bankcfg bank mode) s 0x245 (zx64 bank)) ∧
      (n < s1.b.bankModes.length →
        (old = mode → exec (.bankcfg bank mode) s = .next (nextInstr s1)) ∧
        (old ≠ mode → (mode = .fifo ∨ old = .fifo ∧ mode = .scratch) → bad) ∧
        (old = .scratch → mode ≠ .scratch → mode ≠ .fifo →
          (bankBusy s1 n = true → WaitsAt (.bankcfg bank mode) s .bankcfg) ∧
          (bankBusy s1 n = false → exec (.bankcfg bank mode) s = .next (nextInstr (put s1)))) ∧
        (old = .off ∨ old = .cache → mode = .scratch →
          (s1.b.scratchOrder.contains n = false → bad) ∧
          (s1.b.scratchOrder.contains n = true → exec (.bankcfg bank mode) s = .next (nextInstr (put (dropL1 s1))))) ∧
        (old = .off ∧ mode = .cache ∨ old = .cache ∧ mode = .off → exec (.bankcfg bank mode) s = .next (nextInstr (put (dropL1 s1)))) ∧
        (old = .fifo → mode = .cache ∨ mode = .off → (s1.b.fifos.find? fun f => decide (f.first ≤ n ∧ n ≤ f.last)) = none →
          exec (.bankcfg bank mode) s = .next (nextInstr (put s1))) ∧
        (old = .fifo → mode = .cache ∨ mode = .off → ∀ f, (s1.b.fifos.find? fun f => decide (f.first ≤ n ∧ n ≤ f.last)) = some f →
          (f.elems ≠ [] → bad) ∧
          (f.elems = [] → ∃ t, exec (.bankcfg bank mode) s = .next (nextInstr t) ∧ t.w = s1.w ∧
            t.b.fifos = s1.b.fifos.filter (fun g => g.id != f.id) ∧
            ∀ i, i < s1.b.bankModes.length → t.b.bankModes.getD i .off = if f.first ≤ i ∧ i ≤ f.last then mode else s1.b.bankModes.getD i .off))))

/-! ## The Sluice -/

/-- R102 to R108, R245, R246: an issue whose checks pass takes its job with the next number, counts its bytes for its write pointer,
takes a footprint entry and has its first chunk started; a job of no bytes is complete at once; the cards of the six instructions are
those of Tables 05-4 and 10-3. With 16 jobs counted it waits, or reports a faulted one first. -/
def Obligations.SluiceIssues : Prop :=
  ∀ (s s1 : State) (x : SluiceArgs), InTurn s s1 →
    let rule (i : Instr) (j : Job) : Prop :=
      let b' : Block := { s1.b with
        jobCount := s1.b.jobCount + 1
        wpTotal := match j.wp with | some n => modAt s1.b.wpTotal n.toNat (· + j.len) | none => s1.b.wpTotal }
      (∀ c a, issueTrap s1 j = some (c, a) → Traps i s c a) ∧
      (issueTrap s1 j = none → countedJobs s1.b < 16 →
        (j.len = 0 → exec i s = .next (nextInstr { s1 with w := { s1.w with sealed := true }, b := b' })) ∧
        (j.len ≠ 0 → tableFull s1 s1.b.die (clusterOf s1.b) = true → WaitsAt i s .footprint) ∧
        (j.len ≠ 0 → tableFull s1 s1.b.die (clusterOf s1.b) = false → exec i s = .next (nextInstr { s1 with
          w := { s1.w with sealed := true }
          b := { b' with jobs := s1.b.jobs ++ [j] }
          nextId := s1.nextId + 1
          footprints := s1.footprints ++ [{ id := s1.nextId, die := s1.b.die, cluster := s1.b.core / 4, block := s1.b.uid, job := some j.num
                                            reads := (jobRegions s1 s1.b j).1, writes := (jobRegions s1 s1.b j).2, waiting := false }]
          agenda := s1.agenda ++ [.sluiceChunkStart s1.b.uid j.num] }))) ∧
      (issueTrap s1 j = none → 16 ≤ countedJobs s1.b →
        (jobReport s1 [s1.b] (fun _ => true) = none → WaitsAt i s .jobLimit) ∧
        ∀ r, jobReport s1 [s1.b] (fun _ => true) = some r → pendingIn s1 (members s1) = false →
          exec i s = .next (deliverTrap r.st r.cause r.aux))
    let y := (scal s1 x.sy).toNat
    (∀ src dst, rule (.scopy x src dst) { cardOf s1 x 0 src dst with len := y % 2 ^ 40 } ∧
      rule (.scopy2 x src dst) { cardOf s1 x 1 src dst with shapeB := scal s1 (x.sy + 1), len := y % 2 ^ 32 * (y / 2 ^ 32) } ∧
      ∀ esz ix, rule (.sgath x src dst esz ix)
          { cardOf s1 x 3 src dst with shapeB := scal s1 (x.sy + 1), esz := esz, idxScratch := ix, len := y % 2 ^ 32 * 2 ^ esz.toNat } ∧
        rule (.sscat x src dst esz ix)
          { cardOf s1 x 4 src dst with shapeB := scal s1 (x.sy + 1), esz := esz, idxScratch := ix, len := y % 2 ^ 32 * 2 ^ esz.toNat }) ∧
    (∀ dst esz, rule (.sfill x dst esz)
      { cardOf s1 x 5 .global dst with src := 0, dst := scal s1 x.sx, aux := scal s1 (x.sx + 1), esz := esz, len := y % 2 ^ 40 }) ∧
    (∀ toDesc other (desc : BitVec 6),
      let ws := s1.b.desc.getD desc.toNat []
      let d := descOf ws
      let dsp := spaceOf (BitVec.ofNat 2 d.space)
      rule (.stcopy x toDesc other desc) { cardOf s1 x 2 other dsp with
        src := if toDesc then scal s1 x.sx else d.base, dst := if toDesc then d.base else scal s1 x.sx
        srcsp := if toDesc then other else dsp, dstsp := if toDesc then dsp else other
        aux := if other = .remote then scal s1 (x.sx + 2) &&& 0xFFFFFFFF else 0
        shapeB := scal s1 (x.sy + 1), toDesc := toDesc, descNum := desc, desc := ws
        len := (d.boxes.take d.rank).foldl (· * ·) 1 / recElems d * unitBytes d })

/-- R106, R248, R249, R100: SWAIT goes on once its write pointer has reached s[X] and waits before; an unreported faulted job of the
pointer is reported instead. SQUERY reads word 5 of the last job with the number, or that of a job that is complete and forgotten.
TDSET, TDGET and TDINV write a descriptor word, read one and clear VALID. -/
def Obligations.SluiceWaitsAndDescriptors : Prop :=
  ∀ (s s1 : State), InTurn s s1 →
    (∀ (wp : BitVec 4) (sx : BitVec 5),
      (jobReport s1 [s1.b] (fun j => j.wp == some wp) = none →
        (wpValue s1.b wp.toNat < (scal s1 sx).toNat → WaitsAt (.swait wp sx) s .swait) ∧
        ((scal s1 sx).toNat ≤ wpValue s1.b wp.toNat → exec (.swait wp sx) s = .next (nextInstr s1))) ∧
      ∀ r, jobReport s1 [s1.b] (fun j => j.wp == some wp) = some r → pendingIn s1 (members s1) = false →
        exec (.swait wp sx) s = .next (deliverTrap r.st r.cause r.aux)) ∧
    (∀ sy sx : BitVec 5, let hits := s1.b.jobs.filter fun j => j.num % 2 ^ 16 == (scal s1 sx).toNat % 2 ^ 16
      (hits = [] → exec (.squery sy sx) s = .next (nextInstr (setScal s1 sy (BitVec.ofNat 64 (2 ^ 41))))) ∧
      ∀ js j, hits = js ++ [j] → ∃ v, exec (.squery sy sx) s = .next (nextInstr (setScal s1 sy v)) ∧
        (fld v 0 40 : BitVec 40).toNat = j.landedHead % 2 ^ 40 ∧ v.getLsbD 40 = j.paused ∧ v.getLsbD 41 = j.done ∧ v.getLsbD 42 = j.faulted ∧
        (fld v 43 10 : BitVec 10) = j.cause ∧ (fld v 53 11 : BitVec 11) = 0) ∧
    (∀ (d : BitVec 6) (w : BitVec 4) (k : BitVec 5), d.toNat < s1.b.desc.length → (∀ ws ∈ s1.b.desc, ws.length = 10) → w.toNat < 10 →
      (∃ t, exec (.tdset d w k) s = .next (nextInstr t) ∧ t = { s1 with b := { s1.b with desc := t.b.desc } } ∧
        ∀ d' w', (t.b.desc.getD d' []).getD w' 0 =
          if d' = d.toNat ∧ w' = w.toNat then scal s1 k else (s1.b.desc.getD d' []).getD w' 0) ∧
      exec (.tdget k d w) s = .next (nextInstr (setScal s1 k ((s1.b.desc.getD d.toNat []).getD w.toNat 0))) ∧
      (∃ t, exec (.tdinv d) s = .next (nextInstr t) ∧ t = { s1 with b := { s1.b with desc := t.b.desc } } ∧
        ∀ d' w', (t.b.desc.getD d' []).getD w' 0 =
          if d' = d.toNat ∧ w' = 8 then (s1.b.desc.getD d' []).getD w' 0 &&& 0xFFFFFFFFFFFFFBFF else (s1.b.desc.getD d' []).getD w' 0))

/-! ## System instructions -/

/-- R250, R378, R251, R409 to R411: INVPG and INVALL drop cached translations once the member lanes' accesses have taken place, for which
they wait (log entry 29); PMRD reads a counter, 0 where none has the number; PMCFG sets a selector and clears its counter, of a number from
64 on it changes nothing (log entry 13); TRACE appends a record of Table 22-6, or drops and counts it; both seal, and without the policy's
grant both trap. GPCLR clears the predicate counts. -/
def Obligations.SystemInstructions : Prop :=
  ∀ (s s1 : State), InTurn s s1 →
    (∀ (ms : BitVec 3) (addr : Src) (off : BitVec 16) (a : Row), readB s1 (active s1 ms) addr .addr .raw = .ok a →
      let vas := (lanesOf (active s1 ms)).map fun l => addOff (at_ a l).1 off
      (∀ va, (vas.find? fun va => !canonical va) = some va → Traps (.invpg ms addr off) s 0x141 va) ∧
      (vas.all canonical = true → ¬ Released s1 → WaitsAt (.invpg ms addr off) s .home) ∧
      (vas.all canonical = true → Released s1 → exec (.invpg ms addr off) s = .next (nextInstr
        (modVf s1 s1.b.vf fun v => { v with trn := { v.trn with
          tlb := v.trn.tlb.filter fun t => !(vas.any fun va => va.toNat / 2 ^ 30 == t.1 / 2 ^ 18) } })))) ∧
    (∀ ms, (¬ Released s1 → WaitsAt (.invall ms) s .home) ∧ (Released s1 → exec (.invall ms) s = .next (nextInstr
      (modVf s1 s1.b.vf fun v => { v with trn := { v.trn with tlb := [] } })))) ∧
    (∀ v, getVf s1 s1.b.vf = some v →
      (∀ (sd : BitVec 5) (k : BitVec 16), k.toNat < 64 →
        exec (.pmrd sd (.imm k)) s = .next (nextInstr (setScal s1 sd (v.counters.getD k.toNat 0)))) ∧
      (∀ (sd : BitVec 5) (k : BitVec 16), 64 ≤ k.toNat → Traps (.pmrd sd (.imm k)) s 0x001 ((encode (.pmrd sd (.imm k))).getD 0)) ∧
      (∀ sd k : BitVec 5, (scal s1 k).toNat < 64 →
        exec (.pmrd sd (.reg k)) s = .next (nextInstr (setScal s1 sd (v.counters.getD (scal s1 k).toNat 0)))) ∧
      (v.policy.tpmc = false → ∀ (k : BitVec 5) (n : BitVec 16),
        Traps (.pmcfg k n) s 0x340 ((encode (.pmcfg k n)).getD 0) ∧ Traps (.trace k n) s 0x340 ((encode (.trace k n)).getD 0)) ∧
      (v.policy.tpmc = true → ∀ (k : BitVec 5) (n : BitVec 16),
        (n.toNat < 64 → exec (.pmcfg k n) s = .next (nextInstr (modVf (sealWarp s1) s1.b.vf fun v => { v with
          counters := setAt v.counters n.toNat 0, selectors := setAt v.selectors n.toNat (fld (scal s1 k) 0 8) }))) ∧
        (64 ≤ n.toNat → exec (.pmcfg k n) s = .next (nextInstr (sealWarp s1))) ∧
        (v.trc.enable = false → exec (.trace k n) s = .next (nextInstr (modVf (sealWarp s1) s1.b.vf fun v => { v with
          trc := { v.trc with drop := satInc v.trc.drop } }))) ∧
        (∀ a seg attr, v.trc.enable = true → (v.trc.tail - v.trc.head).toNat < 2 ^ v.trc.log2.toNat →
          let va := v.trc.base + BitVec.ofNat 64 (32 * (v.trc.tail.toNat % 2 ^ v.trc.log2.toNat))
          canonical va = true → translateClean s1 s1.b.vf va 1 = .ok (a, seg, attr) →
          exec (.trace k n) s = .next (nextInstr (modVf
            (writeGlobal (countWalk (sealWarp s1) s1.b.vf va) a (toBytes 8 (gtime s1).toNat ++ toBytes 8 (scal s1 k).toNat ++ toBytes 2 n.toNat ++ toBytes 2 0 ++
              toBytes 4 s1.w.ident.toNat ++ toBytes 8 (cur s1).pc.toNat))
            s1.b.vf fun v => { v with trc := { v.trc with tail := v.trc.tail + 1 } }))))) ∧
    (∀ ms : BitVec 3,
      ((s1.w.pend.any fun p => p.kind == .theodolite && p.slot == s1.slot) = true → WaitsAt (.gpclr ms) s (.pending .theodolite)) ∧
      ((s1.w.pend.any fun p => p.kind == .theodolite && p.slot == s1.slot) = false →
        exec (.gpclr ms) s = .next (nextInstr { s1 with w := { s1.w with gpstat := 0 } })))

/-- R34, R187 to R190, R129: LAUNCH reads its record, and where every check passes submits a launch under the VF's next number, which s[Y]
receives, and has its gangs placed; it waits while a token bucket holds its request (R389), for the home where the die lacks the record's
line, and for the member lanes' accesses, which it releases (log entry 29). WAITDEP traps for an aborted producer at once, waits for the
others, and acquires. TRIG releases, marks its block once, and lets the VF's WAITDEPs be tested again. -/
def Obligations.LaunchWaitdepTrig : Prop :=
  (∀ (s s1 : State) (sy sx : BitVec 5) x v,
    let check (s : State) := checkGlobal s 0 (scal s sx) 64 0 true
    let s0 := holdSlot s (check s)
    let held := blocking s1 s1.b.vf (slotReq s1) (slotPaths s1 x)
    let s2 := cacheXlat s1 s1.b.vf x.va
    let r := loadBytes s2 x.addr x.attr 64 { k := 0, stale := false }
    InTurn s0 s1 → check s1 = .ok x →
    (held ≠ [] → exec (.launch sy sx) s = .next (modCur s0 fun y => { y with st := .wait .qos })) ∧
    (held = [] → (∀ bs, r ≠ .bytes bs) → exec (.launch sy sx) s = .next (modCur
      (askHome s0 [{ addr := x.addr, attr := x.attr, write := false, bounded := false }]) fun y => { y with st := .wait .home })) ∧
    (held = [] → ∀ bs t, slotLoad x 64 s2 = .ok (bs, t) → getVf t s1.b.vf = some v →
      let traps (cause : BitVec 10) (aux : Word) : Prop := exec (.launch sy sx) s = .next (takeTrap s0 cause aux)
      r = .bytes bs ∧ t = loadFrame s1 t ∧
      (∀ l, checkLaunch t v bs 0 = .ok l → ¬ Released s1 → exec (.launch sy sx) s = .next (modCur s0 fun y => { y with st := .wait .home })) ∧
      (∀ l, checkLaunch t v bs 0 = .ok l → Released s1 → ∃ u, exec (.launch sy sx) s = .next (nextInstr u) ∧
        u.launches = t.launches ++ [l] ∧ u.w = { s1.w with sealed := true, scalars := setAt s1.w.scalars sy.toNat (BitVec.ofNat 64 v.nextLaunch) } ∧
        l.id = v.nextLaunch ∧ l.vf = v.number ∧ l.kobj = BitVec.ofNat 64 (ofBytes (bs.take 8)) ∧
        (getVf u s1.b.vf).map (·.nextLaunch) = some (v.nextLaunch + 1) ∧ Instr.gangPlace v.part ∈ u.agenda) ∧
      (checkLaunch t v bs 0 = .error .record → traps 0x10A (scal s1 sx)) ∧
      (checkLaunch t v bs 0 = .error .codeHash → traps 0x341 (BitVec.ofNat 64 (ofBytes (bs.take 8)))) ∧
      (checkLaunch t v bs 0 = .error .quota → traps 0x342 (scal s1 sx)))) ∧
  ∀ (s s1 : State), InTurn s s1 →
    (let ps := (((getLaunch s1 s1.b.vf s1.b.launch).map (·.deps)).getD []).map (getLaunch s1 s1.b.vf);
      (∀ i, ps.findIdx? (fun p => p.any (·.aborted)) = some i → Traps .waitdep s 0x10B (BitVec.ofNat 64 i)) ∧
      (ps.findIdx? (fun p => p.any (·.aborted)) = none →
        ((ps.any fun p => p.any fun l => !producerDone l) = true → WaitsAt .waitdep s .waitdep) ∧
        ((ps.any fun p => p.any fun l => !producerDone l) = false → ¬ Synced s1 → WaitsAt .waitdep s .home) ∧
        ((ps.any fun p => p.any fun l => !producerDone l) = false → Synced s1 →
          exec .waitdep s = .next (nextInstr (if ps = [] then s1 else dropL1 s1))))) ∧
    (¬ Released s1 → WaitsAt .trig s .home) ∧
    (Released s1 → ∃ t, exec .trig s = .next (nextInstr t) ∧ t.w = { s1.w with sealed := true } ∧ t.b.triggered = true ∧
      (s1.b.triggered = true → t = sealWarp s1) ∧
      (s1.b.triggered = false → ∀ l, getLaunch s1 s1.b.vf s1.b.launch = some l →
        (getLaunch t s1.b.vf s1.b.launch).map (·.triggered) = some ((l.triggered ++ [blockIndex l s1.b]).eraseDups)))

/-! ## The Theodolite -/

/-- R272 to R283: a predicate whose operands and points pass its checks pushes one pending entry with each active lane's result, kept
back until the lanes have passed their stages; lanes with a coordinate that is no number push 2, SEGX 7, under .nf and trap
POINTS_NONFINITE without it; a misaligned point traps, and so does one outside scratch, each with the mask of the active lanes that meet
the cause. The result of a lane with finite coordinates is the sign of the exact determinant of Table 12-2, or the segments' class; under
.sos it is that of the moved points as ε goes to 0, and 0 for points that share an address; an exact zero reaches stage 2. -/
def Obligations.PredicatesPendTheirSigns : Prop :=
  (∀ (k : Predicate) (pts : List (List FVal)) (qs : List Nat), pts.length = pointCount k → qs.length = pointCount k →
    (∀ p ∈ pts, p.length = dims k ∧ ∀ x ∈ p, isFin x = true) →
    let moved := movedPoints (dims k) pts qs
    let exact (i j : Nat) : Rat := ratVal ((pts.getD i []).getD j (.fin false 0 0))
    let orient (eps : Rat) (t : List Nat) : Int := signOfRat (exactDet .ori2 fun i => moved eps (t.getD i 0))
    let crosses (o : List Nat → Int) : Prop := o [0, 1, 2] * o [0, 1, 3] = -1 ∧ o [2, 3, 0] * o [2, 3, 1] = -1
    (k ≠ .segx → predResult k false pts qs = signOfRat (exactDet k exact) ∧ (exactDet k exact = 0 → laneStage k pts = 2)) ∧
    (k = .segx → SegmentClass exact (predResult k false pts qs)) ∧
    (¬ qs.Nodup → k ≠ .segx → predResult k true pts qs = 0) ∧
    (qs.Nodup → ∃ d : Rat, 0 < d ∧ ∀ eps : Rat, 0 < eps → eps < d →
      (k ≠ .segx → predResult k true pts qs = signOfRat (exactDet k (moved eps))) ∧
      (k = .segx → (crosses (orient eps) → predResult k true pts qs = 1) ∧ (¬ crosses (orient eps) → predResult k true pts qs = 0)))) ∧
  ∀ (s s1 : State) (p : PredArgs) (a y : Row), InTurn s s1 → readA s1 p.a .addr p.ty = .ok a →
    readB s1 (active s1 p.ms) p.b .raw p.ty = .ok y →
    let act := active s1 p.ms
    let rule (i : Instr) (k : Predicate) : Prop :=
      let qs (l : Nat) : List Nat := pointAddrs k (at_ a l).1 (at_ y l).1
      let aligned := ∀ l, l < 32 → inMask act l = true → ∀ q ∈ qs l, q % memWidth p.ty = 0
      let inRange := ∀ l, l < 32 → inMask act l = true → (fld (at_ a l).1 32 32 : BitVec 32) = 0 ∧ (pointsOf s1 k p.ty (qs l)).isSome = true
      let coords (l : Nat) : List (List FVal) := (pointsOf s1 k p.ty (qs l)).getD []
      let odd (l : Nat) : Bool := inMask act l && (coords l).any fun c => c.any fun x => !isFin x
      let trapsFor (cause : BitVec 10) (met : Nat → Prop) : Prop :=
        ∃ m : LaneMask, Traps i s cause (zx64 m) ∧ ∀ l, l < 32 → (inMask m l = true ↔ inMask act l = true ∧ met l)
      (¬aligned → trapsFor 0x301 fun l => ∃ q ∈ qs l, q % memWidth p.ty ≠ 0) ∧
      (aligned → ¬inRange → trapsFor 0x302 fun l => (fld (at_ a l).1 32 32 : BitVec 32) ≠ 0 ∨ pointsOf s1 k p.ty (qs l) = none) ∧
      (aligned → inRange → p.nf = false → (∃ l, l < 32 ∧ odd l = true) → trapsFor 0x300 fun l => odd l = true) ∧
      (aligned → inRange → (p.nf = true ∨ ∀ l, l < 32 → odd l = false) →
        let sign (l : Nat) : Int := if odd l then (if k = .segx then 7 else 2) else predResult k p.sos (coords l) (qs l)
        let stage (l : Nat) : Nat := if odd l then 0 else laneStage k (coords l)
        let lanes := (lanesOf act).map fun l => (l, stage l)
        ∃ t, exec i s = .next (nextInstr { t with
            agenda := t.agenda ++ (lanes.map fun x => Instr.theodoliteStageEnd s1.w.uid s1.w.ridNext (BitVec.ofNat 5 x.1)) }) ∧
          PendPushed s1 t p.la { PendRes.of
            [resultRow s1 p.ms p.mz (fun _ => .sign) (fun l => (BitVec.ofInt 64 (sign l), .sign)) (at_ a)] .theodolite with
            ready := lanes.isEmpty, lanesLeft := lanes, stage1 := lanes.countP fun x => decide (1 ≤ x.2)
            stage2 := lanes.countP fun x => decide (2 ≤ x.2) } 1)
    rule (.ori2 p) .ori2 ∧ rule (.ori3 p) .ori3 ∧ rule (.incir p) .incir ∧ rule (.insph p) .insph ∧ rule (.segx p) .segx

/-! ## The matrix stream -/

/-- R252, R253, R255 to R259, R263: an instruction of a stream that may act begins: its checks stop the stream with their cause, a full
footprint table holds it, and else its descriptors are taken and its footprint entered, so that its steps are granted from then on; MMA
and MMAQ that overwrite clear their tile's flag. A warp that meets a stream instruction traps STREAM_ONLY with the word. -/
def Obligations.StreamInstructionsBegin : Prop :=
  (∀ s : State, s.onStream = true → streamLive s = true → (stream s).began = false →
    let begins (i : Instr) (a b : List Word) (plan : Except (BitVec 10) Plan) (tiles : List Tile) : Prop :=
      (∀ c, plan = .error c → exec i s = .next (streamFault s c)) ∧
      (∀ p, plan = .ok p → tableFull s s.b.die (clusterOf s.b) = true → exec i s = .next (streamWait s .edge)) ∧
      (∀ p, plan = .ok p → tableFull s s.b.die (clusterOf s.b) = false → ∃ t, exec i s = .next t ∧
        t = { s with b := t.b, footprints := t.footprints, nextId := s.nextId + 1 } ∧
        t.b = { s.b with
          tiles := tiles
          stream := some { stream s with began := true, step := 0, descA := a, descB := b, wait := .none } } ∧
        t.footprints = s.footprints ++
          [{ id := s.nextId, die := s.b.die, cluster := s.b.core / 4, block := s.b.uid, job := none, reads := p.reads, writes := p.writes
             waiting := false }])
    let ws (n : BitVec 6) : List Word := s.b.desc.getD n.toNat []
    let started (x : MmaArgs) : List Tile :=
      if x.overwrite then modAt s.b.tiles x.acc.toNat (fun t => { t with flag := false }) else s.b.tiles
    let none' := descOf []
    (∀ x : MmaArgs,
      begins (.mma x) (ws x.adesc) (ws x.bdesc) (mmaPlan false x s (descOf (ws x.adesc)) (descOf (ws x.bdesc))) (started x) ∧
      begins (.mmaq x) (ws x.adesc) (ws x.bdesc) (mmaPlan true x s (descOf (ws x.adesc)) (descOf (ws x.bdesc))) (started x)) ∧
    (∀ x : RegionArgs,
      begins (.accld x) (ws x.desc) [] (regionPlan x false false s (descOf (ws x.desc)) none') s.b.tiles ∧
      (∀ flag, begins (.accst x flag) (ws x.desc) [] (regionPlan x true flag s (descOf (ws x.desc)) none') s.b.tiles) ∧
      (∀ adapt, begins (.qstore x adapt) (ws x.desc) [] (qstorePlan x s (descOf (ws x.desc)) none') s.b.tiles)) ∧
    (∀ shape acc row col, begins (.mdrain shape acc row col) [] [] (mdrainPlan shape acc row col s none' none') s.b.tiles)) ∧
  (∀ s s1 : State, s.onStream = false → InTurn s s1 →
    let only (i : Instr) : Prop := Traps i s 0x005 ((encode i).getD 0)
    (∀ x, only (.mma x) ∧ only (.mmaq x)) ∧ (∀ x, only (.accld x) ∧ (∀ f, only (.accst x f)) ∧ (∀ f, only (.qstore x f))) ∧
    (∀ a b c d, only (.mdrain a b c d)) ∧ (∀ a, only (.accz a)) ∧ (∀ a, only (.mbararv a) ∧ only (.mbarwt a)) ∧
    (∀ a b, only (.mloop a b)) ∧ (∀ a, only (.mjmp a)) ∧ only .mend)

/-- R254, R257, R258, R262, R271: MATRIX_STEP runs one step of the instruction that the stream has begun: an entry that has yet to
re-enter the table, or an edge, holds it, a fault of the step stops the stream, and the last step ends the instruction. R85, R86: a step of
MMA or MMAQ adds the sums of products of its K-block to the 32 × 32 words of its sub-tile, or replaces them in the first K-block of an
overwriting one, and changes nothing else; i8 sums are exact, clamped to i32, and a clamp sets the tile's flag. R264: a step of ACCLD puts
the elements that scratch holds, widened, into its sub-tile, the last clears the flag; one of ACCST writes its sub-tile's elements,
converted in rne, and the last the flag byte where FLAG asks for it. R265: a step of QSTORE writes its records with their counts, and the
super-scales of Q4N. No other byte changes. R266: MDRAIN puts one row segment in the queue, or waits while it holds 64. -/
def Obligations.MatrixStepsRun : Prop :=
  (∀ (s : State) (u : Nat) (w : Word) (i : Instr),
    let t := focusStream s u
    ((getBlock s u).bind (·.stream)).isSome = true → streamLive t = true → (stream t).began = true →
    fetchWord t t.b (stream t).pc = .ok w → decode true w = .ok i →
    let grants (steps : Nat) (step : State → Nat → Except StepHalt State) : Prop :=
      ((∃ e, streamEntry t = some e ∧ e.waiting = true) → exec (.matrixStep u) s = .next t) ∧
      ((∃ e, streamEntry t = some e ∧ e.waiting = false ∧ entryFree t e = false) → exec (.matrixStep u) s = .next (streamWait t .edge)) ∧
      ((∀ e, streamEntry t = some e → entryFree t e = true) →
        (∀ c, step t (stream t).step = .error (.fault c) → exec (.matrixStep u) s = .next (streamFault t c)) ∧
        (∀ r, step t (stream t).step = .error (.wait r) → exec (.matrixStep u) s = .next (streamWait t r)) ∧
        (∀ v, step t (stream t).step = .ok v → (stream t).step + 1 < steps →
          exec (.matrixStep u) s = .next (modStream v fun m => { m with step := m.step + 1, wait := .none })) ∧
        (∀ v, step t (stream t).step = .ok v → steps ≤ (stream t).step + 1 → exec (.matrixStep u) s = .next
          (streamNext (if (streamEntry v).isSome then endEntry v v.b none else v))))
    (∀ x, i = .mma x → grants (mmaSteps false x) (mmaStep false x)) ∧ (∀ x, i = .mmaq x → grants (mmaSteps true x) (mmaStep true x)) ∧
    (∀ x, i = .accld x → grants (regionSteps x) (accldStep x)) ∧
    (∀ x f, i = .accst x f → grants (regionSteps x) (accstStep x f)) ∧
    (∀ x f, i = .qstore x f → grants (qstoreSteps x) (qstoreStep x f)) ∧
    (∀ sh a r c, i = .mdrain sh a r c → grants (mdrainSteps sh) (mdrainStep sh a r c))) ∧
  (∀ (q : Bool) (x : MmaArgs) (s t : State) (n kb : Nat), kBlock q x.af x.bf = some kb → mmaStep q x s n = .ok t →
    x.acc.toNat < s.b.tiles.length → tileSorted (tileAt s x.acc.toNat).words = true →
    let nk := 2 ^ (x.shape.toNat % 4)
    let nj := shapeN x.shape / 32
    let k := n % nk * kb
    let r0 := 32 * (n / (nj * nk))
    let c0 := 32 * (n / nk % nj)
    let fresh : Bool := x.overwrite && n % nk == 0
    let terms (i j : Nat) : List (FVal × FVal) := match rowValues s (descOf (stream s).descA) x.af i k kb with
      | .ok row => row.zip (colValues s.b (descOf (stream s).descB) x.bf j k kb)
      | .error _ => []
    let inside (i j : Nat) : Prop := r0 ≤ i ∧ i < r0 + 32 ∧ c0 ≤ j ∧ j < c0 + 32
    let whole (i j : Nat) : Int :=
      ((terms i j).map fun v => intAt 0 v.1 * intAt 0 v.2).sum + if fresh then 0 else (tileWord s x.acc.toNat i j).toInt
    let sum (i j : Nat) : FVal := sumF ((terms i j).map fun v => mulF v.1 v.2)
    t = { s with b := { s.b with tiles := t.b.tiles } } ∧
    (∀ m, m ≠ x.acc.toNat → tileAt t m = tileAt s m) ∧
    (∀ i j, i < 128 → j < 128 → ¬ inside i j → tileWord t x.acc.toNat i j = tileWord s x.acc.toNat i j) ∧
    (∀ i j, i < 128 → inside i j → tileWord t x.acc.toNat i j =
      if x.af = 0 then BitVec.ofInt 32 (max (-(2 : Int) ^ 31) (min ((2 : Int) ^ 31 - 1) (whole i j)))
      else if fresh then accSet (sum i j) else accAdd (tileWord s x.acc.toNat i j) (sum i j)) ∧
    (x.af ≠ 0 → (tileAt t x.acc.toNat).flag = (tileAt s x.acc.toNat).flag) ∧
    (x.af = 0 → ((tileAt t x.acc.toNat).flag = true ↔ (tileAt s x.acc.toNat).flag = true ∨
      ∃ i j, inside i j ∧ (whole i j < -(2 : Int) ^ 31 ∨ (2 : Int) ^ 31 ≤ whole i j)))) ∧
  (∀ (x : RegionArgs) (s t : State) (n : Nat), regionShapeBad x.shape x.row x.col = false → n < regionSteps x →
    x.acc.toNat < s.b.tiles.length → tileSorted (tileAt s x.acc.toNat).words = true → BlocksWf s →
    let d := descOf (stream s).descA
    let size := elemSize d.fmt
    let r0 := 32 * (n / (shapeN x.shape / 32))
    let c0 := 32 * (n % (shapeN x.shape / 32))
    let rowOf' (i : Nat) : Nat := 32 * x.row.toNat + i
    let colOf (j : Nat) : Nat := 32 * x.col.toNat + j
    (accldStep x s n = .ok t → t = { s with b := { s.b with tiles := t.b.tiles } } ∧ (∀ m, m ≠ x.acc.toNat → tileAt t m = tileAt s m) ∧
      (tileAt t x.acc.toNat).flag = (if n + 1 = regionSteps x then false else (tileAt s x.acc.toNat).flag) ∧
      (∀ i j bs, i < 32 → j < 32 → readScratchAt s (rowAddr d (r0 + i) (c0 * size)) (32 * size) size = .ok bs →
        tileWord t x.acc.toNat (rowOf' (r0 + i)) (colOf (c0 + j)) =
          let v : Word := BitVec.ofNat 64 (ofBytes ((bs.drop (j * size)).take size))
          if x.af = 7 then v.setWidth 32 else (convert (elemTy x.af) .f32 .rne 0 false v).1.setWidth 32) ∧
      ∀ i j, i < 128 → j < 128 → ¬(rowOf' r0 ≤ i ∧ i < rowOf' r0 + 32 ∧ colOf c0 ≤ j ∧ j < colOf c0 + 32) →
        tileWord t x.acc.toNat i j = tileWord s x.acc.toNat i j) ∧
    (∀ flag, accstStep x flag s n = .ok t → t = { s with b := { s.b with scratch := t.b.scratch }, blocks := t.blocks } ∧
      PlacesWritten s t s.b.uid (((List.range 32).map fun i => (runAt s (rowAddr d (r0 + i) (c0 * size)) (32 * size),
          (List.range 32).flatMap fun j =>
            let w := zx64 (tileWord s x.acc.toNat (rowOf' (r0 + i)) (colOf (c0 + j)))
            toBytes size (if x.af = 7 then w else (convert .f32 (elemTy x.af) .rne 0 false w).1).toNat)) ++
        if flag = true ∧ n + 1 = regionSteps x then [(runAt s d.ufcBase 1, [if (tileAt s x.acc.toNat).flag then 1 else 0])] else []))) ∧
  (∀ (x : RegionArgs) (adapt : Bool) (s t : State) (n : Nat), x.af = 12 ∨ x.af = 11 → regionShapeBad x.shape x.row x.col = false →
    n < qstoreSteps x → BlocksWf s → qstoreStep x adapt s n = .ok t →
    let d := descOf (stream s).descA
    let cols := shapeN x.shape
    let s8 : Bool := x.af == 12
    let width := if s8 then 32 else 64
    let per := cols / width
    let row (i : Nat) : Nat := 32 * (if s8 then n / per else n) + i
    let count (i r : Nat) : List Place := runAt s (d.ufcBase + BitVec.ofNat 64 (row i * per + r)) 1
    let value (i r : Nat) : List Byte × Nat :=
      qstoreRecord s x adapt d (row i) (width * r) (ofBytes ((count i r).flatMap (heldAt s s.b.uid)))
    let group (i : Nat) : List FVal := regionValues s x (row i) 0 cols
    let top (i : Nat) : Word :=
      if (group i).all isFin then repack .f32 (.fin false (mantOf (maxMag (group i))) (expOf (maxMag (group i)))) else 0x7FC00000
    t = { s with b := { s.b with scratch := t.b.scratch }, blocks := t.blocks } ∧
    PlacesWritten s t s.b.uid ((List.range 32).flatMap fun i =>
      ((if s8 then [n % per] else List.range per).flatMap fun r =>
        [(runAt s (rowAddr d (row i) (r * d.rstride)) 33, (value i r).1), (count i r, [BitVec.ofNat 8 (value i r).2])]) ++
      if s8 then [] else [(runAt s (d.scaleBase + BitVec.ofNat 64 (4 * row i)) 4, toBytes 4 (top i).toNat)])) ∧
  (∀ (s : State) shape (acc row col : BitVec 2) (n : Nat),
    (64 ≤ s.b.drain.length → mdrainStep shape acc row col s n = .error (.wait .mdrain)) ∧
    (s.b.drain.length < 64 → ∃ t, mdrainStep shape acc row col s n = .ok t ∧
      t = { s with b := { s.b with drain := s.b.drain ++ [(List.range 32).map fun j =>
          let per := shapeN shape / 32
          tileWord s acc.toNat (32 * row.toNat + n / per) (32 * col.toNat + 32 * (n % per) + j)] }, agenda := t.agenda }))

/-- R109, R264, R268 to R270: where the table takes no entry each instruction waits. ACCZ zeroes its tile; MBARARV makes one arrival;
MBARWT goes on, turning its local phase bit and discarding the block's L1 lines where its barrier is one of a gang of several blocks
(R127, R129), when the barrier's phase differs from that bit, and before waits with its entry; MLOOP takes its target count times, with at
most four loops open; MJMP moves the stream, keeps the loops whose body holds the target and leaves the others; MEND ends the stream. MLOOP
and MJMP check a target only when the jump is taken (log entry 31).
R267, R170: APOP in a block with no stream traps; with no active lane it pushes zeros; it reports a faulted stream; else it pushes the
oldest segment, lane l its word l, and a stream that waits at MDRAIN has a step ready again, or it waits for one. A word of an unassigned
cell traps ILLEGAL_OPCODE with the word, and stops a stream with its step and index as aux (log entry 31). -/
def Obligations.StreamControlAndApop : Prop :=
  (∀ s : State, s.onStream = true → streamLive s = true →
     let m := stream s
     let goes (t : State) (pc : Word) : State :=
       modStream t fun m => { m with pc := pc, step := 0, began := false, wait := .none, descA := [], descB := [] }
     let next (t : State) : State := goes t (m.pc + 8)
     let full := streamEntry s = none ∧ tableFull s s.b.die (clusterOf s.b) = true
     let ends (i : Instr) (t : State) : Prop := exec i s = .next (leaveTable t)
     let waits (i : Instr) : Prop := exec i s = .next (streamWait s .edge)
     (full → (∀ acc, waits (.accz acc)) ∧ (∀ id, waits (.mbararv id) ∧ waits (.mbarwt id)) ∧ (∀ count off, waits (.mloop count off)) ∧
       (∀ off, waits (.mjmp off)) ∧ waits .mend) ∧
     (¬full →
     (∀ acc : BitVec 2, (s.b.kernel.ntiles ≤ acc.toNat → ends (.accz acc) (streamFault s 0x2C3)) ∧
       (acc.toNat < s.b.kernel.ntiles → ends (.accz acc)
         (next { s with b := { s.b with tiles := modAt s.b.tiles acc.toNat fun _ => { words := [], flag := false } } }))) ∧
     (∀ id : BitVec 5, (barAt s s.b id.toNat = none → ends (.mbararv id) (streamFault s 0x240) ∧
         exec (.mbarwt id) s = .next (streamFault s 0x240)) ∧
       (∀ p, barAt s s.b id.toNat = some p →
         ((readBar s p).expa < (readBar s p).arrv + 1 → ends (.mbararv id) (streamFault s 0x241)) ∧
         ((readBar s p).arrv + 1 ≤ (readBar s p).expa → ∃ t, arrive s s.b id.toNat 1 = .ok t ∧ ends (.mbararv id) (next t)) ∧
         (barReport s s.b id.toNat = none →
           ((readBar s p).phase = m.phases.getLsbD id.toNat →
             (streamEntry s ≠ none → exec (.mbarwt id) s = .next (streamWait s .mbarwt)) ∧
             (streamEntry s = none → exec (.mbarwt id) s = .next (streamWait (addEntry s s.b none [] []) .mbarwt))) ∧
           ((readBar s p).phase ≠ m.phases.getLsbD id.toNat → exec (.mbarwt id) s = .next
             (next (modStream (if 16 ≤ id.toNat ∧ 1 < gangSize s then dropL1 (leaveTable s) else leaveTable s)
               fun m => { m with phases := m.phases ^^^ BitVec.ofNat 32 (2 ^ id.toNat) })))) ∧
         (∀ r, barReport s s.b id.toNat = some r →
           (r.cause ≠ 0x242 → exec (.mbarwt id) s = .next (stopStream r.st r.cause r.aux)) ∧
           (r.cause = 0x242 → exec (.mbarwt id) s = .next (streamFault r.st 0x242))))) ∧
     (∀ (count : BitVec 12) (off : BitVec 24),
       let target := m.pc + 8 * off.signExtend 64
       let jumps (loops : List LoopEntry) : Prop :=
         (inCode s.b.kernel target = true → ends (.mloop count off) (goes (modStream s fun m => { m with loops := loops }) target)) ∧
         (inCode s.b.kernel target = false → ends (.mloop count off) (streamFault s 0x105))
       (∀ top rest, m.loops = top :: rest → top.at_ = m.pc →
         (0 < top.left → jumps ({ top with left := top.left - 1 } :: rest)) ∧
         (top.left = 0 → ends (.mloop count off) (next (modStream s fun m => { m with loops := rest })))) ∧
       ((∀ top rest, m.loops = top :: rest → top.at_ ≠ m.pc) →
         (4 ≤ m.loops.length → ends (.mloop count off) (streamFault s 0x2C4)) ∧
         (m.loops.length < 4 → count = 0 → ends (.mloop count off) (next s)) ∧
         (m.loops.length < 4 → count ≠ 0 → jumps ({ at_ := m.pc, target := target, left := count.toNat - 1 } :: m.loops))) ∧
       (inCode s.b.kernel target = true → ends (.mjmp off) (goes (modStream s fun m => { m with
         loops := m.loops.filter fun e => decide (e.target.toNat ≤ target.toNat ∧ target.toNat ≤ e.at_.toNat) }) target)) ∧
       (inCode s.b.kernel target = false → ends (.mjmp off) (streamFault s 0x105))) ∧
     ends .mend (tryDrain (modStream s fun m => { m with ended := true }) s.b.uid))) ∧
  (∀ s s1 : State, InTurn s s1 →
     (∀ (la : BitVec 4) (ms : BitVec 3) (ty : Ty),
       let i := Instr.apop la ms ty
       let row (seg : List (BitVec 32)) : List Entry := lanes32.map fun l =>
         valued (if inMask (active s1 ms) l then formOf ty ((seg.getD l 0).zeroExtend 64) else 0, ty)
       (s1.b.stream = none → Traps i s 0x2C6 ((encode i).getD 0)) ∧
       (s1.b.stream ≠ none →
         (active s1 ms = 0 → Pends i s s1 la (PendRes.of [row []] .other) 1) ∧
         (active s1 ms ≠ 0 → pendingIn s1 (members s1) = false → ∀ r, streamReport s1 = some r →
           exec i s = .next (deliverTrap r.st r.cause r.aux)) ∧
         (active s1 ms ≠ 0 → streamReport s1 = none →
           (s1.b.drain = [] → WaitsAt i s .apopEmpty) ∧
           (∀ seg rest, s1.b.drain = seg :: rest → Pends i s
             { s1 with
                 w := { s1.w with sealed := true }
                 b := { s1.b with
                   drain := rest
                   stream := s1.b.stream.map fun m => if m.wait = .mdrain then { m with wait := .none } else m } }
             la (PendRes.of [row seg] .other) 1)))) ∧
     (∀ w : Word, (s.onStream = false → Traps (.illegalOpcode w) s 0x000 w) ∧
       (s.onStream = true → streamLive s = true → exec (.illegalOpcode w) s = .next (streamFault s 0x000))))

/-! ## Events of warps and jobs -/

/-- R52, R175, R283: RESULT_ARRIVAL fills the entries of a ready result wherever they stand, adds its stage counts and flags, and forgets
it; a result that is not ready, or gone, changes nothing. R277: THEODOLITE_STAGE_END takes a lane to its next stage or ends it, and
the last lane makes the result ready. R385: HOST_COMPLETION_TIMEOUT gives host lanes all ones and logs. -/
def Obligations.ResultsArrive : Prop :=
  (∀ (s : State) (u rid : Nat), ((getWarp s u).bind fun w => w.pend.find? fun r => r.rid == rid) = none →
    exec (.resultArrival u rid) s = .next s ∧ exec (.hostCompletionTimeout u rid) s = .next s ∧
      ∀ l, exec (.theodoliteStageEnd u rid l) s = .next s) ∧
  (∀ (s : State) (u rid : Nat) w r, getWarp s u = some w → (w.pend.find? fun r => r.rid == rid) = some r →
    (r.ready = false → exec (.resultArrival u rid) s = .next s) ∧
    (r.ready = true → ∃ t w', exec (.resultArrival u rid) s = .next t ∧ getWarp t u = some w' ∧ t.mem = s.mem ∧
      w'.pend = w.pend.filter (fun x => x.rid != rid) ∧ w'.fflags = w.fflags ||| r.fflags ∧ w'.scalars = w.scalars ∧ w'.masks = w.masks ∧
      w'.gpstat = BitVec.ofNat 32 (min 0xFFFF (w.gpstat.toNat % 2 ^ 16 + r.stage1) + 2 ^ 16 * min 0xFFFF (w.gpstat.toNat / 2 ^ 16 + r.stage2)) ∧
      ∀ l, l < w.lanes.length → w'.lanes.getD l default = { w.lanes.getD l default with
        queue := (w.lanes.getD l default).queue.map fun e => match e.pend with
          | some (r', i) => if r' = rid then { (r.vals.getD i []).getD l .poison with pend := none } else e
          | none => e }) ∧
    (r.host = 0 → exec (.hostCompletionTimeout u rid) s = .next s) ∧
    (r.host ≠ 0 → ∃ t w', exec (.hostCompletionTimeout u rid) s = .next t ∧ getWarp t u = some w' ∧ w'.lanes = w.lanes ∧
      t.advisory.length = s.advisory.length + 1 ∧ t.mem = s.mem ∧ (w'.pend.find? fun r => r.rid == rid) = some { r with
        vals := r.vals.map fun row => row.mapIdx fun l e => if inMask r.host l then
          { e with val := if e.tag = .bool then 1 else formOf e.tag (BitVec.allOnes 64) } else e }) ∧
    (∀ (l : BitVec 5) n, (r.lanesLeft.find? fun x => x.1 == l.toNat) = some (l.toNat, n) →
      let left := if n = 0 then r.lanesLeft.filter (fun x => x.1 != l.toNat)
        else r.lanesLeft.map fun x => if x.1 = l.toNat then (x.1, n - 1) else x
      exec (.theodoliteStageEnd u rid l) s = .next { (modWarp s u fun w => { w with
          pend := w.pend.map fun p => if p.rid = rid then { p with lanesLeft := left, ready := left.isEmpty } else p }) with
        agenda := s.agenda ++ if left.isEmpty then [.resultArrival u rid] else if n = 0 then [] else [.theodoliteStageEnd u rid l] }))

/-- R32, R127, R185, and the waits of Table 02-2: SLOT_AGED marks a slot passed over 32 times, YIELD_EXPIRY ends its YIELD,
CACHE_LINE_EXPIRY discards a line; each wake runs the waiting instruction again in its slot, or finds none and changes nothing (log entry
42). -/
def Obligations.WaitsEnd : Prop :=
  ∀ (s : State) (u : Nat) (p : PcSlot),
    let again (ev : Instr) (r : WaitReason) (fits : Instr → Prop) : Prop := ∃ t, exec ev s = .next t ∧
      (∀ i, heldInstr s u p r = some i → fits i → exec i (resumeSlot s u p) = .next t) ∧
      ((∀ i, heldInstr s u p r = some i → ¬fits i) → t = s)
    again (.barwtWake u p) .barwt (fun i => ∃ a b, i = .barwt a b) ∧
    again (.fqputLand u p) .fifoFull (fun i => ∃ a b c d, i = .fqput a b c d) ∧
    again (.fqgetWake u p) .fifoEmpty (fun i => ∃ a b, i = .fqget a b) ∧
    again (.swaitWake u p) .swait (fun i => ∃ a b, i = .swait a b) ∧
    again (.apopWake u p) .apopEmpty (fun i => ∃ a b c, i = .apop a b c) ∧
    again (.waitdepRelease u p) .waitdep (fun i => i = .waitdep) ∧
    again (.bankcfgDrainEnd u p) .bankcfg (fun i => ∃ a b, i = .bankcfg a b) ∧
    (∃ t, exec (.mbarwtWake u) s = .next t ∧
      (((getBlock s u).bind fun b => b.stream.map (·.wait)) ≠ some .mbarwt → t = s) ∧
      (((getBlock s u).bind fun b => b.stream.map (·.wait)) = some .mbarwt → ∀ w id,
        let f := focusStream s u
        streamLive f = true → (streamEntry f).all (fun e => !e.waiting) = true → fetchPoison f f.b (stream f).pc = false →
        fetchWord f f.b (stream f).pc = .ok w → decode true w = .ok (.mbarwt id) → exec (.mbarwt id) f = .next t)) ∧
    (∃ t, exec (.slotAged u p) s = .next t ∧ t.mem = s.mem ∧
      (∀ w, getWarp s u = some w → ((slotOf w p).passed < 32 ∨ (slotOf w p).aged ≠ none) → t = s) ∧
      (∀ w, getWarp s u = some w → 32 ≤ (slotOf w p).passed → (slotOf w p).aged = none → t.nextId = s.nextId + 1 ∧
        getWarp t u = some (setSlot w p { slotOf w p with aged := some s.nextId }))) ∧
    (∃ t, exec (.yieldExpiry u p) s = .next t ∧ t.mem = s.mem ∧ t.agenda = s.agenda ∧ ∀ w, getWarp s u = some w →
      getWarp t u = some (setSlot w p { slotOf w p with yielding := false })) ∧
    (∀ line : Word, ∃ t, exec (.cacheLineExpiry u line) s = .next t ∧ t.mem = s.mem ∧ t.dies = s.dies ∧ ∀ b, getBlock s u = some b →
      getBlock t u = some { b with l1 := b.l1.filter fun l => l.line != line.toNat })

/-- R104, R105, R107 to R110, R114, R394: SLUICE_CHUNK_START reads the oldest chunk not begun of a job that may go on, and makes its landing
and the next start due, or the job's fault, unless token buckets hold its requests, whose queues it then joins. SLUICE_CHUNK_LAND writes
the chunk's bytes into memory, scratch or the B-plane at the places of its runs, and no other byte, once the die may write them; until then
it asks the homes, and the runs that have yet to land stay (log entry 29). The chunk at the landed head advances it; the barrier that the
job names is credited with the bytes; with the last chunk the job is complete and its footprint entry free. SLUICE_JOB_FAULT records the
cause and frees the footprint entry; FOOTPRINT_ENTRY_GRANT lets the oldest waiting entry of a block that runs in again. -/
def Obligations.SluiceJobsAdvance : Prop :=
  (∀ (s : State) (u n : Nat) b e j, getBlock s u = some b →
    (s.footprints.find? fun e => e.block == u && e.job == some n) = some e → getJob b n = some j →
    let c := chunksRead j
    let may := enginesRun s b = true ∧ j.done = false ∧ j.faulted = false ∧ j.paused = false ∧ entryFree s e = true ∧ c * 4096 < j.len
    (¬may → exec (.sluiceChunkStart u n) s = .next s) ∧
    (may → (∀ f, readChunk s b j c = .error f →
        exec (.sluiceChunkStart u n) s = .next { s with agenda := s.agenda ++ [.sluiceJobFault u n c (BitVec.ofNat 3 f)] }) ∧
      (∀ bytes targets ps v, readChunk s b j c = .ok (bytes, targets, ps, v) →
        let paths := (ps.flatMap (placePaths b j)).eraseDups
        let req := HeldReq.chunk b.uid j.num
        (blocking s b.vf req paths = [] → ∃ t, exec (.sluiceChunkStart u n) s = .next t ∧ t.mem = s.mem ∧
          ((getBlock t u).bind fun b => getJob b n) = some { j with begun := j.begun ++ [{ num := c, bytes := bytes, targets := targets }] } ∧
          t.agenda = s.agenda ++ .sluiceChunkLand u n c :: if j.len ≤ (c + 1) * 4096 then [] else [.sluiceChunkStart u n]) ∧
        (blocking s b.vf req paths ≠ [] → exec (.sluiceChunkStart u n) s = .next (holdRetry s b.vf req paths))))) ∧
  (∀ (s : State) (b : Block) (base : Nat) (bytes : List Byte) (xs : List (Span × List Place)), LinesOk s → BlocksWf s → b.die < 8 →
    b.die < s.dies.length → getBlock s b.uid = some b →
    (∀ x ∈ xs, base ≤ x.1.pos ∧ x.1.pos - base + (x.2.map placeLen).sum ≤ bytes.length ∧
      (∀ v byte m, Place.scratch v byte m ∈ x.2 → (getBlock s v).isSome = true) ∧
      ∀ k m attr, Place.mem k m attr ∈ x.2 → placeReady s b.die (.mem k m attr) = true ∧
        ∀ line ∈ linesAt k m, HoldsCurrent s b.die (line * 128) ∧ onWayHome s line = none) →
    let t := landSpans s b [] base bytes xs
    LinesOk t ∧ PlacesWritten s t b.uid (xs.map fun x => (x.2, (bytes.drop (x.1.pos - base)).take (x.2.map placeLen).sum))) ∧
  (∀ (s : State) (u n c : Nat) b j x, getBlock s u = some b → getJob b n = some j → (j.begun.find? fun x => x.num == c) = some x →
    b.die < 8 → b.st = .running → (∀ g, getGang s b.gang = some g → g.blocks.contains b.uid = true) →
    (∀ run rest, x.targets = run :: rest → (∃ p ∈ run.2, placeReady s b.die p = false) →
      ∃ t, exec (.sluiceChunkLand u n c) s = .next t ∧ t.mem = s.mem ∧ (∀ d, (getDie t d).l2 = (getDie s d).l2) ∧
        (∀ v, scratchOf t v = scratchOf s v) ∧ ((getBlock t u).bind fun b => getJob b n) =
          some { j with begun := j.begun.map fun y => if y.num = c then { y with targets := x.targets } else y }) ∧
    ((∀ y ∈ x.targets, ∀ p ∈ y.2, placeReady s b.die p = true) → j.kind ≠ 4 → j.landed = [] → j.landedHead = c * 4096 → c * 4096 < j.len →
      j.faulted = false →
      let v := landSpans s b [] (c * 4096) x.bytes x.targets
      let upTo := min j.len ((c + 1) * 4096)
      ∃ t, exec (.sluiceChunkLand u n c) s = .next t ∧ t.mem = v.mem ∧ t.dies = v.dies ∧
        (getBlock t u).map (·.bplane) = (getBlock v u).map (·.bplane) ∧ (j.bar = none → ∀ w, scratchOf t w = scratchOf v w) ∧
        (∀ i p, j.bar = some i → barAt v b i.toNat = some p →
          let y := readBar v p
          scratchOf t p.1 = scratchOf (writeBar v p ({ y with bytes := min y.expb (y.bytes + (upTo - c * 4096)) } : Bar).settle) p.1) ∧
        (upTo < j.len → ((getBlock t u).bind fun b => getJob b n) =
          some { j with begun := j.begun.filter fun y => y.num != c, landedHead := upTo, done := false }) ∧
        (upTo = j.len → ((getBlock t u).bind fun b => getJob b n) = none ∧ ∀ e ∈ t.footprints, ¬(e.block = u ∧ e.job = some n)))) ∧
  (∀ (s : State) (u n c : Nat) (f : BitVec 3) b j, getBlock s u = some b → getJob b n = some j →
    (j.done = true ∨ j.faulted = true → exec (.sluiceJobFault u n c f) s = .next s) ∧
    (j.done = false → j.faulted = false → b.st = .running → (∀ g, getGang s b.gang = some g → g.blocks.contains b.uid = true) → ∃ t, exec (.sluiceJobFault u n c f) s = .next t ∧ t.mem = s.mem ∧
      (∀ e ∈ t.footprints, ¬(e.block = u ∧ e.job = some n)) ∧
      ((getBlock t u).bind fun b => getJob b n) = some { j with
        faulted := true, cause := BitVec.ofNat 10 (0x280 + (if j.srcsp = .remote ∨ j.dstsp = .remote then 6 else j.kind) * 8 + f.toNat)
        faultChunk := c, faultOrder := s.nextId, begun := j.begun.filter fun x => x.num != c })) ∧
  (∀ (s : State) (die cl : Nat),
    (reentering s die cl = [] ∨ 64 ≤ heldEntries s die cl → exec (.footprintEntryGrant die cl) s = .next s) ∧
    (heldEntries s die cl < 64 → ∀ e, reentering s die cl = [e] → ∃ t, exec (.footprintEntryGrant die cl) s = .next t ∧
      t.footprints = s.footprints.map (fun x => if x.id = e.id then { x with waiting := false } else x) ∧
      t.agenda = s.agenda ++ match e.job with | some n => [.sluiceChunkStart e.block n] | none => [.mbarwtWake e.block]))

/-! ## The Cadastre and the chain -/

/-- R394, R395, R397 to R399: what a home does with a message. A request that finds its page's entry idle: RD is answered with the line
and takes the sharer, beside another owner off a rounded page once that owner has answered REVOKE (log entry 11); WREQ is granted, for all
16 sub-pages where no die owns any, once the sub-page's owner and, off a rounded page, the other sharers have answered; RADV flushes the
owners, advances the round, tells every sharer, and answers. A request that finds messages outstanding waits in the entry's queue, and
one for which an I/O die has no entry left waits while it recalls one. An answer writes its lines at the home and, where it answers the
outstanding message, lets the requests go on; one to a message that a NOTICE has answered is discarded. WB and NOTICE write modified lines; a
NOTICE with REMAIN 0 takes the die off the page and answers what is outstanding to it. Messages between different dies are packets (log
entry 16). -/
def Obligations.HomesServeMessages : Prop :=
  ∀ (s : State) (die page : Nat), die < 8 →
    let e := entryOfPage s page
    let home := homeOfPage page
    let sendAll (u : State) (ms : List (Nat × Instr)) : State := ms.foldl (fun u m => sendMsg u home m.1 m.2) u
    let others (p : Nat → Bool) : List Nat := (List.range 8).filter p
    (needsEntry s page = false → e.pend = [] → e.busy = none → e.queue = [] →
      (∀ line, line / 512 = page → (ownerOf e (subOf line) = none ∨ ownerOf e (subOf line) = some die ∨ e.rounded = true) →
        ∃ u, exec (.rd die line) s = .next (sendMsg u home die (.data die line (readBytes s.mem (line * 128) 128) e.round)) ∧
          u = { s with dirs := u.dirs, parts := u.parts } ∧
          entryOfPage u page = { e with sharers := e.sharers ||| sharerBit die, phase := 0 }) ∧
      (∀ line o, line / 512 = page → ownerOf e (subOf line) = some o → o ≠ die → e.rounded = false →
        let mask := subBit (subOf line)
        ∃ u, exec (.rd die line) s = .next (sendMsg u home o (.revoke o page mask)) ∧ u = { s with dirs := u.dirs } ∧
          entryOfPage u page = { e with busy := some (.rd die line), pend := [(o, .revoke mask)], phase := 0 }) ∧
      (∀ sub,
        let owner := ownerOf e sub
        let mask : BitVec 16 := if e.own.all (· == 0) = true then BitVec.allOnes 16 else subBit sub
        let sharers := others fun d => !e.rounded && e.sharers.getLsbD d && d != die && some d != owner
        let asked : List (Nat × PendMsg) :=
          owner.toList.map (fun o => (o, .revoke (subBit sub))) ++ sharers.map fun d => (d, .inv (subBit sub))
        (owns e die sub = true ∨ asked = [] → ∃ u, exec (.wreq die page sub) s = .next (sendMsg u home die (.grant die page mask)) ∧
          u = { s with dirs := u.dirs } ∧ entryOfPage u page = { e with
            own := modAt e.own die (· ||| mask), sharers := e.sharers ||| sharerBit die, pend := [(die, .grant mask)], phase := 0 }) ∧
        (owns e die sub = false → asked ≠ [] → ∃ u, u = { s with dirs := u.dirs } ∧
          exec (.wreq die page sub) s = .next (sendAll u (owner.toList.map (fun o => (o, .revoke o page (subBit sub))) ++
            sharers.map fun d => (d, .inv d page (subBit sub)))) ∧
          entryOfPage u page = { e with
            busy := some (.wreq die sub), pend := asked.reverse, phase := if e.own.all (· == 0) = true then 1 else 0 })) ∧
      (∀ w rid,
        let owners := others fun d => ownMask e d != 0
        let sharers := others fun d => e.sharers.getLsbD d
        let lines := ((List.range 512).filter fun i => e.push && e.wmap.getLsbD i).map fun i =>
          ({ line := page * 512 + i, bytes := readBytes s.mem ((page * 512 + i) * 128) 128 } : LineData)
        (owners ≠ [] → ∃ u, exec (.radvreq die page w rid) s = .next (sendAll u (owners.map fun d => (d, .flush d page))) ∧
          u = { s with dirs := u.dirs } ∧ entryOfPage u page = { e with
            busy := some (.radv die w rid), pend := (owners.map fun d => (d, PendMsg.flush)).reverse, phase := 0 }) ∧
        (owners = [] → sharers ≠ [] → ∃ u,
          exec (.radvreq die page w rid) s = .next (sendAll u (sharers.map fun d => (d, .advance d page (e.round + 1) e.wmap lines))) ∧
          u = { s with dirs := u.dirs, parts := u.parts } ∧ entryOfPage u page = { e with
            round := e.round + 1, wmap := 0, busy := some (.radv die w rid), phase := 1
            pend := (sharers.map fun d => (d, PendMsg.advance)).reverse }) ∧
        (owners = [] → sharers = [] → ∃ u, exec (.radvreq die page w rid) s = .next (sendMsg u home die (.radvdone page w rid (e.round + 1))) ∧
          u = { s with dirs := u.dirs, parts := u.parts } ∧ entryOfPage u page = { e with round := e.round + 1, wmap := 0, phase := 0 }))) ∧
    (needsEntry s page = false → e.pend ≠ [] → ∀ line w rid sub,
      exec (.wreq die page sub) s = .next (setDir s { e with queue := e.queue ++ [.wreq die sub] }) ∧
      exec (.radvreq die page w rid) s = .next (setDir s { e with queue := e.queue ++ [.radv die w rid] }) ∧
      (line / 512 = page → exec (.rd die line) s = .next (setDir s { e with queue := e.queue ++ [.rd die line] }))) ∧
    (needsEntry s page = true → (∃ x ∈ s.dirs, homeOfPage x.page = home ∧ x.busy = some .recall) → ∀ line w rid sub,
      let hold (i : Instr) : State := modDie s home fun x => { x with held := x.held ++ [i] }
      exec (.wreq die page sub) s = .next (hold (.wreq die page sub)) ∧ exec (.radvreq die page w rid) s = .next (hold (.radvreq die page w rid)) ∧
      (line / 512 = page → exec (.rd die line) s = .next (hold (.rd die line)))) ∧
    (∀ lines,
      let wrote := writeLines s lines
      let flushed := writeLines (lines.foldl (fun s l => markDirty s (l.line * 128)) s) lines
      (e.void.contains die = true →
        let left (s : State) := modDir s page fun e => { e with void := e.void.erase die }
        exec (.iack die page) s = .next (left s) ∧ exec (.advack die page) s = .next (left s) ∧ exec (.gone die page) s = .next (left s) ∧
        exec (.rvack die page lines) s = .next (left wrote) ∧ exec (.fack die page lines) s = .next (left flushed)) ∧
      (e.void.contains die = false →
        let after (s : State) (p : PendMsg) : State :=
          let e := entryOfPage s page
          answeredBy s page die { e with sharers := if holdsPage s die page then e.sharers else e.sharers &&& ~~~sharerBit die } p
        ((∀ m, pendOf e die ≠ some (.inv m)) → exec (.iack die page) s = .next s) ∧
        ((∀ m, pendOf e die ≠ some (.revoke m)) → exec (.rvack die page lines) s = .next wrote) ∧
        (pendOf e die ≠ some .flush → exec (.fack die page lines) s = .next flushed) ∧
        (pendOf e die ≠ some .advance → exec (.advack die page) s = .next s) ∧
        ((∀ p, pendOf e die = some p → isGrant p = true) → exec (.gone die page) s = .next s) ∧
        (∀ p, pendOf e die = some p → isGrant p = false → exec (.gone die page) s = .next (after s p)) ∧
        (∀ m, pendOf e die = some (.inv m) → exec (.iack die page) s = .next (after s (.inv m))) ∧
        (∀ m, pendOf e die = some (.revoke m) → exec (.rvack die page lines) s = .next (after wrote (.revoke m))) ∧
        (pendOf e die = some .flush → exec (.fack die page lines) s = .next (after flushed .flush)) ∧
        (pendOf e die = some .advance → exec (.advack die page) s = .next (after s .advance)))) ∧
    (∀ line bytes, line / 512 = page →
      exec (.wback die line) s = .next s ∧
      ((∀ l, findL2 s die line = some l → l.modified = false) → exec (.wb die line bytes) s = .next (sendMsg s home die (.wback die line))) ∧
      (∀ l, findL2 s die line = some l → l.modified = true → ∃ u, exec (.wb die line bytes) s = .next (sendMsg u home die (.wback die line)) ∧
        u.mem = writeBytes s.mem (line * 128) bytes ∧ u.agenda = s.agenda ∧ u.routes = s.routes ∧
        findL2 u die line = some { l with modified := decide (l.bytes ≠ bytes) }) ∧
      ∀ dirty : Option (List Byte),
        let wrote := match dirty with
          | some bytes => writeHome s line bytes
          | none => s
        let e := entryOfPage wrote page
        let grant : Bool := (pendOf e die).any isGrant
        let e' := { e with
          sharers := e.sharers &&& ~~~sharerBit die, own := setAt e.own die 0
          void := if grant ∨ pendOf e die = none then e.void else die :: e.void, withdrawn := if grant then die :: e.withdrawn else e.withdrawn }
        (∀ n, n ≠ 0 → exec (.notice die line n dirty) s = .next wrote) ∧
        (pendOf e die = none → ∃ u, exec (.notice die line 0 dirty) s = .next u ∧ u = { wrote with dirs := u.dirs } ∧
          ((getDir s page).isSome = true → entryOfPage u page = e')) ∧
        ∀ p, pendOf e die = some p → exec (.notice die line 0 dirty) s = .next (answeredBy wrote page die e' p))

/-- R136 to R139, R394, R396 to R399, R403: what a die does with a message from a home. DATA brings a line, which does not overwrite one
that the die modified and, off a rounded page, is dropped where another die has come to own the sub-page (log entry 11). INV, REVOKE and
FLUSH are answered with the modified lines they ask for, and with GONE where the die holds none of the page; REVOKE off a rounded page
discards the lines of the sub-pages too (log entry 16). GRANT lets the stores held for the page try again, on a rounded page
with old lines asked for again (log entry 11); a die that holds no line of the page asks again. ADVANCE moves the mirror, takes pushed
lines and marks the rest, and is acknowledged once no line is pending. RADVDONE gives the waiting RADV its round. An evicted line is gone,
with the mirror where it was the page's last, and a NOTICE goes home. Messages between different dies are packets (log entry 16). -/
def Obligations.DiesServeMessages : Prop :=
  ∀ (s : State) (die page : Nat), die < 8 → die < s.dies.length →
    let e := entryOfPage s page
    let home := homeOfPage page
    (∀ line bytes f, line / 512 = page → ∃ t, exec (.data die line bytes f) s = .next t ∧ t.mem = s.mem ∧
      (getDie t die).reads = (getDie s die).reads.erase line ∧
      (∀ a ∈ s.inflight, a.die = die → pageOf a.cell.addr = page → Instr.accessPerformed a.id ∈ t.agenda) ∧
      (hasPending s die page = true → hasPending t die page = false → Sent t die home (.advack die page)) ∧
      ((e.rounded = true ∨ ∀ o, ownerOf e (subOf line) = some o → o = die) →
        ((findL2 s die line).any (·.modified) = false →
          findL2 t die line = some { line := line, bytes := bytes, modified := false, f := f, pending := false }) ∧
        (∀ l, findL2 s die line = some l → l.modified = true → findL2 t die line = some { l with pending := false })) ∧
      (∀ o, e.rounded = false → ownerOf e (subOf line) = some o → o ≠ die → (getDie t die).l2 = (getDie s die).l2)) ∧
    (∀ mask : BitVec 16,
      (holdsPage s die page = false →
        exec (.inv die page mask) s = .next (sendMsg s die home (.gone die page)) ∧
        exec (.flush die page) s = .next (sendMsg s die home (.gone die page)) ∧
        ∃ u, exec (.revoke die page mask) s = .next (sendMsg u die home (.gone die page)) ∧ u = { s with dirs := u.dirs } ∧
          entryOfPage u page = { e with own := modAt e.own die (· &&& ~~~mask) }) ∧
      (holdsPage s die page = true →
        exec (.inv die page mask) s = .next (sendMsg (dropLines s die (inSubs page mask)) die home (.iack die page)) ∧
        (∃ u, exec (.revoke die page mask) s = .next (sendMsg u die home (.rvack die page (modifiedLines s die page (inSubs page mask)))) ∧
          u = { s with dirs := u.dirs, dies := u.dies } ∧ entryOfPage u page = { e with own := modAt e.own die (· &&& ~~~mask) } ∧
          (∀ l ∈ (getDie u die).l2, inSubs page mask l.line = true → l.modified = false ∧ e.rounded = true) ∧
          ∀ line, inSubs page mask line = false → findL2 u die line = findL2 s die line) ∧
        (∃ u, exec (.flush die page) s = .next (sendMsg u die home (.fack die page (modifiedLines s die page fun _ => true))) ∧
          u = { s with dies := u.dies } ∧ (∀ l ∈ (getDie u die).l2, l.line / 512 = page → l.modified = false) ∧
          ∀ line, line / 512 ≠ page → findL2 u die line = findL2 s die line))) ∧
    (∀ mask : BitVec 16, e.queue = [] → e.busy = none → ∃ t, exec (.grant die page mask) s = .next t ∧ t.mem = s.mem ∧
      (getDie t die).l2.map (·.line) = (getDie s die).l2.map (·.line) ∧
      ((getDir s page).isSome = true → entryOfPage t page =
        if e.withdrawn.contains die then { e with withdrawn := e.withdrawn.erase die }
        else if (pendOf e die).any isGrant then dropPend e die else e) ∧
      (holdsPage s die page = true →
        (∀ x, x ∈ (getDie t die).wants ↔ x ∈ (getDie s die).wants ∧ ¬(x.1 = page ∧ mask.getLsbD x.2 = true)) ∧
        (∀ a ∈ s.inflight, a.die = die → pageOf a.cell.addr = page → Instr.accessPerformed a.id ∈ t.agenda) ∧
        (e.rounded = false → getDie t die = { getDie s die with wants := (getDie t die).wants }) ∧
        ∀ l ∈ (getDie s die).l2, e.rounded = true → inSubs page mask l.line = true → l.modified = false →
          (∀ m, mirrorOf s die page = some m → (l.f - m).toNat ≥ 2 ^ 31 ∨ e.wmap.getLsbD (l.line % 512) = true) →
          mirrorOf s die page ≠ none → l.line ∈ (getDie t die).reads) ∧
      (holdsPage s die page = false → ∀ a, (s.inflight.find? fun a => a.die == die && pageOf a.cell.addr == page) = some a →
        (page, subOf (lineOf a.cell.addr)) ∈ (getDie t die).wants)) ∧
    (∀ (round : BitVec 32) (map : BitVec 512) (pushed : List LineData),
      (holdsPage s die page = false → ∃ u, exec (.advance die page round map pushed) s = .next (sendMsg u die home (.gone die page)) ∧
        u = { s with dies := u.dies } ∧ mirrorOf u die page = none ∧ (getDie u die).l2 = (getDie s die).l2) ∧
      (holdsPage s die page = true → ∃ u,
        exec (.advance die page round map pushed) s =
          .next (if hasPending u die page then u else sendMsg u die home (.advack die page)) ∧ u.mem = s.mem ∧ u.dirs = s.dirs ∧
        mirrorOf u die page = some round ∧ (getDie u die).l2 = (getDie s die).l2.map fun l =>
          if l.line / 512 = page then
            if map.getLsbD (l.line % 512) then
              (if e.push ∧ l.modified = false then
                match pushed.find? fun p => p.line == l.line with
                | some p => { l with bytes := p.bytes, f := round, pending := false }
                | none => { l with pending := true }
              else l)
            else if l.f = round - 1 then { l with f := round } else l
          else l)) ∧
    (∀ u rid (round : BitVec 32) w r, getWarp s u = some w → (w.pend.find? fun r => r.rid == rid) = some r → ∃ t w',
      exec (.radvdone page u rid round) s = .next t ∧ t.agenda = s.agenda ++ [.resultArrival u rid] ∧ getWarp t u = some w' ∧ t.mem = s.mem ∧
        (w'.pend.find? fun r => r.rid == rid) = some { r with
          ready := true, lineWaits := [], vals := r.vals.map fun row => row.mapIdx fun l e =>
            if r.lineWaits.any fun x => x.1 == l then valued (round.zeroExtend 64, .n32) else e }) ∧
    (∀ l ∈ (getDie s die).l2,
      let n := ((getDie s die).l2.filter fun x => x.line / 512 == l.line / 512 && x.line != l.line).length
      ∃ u, evictLine s die l =
          sendMsg u die (homeOfPage (l.line / 512)) (.notice die l.line n (if l.modified then some l.bytes else none)) ∧
        u = { s with dies := u.dies } ∧ findL2 u die l.line = none ∧ (∀ line, line ≠ l.line → findL2 u die line = findL2 s die line) ∧
        (n = 0 → mirrorOf u die (l.line / 512) = none) ∧ (n ≠ 0 → (getDie u die).mirrors = (getDie s die).mirrors)) ∧
    (∀ l, evictedLine s die = some l → l ∈ (getDie s die).l2 ∧ l.pending = false ∧ storeHeld s die l.line = false ∧
      24576 < ((getDie s die).l2.filter fun x => sliceOf s x.line == sliceOf s l.line).length) ∧
    ∀ val : Word, ∃ t, exec (.cdsStatClear die val) s = .next t ∧ t.mem = s.mem ∧ (val.getLsbD 63 = false → t = s) ∧
      (val.getLsbD 63 = true → getDie t die = { getDie s die with handoffs := 0, recalls := 0 })

/-- R401 to R403, R365, R367: a flit error begins a retrain at both ends, which fails the link 2 µs later unless RETRAIN_END comes first;
a failed link without a failover path stops its partition's gangs. A message between two dies is the next packet of its route. A route
delivers its packets once and in order, none while a link of it retrains, and those that waited then; it takes the failover path of a
link that has failed, and delivers nothing where there is none; a packet that meets a closed link is dropped and counted. The statistics
clear on bit 63. Which links a route has, and that a loss of lock comes as a flit error, are the model's (log entry 16). -/
def Obligations.LinksRetrainAndDeliver : Prop :=
  ∀ (s : State) (link : Nat), link < 32 → s.links.length = 32 →
    let x := getLink s link
    let waits := s.routes.flatMap fun r => r.packets.map fun p => Instr.packetDelivery r.src r.dst p.1
    ((x.retraining = true ∨ x.failed = true) → exec (.flitCrcError link) s = .next s) ∧
    (x.retraining = false → x.failed = false → ∃ t, exec (.flitCrcError link) s = .next t ∧
      t = { s with links := t.links, timers := s.timers ++ [(s.cycle + 5400, .linkFailover link)] } ∧
      getLink t link = { x with retraining := true, retrains := if x.retrains = -1 then -1 else x.retrains + 1 } ∧
      ∀ j, otherEnd link = some j → (getLink t j).retraining = true) ∧
    (x.retraining = false → exec (.linkFailover link) s = .next s ∧ ∀ n, exec (.retrainEnd link n) s = .next s) ∧
    (x.retraining = true →
      (∀ n, ∃ t, exec (.retrainEnd link n) s = .next t ∧ t = { s with links := t.links, timers := t.timers, agenda := s.agenda ++ waits } ∧
        getLink t link = { x with retraining := false, replays := BitVec.ofNat 16 (min 0xFFFF (x.replays.toNat + n)) } ∧
        ∀ k, (k, Instr.linkFailover link) ∉ t.timers) ∧
      (∃ t, exec (.linkFailover link) s = .next t ∧ getLink t link = { x with retraining := false, failed := true } ∧ t.mem = s.mem ∧
        (failoverPath (modLink s link fun x => { x with retraining := false, failed := true }) link = true →
          t = { s with links := t.links, agenda := s.agenda ++ waits }) ∧
        (failoverPath (modLink s link fun x => { x with retraining := false, failed := true }) link = false →
          neighbour (link / 4) (link % 4) ≥ 8 → t.sal.pending = s.sal.pending ++ [{ source := 6, severity := 2, time := gtime s, unit := BitVec.ofNat 16 (link / 4 + 16 * link)
                                                                                    loc := 0, addr := 0, cause := 0x38B }]))) ∧
    (∀ (src dst : Nat) (i : Instr),
      let packets (s : State) (a b : Nat) : Option Route := s.routes.find? fun r => r.src == a && r.dst == b
      let r : Route := (packets s src dst).getD { src := src, dst := dst, next := 0, expect := 0, packets := [] }
      (src = dst → sendMsg s src dst i = { s with agenda := s.agenda ++ [i] }) ∧
      (src ≠ dst → linksClosed s src dst = true → sendMsg s src dst i = countDrop s) ∧
      (src ≠ dst → linksClosed s src dst = false →
        let t := sendMsg s src dst i
        t = { s with routes := t.routes, agenda := s.agenda ++ [.packetDelivery src dst r.next] } ∧
        packets t src dst = some { r with next := r.next + 1, packets := r.packets ++ [(r.next, i)] } ∧
        ∀ a b, ¬(a = src ∧ b = dst) → packets t a b = packets s a b)) ∧
    (∀ src dst,
      (routeStopped s src dst = false ↔ ∃ ls, routeLinks s src dst = some ls ∧ ∀ i ∈ ls, (getLink s i).retraining = false) ∧
      ((∀ i, i < 32 → (getLink s i).failed = false) → ∃ ls, routeLinks s src dst = some ls) ∧
      ∀ ls, routeLinks s src dst = some ls → src < 10 → dst < 10 → ∀ i ∈ ls, i < 32 ∧ (getLink s i).failed = false) ∧
    (∀ src dst seq r, (s.routes.find? fun r => r.src == src && r.dst == dst) = some r →
      ((seq ≠ r.expect ∨ routeStopped s src dst = true) → exec (.packetDelivery src dst seq) s = .next s) ∧
      (∀ i, routeStopped s src dst = false → (r.packets.find? fun p => p.1 == r.expect) = some (r.expect, i) → ∃ t, exec (.packetDelivery src dst r.expect) s = .next t ∧
        (linksClosed s src dst = false → t = { s with routes := t.routes, agenda := s.agenda ++ [i] }) ∧
        (linksClosed s src dst = true → t = { countDrop s with routes := t.routes }) ∧
        (t.routes.find? fun r => r.src == src && r.dst == dst) =
          some { r with expect := r.expect + 1, packets := r.packets.filter fun p => p.1 != r.expect })) ∧
    (∀ val : Word,
      (val.getLsbD 63 = false → exec (.lnkStatClear link val) s = .next s ∧ exec (.fwlDropClear val) s = .next s) ∧
      (val.getLsbD 63 = true → exec (.fwlDropClear val) s = .next { s with datum := { s.datum with drop := 0 } } ∧
        ∃ t, exec (.lnkStatClear link val) s = .next t ∧ t = { s with links := t.links } ∧
          getLink t link = { x with retrains := 0, replays := 0 }))

/-! ## Launches, slices, clocks -/

/-- R334: LAUNCH_COMPLETION completes a launch whose gangs have all ended, or that is aborted, with an entry of KIND 2, and nothing
before. R22, R311 to R313, R383: GANG_PLACE resumes the first SWITCHED gang of the running VF, else starts the next gang of the launch on
the place found: its blocks stand on one die, each with its kernel's warps at the first instruction. R23: COOP_WAIT_EXPIRY. R37, R419:
UNCORRECTABLE_ERROR aborts the launch of a gang whose kernel is not idempotent, relaunches the gang of an idempotent one the first
time, and logs the error with SOURCE 6; one of the Datum ends every launch (log entry 46); one of a cache-way line, or of an L2 line that
no die holds modified, stops nothing; an error of a memory array poisons its word, unless it was corrected, and an HBM stack logs it with
SOURCE 0, or loses and counts it where its log is full (log entry 22). -/
def Obligations.LaunchesAreScheduled : Prop :=
  (∀ (s : State) (vf n : Nat),
    (getLaunch s vf n = none → exec (.launchCompletion vf n) s = .next s) ∧
    ∀ l, getLaunch s vf n = some l →
      ((l.completed = true ∨ l.aborted = false ∧ l.retired ≠ gangTotal l) → exec (.launchCompletion vf n) s = .next s) ∧
      ((∃ a ∈ s.inflight, a.vf = vf ∧ getWarp s a.warp = none) → exec (.launchCompletion vf n) s = .next s) ∧
      (l.completed = false → (l.aborted = true ∨ l.retired = gangTotal l) → (∀ a ∈ s.inflight, a.vf = vf → (getWarp s a.warp).isSome = true) →
        ∃ t, exec (.launchCompletion vf n) s = .next t ∧ t.mem = s.mem ∧ t.gangs = s.gangs ∧
          getLaunch t vf n = some { l with completed := true } ∧
          ∀ v, getVf s vf = some v → getVf t vf = some { v with hif := { v.hif with waiting := v.hif.waiting ++
            [completionEntry l.tag (BitVec.ofNat 64 n) (if l.aborted then l.cause.toNat else 0) 2 (if l.aborted then l.aux else 0)] } })) ∧
  (∀ (s : State) (part : Nat), s.datum.coreBusy = false → (∀ g ∈ s.gangs, awaitsCores s part g = none) →
    (placingVf s part = none → exec (.gangPlace part) s = .next s) ∧
    (∀ v g gs, placingVf s part = some v → pausedGangs s v.number = g :: gs → g.st = .switched → gangBlocks s g.uid ≠ [] →
      getGang s g.uid = some g → gangPart s g = none →
      ∃ t, exec (.gangPlace part) s = .next t ∧ t.mem = s.mem ∧ getGang t g.uid = some { g with st := .running } ∧
        (∀ b ∈ allBlocks t, g.blocks.contains b.uid = true → b.st ≠ .switched) ∧
        ∀ w ∈ allWarps t, g.blocks.contains w.block = true → w.saved = false) ∧
    (∀ v, placingVf s part = some v → pausedGangs s v.number = [] → placesNew v = false → exec (.gangPlace part) s = .next s) ∧
    (∀ v l k die cores rooms, placingVf s part = some v → pausedGangs s v.number = [] → placesNew v = true →
      (getPart s part).coop = none → s.launches.filter (fun l => l.vf == v.number) = [l] → l.coop = false → l.aborted = false →
      l.completed = false → l.relaunch = [] → l.nextGang < gangTotal l → (l.deps.any fun d => (getLaunch s v.number d).any unplacedCoop) = false →
      getKernel s v.number l.kobj = some k → needsStack k = false →
      let dies := dieOrder (openDies s v l) (if l.nextGang = 0 then none else l.lastDie)
      (findPlace s v k [] dies = none → exec (.gangPlace part) s = .next s) ∧
      (findPlace s v k [] dies = some (die, cores, rooms, []) → (∀ g ∈ s.gangs, g.uid < s.nextId) →
        ∃ t g, exec (.gangPlace part) s = .next t ∧ t.mem = s.mem ∧ t.agenda = s.agenda ++ [.gangPlace part] ∧ t.gangs = s.gangs ++ [g] ∧
          g.vf = v.number ∧ g.launch = l.id ∧ g.number = l.nextGang ∧ g.st = .running ∧ g.uid = s.nextId ∧
          getLaunch t v.number l.id = some { l with lastDie := some die, nextGang := l.nextGang + 1 } ∧
          ∀ (m c : Nat) (r : Nat × Nat), cores[m]? = some c → rooms[m]? = some r → ∃ b ∈ t.blocks,
            b.gang = g.uid ∧ b.member = m ∧ b.die = die ∧ b.core = c ∧ b.windowBase = r.1 ∧ b.bplaneBase = r.2 ∧ b.st = .running ∧
            b.kernel = k ∧ b.args = l.args ∧ b.x + l.gx * (b.y + l.gy * b.z) = l.nextGang * k.gang + m ∧
            ∀ n, n < k.warps → ∃ w ∈ t.warps, w.block = b.uid ∧ w.num = n ∧ w.slotB = .empty ∧ w.scalars = l.args :: List.replicate 31 0 ∧
              w.slotA = { Slot.empty with pc := codeBase k, mask := BitVec.allOnes 32, st := .run } ∧
              w.lanes = List.replicate 32 { queue := List.replicate k.depth .poison, rngctr := 0, frame :=
                (preloadOf k l b l.nextGang n ++ List.replicate k.frame Entry.poison).take k.frame }))) ∧
  (∀ (s : State) (part : Nat),
    let waits (l : Launch) : Bool := unplacedCoop l && (getVf s l.vf).any fun v => v.part == part
    (s.launches.find? waits = none → exec (.coopWaitExpiry part) s = .next s) ∧
    ∀ l, s.launches.find? waits = some l →
      (s.cycle < l.since + 2700000 → exec (.coopWaitExpiry part) s = .next s) ∧
      (l.since + 2700000 ≤ s.cycle → ∃ t, exec (.coopWaitExpiry part) s = .next t ∧
        t = { s with parts := t.parts, launches := t.launches, agenda := s.agenda ++ [.gangPlace part] } ∧
        (part < s.parts.length → (getPart t part).coop = some (l.vf, l.id)) ∧
        ∀ x, getLaunch s l.vf l.id = some x → getLaunch t l.vf l.id = some { x with coopTimeUp := true })) ∧
  (∀ (s : State) (detail : BitVec 4) (owner : ErrOwner) (aux : Word),
    let cause : BitVec 10 := 0x380 + detail.setWidth 10
    let entry : LogEntry := errEntry s detail owner aux
    let owned : List Gang := s.gangs.filter fun g => !g.blocks.isEmpty && match owner with
      | .gang u => g.uid == u
      | .partition p => (getVf s g.vf).any fun v => v.part == p
      | _ => false
    let held : Bool := detail == 4 || detail == 8 && (modifiedAt s (aux.toNat / 128)).isNone
    ((∀ k corrected, owner ≠ .word k corrected) → held = true → exec (.uncorrectableError detail owner aux) s = .next s) ∧
    ((∀ k corrected, owner ≠ .word k corrected) → held = false → owned = [] → (owner = .allVfs → ∀ l ∈ s.launches, l.completed = true) →
      exec (.uncorrectableError detail owner aux) s = .next
        { s with sal := { s.sal with pending := s.sal.pending ++ [entry] }, agenda := s.agenda ++ [.logDrain] }) ∧
    (∀ k corrected, owner = .word k corrected → ∃ t,
      exec (.uncorrectableError detail owner aux) s = .next t ∧ t.mem = s.mem ∧ t.gangs = s.gangs ∧ t.launches = s.launches ∧
        t.poisoned = (if corrected = true ∨ isHost k = true then s.poisoned else k / 64 * 64 :: s.poisoned) ∧
        (isHbm k = false → t.sal = s.sal) ∧
        (isHbm k = true →
          let stack := if Sys2Proof.Config.arrayStack k then 1 else 0
          let x : LogEntry := { time := gtime s, source := 0, severity := if corrected then 0 else 1
                                unit := BitVec.ofNat 16 (homeOf k + 16 * stack), loc := Sys2Proof.Config.arrayLoc k, addr := BitVec.ofNat 64 k, cause := 0 }
          let full := Sys2Proof.Config.logFull (s.sal.pending.filter fun y => y.source == 0 && y.unit == x.unit).length
          (full = false → t.sal = { s.sal with pending := s.sal.pending ++ [x] }) ∧
          (full = true → t.sal = { s.sal with lost := modAt s.sal.lost 0 (· + 1) }))) ∧
    (held = false → owner = .allVfs → (∀ l ∈ s.launches, getLaunch s l.vf l.id = some l) → ∃ t,
      exec (.uncorrectableError detail owner aux) s = .next t ∧ t.mem = s.mem ∧ t.sal = { s.sal with pending := s.sal.pending ++ [entry] } ∧
        ∀ l ∈ s.launches, getLaunch t l.vf l.id =
          some (if l.completed = true ∨ l.aborted = true then l else { l with aborted := true, cause := cause, aux := aux })) ∧
    ∀ g l, held = false → owned = [g] → getLaunch s g.vf g.launch = some l → l.aborted = false → l.completed = false →
      ∃ t, exec (.uncorrectableError detail owner aux) s = .next t ∧ t.mem = s.mem ∧ t.sal = { s.sal with pending := s.sal.pending ++ [entry] } ∧
        (((gangBlocks s g.uid).any fun b => b.kernel.idemp) = false ∨ l.relaunched.contains g.number = true →
          getLaunch t g.vf g.launch = some { l with aborted := true, cause := cause, aux := aux } ∧
          ∀ x ∈ t.gangs, x.vf = g.vf → x.launch = g.launch → liveGang x = false) ∧
        (((gangBlocks s g.uid).any fun b => b.kernel.idemp) = true → l.relaunched.contains g.number = false →
          getLaunch t g.vf g.launch = some { l with relaunch := l.relaunch ++ [g.number], relaunched := g.number :: l.relaunched } ∧
          ∀ x ∈ t.gangs, x.uid ≠ g.uid))

/-- R35, R184, R382, R384: SWITCH_TICK flashes the outgoing VF's warps back to their stakes, saves sealed ones precisely, sets the deadline
of 50 µs and the tick after the next slice; a hand-over that has not ended goes on beside the new one. R385: a die reports once the
outgoing VF's own warps are saved there, and the last report starts the incoming VF; SAVE_DEADLINE counts the late dies, those of an
earlier tick too, and gives them 20 µs; GRACE_EXPIRY starts the incoming VF on the dies that have reported; FORCE_SAVE_COMPLETE hands a
late die over. R387, R391: cores removed and returned. -/
def Obligations.SlicesAreHandedOver : Prop :=
  (∀ (s : State) (part : Nat), part < s.parts.length →
    let p := getPart s part
    (p.run = false → exec (.switchTick part) s = .next s) ∧
    (p.run = true → (∀ b ∈ allBlocks s, b.vf = p.vfnum → ∀ j ∈ b.jobs, j.faulted = true → j.begun = []) → ∃ t before,
      exec (.switchTick part) s = .next t ∧ t.mem = s.mem ∧
      getPart t part = { p with
        plan := (nextSlice s part).2.2, ticks := p.ticks + 1, vfnum := 0, late := 0
        slice := some { outgoing := p.vfnum, incoming := (nextSlice s part).1, since := s.cycle, saved := 0, late := 0, deadline := false
                        grace := false, before := before } } ∧
      (p.slice = none → before = []) ∧
      (∀ x, p.slice = some x → x.outgoing ≠ p.vfnum → (∃ d ∈ partDies s part, unsaved t x.outgoing d = true) →
        ({ vf := x.outgoing, since := x.since, deadline := x.deadline } : OldTick) ∈ before) ∧
      t.timers = s.timers ++ [(s.cycle + 135000, .saveDeadline part), (s.cycle + (nextSlice s part).2.1 * 2700, .switchTick part)] ∧
      t.agenda = s.agenda ++ ((partDies s part).filter fun d => !unsaved t p.vfnum d).map (fun d => .dieSavedReport part d) ∧
      (∀ b ∈ allBlocks t, b.uid ≠ 0 → b.vf = p.vfnum → b.st ≠ .running) ∧
      ∀ u w b, u ≠ 0 → getWarp s u = some w → getBlock s w.block = some b → w.block ≠ 0 → b.vf = p.vfnum → b.st = .running →
        ∃ w', getWarp t u = some w' ∧
          (warpEnded w = true → w' = { w with saved := true }) ∧
          (warpEnded w = false → savesPrecisely w = true →
            w' = { w with saved := w.pend.isEmpty && s.inflight.all fun a => a.warp != w.uid }) ∧
          (warpEnded w = false → savesPrecisely w = false → w.stake.recipe = none →
            slotOf w' w.stake.slot = { Slot.empty with pc := w.stake.pc, mask := w.stake.mask, cnt := w.stake.cnt, st := .run } ∧
            slotOf w' (otherSlot w.stake.slot) = .empty ∧ w'.div = (w.div.drop (w.div.length - w.stake.divdepth)).map (fun r => { r with owner := w.stake.slot }) ∧
            w' = { w with
              slotA := w'.slotA, slotB := w'.slotB, lanes := w'.lanes, div := w'.div, pend := [], recipe := none, saved := true } ∧
            w'.lanes.length = w.lanes.length ∧ ∀ l, l < w.lanes.length → w'.lanes.getD l default = if inMask w.stake.mask l then
              { w.lanes.getD l default with queue := List.replicate w.depth Entry.poison } else w.lanes.getD l default)) ∧
    (p.slice = none → ∀ d, exec (.dieSavedReport part d) s = .next s ∧ exec (.forceSaveComplete part d) s = .next s ∧
      exec (.saveDeadline part) s = .next s ∧ exec (.graceExpiry part) s = .next s) ∧
    (∀ x, p.slice = some x →
      let runs := (getVf s x.incoming).any fun v => v.st == .running && v.part == part
      let saved (d : Nat) := x.saved ||| sharerBit d
      let last (d : Nat) := saved d &&& dieBits s part = dieBits s part
      let earlier (d : Nat) : Bool := x.before.any fun o => unsaved s o.vf d
      let begun (bits : BitVec 8) : Partition := { p with
        vfnum := if runs then x.incoming else 0
        slice := if (partDies s part).all fun d => bits.getLsbD d && !earlier d then none else some { x with saved := bits, grace := true } }
      (∀ d, (unsaved s x.outgoing d = true ∨ x.grace = true) → exec (.dieSavedReport part d) s = .next s) ∧
      (∀ d, unsaved s x.outgoing d = false → x.grace = false → ∃ t, exec (.dieSavedReport part d) s = .next t ∧ t.mem = s.mem ∧
        t.timers = s.timers ∧ (last d → getPart t part = begun (saved d)) ∧
          (¬last d → getPart t part = { p with slice := some { x with saved := saved d } })) ∧
      (∀ d, (unsaved s x.outgoing d = true ∨ earlier d = true ∨ x.grace = false) → exec (.forceSaveComplete part d) s = .next s) ∧
      (∀ d, unsaved s x.outgoing d = false → earlier d = false → x.grace = true → ∃ t, exec (.forceSaveComplete part d) s = .next t ∧
        t.mem = s.mem ∧ t.timers = s.timers ∧ getPart t part = begun (saved d)) ∧
      (x.deadline = true → exec (.saveDeadline part) s = .next s) ∧
      (x.deadline = false → s.cycle < x.since + 135000 → ∃ t, exec (.saveDeadline part) s = .next t ∧ t = { s with parts := t.parts } ∧
        let due (o : OldTick) : Bool := !o.deadline && decide (o.since + 135000 ≤ s.cycle)
        let n := ((x.before.filter due).map fun o => ((partDies s part).filter fun d => unsaved s o.vf d).length).sum
        getPart t part = { p with
          lateCount := BitVec.ofNat 32 (min (2 ^ 32 - 1) (p.lateCount.toNat + n))
          slice := some { x with before := x.before.map fun o => if due o then { o with deadline := true } else o } }) ∧
      (x.deadline = false → x.since + 135000 ≤ s.cycle → ∃ t, exec (.saveDeadline part) s = .next t ∧
        t = { s with parts := t.parts, timers := s.timers ++ [(s.cycle + 54000, .graceExpiry part)] } ∧
        let late := dieBits s part &&& ~~~x.saved
        getPart t part = { p with
          late := late, slice := some { x with late := late, deadline := true }
          lateCount := BitVec.ofNat 32 (min (2 ^ 32 - 1) (p.lateCount.toNat + ((List.range 8).filter fun d => late.getLsbD d).length)) }) ∧
      ((x.deadline = false ∨ x.grace = true ∨ s.cycle < x.since + 189000) → exec (.graceExpiry part) s = .next s) ∧
      (x.deadline = true → x.grace = false → x.since + 189000 ≤ s.cycle → ∃ t, exec (.graceExpiry part) s = .next t ∧ t.mem = s.mem ∧ t.timers = s.timers ∧
        getPart t part = begun x.saved)) ∧
    ∀ val : Word, exec (.schLateClear part val) s = .next
      (if val.getLsbD 63 then { s with parts := setAt s.parts part { p with lateCount := 0 } } else s)) ∧
  (∀ (s : State) (d c : Nat),
    ((s.datum.coreBusy = true ∨ 8 ≤ d ∨ 144 ≤ c) → exec (.coreRemove d c) s = .next s ∧ exec (.coreReturn d c) s = .next s) ∧
    (s.datum.coreBusy = false → d < 8 → c < 144 → d < s.dies.length →
      let off := (getDie s d).coreOff
      let place : Instr := .gangPlace (s.datum.partDie.getD d 0)
      (off.getLsbD c = true → exec (.coreRemove d c) s = .next { s with datum := { s.datum with coreDone := true } }) ∧
      (off.getLsbD c = false → gangsOn s d c = [] → ∃ t, exec (.coreRemove d c) s = .next t ∧
        t = { s with
          dies := t.dies, agenda := s.agenda ++ [place]
          datum := { s.datum with coreBusy := true, coreDone := false, moved := 0, coreWaiting := 0 } } ∧
        getDie t d = { getDie s d with coreOff := off ||| BitVec.ofNat 144 (2 ^ c) } ∧ ∀ x, x ≠ d → getDie t x = getDie s x) ∧
      (∃ t, exec (.coreReturn d c) s = .next t ∧
        t = { s with dies := t.dies, agenda := s.agenda ++ (if off.getLsbD c then [place] else []), datum := { s.datum with coreDone := true } } ∧
        getDie t d = { getDie s d with coreOff := off &&& ~~~(BitVec.ofNat 144 (2 ^ c)) } ∧ ∀ x, x ≠ d → getDie t x = getDie s x)))

/-- R388, R389, R391: TOKEN_REFILL and QOS_BUCKET; R405, R406, R408, R412: SAMPLE and COUNTER_REFRESH; R414, R415: PTP_MESSAGE and
HOLDOVER, by the clock model of log entry 14. Of a slot that could have issued and did not, the reason is a free value (log entry 13). -/
def Obligations.MetersAndClocksAdvance : Prop :=
  (∀ (s : State) (n : Nat),
    ((s.buckets.find? fun b => b.num == n && b.en) = none → exec (.tokenRefill n) s = .next s) ∧
    (∀ b, (s.buckets.find? fun b => b.num == n && b.en) = some b →
      let tokens := min (b.burst.toNat : Int) (b.tokens + b.rate.toNat)
      let filled : State := { s with buckets := s.buckets.map fun x =>
        if x.num = n then { x with tokens := min (x.burst.toNat : Int) (x.tokens + x.rate.toNat) } else x }
      (b.held = [] → exec (.tokenRefill n) s = .next filled) ∧
      (∀ u job, b.held = [.chunk u job] → stillHeld s (.chunk u job) = true → 0 < tokens →
        exec (.tokenRefill n) s = .next { filled with agenda := s.agenda ++ [.sluiceChunkStart u job] }) ∧
      (∀ u rid cost w r, b.held = [.load u rid cost] → 0 < tokens → getWarp s u = some w → (w.pend.find? fun r => r.rid == rid) = some r →
        r.holds = 1 → r.lineWaits = [] → r.lanesLeft = [] → ∃ t w', exec (.tokenRefill n) s = .next t ∧ t.mem = s.mem ∧
          (t.buckets.find? fun b => b.num == n && b.en) = some { b with tokens := tokens - cost, held := [] } ∧
          t.agenda = s.agenda ++ [.resultArrival u rid] ∧ getWarp t u = some w' ∧
          (w'.pend.find? fun r => r.rid == rid) = some { r with holds := 0, ready := true })) ∧
    ∀ val : Word,
      let old := (s.buckets.find? fun b => b.num == n).getD
        { num := n, rate := 0, burst := 0, en := false, tokens := 0, heldCount := 0, held := [] }
      let burst : BitVec 24 := fld val 32 24
      (1024 ≤ n → exec (.qosBucket n val) s = .next s) ∧
      (n < 1024 → (val.getLsbD 63 = true ∨ old.held = []) → exec (.qosBucket n val) s = .next { s with
        buckets := { old with
            rate := fld val 0 24, burst := burst, en := val.getLsbD 63
            tokens := if val.getLsbD 63 then (burst.toNat : Int) else old.tokens } :: s.buckets.filter fun x => x.num != n })) ∧
  (∀ (s : State) (part : Nat), part < s.parts.length →
    let p := getPart s part
    ((p.smpN = 0 ∨ p.vfnum = 0 ∨ vfSlots s p.vfnum = []) → exec (.sample part) s = .next s) ∧
    (∀ w q v, p.smpN ≠ 0 → p.vfnum ≠ 0 → vfSlots s p.vfnum = [(w, q)] → getVf s p.vfnum = some v → v.policy.tsample = false →
      let f := Sys2Proof.Config.freeValue s.freeCount
      ∃ t, exec (.sample part) s = .next t ∧ t = { s with quadrants := t.quadrants, parts := t.parts, freeCount := s.freeCount + 1 } ∧
        (∃ live, getPart t part = { p with live := live } ∧ ∀ i, pageWord live i = pageWord p.live i +
          if i = 10 ∨ i = 11 ∨ i = 32 + stallCode s f w q then 1 else 0) ∧
        (quadRec t (quadOf s w)).sampled = slotIndex w q) ∧
    ∃ t, exec (.counterRefresh part) s = .next t ∧ t = { s with parts := t.parts } ∧ ∃ page, getPart t part = { p with page := page } ∧
      ∀ i, pageWord page i = if i = 12 then gtime s else pageWord p.live i) ∧
  ∀ s : State,
    ((∀ c, s.tim.heard = some c → s.cycle < c + 10800000000) → exec .holdover s = .next s) ∧
    (∀ c, s.tim.heard = some c → c + 10800000000 ≤ s.cycle → exec .holdover s = .next { s with tim := { s.tim with
      locked := false, holdover := true, slew := 0, frac := 0, free := if s.tim.holdover then s.tim.free else s.tim.slew.sign } }) ∧
    ∀ (domain : BitVec 8) (m : PtpSource) (time : PtpTime),
      let told := exec (.ptpMessage domain m time) s
      ((s.tim.src = 0 ∨ m.src ≠ s.tim.src ∨ domain ≠ s.tim.domain ∨ m.xport ≠ s.tim.xport ∨ s.tim.src = 2 ∧ m.port ≠ s.tim.port) →
        told = .next s) ∧
      (s.tim.src ≠ 0 → m.src = s.tim.src → domain = s.tim.domain → m.xport = s.tim.xport → (s.tim.src = 2 → m.port = s.tim.port) →
        let off : Int := (time.master.toNat : Int) + time.delay.toNat - (gtime s).toNat
        let timers := (s.timers.filter fun t => !isHoldover t.2) ++ [(s.cycle + 10800000000, .holdover)]
        let heard : Tim := { s.tim with holdover := false, offset := satOffset off, frac := 0, free := 0, heard := some s.cycle }
        (1000000 < off → told = .next { s with
          timers := timers, timeBase := s.timeBase + off, tim := { heard with locked := true, slew := 0 } }) ∧
        (off ≤ 1000000 → told = .next { s with
          timers := timers, tim := { heard with locked := decide (-25 ≤ off ∧ off ≤ 25), slew := off } }))

/-! ## The host and the Datum -/

/-- R331 to R339, R379, R380, R408: the host's requests and the rings. INBOUND_WRITE posts its pieces or drops and counts them; a posted
write for which its link has no room waits for a credit, and later ones behind it (log entry 33); PIECE_ACK performs a piece and lets the
next go on, a PF's write leaving the rest of a line under a retired key as the array holds it (R360); INBOUND_READ waits for what was posted
before it; the three SUBMIT events take the entry at HEAD, as the event of its TYPE, and answer it, a malformed one of TYPE 2 with KIND 1
(log entry 33); COMPLETION_WRITE and FAULT_RECORD_WRITE write the oldest waiting record of a VF that runs while there is room; the register
writes have the effects of Tables 18-5, 20-3 and 22-5, and the write that disables the rings discards the waiting completions (log entry
33). Writes of a VF that is not in RUN with IDE, or not over its stream, change nothing. A walk that meets a poisoned entry fails, and a
read of a poisoned word is answered with Unsupported Request (log entry 46). -/
def Obligations.HostRequestsAreServed : Prop :=
  (∀ (s : State) (vf link offset : Nat) (bytes : List Byte) (relaxed bound : Bool) (v : Vf), getVf s vf = some v →
    let o := getOrd s v.link
    let va := v.hif.inbVa + BitVec.ofNat 64 offset
    let write : Instr := .inboundWrite vf ⟨link, bound⟩ offset bytes relaxed
    let waits (e : Instr) (i : Posted) : Prop := ∃ t, exec e s = .next t ∧ t = { s with ords := t.ords } ∧
      getOrd t v.link = { o with waits := o.waits ++ [i] }
    let read (n : Nat) : Instr := .inboundRead vf ⟨link, bound⟩ offset n
    let unsupported : State := { s with replies := s.replies ++ [(link, [])] }
    ((bound = false ∨ served s vf = false ∨ v.link ≠ link) →
      (o.waits = [] → exec write s = .next s) ∧ ∀ n, exec (read n) s = .next unsupported) ∧
    (v.link < s.ords.length → o.waits ≠ [] → waits write (.vf vf ⟨link, bound⟩ offset bytes relaxed) ∧
      ∀ val, waits (.hifSqDb vf val) (.door vf true val) ∧ waits (.trnPresent vf val) (.door vf false val)) ∧
    (bound = true → served s vf = true → v.link = link → link < s.ords.length → o.waits = [] → 4096 ≤ o.pieces.length → bytes ≠ [] →
      va.toNat % 4096 + bytes.length ≤ 4096 → offset + bytes.length ≤ 2 ^ 40 → canonical va = true →
      (∀ k seg a, translateClean s vf va 1 = .ok (k, seg, a) → seg < 2 → waits write (.vf vf ⟨link, bound⟩ offset bytes relaxed)) ∧
      ∀ val, waits (.hifSqDb vf val) (.door vf true val) ∧ waits (.trnPresent vf val) (.door vf false val)) ∧
    (bound = true → served s vf = true → v.link = link → o.pieces = [] → o.waits = [] → link < s.ords.length → bytes ≠ [] →
      va.toNat % 4096 + bytes.length ≤ 4096 → offset + bytes.length ≤ 2 ^ 40 → canonical va = true →
      (∀ k seg a, translateClean s vf va 1 = .ok (k, seg, a) → seg < 2 → ∃ t, exec write s = .next t ∧
        t = { s with buckets := t.buckets, parts := t.parts, ords := t.ords, agenda := s.agenda ++ [.pieceAck link o.nextSeq 0] } ∧
        getOrd t link = { nextSeq := o.nextSeq + 1, waits := [], pieces := [{
          seq := o.nextSeq, num := 0, route := .home (homeOf k), addr := k, bytes := bytes, vf := vf, door := none, relaxed := relaxed
          forwarded := true }] }) ∧
      (∀ c, translateClean s vf va 1 = .error c → ∃ t, exec write s = .next t ∧
        t = { s with vfs := t.vfs, parts := t.parts, ords := t.ords, advisory := s.advisory ++ [link] } ∧ (getOrd t link).pieces = [] ∧
        getVf t vf = some { v with hif := { v.hif with inbCount := satInc v.hif.inbCount, inbCause := c } }) ∧
      (∀ c, translateClean s vf va 0 = .error c → exec (read bytes.length) s = .next unsupported) ∧
      (∀ k seg a, translateClean s vf va 0 = .ok (k, seg, a) → seg < 2 → hasPoison s k bytes.length = true →
        exec (read bytes.length) s = .next unsupported) ∧
      (∀ k seg a, translateClean s vf va 0 = .ok (k, seg, a) → seg < 2 → hasPoison s k bytes.length = false → ∃ t, exec (read bytes.length) s = .next t ∧
        t = { s with buckets := t.buckets, parts := t.parts, replies := s.replies ++ [(link, if roundedPage s k false then readBytes s.mem k bytes.length
                                                                      else coherentBytes s k bytes.length)] })) ∧
    (∀ n, bound = true → served s vf = true → v.link = link → (o.pieces ≠ [] ∨ o.waits ≠ []) → n ≤ 4096 → offset + n ≤ 2 ^ 40 →
      exec (read n) s = .next { s with agenda := s.agenda ++ [read n] })) ∧
  (∀ (s : State) (link seq num : Nat) (p : Piece), (getOrd s link).pieces = [p] → p.seq = seq → p.num = num →
    ((p.forwarded = false ∨ s.ckp.began = true) → exec (.pieceAck link seq num) s = .next s) ∧
    (∀ i, p.forwarded = true → s.ckp.began = false → link < s.ords.length → (getOrd s link).waits = [i] → ∃ u t,
      exec (.pieceAck link seq num) s = .next t ∧ postNow u link i = some t ∧
      getOrd u link = { getOrd s link with pieces := [], waits := [] }) ∧
    (p.forwarded = true → s.ckp.began = false → link < s.ords.length → (getOrd s link).waits = [] → ∃ t, exec (.pieceAck link seq num) s = .next t ∧
      getOrd t link = { getOrd s link with pieces := [] } ∧
      (p.door = none → s.Inv → ((p.vf ≠ 0 ∨ ∀ line ∈ linesTouched p.addr p.bytes.length, lineKey s line = none) → Written s t p.addr p.bytes) ∧
        (p.vf = 0 → Written ((linesTouched p.addr p.bytes.length).foldl unsealLine s) t p.addr p.bytes)) ∧
      (∀ v tail, p.door = some (true, tail) → getVf s p.vf = some v → v.hif.enable = true → v.hif.fault = false → v.st ≠ .stopped →
        ∃ v', getVf t p.vf = some v' ∧ v'.hif.sqTail = fld tail 0 32 ∧
          (2 ^ v.hif.sqLog2.toNat < (fld tail 0 32 - v.hif.sqHead).toNat → v'.hif.fault = true ∧ v'.hif.reason = 1)) ∧
      (∀ val, p.door = some (false, val) → val.toNat / 2 ^ 12 * 2 ^ 12 % (2 ^ 30) = 0 → fld val 0 3 = (6 : BitVec 3) →
        ∀ u q w, getWarp s u = some w → u ≠ 0 → warpVf s w = p.vf → (slotOf w q).st = .yielded → slotPart s u q = none →
          (∀ x ∈ allWarps s, x.uid = u → x = w) →
          (∃ r, (slotOf w q).yieldRec = some r ∧ val.toNat / 2 ^ 12 * 2 ^ 12 ≤ r.va.toNat ∧ r.va.toNat < val.toNat / 2 ^ 12 * 2 ^ 12 + 2 ^ 30) →
          ∃ w', getWarp t u = some w' ∧ slotOf w' q = { slotOf w q with st := .run, yieldRec := none }))) ∧
  (∀ (s : State) (vf : Nat) (v : Vf), getVf s vf = some v →
    let tells (e : Instr) (f : Hif → Hif) : Prop := ∃ t v', exec e s = .next t ∧ t.mem = s.mem ∧ getVf t vf = some v' ∧
      v'.hif.sqHead = (f v.hif).sqHead ∧ v'.hif.waiting = (f v.hif).waiting
    (ringReady v = false → exec (.submitNoop vf) s = .next s ∧ exec (.submitLaunch vf) s = .next s ∧ exec (.submitRegistration vf) s = .next s) ∧
    (ringReady v = true → ∀ c, headEntry s v = .error c → ∀ e : Instr, (e = .submitNoop vf ∨ e = .submitLaunch vf ∨ e = .submitRegistration vf) →
      ∃ t, exec e s = .next t ∧ t = { s with vfs := t.vfs, msix := s.msix ++ [(vf, 1)] } ∧
        getVf t vf = some { v with hif := { v.hif with fault := true, reason := 2, cause := c } }) ∧
    (ringReady v = true → ∀ bs, headEntry s v = .ok bs →
      let again (e : Instr) : State := { s with agenda := s.agenda ++ [e] }
      let answer (result : Nat) (status kind : Nat) (h : Hif) : Hif := { h with
        sqHead := h.sqHead + 1, waiting := h.waiting ++ [completionEntry (tagOf bs) (BitVec.ofNat 64 result) status kind 0] }
      (byteField bs 64 1 = 0 → tells (.submitNoop vf) (answer 0 (if entryClean bs then 0 else 0x10A) 1) ∧
        exec (.submitLaunch vf) s = .next (again (.submitNoop vf)) ∧ exec (.submitRegistration vf) s = .next (again (.submitNoop vf))) ∧
      (byteField bs 64 1 ≠ 0 → byteField bs 64 1 ≠ 2 → exec (.submitNoop vf) s = .next (again (.submitLaunch vf)) ∧
        exec (.submitRegistration vf) s = .next (again (.submitLaunch vf))) ∧
      (byteField bs 64 1 = 2 → exec (.submitNoop vf) s = .next (again (.submitRegistration vf)) ∧
        exec (.submitLaunch vf) s = .next (again (.submitRegistration vf))) ∧
      (byteField bs 64 1 = 1 → entryClean bs = true →
        (∀ r, checkLaunch s v (bs.take 64) (tagOf bs) = .error r → tells (.submitLaunch vf) (answer 0 (launchCause r).toNat 1)) ∧
        (∀ l, checkLaunch s v (bs.take 64) (tagOf bs) = .ok l → tells (.submitLaunch vf) (answer l.id 0 1) ∧
          ∃ t, exec (.submitLaunch vf) s = .next t ∧ t.launches = s.launches ++ [l])) ∧
      ((2 < byteField bs 64 1 ∨ byteField bs 64 1 = 1 ∧ entryClean bs = false) → tells (.submitLaunch vf) (answer 0 0x10A 1)) ∧
      (byteField bs 64 1 = 2 →
        (entryClean bs = false → tells (.submitRegistration vf) (answer 0 0x10A 1)) ∧
        (entryClean bs = true → ∀ n st u, registerRecord s v (bs.take 32) = (n, st, u) → tells (.submitRegistration vf) (answer n st 3) ∧
          ∃ t, exec (.submitRegistration vf) s = .next t ∧ t.kernels = u.kernels))) ∧
    (let h := v.hif
     let k32 (n : Nat) := h.cqBase + BitVec.ofNat 64 (32 * (n % 2 ^ h.cqLog2.toNat))
     (v.st ≠ .running ∨ h.waiting = [] ∨ h.enable = false ∨ h.fault = true ∨ 2 ^ h.cqLog2.toNat ≤ (h.cqTail - h.cqHead).toNat →
       exec (.completionWrite vf) s = .next s) ∧
     (∀ e rest, v.st = .running → h.waiting = e :: rest → h.enable = true → h.fault = false → (h.cqTail - h.cqHead).toNat < 2 ^ h.cqLog2.toNat →
       canonical (k32 h.cqTail.toNat) = true →
       (∀ c, translateClean s vf (k32 h.cqTail.toNat) 1 = .error c → ∃ t, exec (.completionWrite vf) s = .next t ∧
         t = { s with vfs := t.vfs, msix := s.msix ++ [(vf, 1)] } ∧
         getVf t vf = some { v with hif := { h with fault := true, reason := 3, cause := c } }) ∧
       (∀ k seg a, translateClean s vf (k32 h.cqTail.toNat) 1 = .ok (k, seg, a) → rest.length ≠ 256 → s.Inv → ∃ t v',
         exec (.completionWrite vf) s = .next t ∧ t.msix = s.msix ++ [(vf, 0)] ∧ getVf t vf = some v' ∧
         v'.hif = { h with waiting := rest, cqTail := h.cqTail + 1 } ∧
         Written s t k (setAt e 19 (BitVec.ofNat 8 ((h.cqTail.toNat / 2 ^ h.cqLog2.toNat + 1) % 2)))))) ∧
    (let q := v.trn
     let k32 := q.fqBase + BitVec.ofNat 64 (32 * (q.fqTail.toNat % 2 ^ q.fqLog2.toNat))
     (v.st ≠ .running ∨ q.waiting = [] ∨ q.fqEnable = true ∧ 2 ^ q.fqLog2.toNat ≤ (q.fqTail - q.fqHead).toNat → exec (.faultRecordWrite vf) s = .next s) ∧
     (∀ r rest k seg a, v.st = .running → q.waiting = r :: rest → q.fqEnable = true → (q.fqTail - q.fqHead).toNat < 2 ^ q.fqLog2.toNat → canonical k32 = true →
       translateClean s vf k32 1 = .ok (k, seg, a) → s.Inv → ∃ t v', exec (.faultRecordWrite vf) s = .next t ∧ t.msix = s.msix ++ [(vf, 1)] ∧
         getVf t vf = some v' ∧ v'.trn = { q with waiting := rest, fqTail := q.fqTail + 1, seq := q.seq + 1 } ∧
         Written s t k (faultRecord r q.seq))) ∧
    ∀ val : Word,
      let becomes (e : Instr) (v' : Vf) (es : List Instr) : Prop := ∃ t, exec e s = .next t ∧
        t = { s with vfs := t.vfs, agenda := s.agenda ++ es } ∧ getVf t vf = some v'
      (served s vf = false → (getOrd s v.link).waits = [] → exec (.hifSqDb vf val) s = .next s ∧ exec (.trnPresent vf val) s = .next s) ∧
      (served s vf = false → exec (.hifCqHead vf val) s = .next s ∧ exec (.hifRingCfg vf val) s = .next s ∧
        exec (.inbErrClear vf val) s = .next s ∧ exec (.trnFqHead vf val) s = .next s ∧ exec (.trnFqCfg vf val) s = .next s ∧
        ∀ trc, exec (.ringCfg vf trc val) s = .next s ∧ exec (.ringDropClear vf trc val) s = .next s) ∧
      (served s vf = true →
        (let o := getOrd s v.link
         o.pieces = [] → o.waits = [] → v.link < s.ords.length → ∀ door : Bool, ∃ t, exec (if door then .hifSqDb vf val else .trnPresent vf val) s = .next t ∧
           t = { s with ords := t.ords, buckets := t.buckets, agenda := s.agenda ++ [.pieceAck v.link o.nextSeq 0] } ∧
           getOrd t v.link = { nextSeq := o.nextSeq + 1, waits := [], pieces := [{
             seq := o.nextSeq, num := 0, route := .dispatcher, addr := 0, bytes := [], vf := vf, door := some (door, val), relaxed := false
             forwarded := true }] }) ∧
        becomes (.hifCqHead vf val) { v with hif := { v.hif with cqHead := fld val 0 32 } } [.completionWrite vf] ∧
        (val.getLsbD 31 = true → becomes (.inbErrClear vf val) { v with hif := { v.hif with inbCount := 0, inbCause := 0 } } []) ∧
        (v.hif.enable = true → val.getLsbD 31 = true → becomes (.hifRingCfg vf val) v [.completionWrite vf]) ∧
        (v.hif.enable = true → val.getLsbD 31 = false → becomes (.hifRingCfg vf val)
          { v with hif := { v.hif with sqLog2 := fld val 0 5, cqLog2 := fld val 8 5, enable := false, waiting := [] } } [.completionWrite vf]) ∧
        (v.hif.enable = false → val.getLsbD 31 = true → 4 ≤ (fld val 0 5 : BitVec 5).toNat → (fld val 0 5 : BitVec 5).toNat ≤ 16 →
          4 ≤ (fld val 8 5 : BitVec 5).toNat → (fld val 8 5 : BitVec 5).toNat ≤ 16 → becomes (.hifRingCfg vf val)
          { v with hif := { v.hif with
              sqLog2 := fld val 0 5, cqLog2 := fld val 8 5, enable := true, sqTail := 0, sqHead := 0, cqTail := 0, cqHead := 0, fault := false
              reason := 0, cause := 0 } } [.completionWrite vf]) ∧
        becomes (.trnFqHead vf val) { v with trn := { v.trn with fqHead := fld val 0 32 } } [.faultRecordWrite vf] ∧
        (val.getLsbD 31 = false → becomes (.trnFqCfg vf val) { v with trn := { v.trn with fqLog2 := fld val 0 5, fqEnable := false } } [.faultRecordWrite vf]) ∧
        (val.getLsbD 31 = true → v.trn.fqEnable = false → 4 ≤ (fld val 0 5 : BitVec 5).toNat → (fld val 0 5 : BitVec 5).toNat ≤ 12 →
          becomes (.trnFqCfg vf val) { v with trn := { v.trn with
            fqLog2 := fld val 0 5, fqEnable := true, fqTail := 0, fqHead := 0, seq := 0 } } [.faultRecordWrite vf]) ∧
        (val.getLsbD 63 = true → becomes (.ringDropClear vf true val) { v with trc := { v.trc with drop := 0 } } [] ∧
          becomes (.ringDropClear vf false val) { v with smp := { v.smp with drop := 0 } } []) ∧
        (val.getLsbD 31 = true → v.policy.tpmc = true → v.trc.enable = false → 4 ≤ (fld val 0 5 : BitVec 5).toNat →
          (fld val 0 5 : BitVec 5).toNat ≤ 20 →
          becomes (.ringCfg vf true val) { v with trc := { v.trc with log2 := fld val 0 5, enable := true, tail := 0, head := 0 } } []) ∧
        (val.getLsbD 31 = true → v.policy.tsample = false →
          becomes (.ringCfg vf false val) { v with smp := { v.smp with log2 := fld val 0 5, enable := false } } []) ∧
        (val.getLsbD 31 = false → becomes (.ringCfg vf true val) { v with trc := { v.trc with log2 := fld val 0 5, enable := false } } [])))

/-- R345 to R372: the Datum takes, answers and ends the commands of Table 19-8, each with the fields of its header that the command uses,
and what each does where it may act; a handle that names no VF is answered with status 3. A module that has not booted takes none (R431),
and a page with a poisoned word is not sent on (log entry 46). -/
def Obligations.DatumCommandsAnswer : Prop :=
  ∀ (s : State) (c : DtmCmd),
    CommandRule s (.vfCreate c) 0x0001 { handle := false, p0 := 7, p1 := 0xFF01, body := true, dest := true } c ∧
    CommandRule s (.vfPolicy c) 0x0002 { handle := true, body := true } c ∧
    CommandRule s (.vfSegment c) 0x0003 { handle := true, p0 := 0xFFFFFFFF00000303, p1 := 2 ^ 64 - 1, p2 := 2 ^ 64 - 1 } c ∧
    CommandRule s (.vfSlice c) 0x0004 { handle := true, p0 := 0xFF } c ∧
    CommandRule s (.vfPause c) 0x0005 { handle := true } c ∧ CommandRule s (.vfResume c) 0x0006 { handle := true } c ∧
    CommandRule s (.vfEvict c) 0x0007 { handle := true } c ∧ CommandRule s (.vfRestore c) 0x0008 { handle := true } c ∧
    CommandRule s (.vfMigrateBegin c) 0x0009 { handle := true, body := true, out := true } c ∧
    CommandRule s (.vfMigrateRound c) 0x000A { handle := true, p0 := 2 ^ 64 - 1, body := true, out := true, dest := true } c ∧
    CommandRule s (.vfMigrateStop c) 0x000B { handle := true, out := true } c ∧
    CommandRule s (.vfMigrateFinish c) 0x000C { handle := true, body := true, out := true, dest := true } c ∧
    CommandRule s (.vfDestroy c) 0x000D { handle := true } c ∧ CommandRule s (.partSet c) 0x000E { handle := false, p0 := 0x77777777 } c ∧
    CommandRule s (.attest c) 0x000F { handle := true, body := true, out := true } c ∧
    (∀ opc, 2 ≤ opc → opc ≤ 0x000F → opc ≠ 0x000E → (opc = 0x000F → c.handle ≠ 0) → vfOf s c.handle = none → effectOf opc c s = refuse s 3) ∧
    (∀ p key, c.dest = false → 1 ≤ c.p1.toNat / 256 → c.p1.toNat / 256 ≤ 64 → partDies s c.p0.toNat ≠ [] → acceptPolicy (bodyOf s c) = .ok p →
      freeKey s = some key → getVf s (c.p1.toNat / 256) = none → ∃ v t, effectOf 0x0001 c s = .ok { status := 0, handle := some v.handle, st := t } ∧
        t.vfs = s.vfs ++ [v] ∧ t.mem = s.mem ∧ v.number = c.p1.toNat / 256 ∧ v.part = c.p0.toNat ∧ v.link = c.p1.toNat % 2 ∧ v.keyId = key ∧
        v.policy = p ∧ v.st = .paused ∧ v.tdi = .unlocked ∧ v.ide = false ∧ v.share = 0 ∧ v.segs = [none, none, none, none] ∧
        v.handle = freshHandle s ∧ t.datum = { s.datum with
          keys := (key, s.datum.draws + 1) :: s.datum.keys, handles := v.handle :: s.datum.handles, draws := s.datum.draws + 2 }) ∧
    (∀ v, vfOf s c.handle = some v → s.datum.working = false →
      let sets (opc : Nat) (v' : Vf) : Prop := ∃ t, effectOf opc c s = accept t ∧
        t = { s with vfs := t.vfs, agenda := t.agenda, timers := t.timers, msix := t.msix, parts := t.parts } ∧
        (getVf s v.number = some v → getVf t v.number = some v')
      (v.st = .stopped → ∀ opc, opc = 2 ∨ opc = 3 ∨ opc = 4 ∨ opc = 5 ∨ opc = 7 ∨ opc = 8 ∨ opc = 9 ∨ opc = 0xA ∨ opc = 0xB →
        effectOf opc c s = refuse s 4) ∧
      (∀ p, v.st = .paused → acceptPolicy (bodyOf s c) = .ok p → p.key = v.policy.key →
        (p.version ≤ v.policy.version → effectOf 0x0002 c s = refuse s 11) ∧
        (v.policy.version < p.version → exceeds s v p = none → ∃ t, effectOf 0x0002 c s = accept t ∧ t = { s with vfs := t.vfs, kernels := t.kernels } ∧
          (getVf s v.number = some v → ∃ v', getVf t v.number = some v' ∧ v'.policy = p) ∧
          ∀ k ∈ t.kernels, k.vf = v.number → k.live = true → p.hashes.contains k.hash = true)) ∧
      (v.st = .paused → (∀ o ∈ s.ords, o.pieces = [] ∧ o.waits = []) → v.segs.length = 4 →
        let n := c.p0.toNat % 4
        (c.p0.getLsbD 9 = true → v.segs.getD n none = none → ∃ t, effectOf 0x0003 c s = accept t ∧ t.mem = s.mem ∧
          (getVf s v.number = some v → ∃ v', getVf t v.number = some v' ∧ v'.segs.getD n none = none)) ∧
        (∀ st r, c.p0.getLsbD 9 = false → segmentFault s v n c.p1.toNat c.p2.toNat (fld c.p0 32 32) = some (st, r) → effectOf 0x0003 c s = refuse s st r) ∧
        (c.p0.getLsbD 9 = false → segmentFault s v n c.p1.toNat c.p2.toNat (fld c.p0 32 32) = none → v.segs.getD n none = none →
          ∃ t, effectOf 0x0003 c s = accept t ∧ (getVf s v.number = some v → ∃ v', getVf t v.number = some v' ∧ v'.trn.tlb = [] ∧
            v'.segs.getD n none = some { base := c.p1.toNat, len := c.p2.toNat, ro := c.p0.getLsbD 8, group := fld c.p0 32 32 }) ∧
          ∀ k, s.Inv → readCell t.mem k = if n < 2 ∧ inRange s v.part n c.p1.toNat c.p2.toNat k = true then 0 else readCell s.mem k)) ∧
      ((v.st = .paused ∨ v.st = .running ∨ v.st = .evicted) →
        let share : BitVec 8 := fld c.p0 0 8
        (share.toNat < v.policy.minShare → effectOf 0x0004 c s = refuse s 5 108) ∧
        (v.policy.minShare ≤ share.toNat → shareSum s.vfs v.part - v.share.toNat + share.toNat ≤ 256 → sets 0x0004 { v with share := share })) ∧
      (v.st = .running → (∀ w ∈ allWarps s, w.uid = 0 ∨ warpVf s w ≠ v.number) → (∀ b ∈ allBlocks s, b.uid = 0 ∨ b.vf ≠ v.number) →
        (∀ a ∈ s.inflight, a.vf ≠ v.number) → (∀ o ∈ s.ords, o.pieces = [] ∧ o.waits = []) →
        ∃ t, effectOf 0x0005 c s = accept t ∧ t.mem = s.mem ∧ t.datum.working = true ∧
          (getVf s v.number = some v → ∃ v', getVf t v.number = some v' ∧ v'.st = .paused)) ∧
      (v.st = .paused → v.hif.enable = false → sets 0x0006 { v with st := .running }) ∧
      (v.st = .paused → contextSize s v.number ≤ v.policy.ctxBytes → s.Inv → ∃ t, effectOf 0x0007 c s = accept t ∧
        (∀ k, (∀ r ∈ areaRuns s v 0 (contextSize s v.number), k < r.1 ∨ r.1 + r.2 ≤ k) → readCell t.mem k = readCell s.mem k) ∧
        (∀ b ∈ allBlocks t, b.uid ≠ 0 → (∃ g ∈ s.gangs, g.vf = v.number ∧ g.uid = b.gang ∧ g.blocks ≠ []) →
          (b.st = .evicted ∨ b.st = .draining) ∧ b.die = noDie) ∧
        (getVf s v.number = some v → ∃ v', getVf t v.number = some v' ∧ v'.st = .evicted ∧
          v'.ctx = [{ gang := none, slot := none, off := 0, len := contextSize s v.number, num := s.nextId }])) ∧
      (v.st = .paused → v.policy.ctxBytes < contextSize s v.number → effectOf 0x0007 c s = refuse s 7) ∧
      (v.st = .evicted → v.ctx.all (partIntact s v) = false → effectOf 0x0008 c s = refuse s 10) ∧
      (v.st = .evicted → v.ctx.all (partIntact s v) = true → (∀ g ∈ s.gangs, g.vf = v.number → g.blocks = []) →
        sets 0x0008 { v with st := .paused, ctx := [] }) ∧
      (v.st = .paused → (v.policy.migrate = false ∨ peered s v = true) → effectOf 0x0009 c s = refuse s 5 109) ∧
      (v.st = .paused → v.policy.migrate = true → peered s v = false → (bodyOf s c).length = 288 → reportAdmitted v.policy (bodyOf s c) = true →
        2 ^ 20 ≤ c.outLen.toNat → v.policy.bytes.length ≤ 2 ^ 16 → ∃ t out, effectOf 0x0009 c s = .ok { status := 0, out := out, st := t } ∧
          out = beginBlob v (Sys2Proof.Config.datumRandom s.datum.draws) (((bodyOf s c).drop 160).take 64) ∧
          (getVf s v.number = some v → ∃ v', getVf t v.number = some v' ∧ v'.migration.isSome = true ∧ v'.st = .paused)) ∧
      (v.st = .paused → v.migration = none → effectOf 0x000A c s = refuse s 4 ∧ effectOf 0x000B c s = refuse s 4) ∧
      (∀ m, v.st = .paused → v.migration = some m → c.dest = false → c.bodyLen = 0 → c.bodyAddr = 0 → v.policy.precopy = true →
        let n := min c.p0.toNat (dirtyPages v m).length
        (n * 65600 ≤ c.outLen.toNat → (∃ p ∈ (dirtyPages v m).take n, pagePoisoned s v p = true) → effectOf 0x000A c s = refuse s 10) ∧
        (n * 65600 ≤ c.outLen.toNat → (∀ p ∈ (dirtyPages v m).take n, pagePoisoned s v p = false) → ∃ t, effectOf 0x000A c s = .ok
          { status := 0, res0 := n, res1 := (dirtyPages v m).length - n, out := pageRecords s v m.key m.seq ((dirtyPages v m).take n), st := t } ∧
          t.mem = s.mem ∧ (getVf s v.number = some v → ∃ v' m', getVf t v.number = some v' ∧ v'.migration = some m' ∧
            m'.dirty = (dirtyPages v m).drop n ∧ m'.seq = m.seq + n))) ∧
      (∀ m, (v.st = .paused ∨ v.st = .running) → v.migration = some m → c.outLen.toNat < stopBytes s v m →
        effectOf 0x000B c s = refuse s 12 (stopBytes s v m)) ∧
      (∀ m, v.st = .paused → v.migration = some m → (∀ b ∈ allBlocks s, b.uid = 0 ∨ b.vf ≠ v.number) → quiet s v.number = true →
        dirtyPages v m = [] → getVf s v.number = some v → recordSize s v ≤ c.outLen.toNat → ∃ t out,
          effectOf 0x000B c s = .ok { status := 0, out := out, st := t } ∧ t.mem = s.mem ∧ out.length = recordSize s v ∧ ∃ v', getVf t v.number = some v' ∧ v'.st = .stopped) ∧
      (∀ m, v.st = .stopped → v.migration = some m → c.dest = false → c.bodyLen = 0 → c.bodyAddr = 0 → 64 ≤ c.outLen.toNat →
        effectOf 0x000C c s = .ok { status := 0, out := finishRecord m, st := removeVf s v }) ∧
      (v.st = .paused → quiet s v.number = true → ∃ t, effectOf 0x000D c s = accept t ∧ (∀ x ∈ t.vfs, x.number ≠ v.number) ∧
        (∀ b ∈ allBlocks t, b.uid = 0 ∨ b.vf ≠ v.number) ∧ (∀ l ∈ t.launches, l.vf ≠ v.number) ∧ (∀ x ∈ t.datum.keys, x.1 ≠ v.keyId) ∧ t.mem = s.mem)) ∧
    (mapLegal (dieMap c.p0) = false → effectOf 0x000E c s = refuse s 8) ∧
    (mapLegal (dieMap c.p0) = true → s.vfs = [] → s.mem = [] → s.dirs = [] → s.datum.retired = [] → (∀ d ∈ s.dies, d.l2 = []) → ∃ t, effectOf 0x000E c s = accept t ∧
      t.datum = { s.datum with partDie := dieMap c.p0, pseq := s.datum.pseq + 1 } ∧ t.links = s.links.mapIdx fun i x =>
        { x with closed := decide (neighbour (i / 4) (i % 4) < 8) &&
            (dieMap c.p0).getD (i / 4) 0 != (dieMap c.p0).getD (neighbour (i / 4) (i % 4)) 0 }) ∧
    (c.handle = 0 →
      (c.bodyLen ≠ 32 → effectOf 0x000F c s = refuse s 2) ∧
      (c.bodyLen = 32 → c.outLen.toNat < 288 → effectOf 0x000F c s = refuse s 12 288) ∧
      (c.bodyLen = 32 → 288 ≤ c.outLen.toNat →
        effectOf 0x000F c s = .ok { status := 0, out := attestReport s none (bodyOf s c), st := s } ∧ (attestReport s none (bodyOf s c)).length = 288))

/-- R343, R344 and Table 19-2: what the Datum answers to each SPDM request, and the TDISP moves: in the order of log entry 19 a request
whose turn it is gets its answer, and any other changes nothing. -/
def Obligations.SpdmRequestsAnswer : Prop :=
  ∀ (s : State) (pf : Fin 2), s.datum.spdm.length = 2 →
    let x := getSpdm s pf
    let put (y : Spdm) (code : Nat) (payload : List Byte) : Datum :=
      { s.datum with spdm := setAt s.datum.spdm pf.val { y with answers := x.answers ++ [(code, payload)] } }
    let tells (e : Instr) (cond : Prop) (y : Spdm) (code : Nat) (payload : List Byte) : Prop :=
      (cond → exec e s = .next { s with datum := put y code payload }) ∧ (¬cond → exec e s = .next s)
    let fin (n : Nat) : Prop := ∃ y, findSession s pf n = some y ∧ y.finished = true
    tells (.getVersion pf) True { x with version := true, capabilities := false, algorithms := false } 0 (toBytes 2 0x1300) ∧
    tells (.getCapabilities pf) (x.version = true) { x with capabilities := true } 1 capabilityFlags ∧
    tells (.negotiateAlgorithms pf) (x.capabilities = true) { x with algorithms := true } 2 algorithms ∧
    tells (.getDigests pf) (x.algorithms = true) x 3 (sm3 certChain) ∧
    (∀ n, tells (.getCertificate pf n) (x.algorithms = true) x 4 (if n = 0 then certChain else [])) ∧
    (∀ nonce, tells (.challenge pf nonce) (x.algorithms = true) x 5 (sign (sm3 certChain ++ blocks1to5 s ++ nonce)) ∧
      tells (.getMeasurements pf nonce) (x.algorithms = true) x 6 (blocks1to5 s ++ sign (blocks1to5 s ++ nonce))) ∧
    (∀ n, tells (.keyExchange pf n) (x.algorithms = true ∧ findSession s pf n = none ∧ x.sessions.length < 64)
        { x with sessions := x.sessions ++ [{ id := n, finished := false, generation := 0, ide := [] }] } 7 (sign (toBytes 8 n)) ∧
      tells (.finish pf n) (findSession s pf n ≠ none)
        { x with sessions := x.sessions.map fun y => if y.id = n then { y with finished := true } else y } 8 [] ∧
      tells (.heartbeat pf n) (fin n) x 9 [] ∧
      tells (.keyUpdate pf n) (fin n)
        { x with sessions := x.sessions.map fun y => if y.id = n then { y with generation := y.generation + 1 } else y } 10 [] ∧
      tells (.endSession pf n) (fin n) { x with sessions := x.sessions.filter fun y => y.id != n } 11 []) ∧
    ∀ (n : Nat) (h : Word),
      (vfOf s h = none → exec (.ideKm pf n h) s = .next s ∧ exec (.lockInterface pf n h) s = .next s ∧ exec (.startInterface pf n h) s = .next s) ∧
      ∀ v, vfOf s h = some v →
        let keyed : Prop := v.ide = true ∧ ∃ y, findSession s pf n = some y ∧ y.finished = true ∧ v.handle ∈ y.ide
        let lockable : Prop := v.tdi = .unlocked ∧ (v.st = .paused ∧ v.segs.getD 0 none ≠ none ∨ v.migrated = true ∧ v.st = .running)
        let moves (e : Instr) (cond : Prop) (f : Vf → Vf) (y : Spdm) (code : Nat) : Prop :=
          (cond → exec e s = .next { s with
            datum := put y code [], vfs := s.vfs.map fun x => if x.number = v.number then f x else x }) ∧
          (¬cond → exec e s = .next s)
        moves (.ideKm pf n h) (fin n) (fun v => { v with ide := true })
          { x with sessions := x.sessions.map fun y => if y.id = n then { y with ide := h :: y.ide } else y } 12 ∧
        moves (.lockInterface pf n h) (keyed ∧ lockable) (fun v => { v with tdi := .locked, migrated := false }) x 13 ∧
        moves (.startInterface pf n h) (keyed ∧ v.tdi = .locked) (fun v => { v with tdi := .run }) x 14

/-- R356, R419 to R433 and the registers of Tables 18-2, 19-4, 20-7, 22-4, 22-5 and 23-8: the log takes what waits, a retry counts against
its lane and the transfer's 8th poisons, a lane whose count is 8 is swapped while a spare is left, sensors record crossings, lower and
restore clocks and shut the package down, a checkpoint streams the image and releases what it held (log entry 37); a boot runs step by
step, each taking its altered form after a failure (log entry 21), with %gtime from 0 after power-on; power loss leaves the store, a
firmware image is installed or refused; a host write to package memory is posted unless it is protected. The fault of an access outside a
BAR window is the model's (log entry 26). -/
def Obligations.ManagementActs : Prop :=
  ∀ s : State,
    (∃ t, exec .logDrain s = .next t ∧
      t = { s with sal := { s.sal with pending := [], log := t.sal.log, logTail := t.sal.logTail, lost := t.sal.lost } } ∧
      (∀ e, s.sal.pending = [e] → t.sal.logTail = s.sal.logTail + 1 ∧ t.sal.lost = setAt s.sal.lost e.source.toNat 0 ∧
        t.sal.log = ((s.sal.logTail.toNat, eventRecord s e) :: s.sal.log).take 65536)) ∧
    (∀ (d st ch ln : Nat) (x : HbmLane), findLane s d st ch ln = some x →
      let logs (n : Nat) (t : State) : Prop :=
        let e := laneEntry s d st ch ln n
        if Sys2Proof.Config.logFull (s.sal.pending.filter fun y => logOf y == logOf e).length = false then
          t.sal.pending = s.sal.pending ++ [e] ∧ t.sal.lost = s.sal.lost
        else t.sal.pending = s.sal.pending ∧ t.sal.lost = modAt s.sal.lost 1 (· + 1)
      let others := s.sal.hbm.filter fun y => onChannel d st ch y && y.lane != ln
      let made := (others.map (·.caused)).sum + x.caused + 1
      let now : HbmLane := { x with retries := if x.swapped then x.retries else x.retries + 1, caused := x.caused + 1 }
      (∀ good : Bool, ∃ t, exec (.hbmTransferRetry d st ch ln good) s = .next t ∧ t.mem = s.mem ∧ logs 0 t ∧
        (good = false → made < 8 → t.poisoned = s.poisoned ∧ findLane t d st ch ln = some now ∧
          ∀ i, Instr.laneSwap d st ch i ∈ t.agenda → Instr.laneSwap d st ch i ∈ s.agenda) ∧
        (good = true ∨ 8 ≤ made → findLane t d st ch ln = some { now with caused := 0 } ∧
          (∀ y ∈ t.sal.hbm, onChannel d st ch y = true → y.caused = 0) ∧
          ∀ i, Instr.laneSwap d st ch i ∈ t.agenda ↔ Instr.laneSwap d st ch i ∈ s.agenda ∨ i = ln ∧ swapDue now = true ∨
            ∃ y ∈ others, y.lane = i ∧ swapDue y = true) ∧
        (good = true → t.poisoned = s.poisoned) ∧
        (good = false → 8 ≤ made → ∃ k, t.poisoned = k :: s.poisoned ∧ k % 64 = 0 ∧ d * 2 ^ 37 ≤ k ∧ k < (d + 1) * 2 ^ 37)) ∧
      ((x.retries < 8 ∨ x.swapped = true) → exec (.laneSwap d st ch ln) s = .next s) ∧
      (8 ≤ x.retries → x.swapped = false →
        let spares := (s.sal.hbm.filter fun y => onChannel d st ch y && y.swapped).length
        (spares < 2 → ∃ t, exec (.laneSwap d st ch ln) s = .next t ∧ findLane t d st ch ln = some { x with swapped := true } ∧ logs 0 t) ∧
        (2 ≤ spares → ∃ t, exec (.laneSwap d st ch ln) s = .next t ∧ t.sal.hbm = s.sal.hbm ∧ logs 1 t))) ∧
    (∀ (i : Nat) (v : BitVec 32),
      let reads : State := if i = 0x1F then
          { s with sal := { s.sal with power := (s.cycle, v) :: s.sal.power.filter fun x => decide (s.cycle < x.1 + 27000000) } }
        else s
      let was := (s.sal.sensors.getD i (0, 0)).2
      let now := sensorState reads i was v
      let past (limit x : Int) : Bool := decide (limit < x ∨ was ≠ 0 ∧ x = limit)
      (32 ≤ i → exec (.sensorPoll i v) s = .next s) ∧
      (i < 32 → s.sal.sensors.length = 32 → now ≠ 2 → ∃ t, exec (.sensorPoll i v) s = .next t ∧
        t = { s with dies := t.dies, sal := { reads.sal with
          sensors := setAt s.sal.sensors i (v, now), log := t.sal.log, logTail := t.sal.logTail, lost := t.sal.lost } } ∧
        t.sal.logTail = s.sal.logTail + BitVec.ofNat 32 (crossed i was now).length ∧
        ∀ d, d < s.dies.length → ∃ slow, getDie t d = { getDie s d with slow := slow } ∧
          let hot : Prop := ∃ j x, t.sal.sensors[j]? = some x ∧ x.2 ≠ 0 ∧ d ∈ sensorDies j
          (¬hot → slow = 0) ∧ (now ≠ 0 → d ∈ sensorDies i → slow = min 26 ((getDie s d).slow + 1)) ∧
          (hot → (now = 0 ∨ d ∉ sensorDies i) → slow = (getDie s d).slow)) ∧
      (i < 32 → now = 2 → ∃ t, exec (.sensorPoll i v) s = .next t ∧ t.sal.powered = false ∧ t.vfs = [] ∧ t.blocks = []) ∧
      ((i < 0x08 ∨ i = 0x18 ∨ i = 0x19) → now = if 105 < v.toInt then 2 else if past 95 v.toInt then 1 else 0) ∧
      (i = 0x1F → now = if past s.sal.powerCap.toNat (powerMean reads) then 1 else 0)) ∧
    ((s.ckp.nores = true → exec .checkpoint s = .next { s with ckp := { s.ckp with done := true, ms := 0 } }) ∧
      (s.ckp.nores = false → s.ckp.began = false → s.datum.working = true → exec .checkpoint s = .next { s with
        ckp := if s.ckp.busy then s.ckp else { s.ckp with busy := true, since := s.cycle }, agenda := s.agenda ++ [.checkpoint] }) ∧
      (s.ckp.nores = false → s.ckp.busy = true → s.ckp.began = true → s.ckp.ends = none → allSaved s = false →
        exec .checkpoint s = .next { s with agenda := s.agenda ++ [.checkpoint] }) ∧
      (s.ckp.nores = false → s.ckp.busy = true → s.ckp.began = true → s.ckp.ends = none → allSaved s = true → ∃ t c, exec .checkpoint s = .next t ∧
        t.ckp = { s.ckp with ends := some c } ∧ t.timers = s.timers ++ [(c, .checkpoint)] ∧ s.cycle ≤ c ∧ c < s.cycle + 1350000000 ∧
        ∀ d l, d < 8 → l ∈ (getDie t d).l2 → l.modified = false) ∧
      (∀ c, s.ckp.nores = false → s.ckp.busy = true → s.ckp.began = true → s.ckp.ends = some c →
        (s.cycle < c → exec .checkpoint s = .next s) ∧
        (c ≤ s.cycle → s.ckp.resume = [] → s.datum.queue = [] → ∃ t x, exec .checkpoint s = .next t ∧ t.mem = s.mem ∧ t.ckp = { s.ckp with
          busy := false, began := false, ends := none, done := true, valid := true, image := some x, poison := t.poisoned.any isHbm
          ms := BitVec.ofNat 32 ((s.cycle - s.ckp.since) / 2700) } ∧
          x.partDie = s.datum.partDie ∧ x.fwDigest = fwDigest s ∧ x.keys = s.datum.keys ∧ x.tags = blockTags s ∧
          x.mem = s.mem.filter (fun c => isHbm c.1) ∧ ∀ k ∈ t.poisoned, inReserve k = false))) ∧
    (s.sal.journal.length = 9 →
      let k := s.sal.bootStep
      let out (t : State) (n : Nat) : BitVec 3 := t.sal.journal.getD (n - 1) 0
      let alt := stepAltered s k
      let good := bit (Sys2Proof.Config.freeValue s.freeCount) 0 = false
      let fails (u : State) : Prop := (alt = true → ∃ t, exec .powerOn s = .next t ∧ t.sal.ready = s.sal.ready ∧ out t k = 3 ∧
          t.agenda = u.agenda ∧ t.sal.rates = [0, 25]) ∧
        (alt = false → ∃ t, exec .powerOn s = .next t ∧ t.sal.bootStep = 1 ∧ out t 1 = 1 ∧ t.agenda = u.agenda ++ [.powerOn] ∧
          (s.sal.retry.getLsbD (k - 1) = false → t.sal.altered.getLsbD (k - 1) = true))
      let passes (t : State) : Prop := out t k = (if alt then 4 else 2) ∧
        (k ≠ 9 → t.sal.bootStep = k + 1 ∧ out t (k + 1) = 1 ∧ t.agenda = s.agenda ++ [.powerOn])
      (booting s = false → (s.sal.ready = true ∨ s.sal.recovery = true ∨ k ≠ 0) → exec .powerOn s = .next s) ∧
      (s.sal.ready = false → s.sal.recovery = false → k = 0 → ∃ t, exec .powerOn s = .next t ∧ t.sal.powered = true ∧ t.sal.bootStep = 1 ∧
        t.sal.journal = [1, 0, 0, 0, 0, 0, 0, 0, 0] ∧ t.sal.retry = 0 ∧ gtime t = 0 ∧ t.agenda = s.agenda ++ [.powerOn] ∧
        ∀ n, n < 9 → t.sal.altered.getLsbD n =
          ((s.sal.altered.getLsbD n || out s (n + 1) == 1 || out s (n + 1) == 3) && !s.sal.retry.getLsbD n)) ∧
      (booting s = true → k = 1 →
        (s.sal.fwValid = true → ∃ t, exec .powerOn s = .next t ∧ out t 1 = 2 ∧ out t 2 = 1 ∧ t.sal.bootStep = 2 ∧
          t.agenda = s.agenda ++ [.powerOn]) ∧
        (s.sal.fwValid = false → ∃ t, exec .powerOn s = .next t ∧ out t 1 = 3 ∧ t.sal.recovery = true ∧ t.sal.rates = [0, 25] ∧
          t.agenda = s.agenda)) ∧
      (booting s = true → 2 ≤ k → k ≤ 9 → k ≠ 8 →
        (¬good → fails s) ∧
        (good → ∃ t, exec .powerOn s = .next t ∧ passes t ∧ t.mem = s.mem ∧
          ((k ≠ 5 ∨ alt = false) → t.dies = s.dies) ∧ ((k ≠ 6 ∨ alt = false) → t.links = s.links) ∧
          (k = 7 → t.ckp.nores = alt ∧ t.datum.blocks.length = 5) ∧
          (k = 9 → t.sal.ready = true ∧ t.sal.version = s.sal.fwVersion ∧ (alt = false → t.sal.rates = [1280, 1280])))) ∧
      (booting s = true → k = 8 →
        (alt = true → ∃ t, exec .powerOn s = .next t ∧ passes t ∧ t.ckp.valid = false ∧ t.ckp.image = none) ∧
        (alt = false → s.ckp.image = none → ∃ t, exec .powerOn s = .next t ∧ passes t ∧ t.vfs = s.vfs) ∧
        ∀ x, alt = false → s.ckp.image = some x →
          (imageWhole s x (restoreImage s x) = false → fails s) ∧
          (imageWhole s x (restoreImage s x) = true → ∃ t, exec .powerOn s = .next t ∧ out t 8 = 2 ∧ t.sal.bootStep = 9 ∧
            t.vfs.map (·.handle) = x.vfs.map (·.handle) ∧ (∀ v ∈ t.vfs, v.st = .evicted ∧ v.tdi = .unlocked ∧ v.ide = false) ∧
            t.datum.keys = x.keys ∧ t.datum.partDie = x.partDie ∧ (s.Inv → Memory.wf x.mem = true → ∀ c ∈ x.mem, readCell t.mem c.1 = c.2)))) ∧
    (∃ t, exec .powerLoss s = .next t ∧ t.sal.powered = false ∧ t.sal.log = s.sal.log ∧ t.sal.fwVersion = s.sal.fwVersion ∧
      t.sal.fwImage = s.sal.fwImage ∧ t.sal.fwValid = s.sal.fwValid ∧ t.sal.fwCounter = s.sal.fwCounter ∧ t.sal.journal = s.sal.journal ∧
      t.vfs = [] ∧ t.ckp.image = none ∧ t.mem = s.mem.filter fun c => isHost c.1) ∧
    (∃ t, exec .moduleReset s = .next t ∧ t.sal.powered = true ∧ t.sal.ready = false ∧ t.sal.bootStep = 1 ∧ t.agenda = [.powerOn] ∧
      t.ckp.image = s.ckp.image ∧ t.vfs = [] ∧ t.mem = s.mem.filter (fun c => !isHbm c.1) ∧
      ∀ i, i < s.links.length → (getLink t i).failed = (getLink s i).failed ∧ (getLink t i).retraining = false) ∧
    ((s.sal.updBusy = true → ∃ t, exec .firmwareUpdate s = .next t ∧ t.sal.updBusy = false ∧ t.sal.updStatus = 1 ∧
        t.sal.fwVersion = s.sal.updVersion ∧ t.sal.fwImage = s.sal.updImage ∧ t.sal.fwValid = true ∧ t.sal.fwCounter = s.sal.updVersion ∧
        t.mem = s.mem) ∧
      (s.sal.updBusy = false → s.sal.ready = false → exec .firmwareUpdate s = .next s) ∧
      (s.sal.updBusy = false → s.sal.ready = true → ∃ t, exec .firmwareUpdate s = .next t ∧ t.mem = s.mem ∧ t.sal.updStatus = imageStatus s ∧
        (imageStatus s ≠ 0 → t.timers = s.timers ∧ t.sal.fwValid = s.sal.fwValid) ∧
        (imageStatus s = 0 → t.timers = s.timers ++ [(s.cycle + 81000000000, .firmwareUpdate)] ∧ t.sal.updBusy = true ∧
          t.sal.fwValid = false ∧ some t.sal.updImage = offeredImage s ∧ t.sal.updVersion = offeredVersion s)) ∧
      (s.sal.recovery = false → exec .firmwareRecovery s = .next s) ∧
      (s.sal.recovery = true → imageStatus s ≠ 0 →
        exec .firmwareRecovery s = .next { s with sal := { s.sal with updStatus := imageStatus s } }) ∧
      (s.sal.recovery = true → imageStatus s = 0 → s.sal.journal.length = 9 → ∃ t, exec .firmwareRecovery s = .next t ∧
        t.sal.recovery = false ∧ t.sal.fwValid = true ∧ t.sal.fwVersion = offeredVersion s ∧ t.sal.fwCounter = offeredVersion s ∧
        some t.sal.fwImage = offeredImage s ∧ t.sal.bootStep = 2 ∧ t.sal.journal.take 2 = [4, 1] ∧ t.agenda = s.agenda ++ [.powerOn])) ∧
    (∀ (pf : Fin 2) (a : Nat) (bytes : List Byte),
      let o := getOrd s pf.val
      let runs := pageRuns 65536 a bytes.length 3
      (2 ^ 42 < a + bytes.length → exec (.pfBar2Write pf a bytes) s = .fault (.outsideWindow a)) ∧
      (a + bytes.length ≤ 2 ^ 42 → pf.val < s.ords.length →
        (o.waits ≠ [] → ∃ t, exec (.pfBar2Write pf a bytes) s = .next t ∧ t = { s with ords := t.ords } ∧
          getOrd t pf.val = { o with waits := o.waits ++ [.pf a bytes] }) ∧
        (o.waits = [] → (4096 < bytes.length ∨ s.sal.ready = false) → exec (.pfBar2Write pf a bytes) s = .next s) ∧
        (o.waits = [] → bytes.length ≤ 4096 → s.sal.ready = true →
          ((∃ r ∈ runs, protectedAddr s r.1 = true) →
            exec (.pfBar2Write pf a bytes) s = .next { s with advisory := s.advisory ++ [pf.val] }) ∧
          ((∀ r ∈ runs, protectedAddr s r.1 = false) → o.pieces = [] → ∃ t, exec (.pfBar2Write pf a bytes) s = .next t ∧
            t = { s with ords := t.ords, agenda := s.agenda ++ (List.range runs.length).map fun n => .pieceAck pf.val o.nextSeq n } ∧
            getOrd t pf.val = { nextSeq := o.nextSeq + 1, waits := [], pieces := runs.zipIdx.map fun r => {
              seq := o.nextSeq, num := r.2, route := .home (homeOf r.1.1), addr := r.1.1, bytes := (bytes.drop (r.1.1 - a)).take r.1.2
              vf := 0, door := none, relaxed := false, forwarded := true } })))) ∧
    ∀ (offset : Nat) (val : Word),
      (∀ n : Fin 2, 0x4000000 ≤ offset → exec (.registerWrite (.pf n) offset val) s = .fault (.outsideWindow offset)) ∧
      (∀ vf bound, 0x4000 ≤ offset → exec (.registerWrite (.vf vf bound) offset val) s = .fault (.outsideWindow offset)) ∧
      (∀ n : Fin 2, offset < 0x4000000 → ∃ t, exec (.registerWrite (.pf n) offset val) s = .next t ∧
        ((s.sal.rates.getD n.val 0 = 0 ∨ s.sal.ready = false ∧ offset < 0x2000000) → t = s)) ∧
      (∀ vf bound, offset < 0x4000 → ∃ t, exec (.registerWrite (.vf vf bound) offset val) s = .next t ∧
        (bound = false ∨ served s vf = false → t = s)) ∧
      (∀ n : Fin 2, s.sal.rates.getD n.val 0 ≠ 0 →
        (let w : BitVec 12 := fld val 0 12
         (¬(1000 ≤ w.toNat ∧ w.toNat ≤ 3600) → exec (.registerWrite (.pf n) 0x2000140 val) s = .next s) ∧
         (1000 ≤ w.toNat → w.toNat ≤ 3600 → s.sal.sensors.length = 32 → ∃ t, exec (.registerWrite (.pf n) 0x2000140 val) s = .next t ∧
           t.mem = s.mem ∧ t.sal.powerCap = w ∧ (w.toNat < powerMean s → (t.sal.sensors.getD 0x1F (0, 0)).2 = 1) ∧
           (powerMean s < w.toNat → (t.sal.sensors.getD 0x1F (0, 0)).2 = 0))) ∧
        exec (.registerWrite (.pf n) 0x2001000 val) s = .next { s with tim := { s.tim with
          src := fld val 0 2, port := fld val 2 4, domain := fld val 8 8, xport := fld val 16 2 } } ∧
        exec (.registerWrite (.pf n) 0x2000010 val) s = .next { s with sal := { s.sal with logSel := fld val 0 32 } } ∧
        exec (.registerWrite (.pf n) 0x10000 val) s = .next s ∧
        (s.sal.ready = true →
          (∀ part, part < 8 → part < s.parts.length → ∃ t, exec (.registerWrite (.pf n) (0x1000100 + 0x40 * part) val) s = .next t ∧
            t = { s with parts := t.parts } ∧ getPart t part = if 100 ≤ (fld val 0 20 : BitVec 20).toNat ∧ (fld val 0 20 : BitVec 20).toNat ≤ 1000000
              then { getPart s part with period := fld val 0 20 } else getPart s part) ∧
          exec (.registerWrite (.pf n) 0x1000050 val) s = exec (.fwlDropClear val) s)) ∧
      ∀ vf v, served s vf = true → getVf s vf = some v → v.hif.enable = false → ∃ t, exec (.registerWrite (.vf vf true) 0x000 val) s = .next t ∧
        t = { s with vfs := t.vfs } ∧ getVf t vf = some { v with hif := { v.hif with sqBase := fld val 7 57 ++ (0 : BitVec 7) } }

/-! ## The machine -/

/-- R31, R151, R170, R254, R319, R320, R419: a step runs what the chosen agent has at its PC. Where the bytes at the slot's PC decode to i,
the step is exec of i there, and beside it only the counts of Tables 22-3 and 22-7 and, in a recipe, the place in it; where they do not
fetch or decode, or are no word that the recipe may hold, the slot traps, and an uncorrectable word is reported; a stream's word and a due
event likewise; with nothing to do only the clock advances. A due event acts in the even cycles, and a stream with a step ready in every
fourth (log entry 5). -/
def Obligations.StepRunsTheDecodedInstruction : Prop :=
  (∀ (s t : State) (u : Nat) (p : PcSlot), choose (tick s) = (.slot u p, t) →
    let x := prepare t u p
    (fetchPoison x x.b (fetchPc x) = true → step s = .next (fetchError x (fetchPc x))) ∧
    (fetchPoison x x.b (fetchPc x) = false →
      (∀ c a, fetchSlot x = .error (c, a) → step s = trapTurn x c a) ∧
      ∀ w, fetchSlot x = .ok w →
        (∀ r e, runningRecipe x = some (r, e) → recipeMay w = false → step s = trapTurn x 0x109 (zx64 r.recipe)) ∧
        (runningRecipe x = none ∨ recipeMay w = true →
          (∀ c a, decode false w = .error (c, a) → step s = trapTurn x c a) ∧
          ∀ i, decode false w = .ok i → step s = mapNext (fun y => stepRecipe (countIssue x w i y)) (exec i x)))) ∧
  (∀ y : State, runningRecipe y = none → stepRecipe y = y) ∧
  (∀ (s t : State) (u : Nat), choose (tick s) = (.stream u, t) →
    let x := focusStream t u
    (fetchPoison x x.b (stream x).pc = true → step s = .next (fetchError x (stream x).pc)) ∧
    (fetchPoison x x.b (stream x).pc = false →
      (∀ c a, fetchWord x x.b (stream x).pc = .error (c, a) → step s = .next (streamFault x c)) ∧
      ∀ w, fetchWord x x.b (stream x).pc = .ok w →
        (∀ c a, decode true w = .error (c, a) → step s = .next (streamFault x c)) ∧
        ∀ i, decode true w = .ok i → step s = exec i x)) ∧
  (∀ (s t : State) (e : Instr), choose (tick s) = (.event e, t) → step s = mapNext (countAfter t e) (exec e t)) ∧
  (∀ s t : State, choose (tick s) = (.idle, t) → step s = .next t) ∧
  (∀ (s : State) (e : Instr) rest, (tick s).agenda = e :: rest → (tick s).cycle % 2 = 0 →
    choose (tick s) = (.event e, { tick s with agenda := rest })) ∧
  (∀ (s : State) n u, nextStream (tick s) = some (n, u) → (tick s).cycle % 4 = 3 →
    ∃ a t, choose (tick s) = (a, t) ∧ (a = .stream u ∨ a = .event (.matrixStep u))) ∧
  (∀ (x t : State) (w : Word) (i : Instr), ∃ vs ps n, countIssue x w i t = { t with vfs := vs, parts := ps, freeCount := n }) ∧
  ∀ (x t : State) (e : Instr), ∃ vs ps, countAfter x e t = { t with vfs := vs, parts := ps }

/-- R4, R331, R335, R356 and the registers of Tables 18-5, 18-6, 19-4, 19-12, 20-3, 20-7, 21-4, 22-4 and 23-8: a host read of VF BAR0 is
answered only over the stream of a VF that is in RUN, and gives each field its place; write-only registers read as 0, a write is read back,
no read comes over a link that is not trained (R431), and a read through PF BAR2 gives the bytes that the memory array stores, ciphertext
under a VF's key or a retired one. The form of the encryption is the model's (log entry 9). -/
def Obligations.RegisterReadsAnswer : Prop :=
  ∀ s : State,
    (∀ vf offset, (served s vf = false → readRegister s (.vf vf true) offset = none) ∧ readRegister s (.vf vf false) offset = none) ∧
    (∀ vf v, served s vf = true → getVf s vf = some v →
      let reads (offset : Nat) (p : Word → Prop) : Prop := ∃ w, readRegister s (.vf vf true) offset = some w ∧ p w
      reads 0x000 (fun w => w = v.hif.sqBase) ∧ reads 0x008 (fun w => w = v.hif.cqBase) ∧
      reads 0x010 (fun w => fld w 0 5 = v.hif.sqLog2 ∧ fld w 8 5 = v.hif.cqLog2 ∧ w.getLsbD 31 = v.hif.enable) ∧
      reads 0x018 (fun w => w = 0) ∧ reads 0x020 (fun w => w = zx64 v.hif.sqHead) ∧ reads 0x028 (fun w => w = zx64 v.hif.cqTail) ∧
      reads 0x030 (fun w => w = zx64 v.hif.cqHead) ∧
      reads 0x038 (fun w => w.getLsbD 0 = v.hif.fault ∧ fld w 1 3 = v.hif.reason ∧ fld w 16 10 = v.hif.cause) ∧
      reads 0x040 (fun w => w = v.hif.inbVa) ∧
      reads 0x048 (fun w => fld w 0 16 = v.hif.inbCount ∧ fld w 16 10 = v.hif.inbCause ∧ w.getLsbD 31 = false) ∧
      reads 0x100 (fun w => w = v.trn.root) ∧ reads 0x128 (fun w => w = 0) ∧
      reads 0x130 (fun w => (fld w 0 16 : BitVec 16).toNat = min 0xFFFF (yieldedSlots s vf fun _ => true).length ∧
        (fld w 16 16 : BitVec 16).toNat = min 0xFFFF v.trn.waiting.length) ∧
      reads 0x220 (fun w => w = zx64 v.smp.drop) ∧ reads 0x258 (fun w => w = zx64 v.trc.head)) ∧
    (∀ (pf : Fin 2) (offset : Nat), (s.sal.rates.getD pf.val 0 = 0 ∨ s.sal.ready = false ∧ offset < 0x2000000) →
      readRegister s (.pf pf) offset = none) ∧
    (∀ (pf : Fin 2) (part : Nat), part < 8 → s.sal.rates.getD pf.val 0 ≠ 0 → s.sal.ready = true →
      let reads (offset : Nat) (p : Word → Prop) : Prop := ∃ w, readRegister s (.pf pf) offset = some w ∧ p w
      let b := getBox s pf.val
      let p := getPart s part
      reads 0x40 (fun w => w = 0) ∧
      reads 0x48 (fun w => w.getLsbD 0 = b.busy ∧ w.getLsbD 1 = b.done ∧ fld w 8 8 = b.status ∧ fld w 32 32 = b.seq) ∧
      (∀ n, n < 256 → reads (0x10000 + 0x800 * part + 8 * n) fun w => w = pageWord p.page n) ∧
      reads (0x1000100 + 0x40 * part) (fun w => w = zx64 p.period) ∧ reads (0x1000118 + 0x40 * part) (fun w => w = zx64 p.lateCount) ∧
      reads (0x1006000 + 8 * part) (fun w => w = zx64 p.smpN) ∧
      reads (0x1008000 + 8 * part) (fun w => fld w 0 32 = (getDie s part).handoffs ∧ fld w 32 24 = (getDie s part).recalls) ∧
      reads 0x1000400 (fun w => w = 0) ∧ reads 0x1000050 (fun w => w = zx64 s.datum.drop) ∧
      reads 0x2000090 (fun w => w = 0) ∧ reads 0x2000100 (fun w => w = 0) ∧ reads 0x2000140 (fun w => w = zx64 s.sal.powerCap) ∧
      reads 0x2001008 (fun w => w.getLsbD 0 = s.tim.locked ∧ w.getLsbD 1 = s.tim.holdover ∧ fld w 32 32 = s.tim.offset) ∧
      reads 0x2001010 (fun w => w = gtime s) ∧
      reads 0x2000048 (fun w => (fld w 0 32, fld w 32 2) = s.sal.sensors.getD s.sal.sensSel.toNat (0, 0)) ∧
      reads 0x2000108 (fun w => w.getLsbD 0 = s.ckp.busy ∧ w.getLsbD 1 = s.ckp.done ∧ fld w 32 32 = s.ckp.ms) ∧
      ∀ val : Word, ∃ t, exec (.registerWrite (.pf pf) 0x2000080 val) s = .next t ∧ readRegister t (.pf pf) 0x2000080 = some val) ∧
    ∀ line,
      (lineKey s line = none → readPfBar2 s (line * 128) 128 = readBytes s.mem (line * 128) 128) ∧
      ∀ key, lineKey s line = some key →
        readPfBar2 s (line * 128) 128 = fit 128 (Sys2Proof.Config.encrypt key (tweakOf s line) (readBytes s.mem (line * 128) 128))

/-- The words that the spec writes out in Tables 03-10, 07-10, 08-5, 09-10, 10-5, 11-6 and 12-6 and in files 12 and 13 decode to the
instructions that it writes beside them. -/
def Obligations.SpecWordsDecode : Prop :=
  let v (la : BitVec 4) (ms : BitVec 3) (mz : Bool) (ty : Ty) (addr : BitVec 5) (off : BitVec 16) : MArgs := ⟨la, ms, mz, ty, .age addr, off⟩
  decode false 0x40C1B8022E040E00 = .ok (.ffma ⟨3, false, .f32⟩ .rtz false false false (.age 0) (.frame 2) (.imm 0x0E00)) ∧
  decode false 0x7190380000020010 = .ok (.ldb (v 4 0 false .f32 0 16) 2 false) ∧
  decode false 0x0141000500000006 = .ok (.brd 2 5 6) ∧
  decode false 0x01C0004100FFFFEC = .ok (.call 2 1 0xFFFFEC) ∧
  decode false 0x01800030BEB1A040 = .ok (.join 3 2 0xFAC681) ∧
  decode false 0x02C0000000000000 = .ok .exit ∧
  decode false 0x108038FF00000000 = .ok (.pushi ⟨0, false, .f32⟩ 0x3FC00000) ∧
  decode false 0x2000186307FFFFC0 = .ok (.sadd ⟨.i64, 3, 3, .imm 0xFFFF, 0xF⟩) ∧
  decode false 0x24C0212004000000 = .ok (.sld .n64 9 0 0) ∧
  decode false 0x3580080600008000 = .ok (.icmp ⟨0, false, .i32⟩ .lt (.age 0) .zero) ∧
  decode false 0x5000380000024000 = .ok (.cvt ⟨0, false, .f32⟩ .rne .e4m3 (.age 0)) ∧
  decode false 0x600038061000C000 = .ok (.shfl 0 ⟨0, false, .f32⟩ .xor (.age 0) .one) ∧
  decode false 0x8048181005810000 = .ok (.atomc (v 2 0 false .i64 2 0) (.age 0) .gg .acqrel 1) ∧
  decode false 0x7200380809000008 = .ok (.stl (v 0 0 false .f32 1 8) (.age 0) .pkg .dflt) ∧
  decode false 0xA000010A23100000 = .ok (.scopy ⟨0, 8, 10, some 2, some 3, 0⟩ .global .scratch) ∧
  decode false 0x90C000C010008000 = .ok (.barwt 17 6) ∧
  decode true 0xB04003A084396000 = .ok (.mmaq ⟨0x1D, 1, 2, 0, true, 0xC, 0xB⟩) ∧
  decode true 0xB180038000000000 = .ok (.mdrain 0x1C 0 0 0) ∧
  decode true 0xB200004000000000 = .ok (.mbarwt 2) ∧
  decode false 0xB300380000000000 = .ok (.apop 0 0 .f32) ∧
  decode false 0xC090400450020000 = .ok (.incir ⟨4, 0, false, .f64, true, false, .age 0, .scalar 5⟩) ∧
  decode false 0xC1093D2010010000 = .ok (.segx ⟨2, 2, true, .f32, false, true, .frame 4, .age 1⟩) ∧
  decode false 0xC140000000000000 = .ok (.gpclr 0)

/-- R151 to R164: decode and encode agree. Every well-formed instruction that has a word reads back from it, whole, whatever its operands;
and the word that any word's instruction encodes to is that word. -/
def Obligations.DecodeOfEncode : Prop :=
  (∀ (i : Instr) (w : Word), wf i = true → encode i = some w → decode (streamWord w) w = .ok i) ∧
  ∀ (stream : Bool) (w : Word) (i : Instr), decode stream w = .ok i → encode i = some w

/-- Every step keeps memory in its canonical form, whatever runs. -/
def Obligations.StepKeepsTheInvariant : Prop :=
  ∀ s t : State, s.Inv → step s = .next t → t.Inv

/-- What the module is right after reset: sound, with the values that Tables 18-5, 19-12, 20-7, 21-4, 22-4, 22-5 and 23-8 give their
registers, no VF, no launch, no line held and no event due. -/
def Obligations.ResetLeavesTheListedValues : Prop :=
  let s := State.reset
  s.Inv ∧ s.vfs = [] ∧ s.launches = [] ∧ s.kernels = [] ∧ s.gangs = [] ∧ s.blocks = [] ∧ s.warps = [] ∧ s.inflight = [] ∧ s.agenda = [] ∧
  s.timers = [] ∧ s.dirs = [] ∧ (∀ d, d < 10 → getDie s d = {
    l2 := [], mirrors := [], reads := [], wants := [], held := [], handoffs := 0, recalls := 0, coreOff := 0, clusterOff := 0, slow := 0 }) ∧
  (∀ p, p < 8 → (getPart s p).period = 1000 ∧ (getPart s p).run = false ∧ (getPart s p).vfnum = 0 ∧ (getPart s p).ticks = 0 ∧
    (getPart s p).lateCount = 0 ∧ (getPart s p).smpN = 0) ∧
  (∀ n, n < 32 → getLink s n = { retraining := false, failed := false, closed := false, retrains := 0, replays := 0 }) ∧
  s.buckets = [] ∧ s.datum.partDie = List.replicate 8 0 ∧ s.datum.pseq = 0 ∧ s.datum.drop = 0 ∧ s.datum.coreBusy = false ∧ s.datum.coreDone = false ∧
  (∀ pf, pf < 2 → (getBox s pf).busy = false ∧ (getBox s pf).done = false ∧ (getBox s pf).hdr = List.replicate 64 0) ∧
  s.tim.src = 0 ∧ s.tim.locked = false ∧ s.tim.holdover = false ∧ s.tim.offset = 0 ∧ s.sal.powerCap = 3600 ∧ s.sal.ready = false ∧
  (∀ i, i < 32 → s.sal.sensors[i]? = some (0, 0)) ∧ s.sal.recovery = false ∧ s.sal.updBusy = false ∧ s.ckp.busy = false ∧ s.ckp.done = false ∧ s.ckp.valid = false

/-- Nothing that the module does is refused, and nothing faults but a host's access outside the window that a base address register
gives it (R331, R356): an instruction or an event answers a next state in every state, and so does every step that is none of
those two. -/
def Obligations.OnlyAccessesOutsideTheBarStop : Prop :=
  (∀ (i : Instr) (s : State), (∃ t, exec i s = .next t) ∨
    (∃ target offset val, i = .registerWrite target offset val ∧ 0x4000 ≤ offset ∧ exec i s = .fault (.outsideWindow offset)) ∨
    ∃ pf a bytes, i = .pfBar2Write pf a bytes ∧ 2 ^ 42 < a + bytes.length ∧ exec i s = .fault (.outsideWindow a)) ∧
  ∀ s : State, (∀ e ∈ (tick s).agenda, (∀ target offset val, e ≠ .registerWrite target offset val) ∧ ∀ pf a bytes, e ≠ .pfBar2Write pf a bytes) →
    ∃ t, step s = .next t
end

