-- ==== Sys2Proof/Laws/State.lean ====
section
/-! SUPPORT. What the field updates of the current slot, warp and block leave, one lemma per field per update. -/

namespace Sys2Proof.Machine

@[simp] theorem slotOf_setSlot_same (w : Warp) (p : PcSlot) (x : Slot) : slotOf (setSlot w p x) p = x := by cases p <;> rfl
@[simp] theorem slotOf_setSlot_other (w : Warp) (p : PcSlot) (x : Slot) :
    slotOf (setSlot w p x) (otherSlot p) = slotOf w (otherSlot p) := by cases p <;> rfl
@[simp] theorem setSlot_setSlot (w : Warp) (p : PcSlot) (x y : Slot) : setSlot (setSlot w p x) p y = setSlot w p y := by
  cases p <;> rfl
@[simp] theorem setSlot_slotOf (w : Warp) (p : PcSlot) : setSlot w p (slotOf w p) = w := by cases p <;> rfl

@[simp] theorem setSlot_lanes (w : Warp) (p : PcSlot) (x : Slot) : (setSlot w p x).lanes = w.lanes := by cases p <;> rfl
@[simp] theorem setSlot_scalars (w : Warp) (p : PcSlot) (x : Slot) : (setSlot w p x).scalars = w.scalars := by cases p <;> rfl
@[simp] theorem setSlot_masks (w : Warp) (p : PcSlot) (x : Slot) : (setSlot w p x).masks = w.masks := by cases p <;> rfl
@[simp] theorem setSlot_mode (w : Warp) (p : PcSlot) (x : Slot) : (setSlot w p x).mode = w.mode := by cases p <;> rfl
@[simp] theorem setSlot_depth (w : Warp) (p : PcSlot) (x : Slot) : (setSlot w p x).depth = w.depth := by cases p <;> rfl
@[simp] theorem setSlot_tile (w : Warp) (p : PcSlot) (x : Slot) : (setSlot w p x).tile = w.tile := by cases p <;> rfl
@[simp] theorem setSlot_fflags (w : Warp) (p : PcSlot) (x : Slot) : (setSlot w p x).fflags = w.fflags := by cases p <;> rfl
@[simp] theorem setSlot_div (w : Warp) (p : PcSlot) (x : Slot) : (setSlot w p x).div = w.div := by cases p <;> rfl
@[simp] theorem setSlot_acts (w : Warp) (p : PcSlot) (x : Slot) : (setSlot w p x).acts = w.acts := by cases p <;> rfl
@[simp] theorem setSlot_stake (w : Warp) (p : PcSlot) (x : Slot) : (setSlot w p x).stake = w.stake := by cases p <;> rfl
@[simp] theorem setSlot_pend (w : Warp) (p : PcSlot) (x : Slot) : (setSlot w p x).pend = w.pend := by cases p <;> rfl
@[simp] theorem setSlot_recipe (w : Warp) (p : PcSlot) (x : Slot) : (setSlot w p x).recipe = w.recipe := by cases p <;> rfl
@[simp] theorem setSlot_uid (w : Warp) (p : PcSlot) (x : Slot) : (setSlot w p x).uid = w.uid := by cases p <;> rfl
@[simp] theorem setSlot_block (w : Warp) (p : PcSlot) (x : Slot) : (setSlot w p x).block = w.block := by cases p <;> rfl
@[simp] theorem setSlot_num (w : Warp) (p : PcSlot) (x : Slot) : (setSlot w p x).num = w.num := by cases p <;> rfl
@[simp] theorem setSlot_ridNext (w : Warp) (p : PcSlot) (x : Slot) : (setSlot w p x).ridNext = w.ridNext := by cases p <;> rfl
@[simp] theorem setSlot_flagZ (w : Warp) (p : PcSlot) (x : Slot) : (setSlot w p x).flagZ = w.flagZ := by cases p <;> rfl
@[simp] theorem setSlot_flagN (w : Warp) (p : PcSlot) (x : Slot) : (setSlot w p x).flagN = w.flagN := by cases p <;> rfl
@[simp] theorem setSlot_flagC (w : Warp) (p : PcSlot) (x : Slot) : (setSlot w p x).flagC = w.flagC := by cases p <;> rfl
@[simp] theorem setSlot_flagV (w : Warp) (p : PcSlot) (x : Slot) : (setSlot w p x).flagV = w.flagV := by cases p <;> rfl
@[simp] theorem setSlot_sealed (w : Warp) (p : PcSlot) (x : Slot) : (setSlot w p x).sealed = w.sealed := by cases p <;> rfl
@[simp] theorem setSlot_gpstat (w : Warp) (p : PcSlot) (x : Slot) : (setSlot w p x).gpstat = w.gpstat := by cases p <;> rfl
@[simp] theorem setSlot_stackSlot (w : Warp) (p : PcSlot) (x : Slot) : (setSlot w p x).stackSlot = w.stackSlot := by cases p <;> rfl
@[simp] theorem setSlot_saved (w : Warp) (p : PcSlot) (x : Slot) : (setSlot w p x).saved = w.saved := by cases p <;> rfl
@[simp] theorem setSlot_ident (w : Warp) (p : PcSlot) (x : Slot) : (setSlot w p x).ident = w.ident := by cases p <;> rfl
@[simp] theorem setSlot_prio (w : Warp) (p : PcSlot) (x : Slot) : (setSlot w p x).prio = w.prio := by cases p <;> rfl
@[simp] theorem setSlot_quadrant (w : Warp) (p : PcSlot) (x : Slot) : (setSlot w p x).quadrant = w.quadrant := by cases p <;> rfl
@[simp] theorem setSlot_index (w : Warp) (p : PcSlot) (x : Slot) : (setSlot w p x).index = w.index := by cases p <;> rfl

@[simp] theorem cur_modCur (s : State) (f : Slot → Slot) : cur (modCur s f) = f (cur s) := by simp [cur, modCur]
@[simp] theorem modCur_modCur (s : State) (f g : Slot → Slot) : modCur (modCur s f) g = modCur s fun x => g (f x) := by
  simp [modCur, cur]
@[simp] theorem modCur_slot (s : State) (f : Slot → Slot) : (modCur s f).slot = s.slot := rfl
@[simp] theorem modCur_b (s : State) (f : Slot → Slot) : (modCur s f).b = s.b := rfl
@[simp] theorem modCur_mem (s : State) (f : Slot → Slot) : (modCur s f).mem = s.mem := rfl
@[simp] theorem modCur_vfs (s : State) (f : Slot → Slot) : (modCur s f).vfs = s.vfs := rfl
@[simp] theorem modCur_dies (s : State) (f : Slot → Slot) : (modCur s f).dies = s.dies := rfl
@[simp] theorem modCur_dirs (s : State) (f : Slot → Slot) : (modCur s f).dirs = s.dirs := rfl
@[simp] theorem modCur_agenda (s : State) (f : Slot → Slot) : (modCur s f).agenda = s.agenda := rfl
@[simp] theorem modCur_lanes (s : State) (f : Slot → Slot) : (modCur s f).w.lanes = s.w.lanes := by simp [modCur]
@[simp] theorem modCur_scalars (s : State) (f : Slot → Slot) : (modCur s f).w.scalars = s.w.scalars := by simp [modCur]
@[simp] theorem modCur_masks (s : State) (f : Slot → Slot) : (modCur s f).w.masks = s.w.masks := by simp [modCur]
@[simp] theorem modCur_mode (s : State) (f : Slot → Slot) : (modCur s f).w.mode = s.w.mode := by simp [modCur]
@[simp] theorem modCur_depth (s : State) (f : Slot → Slot) : (modCur s f).w.depth = s.w.depth := by simp [modCur]
@[simp] theorem modCur_tile (s : State) (f : Slot → Slot) : (modCur s f).w.tile = s.w.tile := by simp [modCur]
@[simp] theorem modCur_div (s : State) (f : Slot → Slot) : (modCur s f).w.div = s.w.div := by simp [modCur]
@[simp] theorem modCur_acts (s : State) (f : Slot → Slot) : (modCur s f).w.acts = s.w.acts := by simp [modCur]
@[simp] theorem modCur_pend (s : State) (f : Slot → Slot) : (modCur s f).w.pend = s.w.pend := by simp [modCur]

@[simp] theorem modCur_onStream (s : State) (f : Slot → Slot) : (modCur s f).onStream = s.onStream := rfl
@[simp] theorem modCur_warps (s : State) (f : Slot → Slot) : (modCur s f).warps = s.warps := rfl
@[simp] theorem modCur_blocks (s : State) (f : Slot → Slot) : (modCur s f).blocks = s.blocks := rfl
@[simp] theorem modCur_gangs (s : State) (f : Slot → Slot) : (modCur s f).gangs = s.gangs := rfl
@[simp] theorem modCur_launches (s : State) (f : Slot → Slot) : (modCur s f).launches = s.launches := rfl
@[simp] theorem modCur_kernels (s : State) (f : Slot → Slot) : (modCur s f).kernels = s.kernels := rfl
@[simp] theorem modCur_parts (s : State) (f : Slot → Slot) : (modCur s f).parts = s.parts := rfl
@[simp] theorem modCur_inflight (s : State) (f : Slot → Slot) : (modCur s f).inflight = s.inflight := rfl
@[simp] theorem modCur_links (s : State) (f : Slot → Slot) : (modCur s f).links = s.links := rfl
@[simp] theorem modCur_routes (s : State) (f : Slot → Slot) : (modCur s f).routes = s.routes := rfl
@[simp] theorem modCur_ords (s : State) (f : Slot → Slot) : (modCur s f).ords = s.ords := rfl
@[simp] theorem modCur_buckets (s : State) (f : Slot → Slot) : (modCur s f).buckets = s.buckets := rfl
@[simp] theorem modCur_footprints (s : State) (f : Slot → Slot) : (modCur s f).footprints = s.footprints := rfl
@[simp] theorem modCur_quadrants (s : State) (f : Slot → Slot) : (modCur s f).quadrants = s.quadrants := rfl
@[simp] theorem modCur_datum (s : State) (f : Slot → Slot) : (modCur s f).datum = s.datum := rfl
@[simp] theorem modCur_tim (s : State) (f : Slot → Slot) : (modCur s f).tim = s.tim := rfl
@[simp] theorem modCur_ckp (s : State) (f : Slot → Slot) : (modCur s f).ckp = s.ckp := rfl
@[simp] theorem modCur_sal (s : State) (f : Slot → Slot) : (modCur s f).sal = s.sal := rfl
@[simp] theorem modCur_poisoned (s : State) (f : Slot → Slot) : (modCur s f).poisoned = s.poisoned := rfl
@[simp] theorem modCur_msix (s : State) (f : Slot → Slot) : (modCur s f).msix = s.msix := rfl
@[simp] theorem modCur_advisory (s : State) (f : Slot → Slot) : (modCur s f).advisory = s.advisory := rfl
@[simp] theorem modCur_replies (s : State) (f : Slot → Slot) : (modCur s f).replies = s.replies := rfl
@[simp] theorem modCur_timers (s : State) (f : Slot → Slot) : (modCur s f).timers = s.timers := rfl
@[simp] theorem modCur_cycle (s : State) (f : Slot → Slot) : (modCur s f).cycle = s.cycle := rfl
@[simp] theorem modCur_timeBase (s : State) (f : Slot → Slot) : (modCur s f).timeBase = s.timeBase := rfl
@[simp] theorem modCur_freeCount (s : State) (f : Slot → Slot) : (modCur s f).freeCount = s.freeCount := rfl
@[simp] theorem modCur_nextId (s : State) (f : Slot → Slot) : (modCur s f).nextId = s.nextId := rfl
@[simp] theorem modCur_fflags (s : State) (f : Slot → Slot) : (modCur s f).w.fflags = s.w.fflags := by simp [modCur]
@[simp] theorem modCur_stake (s : State) (f : Slot → Slot) : (modCur s f).w.stake = s.w.stake := by simp [modCur]
@[simp] theorem modCur_sealed (s : State) (f : Slot → Slot) : (modCur s f).w.sealed = s.w.sealed := by simp [modCur]
@[simp] theorem modCur_recipe (s : State) (f : Slot → Slot) : (modCur s f).w.recipe = s.w.recipe := by simp [modCur]
@[simp] theorem modCur_uid (s : State) (f : Slot → Slot) : (modCur s f).w.uid = s.w.uid := by simp [modCur]
@[simp] theorem modCur_block (s : State) (f : Slot → Slot) : (modCur s f).w.block = s.w.block := by simp [modCur]
@[simp] theorem modCur_num (s : State) (f : Slot → Slot) : (modCur s f).w.num = s.w.num := by simp [modCur]
@[simp] theorem modCur_ridNext (s : State) (f : Slot → Slot) : (modCur s f).w.ridNext = s.w.ridNext := by simp [modCur]
@[simp] theorem modCur_flagZ (s : State) (f : Slot → Slot) : (modCur s f).w.flagZ = s.w.flagZ := by simp [modCur]
@[simp] theorem modCur_flagN (s : State) (f : Slot → Slot) : (modCur s f).w.flagN = s.w.flagN := by simp [modCur]
@[simp] theorem modCur_flagC (s : State) (f : Slot → Slot) : (modCur s f).w.flagC = s.w.flagC := by simp [modCur]
@[simp] theorem modCur_flagV (s : State) (f : Slot → Slot) : (modCur s f).w.flagV = s.w.flagV := by simp [modCur]
@[simp] theorem modCur_gpstat (s : State) (f : Slot → Slot) : (modCur s f).w.gpstat = s.w.gpstat := by simp [modCur]
@[simp] theorem modCur_stackSlot (s : State) (f : Slot → Slot) : (modCur s f).w.stackSlot = s.w.stackSlot := by simp [modCur]
@[simp] theorem modCur_saved (s : State) (f : Slot → Slot) : (modCur s f).w.saved = s.w.saved := by simp [modCur]
@[simp] theorem modCur_ident (s : State) (f : Slot → Slot) : (modCur s f).w.ident = s.w.ident := by simp [modCur]
@[simp] theorem modCur_prio (s : State) (f : Slot → Slot) : (modCur s f).w.prio = s.w.prio := by simp [modCur]

@[simp] theorem modLanes_slot (s : State) (m : LaneMask) (f : Nat → Lane → Lane) : (modLanes s m f).slot = s.slot := rfl
@[simp] theorem modLanes_mem (s : State) (m : LaneMask) (f : Nat → Lane → Lane) : (modLanes s m f).mem = s.mem := rfl
@[simp] theorem modLanes_scalars (s : State) (m : LaneMask) (f : Nat → Lane → Lane) : (modLanes s m f).w.scalars = s.w.scalars := rfl
@[simp] theorem modLanes_mode (s : State) (m : LaneMask) (f : Nat → Lane → Lane) : (modLanes s m f).w.mode = s.w.mode := rfl
@[simp] theorem modLanes_depth (s : State) (m : LaneMask) (f : Nat → Lane → Lane) : (modLanes s m f).w.depth = s.w.depth := rfl
@[simp] theorem modLanes_slots (s : State) (m : LaneMask) (f : Nat → Lane → Lane) (p : PcSlot) :
    slotOf (modLanes s m f).w p = slotOf s.w p := by cases p <;> rfl
@[simp] theorem cur_modLanes (s : State) (m : LaneMask) (f : Nat → Lane → Lane) : cur (modLanes s m f) = cur s := by simp [cur]

@[simp] theorem setScal_mem (s : State) (n : BitVec 5) (v : Word) : (setScal s n v).mem = s.mem := rfl
@[simp] theorem setScal_slot (s : State) (n : BitVec 5) (v : Word) : (setScal s n v).slot = s.slot := rfl
@[simp] theorem setScal_slots (s : State) (n : BitVec 5) (v : Word) (p : PcSlot) : slotOf (setScal s n v).w p = slotOf s.w p := by
  cases p <;> rfl
@[simp] theorem cur_setScal (s : State) (n : BitVec 5) (v : Word) : cur (setScal s n v) = cur s := by simp [cur]
@[simp] theorem setScal_lanes (s : State) (n : BitVec 5) (v : Word) : (setScal s n v).w.lanes = s.w.lanes := rfl
@[simp] theorem setMaskReg_mem (s : State) (n : BitVec 3) (v : LaneMask) : (setMaskReg s n v).mem = s.mem := rfl
@[simp] theorem setMaskReg_lanes (s : State) (n : BitVec 3) (v : LaneMask) : (setMaskReg s n v).w.lanes = s.w.lanes := rfl
@[simp] theorem enqueue_mem (s : State) (es : List Instr) : (enqueue s es).mem = s.mem := rfl
@[simp] theorem enqueue_w (s : State) (es : List Instr) : (enqueue s es).w = s.w := rfl
@[simp] theorem enqueue_agenda (s : State) (es : List Instr) : (enqueue s es).agenda = s.agenda ++ es := rfl

/-! Updates of one record of State leave the others. -/

@[simp] theorem modVf_mem (s : State) (n : Nat) (f : Vf → Vf) : (modVf s n f).mem = s.mem := rfl
@[simp] theorem modVf_w (s : State) (n : Nat) (f : Vf → Vf) : (modVf s n f).w = s.w := rfl
@[simp] theorem modVf_b (s : State) (n : Nat) (f : Vf → Vf) : (modVf s n f).b = s.b := rfl
@[simp] theorem modVf_warps (s : State) (n : Nat) (f : Vf → Vf) : (modVf s n f).warps = s.warps := rfl
@[simp] theorem modVf_blocks (s : State) (n : Nat) (f : Vf → Vf) : (modVf s n f).blocks = s.blocks := rfl
@[simp] theorem modVf_dies (s : State) (n : Nat) (f : Vf → Vf) : (modVf s n f).dies = s.dies := rfl
@[simp] theorem modVf_dirs (s : State) (n : Nat) (f : Vf → Vf) : (modVf s n f).dirs = s.dirs := rfl
@[simp] theorem modVf_inflight (s : State) (n : Nat) (f : Vf → Vf) : (modVf s n f).inflight = s.inflight := rfl
@[simp] theorem modVf_agenda (s : State) (n : Nat) (f : Vf → Vf) : (modVf s n f).agenda = s.agenda := rfl
@[simp] theorem modVf_timers (s : State) (n : Nat) (f : Vf → Vf) : (modVf s n f).timers = s.timers := rfl
@[simp] theorem modVf_footprints (s : State) (n : Nat) (f : Vf → Vf) : (modVf s n f).footprints = s.footprints := rfl
@[simp] theorem modVf_buckets (s : State) (n : Nat) (f : Vf → Vf) : (modVf s n f).buckets = s.buckets := rfl
@[simp] theorem modBlock_mem (s : State) (n : Nat) (f : Block → Block) : (modBlock s n f).mem = s.mem := by
  unfold modBlock; split <;> rfl
@[simp] theorem modBlock_w (s : State) (n : Nat) (f : Block → Block) : (modBlock s n f).w = s.w := by
  unfold modBlock; split <;> rfl
@[simp] theorem modBlock_warps (s : State) (n : Nat) (f : Block → Block) : (modBlock s n f).warps = s.warps := by
  unfold modBlock; split <;> rfl
@[simp] theorem modBlock_vfs (s : State) (n : Nat) (f : Block → Block) : (modBlock s n f).vfs = s.vfs := by
  unfold modBlock; split <;> rfl
@[simp] theorem modBlock_dies (s : State) (n : Nat) (f : Block → Block) : (modBlock s n f).dies = s.dies := by
  unfold modBlock; split <;> rfl
@[simp] theorem modBlock_dirs (s : State) (n : Nat) (f : Block → Block) : (modBlock s n f).dirs = s.dirs := by
  unfold modBlock; split <;> rfl
@[simp] theorem modBlock_inflight (s : State) (n : Nat) (f : Block → Block) : (modBlock s n f).inflight = s.inflight := by
  unfold modBlock; split <;> rfl
@[simp] theorem modBlock_agenda (s : State) (n : Nat) (f : Block → Block) : (modBlock s n f).agenda = s.agenda := by
  unfold modBlock; split <;> rfl
@[simp] theorem modBlock_timers (s : State) (n : Nat) (f : Block → Block) : (modBlock s n f).timers = s.timers := by
  unfold modBlock; split <;> rfl
@[simp] theorem modBlock_footprints (s : State) (n : Nat) (f : Block → Block) : (modBlock s n f).footprints = s.footprints := by
  unfold modBlock; split <;> rfl
@[simp] theorem modBlock_buckets (s : State) (n : Nat) (f : Block → Block) : (modBlock s n f).buckets = s.buckets := by
  unfold modBlock; split <;> rfl
@[simp] theorem modWarp_mem (s : State) (n : Nat) (f : Warp → Warp) : (modWarp s n f).mem = s.mem := by
  unfold modWarp; split <;> rfl
@[simp] theorem modWarp_b (s : State) (n : Nat) (f : Warp → Warp) : (modWarp s n f).b = s.b := by
  unfold modWarp; split <;> rfl
@[simp] theorem modWarp_blocks (s : State) (n : Nat) (f : Warp → Warp) : (modWarp s n f).blocks = s.blocks := by
  unfold modWarp; split <;> rfl
@[simp] theorem modWarp_vfs (s : State) (n : Nat) (f : Warp → Warp) : (modWarp s n f).vfs = s.vfs := by
  unfold modWarp; split <;> rfl
@[simp] theorem modWarp_dies (s : State) (n : Nat) (f : Warp → Warp) : (modWarp s n f).dies = s.dies := by
  unfold modWarp; split <;> rfl
@[simp] theorem modWarp_dirs (s : State) (n : Nat) (f : Warp → Warp) : (modWarp s n f).dirs = s.dirs := by
  unfold modWarp; split <;> rfl
@[simp] theorem modWarp_inflight (s : State) (n : Nat) (f : Warp → Warp) : (modWarp s n f).inflight = s.inflight := by
  unfold modWarp; split <;> rfl
@[simp] theorem modWarp_agenda (s : State) (n : Nat) (f : Warp → Warp) : (modWarp s n f).agenda = s.agenda := by
  unfold modWarp; split <;> rfl
@[simp] theorem modWarp_timers (s : State) (n : Nat) (f : Warp → Warp) : (modWarp s n f).timers = s.timers := by
  unfold modWarp; split <;> rfl
@[simp] theorem modWarp_footprints (s : State) (n : Nat) (f : Warp → Warp) : (modWarp s n f).footprints = s.footprints := by
  unfold modWarp; split <;> rfl
@[simp] theorem modWarp_buckets (s : State) (n : Nat) (f : Warp → Warp) : (modWarp s n f).buckets = s.buckets := by
  unfold modWarp; split <;> rfl
@[simp] theorem modDie_mem (s : State) (n : Nat) (f : Die → Die) : (modDie s n f).mem = s.mem := rfl
@[simp] theorem modDie_w (s : State) (n : Nat) (f : Die → Die) : (modDie s n f).w = s.w := rfl
@[simp] theorem modDie_b (s : State) (n : Nat) (f : Die → Die) : (modDie s n f).b = s.b := rfl
@[simp] theorem modDie_warps (s : State) (n : Nat) (f : Die → Die) : (modDie s n f).warps = s.warps := rfl
@[simp] theorem modDie_blocks (s : State) (n : Nat) (f : Die → Die) : (modDie s n f).blocks = s.blocks := rfl
@[simp] theorem modDie_vfs (s : State) (n : Nat) (f : Die → Die) : (modDie s n f).vfs = s.vfs := rfl
@[simp] theorem modDie_dirs (s : State) (n : Nat) (f : Die → Die) : (modDie s n f).dirs = s.dirs := rfl
@[simp] theorem modDie_inflight (s : State) (n : Nat) (f : Die → Die) : (modDie s n f).inflight = s.inflight := rfl
@[simp] theorem modDie_agenda (s : State) (n : Nat) (f : Die → Die) : (modDie s n f).agenda = s.agenda := rfl
@[simp] theorem modDie_timers (s : State) (n : Nat) (f : Die → Die) : (modDie s n f).timers = s.timers := rfl
@[simp] theorem modDie_footprints (s : State) (n : Nat) (f : Die → Die) : (modDie s n f).footprints = s.footprints := rfl
@[simp] theorem modDie_buckets (s : State) (n : Nat) (f : Die → Die) : (modDie s n f).buckets = s.buckets := rfl
@[simp] theorem modPart_mem (s : State) (n : Nat) (f : Partition → Partition) : (modPart s n f).mem = s.mem := rfl
@[simp] theorem modPart_w (s : State) (n : Nat) (f : Partition → Partition) : (modPart s n f).w = s.w := rfl
@[simp] theorem modPart_b (s : State) (n : Nat) (f : Partition → Partition) : (modPart s n f).b = s.b := rfl
@[simp] theorem modPart_warps (s : State) (n : Nat) (f : Partition → Partition) : (modPart s n f).warps = s.warps := rfl
@[simp] theorem modPart_blocks (s : State) (n : Nat) (f : Partition → Partition) : (modPart s n f).blocks = s.blocks := rfl
@[simp] theorem modPart_vfs (s : State) (n : Nat) (f : Partition → Partition) : (modPart s n f).vfs = s.vfs := rfl
@[simp] theorem modPart_dies (s : State) (n : Nat) (f : Partition → Partition) : (modPart s n f).dies = s.dies := rfl
@[simp] theorem modPart_dirs (s : State) (n : Nat) (f : Partition → Partition) : (modPart s n f).dirs = s.dirs := rfl
@[simp] theorem modPart_inflight (s : State) (n : Nat) (f : Partition → Partition) : (modPart s n f).inflight = s.inflight := rfl
@[simp] theorem modPart_agenda (s : State) (n : Nat) (f : Partition → Partition) : (modPart s n f).agenda = s.agenda := rfl
@[simp] theorem modPart_timers (s : State) (n : Nat) (f : Partition → Partition) : (modPart s n f).timers = s.timers := rfl
@[simp] theorem modPart_footprints (s : State) (n : Nat) (f : Partition → Partition) : (modPart s n f).footprints = s.footprints := rfl
@[simp] theorem modPart_buckets (s : State) (n : Nat) (f : Partition → Partition) : (modPart s n f).buckets = s.buckets := rfl
@[simp] theorem modGang_mem (s : State) (n : Nat) (f : Gang → Gang) : (modGang s n f).mem = s.mem := rfl
@[simp] theorem modGang_w (s : State) (n : Nat) (f : Gang → Gang) : (modGang s n f).w = s.w := rfl
@[simp] theorem modGang_b (s : State) (n : Nat) (f : Gang → Gang) : (modGang s n f).b = s.b := rfl
@[simp] theorem modGang_warps (s : State) (n : Nat) (f : Gang → Gang) : (modGang s n f).warps = s.warps := rfl
@[simp] theorem modGang_blocks (s : State) (n : Nat) (f : Gang → Gang) : (modGang s n f).blocks = s.blocks := rfl
@[simp] theorem modGang_vfs (s : State) (n : Nat) (f : Gang → Gang) : (modGang s n f).vfs = s.vfs := rfl
@[simp] theorem modGang_dies (s : State) (n : Nat) (f : Gang → Gang) : (modGang s n f).dies = s.dies := rfl
@[simp] theorem modGang_dirs (s : State) (n : Nat) (f : Gang → Gang) : (modGang s n f).dirs = s.dirs := rfl
@[simp] theorem modGang_inflight (s : State) (n : Nat) (f : Gang → Gang) : (modGang s n f).inflight = s.inflight := rfl
@[simp] theorem modGang_agenda (s : State) (n : Nat) (f : Gang → Gang) : (modGang s n f).agenda = s.agenda := rfl
@[simp] theorem modGang_timers (s : State) (n : Nat) (f : Gang → Gang) : (modGang s n f).timers = s.timers := rfl
@[simp] theorem modGang_footprints (s : State) (n : Nat) (f : Gang → Gang) : (modGang s n f).footprints = s.footprints := rfl
@[simp] theorem modGang_buckets (s : State) (n : Nat) (f : Gang → Gang) : (modGang s n f).buckets = s.buckets := rfl
@[simp] theorem modLaunch_mem (s : State) (n i : Nat) (f : Launch → Launch) : (modLaunch s n i f).mem = s.mem := rfl
@[simp] theorem modLaunch_w (s : State) (n i : Nat) (f : Launch → Launch) : (modLaunch s n i f).w = s.w := rfl
@[simp] theorem modLaunch_b (s : State) (n i : Nat) (f : Launch → Launch) : (modLaunch s n i f).b = s.b := rfl
@[simp] theorem modLaunch_warps (s : State) (n i : Nat) (f : Launch → Launch) : (modLaunch s n i f).warps = s.warps := rfl
@[simp] theorem modLaunch_blocks (s : State) (n i : Nat) (f : Launch → Launch) : (modLaunch s n i f).blocks = s.blocks := rfl
@[simp] theorem modLaunch_vfs (s : State) (n i : Nat) (f : Launch → Launch) : (modLaunch s n i f).vfs = s.vfs := rfl
@[simp] theorem modLaunch_dies (s : State) (n i : Nat) (f : Launch → Launch) : (modLaunch s n i f).dies = s.dies := rfl
@[simp] theorem modLaunch_dirs (s : State) (n i : Nat) (f : Launch → Launch) : (modLaunch s n i f).dirs = s.dirs := rfl
@[simp] theorem modLaunch_inflight (s : State) (n i : Nat) (f : Launch → Launch) : (modLaunch s n i f).inflight = s.inflight := rfl
@[simp] theorem modLaunch_agenda (s : State) (n i : Nat) (f : Launch → Launch) : (modLaunch s n i f).agenda = s.agenda := rfl
@[simp] theorem modLaunch_timers (s : State) (n i : Nat) (f : Launch → Launch) : (modLaunch s n i f).timers = s.timers := rfl
@[simp] theorem modLaunch_footprints (s : State) (n i : Nat) (f : Launch → Launch) : (modLaunch s n i f).footprints = s.footprints := rfl
@[simp] theorem modLaunch_buckets (s : State) (n i : Nat) (f : Launch → Launch) : (modLaunch s n i f).buckets = s.buckets := rfl
@[simp] theorem modBucket_mem (s : State) (n : Nat) (f : Bucket → Bucket) : (modBucket s n f).mem = s.mem := rfl
@[simp] theorem modBucket_w (s : State) (n : Nat) (f : Bucket → Bucket) : (modBucket s n f).w = s.w := rfl
@[simp] theorem modBucket_b (s : State) (n : Nat) (f : Bucket → Bucket) : (modBucket s n f).b = s.b := rfl
@[simp] theorem modBucket_warps (s : State) (n : Nat) (f : Bucket → Bucket) : (modBucket s n f).warps = s.warps := rfl
@[simp] theorem modBucket_blocks (s : State) (n : Nat) (f : Bucket → Bucket) : (modBucket s n f).blocks = s.blocks := rfl
@[simp] theorem modBucket_vfs (s : State) (n : Nat) (f : Bucket → Bucket) : (modBucket s n f).vfs = s.vfs := rfl
@[simp] theorem modBucket_dies (s : State) (n : Nat) (f : Bucket → Bucket) : (modBucket s n f).dies = s.dies := rfl
@[simp] theorem modBucket_dirs (s : State) (n : Nat) (f : Bucket → Bucket) : (modBucket s n f).dirs = s.dirs := rfl
@[simp] theorem modBucket_inflight (s : State) (n : Nat) (f : Bucket → Bucket) : (modBucket s n f).inflight = s.inflight := rfl
@[simp] theorem modBucket_agenda (s : State) (n : Nat) (f : Bucket → Bucket) : (modBucket s n f).agenda = s.agenda := rfl
@[simp] theorem modBucket_timers (s : State) (n : Nat) (f : Bucket → Bucket) : (modBucket s n f).timers = s.timers := rfl
@[simp] theorem modBucket_footprints (s : State) (n : Nat) (f : Bucket → Bucket) : (modBucket s n f).footprints = s.footprints := rfl
@[simp] theorem enqueue_b (s : State) (es : List Instr) : (enqueue s es).b = s.b := rfl
@[simp] theorem enqueue_warps (s : State) (es : List Instr) : (enqueue s es).warps = s.warps := rfl
@[simp] theorem enqueue_blocks (s : State) (es : List Instr) : (enqueue s es).blocks = s.blocks := rfl
@[simp] theorem enqueue_vfs (s : State) (es : List Instr) : (enqueue s es).vfs = s.vfs := rfl
@[simp] theorem enqueue_dies (s : State) (es : List Instr) : (enqueue s es).dies = s.dies := rfl
@[simp] theorem enqueue_dirs (s : State) (es : List Instr) : (enqueue s es).dirs = s.dirs := rfl
@[simp] theorem enqueue_inflight (s : State) (es : List Instr) : (enqueue s es).inflight = s.inflight := rfl
@[simp] theorem enqueue_timers (s : State) (es : List Instr) : (enqueue s es).timers = s.timers := rfl
@[simp] theorem enqueue_footprints (s : State) (es : List Instr) : (enqueue s es).footprints = s.footprints := rfl
@[simp] theorem enqueue_buckets (s : State) (es : List Instr) : (enqueue s es).buckets = s.buckets := rfl
@[simp] theorem after_mem (s : State) (n : Nat) (e : Instr) : (after s n e).mem = s.mem := rfl
@[simp] theorem after_w (s : State) (n : Nat) (e : Instr) : (after s n e).w = s.w := rfl
@[simp] theorem after_b (s : State) (n : Nat) (e : Instr) : (after s n e).b = s.b := rfl
@[simp] theorem after_warps (s : State) (n : Nat) (e : Instr) : (after s n e).warps = s.warps := rfl
@[simp] theorem after_blocks (s : State) (n : Nat) (e : Instr) : (after s n e).blocks = s.blocks := rfl
@[simp] theorem after_vfs (s : State) (n : Nat) (e : Instr) : (after s n e).vfs = s.vfs := rfl
@[simp] theorem after_dies (s : State) (n : Nat) (e : Instr) : (after s n e).dies = s.dies := rfl
@[simp] theorem after_dirs (s : State) (n : Nat) (e : Instr) : (after s n e).dirs = s.dirs := rfl
@[simp] theorem after_inflight (s : State) (n : Nat) (e : Instr) : (after s n e).inflight = s.inflight := rfl
@[simp] theorem after_agenda (s : State) (n : Nat) (e : Instr) : (after s n e).agenda = s.agenda := rfl
@[simp] theorem after_footprints (s : State) (n : Nat) (e : Instr) : (after s n e).footprints = s.footprints := rfl
@[simp] theorem after_buckets (s : State) (n : Nat) (e : Instr) : (after s n e).buckets = s.buckets := rfl
@[simp] theorem after_timers (s : State) (n : Nat) (e : Instr) : (after s n e).timers = s.timers ++ [(s.cycle + n, e)] := rfl
@[simp] theorem modCur_remains (s : State) (f : Slot → Slot) : (modCur s f).remains = s.remains := rfl
@[simp] theorem enqueue_slot (s : State) (es : List Instr) : (enqueue s es).slot = s.slot := rfl
@[simp] theorem enqueue_onStream (s : State) (es : List Instr) : (enqueue s es).onStream = s.onStream := rfl
@[simp] theorem enqueue_remains (s : State) (es : List Instr) : (enqueue s es).remains = s.remains := rfl
@[simp] theorem enqueue_gangs (s : State) (es : List Instr) : (enqueue s es).gangs = s.gangs := rfl
@[simp] theorem enqueue_launches (s : State) (es : List Instr) : (enqueue s es).launches = s.launches := rfl
@[simp] theorem enqueue_kernels (s : State) (es : List Instr) : (enqueue s es).kernels = s.kernels := rfl
@[simp] theorem enqueue_parts (s : State) (es : List Instr) : (enqueue s es).parts = s.parts := rfl
@[simp] theorem enqueue_links (s : State) (es : List Instr) : (enqueue s es).links = s.links := rfl
@[simp] theorem enqueue_routes (s : State) (es : List Instr) : (enqueue s es).routes = s.routes := rfl
@[simp] theorem enqueue_ords (s : State) (es : List Instr) : (enqueue s es).ords = s.ords := rfl
@[simp] theorem enqueue_quadrants (s : State) (es : List Instr) : (enqueue s es).quadrants = s.quadrants := rfl
@[simp] theorem enqueue_datum (s : State) (es : List Instr) : (enqueue s es).datum = s.datum := rfl
@[simp] theorem enqueue_tim (s : State) (es : List Instr) : (enqueue s es).tim = s.tim := rfl
@[simp] theorem enqueue_ckp (s : State) (es : List Instr) : (enqueue s es).ckp = s.ckp := rfl
@[simp] theorem enqueue_sal (s : State) (es : List Instr) : (enqueue s es).sal = s.sal := rfl
@[simp] theorem enqueue_poisoned (s : State) (es : List Instr) : (enqueue s es).poisoned = s.poisoned := rfl
@[simp] theorem enqueue_msix (s : State) (es : List Instr) : (enqueue s es).msix = s.msix := rfl
@[simp] theorem enqueue_advisory (s : State) (es : List Instr) : (enqueue s es).advisory = s.advisory := rfl
@[simp] theorem enqueue_replies (s : State) (es : List Instr) : (enqueue s es).replies = s.replies := rfl
@[simp] theorem enqueue_cycle (s : State) (es : List Instr) : (enqueue s es).cycle = s.cycle := rfl
@[simp] theorem enqueue_timeBase (s : State) (es : List Instr) : (enqueue s es).timeBase = s.timeBase := rfl
@[simp] theorem enqueue_freeCount (s : State) (es : List Instr) : (enqueue s es).freeCount = s.freeCount := rfl
@[simp] theorem enqueue_nextId (s : State) (es : List Instr) : (enqueue s es).nextId = s.nextId := rfl
@[simp] theorem modVf_slot (s : State) (n : Nat) (f : Vf → Vf) : (modVf s n f).slot = s.slot := rfl
@[simp] theorem modVf_onStream (s : State) (n : Nat) (f : Vf → Vf) : (modVf s n f).onStream = s.onStream := rfl
@[simp] theorem modVf_remains (s : State) (n : Nat) (f : Vf → Vf) : (modVf s n f).remains = s.remains := rfl
@[simp] theorem modVf_gangs (s : State) (n : Nat) (f : Vf → Vf) : (modVf s n f).gangs = s.gangs := rfl
@[simp] theorem modVf_launches (s : State) (n : Nat) (f : Vf → Vf) : (modVf s n f).launches = s.launches := rfl
@[simp] theorem modVf_kernels (s : State) (n : Nat) (f : Vf → Vf) : (modVf s n f).kernels = s.kernels := rfl
@[simp] theorem modVf_parts (s : State) (n : Nat) (f : Vf → Vf) : (modVf s n f).parts = s.parts := rfl
@[simp] theorem modVf_links (s : State) (n : Nat) (f : Vf → Vf) : (modVf s n f).links = s.links := rfl
@[simp] theorem modVf_routes (s : State) (n : Nat) (f : Vf → Vf) : (modVf s n f).routes = s.routes := rfl
@[simp] theorem modVf_ords (s : State) (n : Nat) (f : Vf → Vf) : (modVf s n f).ords = s.ords := rfl
@[simp] theorem modVf_quadrants (s : State) (n : Nat) (f : Vf → Vf) : (modVf s n f).quadrants = s.quadrants := rfl
@[simp] theorem modVf_datum (s : State) (n : Nat) (f : Vf → Vf) : (modVf s n f).datum = s.datum := rfl
@[simp] theorem modVf_tim (s : State) (n : Nat) (f : Vf → Vf) : (modVf s n f).tim = s.tim := rfl
@[simp] theorem modVf_ckp (s : State) (n : Nat) (f : Vf → Vf) : (modVf s n f).ckp = s.ckp := rfl
@[simp] theorem modVf_sal (s : State) (n : Nat) (f : Vf → Vf) : (modVf s n f).sal = s.sal := rfl
@[simp] theorem modVf_poisoned (s : State) (n : Nat) (f : Vf → Vf) : (modVf s n f).poisoned = s.poisoned := rfl
@[simp] theorem modVf_msix (s : State) (n : Nat) (f : Vf → Vf) : (modVf s n f).msix = s.msix := rfl
@[simp] theorem modVf_advisory (s : State) (n : Nat) (f : Vf → Vf) : (modVf s n f).advisory = s.advisory := rfl
@[simp] theorem modVf_replies (s : State) (n : Nat) (f : Vf → Vf) : (modVf s n f).replies = s.replies := rfl
@[simp] theorem modVf_cycle (s : State) (n : Nat) (f : Vf → Vf) : (modVf s n f).cycle = s.cycle := rfl
@[simp] theorem modVf_timeBase (s : State) (n : Nat) (f : Vf → Vf) : (modVf s n f).timeBase = s.timeBase := rfl
@[simp] theorem modVf_freeCount (s : State) (n : Nat) (f : Vf → Vf) : (modVf s n f).freeCount = s.freeCount := rfl
@[simp] theorem modVf_nextId (s : State) (n : Nat) (f : Vf → Vf) : (modVf s n f).nextId = s.nextId := rfl
@[simp] theorem modBlock_slot (s : State) (n : Nat) (f : Block → Block) : (modBlock s n f).slot = s.slot := by
  unfold modBlock; split <;> rfl
@[simp] theorem modBlock_onStream (s : State) (n : Nat) (f : Block → Block) : (modBlock s n f).onStream = s.onStream := by
  unfold modBlock; split <;> rfl
@[simp] theorem modBlock_remains (s : State) (n : Nat) (f : Block → Block) : (modBlock s n f).remains = s.remains := by
  unfold modBlock; split <;> rfl
@[simp] theorem modBlock_gangs (s : State) (n : Nat) (f : Block → Block) : (modBlock s n f).gangs = s.gangs := by
  unfold modBlock; split <;> rfl
@[simp] theorem modBlock_launches (s : State) (n : Nat) (f : Block → Block) : (modBlock s n f).launches = s.launches := by
  unfold modBlock; split <;> rfl
@[simp] theorem modBlock_kernels (s : State) (n : Nat) (f : Block → Block) : (modBlock s n f).kernels = s.kernels := by
  unfold modBlock; split <;> rfl
@[simp] theorem modBlock_parts (s : State) (n : Nat) (f : Block → Block) : (modBlock s n f).parts = s.parts := by
  unfold modBlock; split <;> rfl
@[simp] theorem modBlock_links (s : State) (n : Nat) (f : Block → Block) : (modBlock s n f).links = s.links := by
  unfold modBlock; split <;> rfl
@[simp] theorem modBlock_routes (s : State) (n : Nat) (f : Block → Block) : (modBlock s n f).routes = s.routes := by
  unfold modBlock; split <;> rfl
@[simp] theorem modBlock_ords (s : State) (n : Nat) (f : Block → Block) : (modBlock s n f).ords = s.ords := by
  unfold modBlock; split <;> rfl
@[simp] theorem modBlock_quadrants (s : State) (n : Nat) (f : Block → Block) : (modBlock s n f).quadrants = s.quadrants := by
  unfold modBlock; split <;> rfl
@[simp] theorem modBlock_datum (s : State) (n : Nat) (f : Block → Block) : (modBlock s n f).datum = s.datum := by
  unfold modBlock; split <;> rfl
@[simp] theorem modBlock_tim (s : State) (n : Nat) (f : Block → Block) : (modBlock s n f).tim = s.tim := by
  unfold modBlock; split <;> rfl
@[simp] theorem modBlock_ckp (s : State) (n : Nat) (f : Block → Block) : (modBlock s n f).ckp = s.ckp := by
  unfold modBlock; split <;> rfl
@[simp] theorem modBlock_sal (s : State) (n : Nat) (f : Block → Block) : (modBlock s n f).sal = s.sal := by
  unfold modBlock; split <;> rfl
@[simp] theorem modBlock_poisoned (s : State) (n : Nat) (f : Block → Block) : (modBlock s n f).poisoned = s.poisoned := by
  unfold modBlock; split <;> rfl
@[simp] theorem modBlock_msix (s : State) (n : Nat) (f : Block → Block) : (modBlock s n f).msix = s.msix := by
  unfold modBlock; split <;> rfl
@[simp] theorem modBlock_advisory (s : State) (n : Nat) (f : Block → Block) : (modBlock s n f).advisory = s.advisory := by
  unfold modBlock; split <;> rfl
@[simp] theorem modBlock_replies (s : State) (n : Nat) (f : Block → Block) : (modBlock s n f).replies = s.replies := by
  unfold modBlock; split <;> rfl
@[simp] theorem modBlock_cycle (s : State) (n : Nat) (f : Block → Block) : (modBlock s n f).cycle = s.cycle := by
  unfold modBlock; split <;> rfl
@[simp] theorem modBlock_timeBase (s : State) (n : Nat) (f : Block → Block) : (modBlock s n f).timeBase = s.timeBase := by
  unfold modBlock; split <;> rfl
@[simp] theorem modBlock_freeCount (s : State) (n : Nat) (f : Block → Block) : (modBlock s n f).freeCount = s.freeCount := by
  unfold modBlock; split <;> rfl
@[simp] theorem modBlock_nextId (s : State) (n : Nat) (f : Block → Block) : (modBlock s n f).nextId = s.nextId := by
  unfold modBlock; split <;> rfl
@[simp] theorem modWarp_slot (s : State) (n : Nat) (f : Warp → Warp) : (modWarp s n f).slot = s.slot := by
  unfold modWarp; split <;> rfl
@[simp] theorem modWarp_onStream (s : State) (n : Nat) (f : Warp → Warp) : (modWarp s n f).onStream = s.onStream := by
  unfold modWarp; split <;> rfl
@[simp] theorem modWarp_remains (s : State) (n : Nat) (f : Warp → Warp) : (modWarp s n f).remains = s.remains := by
  unfold modWarp; split <;> rfl
@[simp] theorem modWarp_gangs (s : State) (n : Nat) (f : Warp → Warp) : (modWarp s n f).gangs = s.gangs := by
  unfold modWarp; split <;> rfl
@[simp] theorem modWarp_launches (s : State) (n : Nat) (f : Warp → Warp) : (modWarp s n f).launches = s.launches := by
  unfold modWarp; split <;> rfl
@[simp] theorem modWarp_kernels (s : State) (n : Nat) (f : Warp → Warp) : (modWarp s n f).kernels = s.kernels := by
  unfold modWarp; split <;> rfl
@[simp] theorem modWarp_parts (s : State) (n : Nat) (f : Warp → Warp) : (modWarp s n f).parts = s.parts := by
  unfold modWarp; split <;> rfl
@[simp] theorem modWarp_links (s : State) (n : Nat) (f : Warp → Warp) : (modWarp s n f).links = s.links := by
  unfold modWarp; split <;> rfl
@[simp] theorem modWarp_routes (s : State) (n : Nat) (f : Warp → Warp) : (modWarp s n f).routes = s.routes := by
  unfold modWarp; split <;> rfl
@[simp] theorem modWarp_ords (s : State) (n : Nat) (f : Warp → Warp) : (modWarp s n f).ords = s.ords := by
  unfold modWarp; split <;> rfl
@[simp] theorem modWarp_quadrants (s : State) (n : Nat) (f : Warp → Warp) : (modWarp s n f).quadrants = s.quadrants := by
  unfold modWarp; split <;> rfl
@[simp] theorem modWarp_datum (s : State) (n : Nat) (f : Warp → Warp) : (modWarp s n f).datum = s.datum := by
  unfold modWarp; split <;> rfl
@[simp] theorem modWarp_tim (s : State) (n : Nat) (f : Warp → Warp) : (modWarp s n f).tim = s.tim := by
  unfold modWarp; split <;> rfl
@[simp] theorem modWarp_ckp (s : State) (n : Nat) (f : Warp → Warp) : (modWarp s n f).ckp = s.ckp := by
  unfold modWarp; split <;> rfl
@[simp] theorem modWarp_sal (s : State) (n : Nat) (f : Warp → Warp) : (modWarp s n f).sal = s.sal := by
  unfold modWarp; split <;> rfl
@[simp] theorem modWarp_poisoned (s : State) (n : Nat) (f : Warp → Warp) : (modWarp s n f).poisoned = s.poisoned := by
  unfold modWarp; split <;> rfl
@[simp] theorem modWarp_msix (s : State) (n : Nat) (f : Warp → Warp) : (modWarp s n f).msix = s.msix := by
  unfold modWarp; split <;> rfl
@[simp] theorem modWarp_advisory (s : State) (n : Nat) (f : Warp → Warp) : (modWarp s n f).advisory = s.advisory := by
  unfold modWarp; split <;> rfl
@[simp] theorem modWarp_replies (s : State) (n : Nat) (f : Warp → Warp) : (modWarp s n f).replies = s.replies := by
  unfold modWarp; split <;> rfl
@[simp] theorem modWarp_cycle (s : State) (n : Nat) (f : Warp → Warp) : (modWarp s n f).cycle = s.cycle := by
  unfold modWarp; split <;> rfl
@[simp] theorem modWarp_timeBase (s : State) (n : Nat) (f : Warp → Warp) : (modWarp s n f).timeBase = s.timeBase := by
  unfold modWarp; split <;> rfl
@[simp] theorem modWarp_freeCount (s : State) (n : Nat) (f : Warp → Warp) : (modWarp s n f).freeCount = s.freeCount := by
  unfold modWarp; split <;> rfl
@[simp] theorem modWarp_nextId (s : State) (n : Nat) (f : Warp → Warp) : (modWarp s n f).nextId = s.nextId := by
  unfold modWarp; split <;> rfl
@[simp] theorem modDie_slot (s : State) (n : Nat) (f : Die → Die) : (modDie s n f).slot = s.slot := rfl
@[simp] theorem modDie_onStream (s : State) (n : Nat) (f : Die → Die) : (modDie s n f).onStream = s.onStream := rfl
@[simp] theorem modDie_remains (s : State) (n : Nat) (f : Die → Die) : (modDie s n f).remains = s.remains := rfl
@[simp] theorem modDie_gangs (s : State) (n : Nat) (f : Die → Die) : (modDie s n f).gangs = s.gangs := rfl
@[simp] theorem modDie_launches (s : State) (n : Nat) (f : Die → Die) : (modDie s n f).launches = s.launches := rfl
@[simp] theorem modDie_kernels (s : State) (n : Nat) (f : Die → Die) : (modDie s n f).kernels = s.kernels := rfl
@[simp] theorem modDie_parts (s : State) (n : Nat) (f : Die → Die) : (modDie s n f).parts = s.parts := rfl
@[simp] theorem modDie_links (s : State) (n : Nat) (f : Die → Die) : (modDie s n f).links = s.links := rfl
@[simp] theorem modDie_routes (s : State) (n : Nat) (f : Die → Die) : (modDie s n f).routes = s.routes := rfl
@[simp] theorem modDie_ords (s : State) (n : Nat) (f : Die → Die) : (modDie s n f).ords = s.ords := rfl
@[simp] theorem modDie_quadrants (s : State) (n : Nat) (f : Die → Die) : (modDie s n f).quadrants = s.quadrants := rfl
@[simp] theorem modDie_datum (s : State) (n : Nat) (f : Die → Die) : (modDie s n f).datum = s.datum := rfl
@[simp] theorem modDie_tim (s : State) (n : Nat) (f : Die → Die) : (modDie s n f).tim = s.tim := rfl
@[simp] theorem modDie_ckp (s : State) (n : Nat) (f : Die → Die) : (modDie s n f).ckp = s.ckp := rfl
@[simp] theorem modDie_sal (s : State) (n : Nat) (f : Die → Die) : (modDie s n f).sal = s.sal := rfl
@[simp] theorem modDie_poisoned (s : State) (n : Nat) (f : Die → Die) : (modDie s n f).poisoned = s.poisoned := rfl
@[simp] theorem modDie_msix (s : State) (n : Nat) (f : Die → Die) : (modDie s n f).msix = s.msix := rfl
@[simp] theorem modDie_advisory (s : State) (n : Nat) (f : Die → Die) : (modDie s n f).advisory = s.advisory := rfl
@[simp] theorem modDie_replies (s : State) (n : Nat) (f : Die → Die) : (modDie s n f).replies = s.replies := rfl
@[simp] theorem modDie_cycle (s : State) (n : Nat) (f : Die → Die) : (modDie s n f).cycle = s.cycle := rfl
@[simp] theorem modDie_timeBase (s : State) (n : Nat) (f : Die → Die) : (modDie s n f).timeBase = s.timeBase := rfl
@[simp] theorem modDie_freeCount (s : State) (n : Nat) (f : Die → Die) : (modDie s n f).freeCount = s.freeCount := rfl
@[simp] theorem modDie_nextId (s : State) (n : Nat) (f : Die → Die) : (modDie s n f).nextId = s.nextId := rfl
@[simp] theorem modPart_slot (s : State) (n : Nat) (f : Partition → Partition) : (modPart s n f).slot = s.slot := rfl
@[simp] theorem modPart_onStream (s : State) (n : Nat) (f : Partition → Partition) : (modPart s n f).onStream = s.onStream := rfl
@[simp] theorem modPart_remains (s : State) (n : Nat) (f : Partition → Partition) : (modPart s n f).remains = s.remains := rfl
@[simp] theorem modPart_gangs (s : State) (n : Nat) (f : Partition → Partition) : (modPart s n f).gangs = s.gangs := rfl
@[simp] theorem modPart_launches (s : State) (n : Nat) (f : Partition → Partition) : (modPart s n f).launches = s.launches := rfl
@[simp] theorem modPart_kernels (s : State) (n : Nat) (f : Partition → Partition) : (modPart s n f).kernels = s.kernels := rfl
@[simp] theorem modPart_links (s : State) (n : Nat) (f : Partition → Partition) : (modPart s n f).links = s.links := rfl
@[simp] theorem modPart_routes (s : State) (n : Nat) (f : Partition → Partition) : (modPart s n f).routes = s.routes := rfl
@[simp] theorem modPart_ords (s : State) (n : Nat) (f : Partition → Partition) : (modPart s n f).ords = s.ords := rfl
@[simp] theorem modPart_quadrants (s : State) (n : Nat) (f : Partition → Partition) : (modPart s n f).quadrants = s.quadrants := rfl
@[simp] theorem modPart_datum (s : State) (n : Nat) (f : Partition → Partition) : (modPart s n f).datum = s.datum := rfl
@[simp] theorem modPart_tim (s : State) (n : Nat) (f : Partition → Partition) : (modPart s n f).tim = s.tim := rfl
@[simp] theorem modPart_ckp (s : State) (n : Nat) (f : Partition → Partition) : (modPart s n f).ckp = s.ckp := rfl
@[simp] theorem modPart_sal (s : State) (n : Nat) (f : Partition → Partition) : (modPart s n f).sal = s.sal := rfl
@[simp] theorem modPart_poisoned (s : State) (n : Nat) (f : Partition → Partition) : (modPart s n f).poisoned = s.poisoned := rfl
@[simp] theorem modPart_msix (s : State) (n : Nat) (f : Partition → Partition) : (modPart s n f).msix = s.msix := rfl
@[simp] theorem modPart_advisory (s : State) (n : Nat) (f : Partition → Partition) : (modPart s n f).advisory = s.advisory := rfl
@[simp] theorem modPart_replies (s : State) (n : Nat) (f : Partition → Partition) : (modPart s n f).replies = s.replies := rfl
@[simp] theorem modPart_cycle (s : State) (n : Nat) (f : Partition → Partition) : (modPart s n f).cycle = s.cycle := rfl
@[simp] theorem modPart_timeBase (s : State) (n : Nat) (f : Partition → Partition) : (modPart s n f).timeBase = s.timeBase := rfl
@[simp] theorem modPart_freeCount (s : State) (n : Nat) (f : Partition → Partition) : (modPart s n f).freeCount = s.freeCount := rfl
@[simp] theorem modPart_nextId (s : State) (n : Nat) (f : Partition → Partition) : (modPart s n f).nextId = s.nextId := rfl
@[simp] theorem modGang_slot (s : State) (n : Nat) (f : Gang → Gang) : (modGang s n f).slot = s.slot := rfl
@[simp] theorem modGang_onStream (s : State) (n : Nat) (f : Gang → Gang) : (modGang s n f).onStream = s.onStream := rfl
@[simp] theorem modGang_remains (s : State) (n : Nat) (f : Gang → Gang) : (modGang s n f).remains = s.remains := rfl
@[simp] theorem modGang_launches (s : State) (n : Nat) (f : Gang → Gang) : (modGang s n f).launches = s.launches := rfl
@[simp] theorem modGang_kernels (s : State) (n : Nat) (f : Gang → Gang) : (modGang s n f).kernels = s.kernels := rfl
@[simp] theorem modGang_parts (s : State) (n : Nat) (f : Gang → Gang) : (modGang s n f).parts = s.parts := rfl
@[simp] theorem modGang_links (s : State) (n : Nat) (f : Gang → Gang) : (modGang s n f).links = s.links := rfl
@[simp] theorem modGang_routes (s : State) (n : Nat) (f : Gang → Gang) : (modGang s n f).routes = s.routes := rfl
@[simp] theorem modGang_ords (s : State) (n : Nat) (f : Gang → Gang) : (modGang s n f).ords = s.ords := rfl
@[simp] theorem modGang_quadrants (s : State) (n : Nat) (f : Gang → Gang) : (modGang s n f).quadrants = s.quadrants := rfl
@[simp] theorem modGang_datum (s : State) (n : Nat) (f : Gang → Gang) : (modGang s n f).datum = s.datum := rfl
@[simp] theorem modGang_tim (s : State) (n : Nat) (f : Gang → Gang) : (modGang s n f).tim = s.tim := rfl
@[simp] theorem modGang_ckp (s : State) (n : Nat) (f : Gang → Gang) : (modGang s n f).ckp = s.ckp := rfl
@[simp] theorem modGang_sal (s : State) (n : Nat) (f : Gang → Gang) : (modGang s n f).sal = s.sal := rfl
@[simp] theorem modGang_poisoned (s : State) (n : Nat) (f : Gang → Gang) : (modGang s n f).poisoned = s.poisoned := rfl
@[simp] theorem modGang_msix (s : State) (n : Nat) (f : Gang → Gang) : (modGang s n f).msix = s.msix := rfl
@[simp] theorem modGang_advisory (s : State) (n : Nat) (f : Gang → Gang) : (modGang s n f).advisory = s.advisory := rfl
@[simp] theorem modGang_replies (s : State) (n : Nat) (f : Gang → Gang) : (modGang s n f).replies = s.replies := rfl
@[simp] theorem modGang_cycle (s : State) (n : Nat) (f : Gang → Gang) : (modGang s n f).cycle = s.cycle := rfl
@[simp] theorem modGang_timeBase (s : State) (n : Nat) (f : Gang → Gang) : (modGang s n f).timeBase = s.timeBase := rfl
@[simp] theorem modGang_freeCount (s : State) (n : Nat) (f : Gang → Gang) : (modGang s n f).freeCount = s.freeCount := rfl
@[simp] theorem modGang_nextId (s : State) (n : Nat) (f : Gang → Gang) : (modGang s n f).nextId = s.nextId := rfl
@[simp] theorem modLaunch_slot (s : State) (n i : Nat) (f : Launch → Launch) : (modLaunch s n i f).slot = s.slot := rfl
@[simp] theorem modLaunch_onStream (s : State) (n i : Nat) (f : Launch → Launch) : (modLaunch s n i f).onStream = s.onStream := rfl
@[simp] theorem modLaunch_remains (s : State) (n i : Nat) (f : Launch → Launch) : (modLaunch s n i f).remains = s.remains := rfl
@[simp] theorem modLaunch_gangs (s : State) (n i : Nat) (f : Launch → Launch) : (modLaunch s n i f).gangs = s.gangs := rfl
@[simp] theorem modLaunch_kernels (s : State) (n i : Nat) (f : Launch → Launch) : (modLaunch s n i f).kernels = s.kernels := rfl
@[simp] theorem modLaunch_parts (s : State) (n i : Nat) (f : Launch → Launch) : (modLaunch s n i f).parts = s.parts := rfl
@[simp] theorem modLaunch_links (s : State) (n i : Nat) (f : Launch → Launch) : (modLaunch s n i f).links = s.links := rfl
@[simp] theorem modLaunch_routes (s : State) (n i : Nat) (f : Launch → Launch) : (modLaunch s n i f).routes = s.routes := rfl
@[simp] theorem modLaunch_ords (s : State) (n i : Nat) (f : Launch → Launch) : (modLaunch s n i f).ords = s.ords := rfl
@[simp] theorem modLaunch_quadrants (s : State) (n i : Nat) (f : Launch → Launch) : (modLaunch s n i f).quadrants = s.quadrants := rfl
@[simp] theorem modLaunch_datum (s : State) (n i : Nat) (f : Launch → Launch) : (modLaunch s n i f).datum = s.datum := rfl
@[simp] theorem modLaunch_tim (s : State) (n i : Nat) (f : Launch → Launch) : (modLaunch s n i f).tim = s.tim := rfl
@[simp] theorem modLaunch_ckp (s : State) (n i : Nat) (f : Launch → Launch) : (modLaunch s n i f).ckp = s.ckp := rfl
@[simp] theorem modLaunch_sal (s : State) (n i : Nat) (f : Launch → Launch) : (modLaunch s n i f).sal = s.sal := rfl
@[simp] theorem modLaunch_poisoned (s : State) (n i : Nat) (f : Launch → Launch) : (modLaunch s n i f).poisoned = s.poisoned := rfl
@[simp] theorem modLaunch_msix (s : State) (n i : Nat) (f : Launch → Launch) : (modLaunch s n i f).msix = s.msix := rfl
@[simp] theorem modLaunch_advisory (s : State) (n i : Nat) (f : Launch → Launch) : (modLaunch s n i f).advisory = s.advisory := rfl
@[simp] theorem modLaunch_replies (s : State) (n i : Nat) (f : Launch → Launch) : (modLaunch s n i f).replies = s.replies := rfl
@[simp] theorem modLaunch_cycle (s : State) (n i : Nat) (f : Launch → Launch) : (modLaunch s n i f).cycle = s.cycle := rfl
@[simp] theorem modLaunch_timeBase (s : State) (n i : Nat) (f : Launch → Launch) : (modLaunch s n i f).timeBase = s.timeBase := rfl
@[simp] theorem modLaunch_freeCount (s : State) (n i : Nat) (f : Launch → Launch) : (modLaunch s n i f).freeCount = s.freeCount := rfl
@[simp] theorem modLaunch_nextId (s : State) (n i : Nat) (f : Launch → Launch) : (modLaunch s n i f).nextId = s.nextId := rfl
@[simp] theorem modBucket_slot (s : State) (n : Nat) (f : Bucket → Bucket) : (modBucket s n f).slot = s.slot := rfl
@[simp] theorem modBucket_onStream (s : State) (n : Nat) (f : Bucket → Bucket) : (modBucket s n f).onStream = s.onStream := rfl
@[simp] theorem modBucket_remains (s : State) (n : Nat) (f : Bucket → Bucket) : (modBucket s n f).remains = s.remains := rfl
@[simp] theorem modBucket_gangs (s : State) (n : Nat) (f : Bucket → Bucket) : (modBucket s n f).gangs = s.gangs := rfl
@[simp] theorem modBucket_launches (s : State) (n : Nat) (f : Bucket → Bucket) : (modBucket s n f).launches = s.launches := rfl
@[simp] theorem modBucket_kernels (s : State) (n : Nat) (f : Bucket → Bucket) : (modBucket s n f).kernels = s.kernels := rfl
@[simp] theorem modBucket_parts (s : State) (n : Nat) (f : Bucket → Bucket) : (modBucket s n f).parts = s.parts := rfl
@[simp] theorem modBucket_links (s : State) (n : Nat) (f : Bucket → Bucket) : (modBucket s n f).links = s.links := rfl
@[simp] theorem modBucket_routes (s : State) (n : Nat) (f : Bucket → Bucket) : (modBucket s n f).routes = s.routes := rfl
@[simp] theorem modBucket_ords (s : State) (n : Nat) (f : Bucket → Bucket) : (modBucket s n f).ords = s.ords := rfl
@[simp] theorem modBucket_quadrants (s : State) (n : Nat) (f : Bucket → Bucket) : (modBucket s n f).quadrants = s.quadrants := rfl
@[simp] theorem modBucket_datum (s : State) (n : Nat) (f : Bucket → Bucket) : (modBucket s n f).datum = s.datum := rfl
@[simp] theorem modBucket_tim (s : State) (n : Nat) (f : Bucket → Bucket) : (modBucket s n f).tim = s.tim := rfl
@[simp] theorem modBucket_ckp (s : State) (n : Nat) (f : Bucket → Bucket) : (modBucket s n f).ckp = s.ckp := rfl
@[simp] theorem modBucket_sal (s : State) (n : Nat) (f : Bucket → Bucket) : (modBucket s n f).sal = s.sal := rfl
@[simp] theorem modBucket_poisoned (s : State) (n : Nat) (f : Bucket → Bucket) : (modBucket s n f).poisoned = s.poisoned := rfl
@[simp] theorem modBucket_msix (s : State) (n : Nat) (f : Bucket → Bucket) : (modBucket s n f).msix = s.msix := rfl
@[simp] theorem modBucket_advisory (s : State) (n : Nat) (f : Bucket → Bucket) : (modBucket s n f).advisory = s.advisory := rfl
@[simp] theorem modBucket_replies (s : State) (n : Nat) (f : Bucket → Bucket) : (modBucket s n f).replies = s.replies := rfl
@[simp] theorem modBucket_cycle (s : State) (n : Nat) (f : Bucket → Bucket) : (modBucket s n f).cycle = s.cycle := rfl
@[simp] theorem modBucket_timeBase (s : State) (n : Nat) (f : Bucket → Bucket) : (modBucket s n f).timeBase = s.timeBase := rfl
@[simp] theorem modBucket_freeCount (s : State) (n : Nat) (f : Bucket → Bucket) : (modBucket s n f).freeCount = s.freeCount := rfl
@[simp] theorem modBucket_nextId (s : State) (n : Nat) (f : Bucket → Bucket) : (modBucket s n f).nextId = s.nextId := rfl
@[simp] theorem after_slot (s : State) (n : Nat) (e : Instr) : (after s n e).slot = s.slot := rfl
@[simp] theorem after_onStream (s : State) (n : Nat) (e : Instr) : (after s n e).onStream = s.onStream := rfl
@[simp] theorem after_remains (s : State) (n : Nat) (e : Instr) : (after s n e).remains = s.remains := rfl
@[simp] theorem after_gangs (s : State) (n : Nat) (e : Instr) : (after s n e).gangs = s.gangs := rfl
@[simp] theorem after_launches (s : State) (n : Nat) (e : Instr) : (after s n e).launches = s.launches := rfl
@[simp] theorem after_kernels (s : State) (n : Nat) (e : Instr) : (after s n e).kernels = s.kernels := rfl
@[simp] theorem after_parts (s : State) (n : Nat) (e : Instr) : (after s n e).parts = s.parts := rfl
@[simp] theorem after_links (s : State) (n : Nat) (e : Instr) : (after s n e).links = s.links := rfl
@[simp] theorem after_routes (s : State) (n : Nat) (e : Instr) : (after s n e).routes = s.routes := rfl
@[simp] theorem after_ords (s : State) (n : Nat) (e : Instr) : (after s n e).ords = s.ords := rfl
@[simp] theorem after_quadrants (s : State) (n : Nat) (e : Instr) : (after s n e).quadrants = s.quadrants := rfl
@[simp] theorem after_datum (s : State) (n : Nat) (e : Instr) : (after s n e).datum = s.datum := rfl
@[simp] theorem after_tim (s : State) (n : Nat) (e : Instr) : (after s n e).tim = s.tim := rfl
@[simp] theorem after_ckp (s : State) (n : Nat) (e : Instr) : (after s n e).ckp = s.ckp := rfl
@[simp] theorem after_sal (s : State) (n : Nat) (e : Instr) : (after s n e).sal = s.sal := rfl
@[simp] theorem after_poisoned (s : State) (n : Nat) (e : Instr) : (after s n e).poisoned = s.poisoned := rfl
@[simp] theorem after_msix (s : State) (n : Nat) (e : Instr) : (after s n e).msix = s.msix := rfl
@[simp] theorem after_advisory (s : State) (n : Nat) (e : Instr) : (after s n e).advisory = s.advisory := rfl
@[simp] theorem after_replies (s : State) (n : Nat) (e : Instr) : (after s n e).replies = s.replies := rfl
@[simp] theorem after_cycle (s : State) (n : Nat) (e : Instr) : (after s n e).cycle = s.cycle := rfl
@[simp] theorem after_timeBase (s : State) (n : Nat) (e : Instr) : (after s n e).timeBase = s.timeBase := rfl
@[simp] theorem after_freeCount (s : State) (n : Nat) (e : Instr) : (after s n e).freeCount = s.freeCount := rfl
@[simp] theorem after_nextId (s : State) (n : Nat) (e : Instr) : (after s n e).nextId = s.nextId := rfl

end Sys2Proof.Machine
end

