-- ==== Sys2Proof/Laws/Mem.lean ====
section
/-! SUPPORT. Memory: every operation keeps the canonical form, and a read after a write gives what was written there and what
stood elsewhere. -/

namespace Sys2Proof.Machine

/-- Whether an address lies above a bound. -/
def aboveBound : Option Nat → Nat → Bool
  | none, _ => true
  | some l, a => decide (l < a)

theorem memSorted_cons (lo : Option Nat) (k : Nat) (v : Byte) (m : Memory) :
    memSorted lo ((k, v) :: m) = (aboveBound lo k && v != 0 && memSorted (some k) m) := by
  cases lo <;> rfl

/-- A lower bound may be lowered. -/
theorem memSorted_mono {lo hi : Option Nat} {m : Memory} (h : ∀ a, aboveBound hi a = true → aboveBound lo a = true)
    (hm : memSorted hi m = true) : memSorted lo m = true := by
  cases m with
  | nil => rfl
  | cons c m =>
    obtain ⟨k, v⟩ := c
    simp only [memSorted_cons, Bool.and_eq_true] at hm ⊢
    exact ⟨⟨h k hm.1.1, hm.1.2⟩, hm.2⟩

theorem memSorted_writeCell (m : Memory) (lo : Option Nat) (a : Nat) (v : Byte) (hm : memSorted lo m = true)
    (ha : aboveBound lo a = true) : memSorted lo (writeCell m a v) = true := by
  induction m generalizing lo with
  | nil =>
    unfold writeCell
    split
    · rfl
    · rename_i hv
      rw [memSorted_cons, ha]
      simpa [memSorted] using hv
  | cons c m ih =>
    obtain ⟨k, x⟩ := c
    have h := hm
    simp only [memSorted_cons, Bool.and_eq_true] at h
    unfold writeCell
    split
    · split
      · exact hm
      · rename_i hlt hv
        simp only [memSorted_cons, Bool.and_eq_true]
        exact ⟨⟨ha, by simpa using hv⟩, ⟨by simpa [aboveBound] using hlt, h.1.2⟩, h.2⟩
    · split
      · rename_i hlt heq
        subst heq
        split
        · exact memSorted_mono (fun b hb => by
            cases lo with
            | none => rfl
            | some l => simp only [aboveBound, decide_eq_true_eq] at *; omega) h.2
        · rename_i hv
          simp only [memSorted_cons, Bool.and_eq_true]
          exact ⟨⟨ha, by simpa using hv⟩, h.2⟩
      · rename_i hlt hne
        simp only [memSorted_cons, Bool.and_eq_true]
        exact ⟨h.1, ih (some k) h.2 (by simp only [aboveBound, decide_eq_true_eq]; omega)⟩

/-- Writing a byte keeps the canonical form. -/
theorem wf_writeCell {m : Memory} (a : Nat) (v : Byte) (h : Memory.wf m = true) : Memory.wf (writeCell m a v) = true :=
  memSorted_writeCell m none a v h rfl

/-- Writing bytes keeps the canonical form. -/
theorem wf_writeBytes (bs : List Byte) {m : Memory} (a : Nat) (h : Memory.wf m = true) : Memory.wf (writeBytes m a bs) = true := by
  induction bs generalizing m a with
  | nil => exact h
  | cons b bs ih => exact ih (a + 1) (wf_writeCell a b h)

theorem memSorted_filter (p : Host.Cell → Bool) (m : Memory) (lo : Option Nat) (h : memSorted lo m = true) :
    memSorted lo (m.filter p) = true := by
  induction m generalizing lo with
  | nil => rfl
  | cons c m ih =>
    obtain ⟨k, v⟩ := c
    have h' := h
    simp only [memSorted_cons, Bool.and_eq_true] at h'
    by_cases hp : p (k, v) = true
    · rw [List.filter_cons_of_pos hp, memSorted_cons]
      simp only [Bool.and_eq_true]
      exact ⟨h'.1, ih (some k) h'.2⟩
    · rw [List.filter_cons_of_neg hp]
      refine memSorted_mono (hi := some k) (fun b hb => ?_) (ih (some k) h'.2)
      cases lo with
      | none => rfl
      | some l => simp only [aboveBound, decide_eq_true_eq] at *; omega

/-- Discarding cells keeps the canonical form. -/
theorem wf_filter (p : Host.Cell → Bool) {m : Memory} (h : Memory.wf m = true) : Memory.wf (m.filter p) = true :=
  memSorted_filter p m none h

/-- Clearing a range keeps the canonical form. -/
theorem wf_clearRange {m : Memory} (lo hi : Nat) (h : Memory.wf m = true) : Memory.wf (clearRange m lo hi) = true := wf_filter _ h

/-- Memory built cell by cell is canonical. -/
theorem wf_foldl_writeCell (f : Host.Cell → Nat) (cs : List Host.Cell) {m : Memory} (h : Memory.wf m = true) :
    Memory.wf (cs.foldl (fun x c => writeCell x (f c) c.2) m) = true := by
  induction cs generalizing m with
  | nil => exact h
  | cons c cs ih => exact ih (wf_writeCell _ _ h)

theorem wf_reset : Memory.wf State.reset.mem = true := rfl

/-! ## Reads -/

theorem readCell_below (m : Memory) (a : Nat) (h : memSorted (some a) m = true) : readCell m a = 0 := by
  induction m generalizing a with
  | nil => rfl
  | cons c m ih =>
    obtain ⟨k, v⟩ := c
    simp only [memSorted_cons, Bool.and_eq_true, aboveBound, decide_eq_true_eq] at h
    unfold readCell
    rw [if_neg (by omega)]
    exact ih a (memSorted_mono (fun b hb => by simp only [aboveBound, decide_eq_true_eq] at *; omega) h.2)

/-- A byte read after a byte written. -/
theorem readCell_writeCell (m : Memory) (lo : Option Nat) (a b : Nat) (v : Byte) (h : memSorted lo m = true) :
    readCell (writeCell m a v) b = if b = a then v else readCell m b := by
  induction m generalizing lo with
  | nil =>
    unfold writeCell
    by_cases hv : v = 0
    · simp [hv, readCell]
    · simp only [if_neg hv, readCell]
      by_cases hb : b = a
      · simp [hb]
      · simp [hb, Ne.symm hb]
  | cons c m ih =>
    obtain ⟨k, x⟩ := c
    have h' := h
    simp only [memSorted_cons, Bool.and_eq_true] at h'
    have hm : memSorted (some k) m = true := h'.2
    unfold writeCell
    by_cases hlt : a < k
    · have hz : readCell ((k, x) :: m) a = 0 := by
        refine readCell_below _ _ ?_
        simp only [memSorted_cons, Bool.and_eq_true, aboveBound, decide_eq_true_eq]
        exact ⟨⟨hlt, h'.1.2⟩, hm⟩
      rw [if_pos hlt]
      by_cases hv : v = 0
      · rw [if_pos hv]
        by_cases hb : b = a
        · subst hb; rw [hz]; simp [hv]
        · simp [hb]
      · rw [if_neg hv, readCell]
        by_cases hb : b = a
        · simp [hb]
        · simp [hb, Ne.symm hb]
    · rw [if_neg hlt]
      by_cases heq : a = k
      · subst heq
        by_cases hv : v = 0
        · rw [if_pos rfl, if_pos hv]
          by_cases hb : b = a
          · subst hb; rw [readCell_below _ _ hm]; simp [hv]
          · rw [readCell]; simp [hb, Ne.symm hb]
        · rw [if_pos rfl, if_neg hv]
          by_cases hb : b = a
          · simp [hb, readCell]
          · simp [hb, Ne.symm hb, readCell]
      · rw [if_neg heq, readCell, readCell, ih (some k) hm]
        by_cases hb : k = b
        · simp [hb]
          intro e
          omega
        · simp [hb]

/-- A byte read after bytes written. -/
theorem readCell_writeBytes (bs : List Byte) (m : Memory) (a b : Nat) (h : Memory.wf m = true) :
    readCell (writeBytes m a bs) b = if a ≤ b ∧ b < a + bs.length then bs.getD (b - a) 0 else readCell m b := by
  induction bs generalizing m a with
  | nil =>
    rw [if_neg (by simp only [List.length_nil]; omega)]
    rfl
  | cons x bs ih =>
    rw [writeBytes, ih (writeCell m a x) (a + 1) (wf_writeCell a x h), readCell_writeCell m none a b x h]
    simp only [List.length_cons]
    by_cases h0 : b = a
    · subst h0
      rw [if_neg (by omega), if_pos rfl, if_pos (by omega)]
      simp
    · by_cases h1 : a + 1 ≤ b ∧ b < a + 1 + bs.length
      · rw [if_pos h1, if_pos (by omega)]
        obtain ⟨d, hd⟩ : ∃ d, b - a = d + 1 := ⟨b - a - 1, by omega⟩
        rw [hd, show b - (a + 1) = d from by omega]
        rfl
      · rw [if_neg h1, if_neg h0, if_neg (by omega)]

/-- A byte read after cells are discarded by address. -/
theorem readCell_filter (p : Nat → Bool) (m : Memory) (a : Nat) (lo : Option Nat) (h : memSorted lo m = true) :
    readCell (m.filter fun c => p c.1) a = if p a then readCell m a else 0 := by
  induction m generalizing lo with
  | nil => simp [readCell]
  | cons c m ih =>
    obtain ⟨k, v⟩ := c
    simp only [memSorted_cons, Bool.and_eq_true] at h
    by_cases hp : p k = true
    · rw [List.filter_cons_of_pos (by simpa using hp), readCell, readCell, ih (some k) h.2]
      by_cases hk : k = a
      · subst hk; simp [hp]
      · simp [hk]
    · rw [List.filter_cons_of_neg (by simpa using hp), ih (some k) h.2, readCell]
      by_cases hk : k = a
      · subst hk; simp [hp]
      · simp [hk]

/-- Bytes read back where they were written. -/
theorem readBytes_getD (m : Memory) (a n i : Nat) (h : i < n) : (readBytes m a n).getD i 0 = readCell m (a + i) := by
  induction n generalizing a i with
  | zero => omega
  | succ n ih =>
    cases i with
    | zero => rfl
    | succ i =>
      rw [readBytes, List.getD_cons_succ, ih (a + 1) i (by omega), show a + 1 + i = a + (i + 1) from by omega]

end Sys2Proof.Machine
end

