-- ==== Sys2Proof/Laws/Ops.lean ====
section
/-! SUPPORT. What each shared operation of the warp instructions can do: one lemma per operation, which says all of it. -/

namespace Sys2Proof.Machine

/-! ## Lists and lanes -/

theorem length_mapLanes (m : LaneMask) (f : Nat → Lane → Lane) (ls : List Lane) : (mapLanes m f ls).length = ls.length := by
  simp [mapLanes]

theorem getD_mapLanes (m : LaneMask) (f : Nat → Lane → Lane) (ls : List Lane) (l : Nat) (h : l < ls.length) :
    (mapLanes m f ls).getD l default = if inMask m l then f l (ls.getD l default) else ls.getD l default := by
  simp [mapLanes, h, List.getD_eq_getElem?_getD]

theorem getD_mapLanes_masked (m : LaneMask) (f : Nat → Lane → Lane) (ls : List Lane) (l : Nat) (h : inMask m l = false) :
    (mapLanes m f ls).getD l default = ls.getD l default := by
  by_cases hl : l < ls.length
  · rw [getD_mapLanes m f ls l hl, h]; rfl
  · simp [mapLanes, List.getD_eq_getElem?_getD, Nat.not_lt.mp hl]

theorem lane_modLanes (s : State) (m : LaneMask) (f : Nat → Lane → Lane) (l : Nat) (h : l < s.w.lanes.length) :
    lane (modLanes s m f) l = if inMask m l then f l (lane s l) else lane s l := getD_mapLanes m f s.w.lanes l h

@[simp] theorem lane_modCur (s : State) (f : Slot → Slot) (l : Nat) : lane (modCur s f) l = lane s l := by simp [lane]
@[simp] theorem lane_setScal (s : State) (n : BitVec 5) (v : Word) (l : Nat) : lane (setScal s n v) l = lane s l := rfl

/-! ## The turn and the next instruction -/

@[simp] theorem endSuppress_advance (s : State) : endSuppress (advance s) = nextInstr s := by
  simp [endSuppress, advance, nextInstr]
@[simp] theorem endSuppress_setPc (s : State) (pc : Word) : endSuppress (setPc s pc) = jumpTo pc s := by
  simp [endSuppress, setPc, jumpTo]

/-- A turn that begins leaves everything but the windows as it was. -/
theorem inTurn_iff (s s1 : State) : InTurn s s1 ↔
    ((cur s).windows.any fun w => w.left == 0 && s.w.pend.any fun r => r.rid == w.rid) = false ∧
    s1 = modCur s fun x =>
      { x with windows := (x.windows.filter fun w => w.left != 0).map fun w => { w with left := w.left - 1 } } := by
  unfold InTurn stepWindows
  by_cases h : ((cur s).windows.any fun w => w.left == 0 && s.w.pend.any fun r => r.rid == w.rid) = true
  · rw [if_pos h, h]; simp only [reduceCtorEq, Bool.true_eq_false, false_and]
  · rw [if_neg h, Bool.eq_false_iff.mpr h]
    exact ⟨fun e => ⟨rfl, (Except.ok.inj e).symm⟩, fun e => congrArg _ e.2.symm⟩

/-- A drained turn: no entry of the slot's lanes is pending, and no window is left. -/
theorem drain_ok (s s2 : State) (h : drain s = .ok s2) :
    pendingIn s (members s) = false ∧ s2 = modCur s fun x => { x with windows := [] } := by
  unfold drain at h
  split at h
  · cases h
  · cases h; simp_all

theorem runSeq_ok {s s1 t : State} {body : State → Op} (h : InTurn s s1) (hb : body s1 = .ok t) :
    runSeq s body = .next (nextInstr t) := by
  unfold InTurn at h
  simp [runSeq, runCtl, h, hb, settle, bind, Except.bind, pure, Except.pure]

theorem runCtl_ok {s s1 t : State} {body : State → Op} (h : InTurn s s1) (hb : body s1 = .ok t) :
    runCtl s body = .next (endSuppress t) := by
  unfold InTurn at h
  simp [runCtl, h, hb, settle, bind, Except.bind, pure, Except.pure]

theorem runCtl_trap {s s1 : State} {body : State → Op} {c : BitVec 10} {a : Word} (h : InTurn s s1)
    (hb : body s1 = .error (.trap c a)) : runCtl s body = .next (takeTrap s c a) := by
  unfold InTurn at h
  simp [runCtl, h, hb, settle, bind, Except.bind]

theorem runSeq_trap {s s1 : State} {body : State → Op} {c : BitVec 10} {a : Word} (h : InTurn s s1)
    (hb : body s1 = .error (.trap c a)) : runSeq s body = .next (takeTrap s c a) := by
  unfold InTurn at h
  simp [runSeq, runCtl, h, hb, settle, bind, Except.bind]

theorem runCtl_stall {s s1 : State} {body : State → Op} {r : WaitReason} (h : InTurn s s1)
    (hb : body s1 = .error (.stall r)) : runCtl s body = .next (stallSlot s r) := by
  unfold InTurn at h
  simp [runCtl, h, hb, settle, bind, Except.bind]

/-! ## Pushing a row -/

/-- Everything pushRow does. -/
theorem pushRow_spec (s : State) (row : List Entry) : PushedRow s (pushRow s row) row := by
  constructor
  · simp [pushRow, modCur, modLanes]
  · cases hs : s.slot <;> simp [pushRow, modCur, modLanes, cur, setSlot, hs]
  · simp [pushRow]
  · cases hs : s.slot <;> simp [pushRow, modCur, modLanes, cur, setSlot, slotOf, otherSlot, hs]
  · simp [pushRow, modLanes, length_mapLanes]
  · intro l hl hm
    simp [pushRow, lane_modLanes _ _ _ _ hl, hm, pushEntry]
  · intro l hm
    simp only [pushRow, lane_modCur]
    exact getD_mapLanes_masked _ _ _ _ hm

/-- Everything addPend does to the slots and lanes: nothing. -/
@[simp] theorem cur_addPend (s : State) (r : PendRes) : cur (addPend s r) = cur s := by
  cases h : s.slot <;> simp [addPend, cur, slotOf, h]
@[simp] theorem members_addPend (s : State) (r : PendRes) : members (addPend s r) = members s := by simp [members]
@[simp] theorem lane_addPend (s : State) (r : PendRes) (l : Nat) : lane (addPend s r) l = lane s l := rfl
@[simp] theorem slots_addPend (s : State) (r : PendRes) (p : PcSlot) : slotOf (addPend s r).w p = slotOf s.w p := by cases p <;> rfl

/-- Everything pushPends does. -/
theorem pushPends_spec (s : State) (rid n : Nat) :
    pushPends s rid n = { s with w := (pushPends s rid n).w } ∧
    (pushPends s rid n).w = { s.w with
      lanes := (pushPends s rid n).w.lanes, slotA := (pushPends s rid n).w.slotA, slotB := (pushPends s rid n).w.slotB } ∧
    cur (pushPends s rid n) = { cur s with
      cnt := (cur s).cnt + BitVec.ofNat 16 n, windows := (cur s).windows.map fun w => { w with age := w.age + n } } ∧
    slotOf (pushPends s rid n).w (otherSlot s.slot) = slotOf s.w (otherSlot s.slot) ∧
    (pushPends s rid n).w.lanes.length = s.w.lanes.length ∧
    (∀ l, l < s.w.lanes.length → l < 32 → inMask (members s) l = true →
      lane (pushPends s rid n) l = { lane s l with queue := pendQueue s.w.depth rid n (lane s l).queue }) ∧
    (∀ l, inMask (members s) l = false → lane (pushPends s rid n) l = lane s l) := by
  induction n with
  | zero => simp [pushPends, pendQueue]
  | succ n ih =>
    have e : pushPends s rid (n + 1) =
        pushRow (pushPends s rid n) (lanes32.map fun _ => { val := 0, tag := .raw, pend := some (rid, n) }) := by
      simp only [pushPends, List.range_succ, List.foldl_append, List.foldl_cons, List.foldl_nil]
    rw [e]
    revert ih
    generalize pushPends s rid n = u
    intro ⟨h1, h2, h3, h4, h5, h6, h7⟩
    have hs : u.slot = s.slot := by rw [h1]
    have hd : u.w.depth = s.w.depth := by rw [h2]
    have hm : members u = members s := by simp only [members, h3]
    have p := pushRow_spec u (lanes32.map fun _ => { val := 0, tag := .raw, pend := some (rid, n) })
    revert p
    generalize pushRow u (lanes32.map fun _ => { val := 0, tag := .raw, pend := some (rid, n) }) = t
    intro p
    refine ⟨?_, ?_, ?_, ?_, ?_, ?_, ?_⟩
    · rw [p.rest, h1]
    · rw [p.warp, h2]
    · rw [p.slot, h3]
      simp only [List.map_map, BitVec.ofNat_add, BitVec.add_assoc]
      rfl
    · rw [← hs, p.other, hs, h4]
    · rw [p.lanes, h5]
    · intro l hl hl32 hml
      rw [p.member l (by rw [h5]; exact hl) (by rw [hm]; exact hml), h6 l hl hl32 hml, hd]
      simp only [pendQueue, List.range_succ, List.foldl_append, List.foldl_cons, List.foldl_nil]
      congr 2
      simp only [lanes32, List.getD_eq_getElem?_getD, List.getElem?_map, List.getElem?_range hl32, Option.map_some, Option.getD_some]
    · intro l hml
      rw [p.masked l (by rw [hm]; exact hml), h7 l hml]

/-- Everything openWindow does. -/
theorem openWindow_spec (s : State) (la : BitVec 4) (rid n : Nat) :
    openWindow s la rid n = { s with w := (openWindow s la rid n).w } ∧
    (openWindow s la rid n).w = { s.w with slotA := (openWindow s la rid n).w.slotA, slotB := (openWindow s la rid n).w.slotB } ∧
    cur (openWindow s la rid n) = { cur s with
      windows := (if s.w.mode.getLsbD 8 ∧ s.w.recipe = none then
        [{ rid := rid, age := 1, width := n, left := la.toNat }] else []) ++ (cur s).windows } ∧
    slotOf (openWindow s la rid n).w (otherSlot s.slot) = slotOf s.w (otherSlot s.slot) ∧
    ∀ l, lane (openWindow s la rid n) l = lane s l := by
  unfold openWindow
  split
  · refine ⟨rfl, ?_, ?_, ?_, ?_⟩
    · cases hsl : s.slot <;> simp [modCur, setSlot, hsl]
    · rw [cur_modCur]; rfl
    · simp only [modCur, slotOf_setSlot_other]
    · intro l; rw [lane_modCur]
  · exact ⟨rfl, rfl, rfl, rfl, fun _ => rfl⟩

/-- Everything pushPending does. -/
theorem pushPending_spec (s : State) (la : BitVec 4) (r : PendRes) (n : Nat) : PendPushed s (pushPending s la r n) la r n := by
  have q := pushPends_spec (addPend s r) s.w.ridNext n
  have o := openWindow_spec (pushPends (addPend s r) s.w.ridNext n) la s.w.ridNext n
  unfold pushPending
  revert q o
  generalize pushPends (addPend s r) s.w.ridNext n = u
  intro ⟨h1, h2, h3, h4, h5, h6, h7⟩
  generalize openWindow u la s.w.ridNext n = v
  intro ⟨k1, k2, k3, k4, k5⟩
  have hs : u.slot = s.slot := by rw [h1]; rfl
  have hmode : u.w.mode = s.w.mode := by rw [h2]; rfl
  have hrec : u.w.recipe = s.w.recipe := by rw [h2]; rfl
  have hl : v.w.lanes = u.w.lanes := by rw [k2]
  constructor
  · show enqueue v _ = _
    rw [k1, h1]; rfl
  · show v.agenda ++ _ = _
    rw [k1, h1]; rfl
  · have e := k2
    rw [h2, ← hl] at e
    exact e
  · show cur v = _
    rw [k3, hmode, hrec, h3, cur_addPend]
  · show slotOf v.w _ = _
    rw [← hs, k4, hs]
    exact h4.trans (slots_addPend s r _)
  · show v.w.lanes.length = _
    rw [hl, h5]; rfl
  · intro l hl hl32 hml
    show lane v l = _
    rw [k5, h6 l hl hl32 (by rw [members_addPend]; exact hml)]; rfl
  · intro l hml
    show lane v l = _
    rw [k5, h7 l (by rw [members_addPend]; exact hml)]; rfl

theorem pends_of {i : Instr} {s s1 : State} {body : State → Op} {la : BitVec 4} {r : PendRes} {n : Nat} (h : InTurn s s1)
    (he : exec i s = runSeq s body) (hb : body s1 = .ok (pushPending s1 la r n)) : Pends i s s1 la r n :=
  ⟨pushPending s1 la r n, by rw [he, runSeq_ok h hb], pushPending_spec s1 la r n⟩

/-- The entries an instruction pushes are those of Table 03-3. -/
theorem mergeRow_typed (s : State) (h : VHead) (t : Ty) (f : Nat → Word) (a : Row) :
    mergeRow (active s h.ms) h.mz (rowOf t f) a = typedRow s h t f a := by
  unfold mergeRow typedRow resultRow rowOf
  apply List.map_congr_left
  intro l hl
  have h32 : l < 32 := by simpa [lanes32] using hl
  have hat : at_ (lanes32.map fun l => (formOf t (f l), t)) l = (formOf t (f l), t) := by
    simp [at_, lanes32, List.getD_eq_getElem?_getD, h32]
  simp only [hat, entryOf, valued]

theorem pushes_of {i : Instr} {s s1 : State} {body : State → Op} {row : List Entry} (h : InTurn s s1)
    (he : exec i s = runSeq s body) (hb : body s1 = .ok (pushRow s1 row)) : Pushes i s s1 row :=
  ⟨pushRow s1 row, by rw [he, runSeq_ok h hb], pushRow_spec s1 row⟩

/-! ## Reading operands (R49 to R62) -/

theorem vec1_ok {s : State} {h : VHead} {t : Ty} {a : Src} {f : Word → Word} {x : Row}
    (hx : readA s a h.ty h.ty = .ok x) : vec1 h t a f s = .ok (pushRow s (typedRow s h t (fun l => f (at_ x l).1) x)) := by
  simp [vec1, hx, bind, Except.bind, pure, Except.pure, pushShort, mergeRow_typed]

theorem vec2_ok {s : State} {h : VHead} {t eb : Ty} {a b : Src} {f : Word → Word → Word} {x y : Row}
    (hx : readA s a h.ty h.ty = .ok x) (hy : readB s (active s h.ms) b eb h.ty = .ok y) :
    vec2 h t eb a b f s = .ok (pushRow s (typedRow s h t (fun l => f (at_ x l).1 (at_ y l).1) x)) := by
  simp [vec2, hx, hy, bind, Except.bind, pure, Except.pure, pushShort, mergeRow_typed]

theorem vec3_ok {s : State} {h : VHead} {t eb ec : Ty} {a b c : Src} {f : Word → Word → Word → Word} {x y z : Row}
    (hx : readA s a h.ty h.ty = .ok x) (hy : readB s (active s h.ms) b eb h.ty = .ok y)
    (hz : readB s (active s h.ms) c ec h.ty = .ok z) :
    vec3 h t eb ec a b c f s = .ok (pushRow s (typedRow s h t (fun l => f (at_ x l).1 (at_ y l).1 (at_ z l).1) x)) := by
  simp [vec3, hx, hy, hz, bind, Except.bind, pure, Except.pure, pushShort, mergeRow_typed]

end Sys2Proof.Machine
end

