-- ==== Sys2Proof/Laws/PerInstr.lean ====
section
/-! SUPPORT. One lemma per constructor of Instr (family F): the word of an instruction stands in an assigned cell of the opcode map
(Table 07-14), but for the instruction that stands for the others; an event has no word. -/

namespace Sys2Proof

/-- The opcode of a word that begins with a head (Table 07-4). -/
theorem opc_cat (opc : BitVec 10) (la : BitVec 4) (ms : BitVec 3) (ty : Ty) (mz : Bool) (x : BitVec 42) :
    fld (eHead opc la ms ty mz ++ x : Word) 54 10 = opc := by
  apply BitVec.eq_of_getLsbD_eq
  intro i hi
  simp only [fld, eHead, BitVec.getLsbD_extractLsb', BitVec.getLsbD_append]
  rw [if_neg (by omega), if_neg (by omega), if_neg (by omega), if_neg (by omega), if_neg (by omega)]
  rw [show 54 + i - 42 - 1 - 4 - 3 - 4 = i from by omega]
  simp [hi]

theorem opc_eS (opc : BitVec 10) (ty : Ty) (sd sa : BitVec 5) (b : SOp2) (ccw : BitVec 4) : fld (eS opc ty sd sa b ccw) 54 10 = opc := by
  cases b <;> exact opc_cat opc 0 0 ty false _

/-- Whether a cell is assigned depends on the opcode alone. -/
theorem assigned_of_opc {w : Word} {opc : BitVec 10} (h : fld w 54 10 = opc) (ho : unassigned (opc ++ 0#54) = false) :
    unassigned w = false := by
  have hl : fld (opc ++ 0#54 : Word) 54 6 = fld w 54 6 := by
    subst h
    apply BitVec.eq_of_getLsbD_eq
    intro i hi
    simp only [fld, BitVec.getLsbD_extractLsb', BitVec.getLsbD_append]
    rw [if_neg (by omega), show 54 + i - 54 = i from by omega]
    simp [hi, show i < 10 from by omega]
  have hg : fld (opc ++ 0#54 : Word) 60 4 = fld w 60 4 := by
    subst h
    apply BitVec.eq_of_getLsbD_eq
    intro i hi
    simp only [fld, BitVec.getLsbD_extractLsb', BitVec.getLsbD_append]
    rw [if_neg (by omega), show 60 + i - 54 = 6 + i from by omega]
    simp [hi, show 6 + i < 10 from by omega, show 54 + (6 + i) = 60 + i from by omega]
  unfold unassigned at ho ⊢
  rw [← hl, ← hg]
  exact ho

/-- An event, which has no word, or an instruction whose word stands in an assigned cell, or the instruction of the other cells. -/
def Laws.F.Statement (i : Instr) : Prop :=
  encode i = none ∨ ∃ w, encode i = some w ∧ (unassigned w = false ∨ i = .illegalOpcode w)

/-- An instruction of format S. -/
theorem Laws.F.ofS {i : Instr} {opc : BitVec 10} {ty : Ty} {sd sa : BitVec 5} {b : SOp2} {ccw : BitVec 4}
    (h : encode i = some (eS opc ty sd sa b ccw)) (ho : unassigned (opc ++ 0#54) = false) : Laws.F.Statement i :=
  .inr ⟨_, h, .inl (assigned_of_opc (opc_eS opc ty sd sa b ccw) ho)⟩

/-- An instruction of another format. -/
theorem Laws.F.ofHead {i : Instr} {opc : BitVec 10} {la : BitVec 4} {ms : BitVec 3} {ty : Ty} {mz : Bool} {x : BitVec 42}
    (h : encode i = some (eHead opc la ms ty mz ++ x)) (ho : unassigned (opc ++ 0#54) = false) : Laws.F.Statement i :=
  .inr ⟨_, h, .inl (assigned_of_opc (opc_cat opc la ms ty mz x) ho)⟩

theorem Laws.F.nop : Laws.F.Statement .nop := .inr ⟨0, rfl, .inl rfl⟩
theorem Laws.F.bra (off : BitVec 24) : Laws.F.Statement (.bra off) := Laws.F.ofHead rfl rfl
theorem Laws.F.brc (cond : Cond) (off : BitVec 24) : Laws.F.Statement (.brc cond off) := Laws.F.ofHead rfl rfl
theorem Laws.F.brz (ms : BitVec 3) (off : BitVec 24) : Laws.F.Statement (.brz ms off) := Laws.F.ofHead rfl rfl
theorem Laws.F.brnz (ms : BitVec 3) (off : BitVec 24) : Laws.F.Statement (.brnz ms off) := Laws.F.ofHead rfl rfl
theorem Laws.F.brd (ms : BitVec 3) (jid : BitVec 6) (off : BitVec 24) : Laws.F.Statement (.brd ms jid off) := Laws.F.ofHead rfl rfl
theorem Laws.F.join (jid : BitVec 6) (c : BitVec 6) (pi : BitVec 24) : Laws.F.Statement (.join jid c pi) := Laws.F.ofHead rfl rfl
theorem Laws.F.call (nargs : BitVec 5) (nres : BitVec 5) (off : BitVec 24) : Laws.F.Statement (.call nargs nres off) := Laws.F.ofHead rfl rfl
theorem Laws.F.calli (nargs : BitVec 5) (nres : BitVec 5) (target : BitVec 5) : Laws.F.Statement (.calli nargs nres target) := Laws.F.ofHead rfl rfl
theorem Laws.F.ret : Laws.F.Statement .ret := Laws.F.ofHead rfl rfl
theorem Laws.F.loop (k : BitVec 5) (off : BitVec 24) : Laws.F.Statement (.loop k off) := Laws.F.ofHead rfl rfl
theorem Laws.F.exit : Laws.F.Statement .exit := Laws.F.ofHead rfl rfl
theorem Laws.F.stake (k : BitVec 12) : Laws.F.Statement (.stake k) := Laws.F.ofHead rfl rfl
theorem Laws.F.yield (n : BitVec 10) : Laws.F.Statement (.yield n) := Laws.F.ofHead rfl rfl
theorem Laws.F.svc (n : BitVec 5) : Laws.F.Statement (.svc n) := Laws.F.ofHead rfl rfl
theorem Laws.F.bkpt (k : BitVec 5) : Laws.F.Statement (.bkpt k) := Laws.F.ofHead rfl rfl
theorem Laws.F.launch (sy : BitVec 5) (sx : BitVec 5) : Laws.F.Statement (.launch sy sx) := Laws.F.ofHead rfl rfl
theorem Laws.F.waitdep : Laws.F.Statement .waitdep := Laws.F.ofHead rfl rfl
theorem Laws.F.trig : Laws.F.Statement .trig := Laws.F.ofHead rfl rfl
theorem Laws.F.eret : Laws.F.Statement .eret := Laws.F.ofHead rfl rfl
theorem Laws.F.eretM (ms : BitVec 3) : Laws.F.Statement (.eretM ms) := Laws.F.ofHead rfl rfl
theorem Laws.F.abort : Laws.F.Statement .abort := Laws.F.ofHead rfl rfl
theorem Laws.F.save (ms : BitVec 3) (a : Src) (dst : BitVec 5) : Laws.F.Statement (.save ms a dst) := Laws.F.ofHead rfl rfl
theorem Laws.F.dup (ms : BitVec 3) (mz : Bool) (a : Src) : Laws.F.Statement (.dup ms mz a) := Laws.F.ofHead rfl rfl
theorem Laws.F.pushi (h : VHead) (v : BitVec 32) : Laws.F.Statement (.pushi h v) := Laws.F.ofHead rfl rfl
theorem Laws.F.qperm (pi : BitVec 24) : Laws.F.Statement (.qperm pi) := Laws.F.ofHead rfl rfl
theorem Laws.F.settag (h : VHead) (a : Src) : Laws.F.Statement (.settag h a) := Laws.F.ofHead rfl rfl
theorem Laws.F.tile (log2w : BitVec 3) : Laws.F.Statement (.tile log2w) := Laws.F.ofHead rfl rfl
theorem Laws.F.setmode (val : BitVec 8) (wen : BitVec 8) : Laws.F.Statement (.setmode val wen) := Laws.F.ofHead rfl rfl
theorem Laws.F.lane2s (ms : BitVec 3) (a : Src) (b : Src) (k : BitVec 5) : Laws.F.Statement (.lane2s ms a b k) := Laws.F.ofHead rfl rfl
theorem Laws.F.rdsr (ms : BitVec 3) (mz : Bool) (r : SpecialReg) : Laws.F.Statement (.rdsr ms mz r) := Laws.F.ofHead rfl rfl
theorem Laws.F.wrsr (ms : BitVec 3) (a : Src) (r : WritableReg) : Laws.F.Statement (.wrsr ms a r) := Laws.F.ofHead rfl rfl
theorem Laws.F.sadd (x : SArgs) : Laws.F.Statement (.sadd x) := Laws.F.ofS rfl rfl
theorem Laws.F.ssub (x : SArgs) : Laws.F.Statement (.ssub x) := Laws.F.ofS rfl rfl
theorem Laws.F.smul (x : SArgs) : Laws.F.Statement (.smul x) := Laws.F.ofS rfl rfl
theorem Laws.F.smulh (x : SArgs) : Laws.F.Statement (.smulh x) := Laws.F.ofS rfl rfl
theorem Laws.F.sand (x : SArgs) : Laws.F.Statement (.sand x) := Laws.F.ofS rfl rfl
theorem Laws.F.sor (x : SArgs) : Laws.F.Statement (.sor x) := Laws.F.ofS rfl rfl
theorem Laws.F.sxor (x : SArgs) : Laws.F.Statement (.sxor x) := Laws.F.ofS rfl rfl
theorem Laws.F.sshl (x : SArgs) : Laws.F.Statement (.sshl x) := Laws.F.ofS rfl rfl
theorem Laws.F.sshr (x : SArgs) : Laws.F.Statement (.sshr x) := Laws.F.ofS rfl rfl
theorem Laws.F.ssar (x : SArgs) : Laws.F.Statement (.ssar x) := Laws.F.ofS rfl rfl
theorem Laws.F.smin (x : SArgs) : Laws.F.Statement (.smin x) := Laws.F.ofS rfl rfl
theorem Laws.F.smax (x : SArgs) : Laws.F.Statement (.smax x) := Laws.F.ofS rfl rfl
theorem Laws.F.scmp (ty : Ty) (sa : BitVec 5) (b : SOp2) (ccw : BitVec 4) : Laws.F.Statement (.scmp ty sa b ccw) := Laws.F.ofS rfl rfl
theorem Laws.F.smov (ty : Ty) (sd : BitVec 5) (sa : BitVec 5) (ccw : BitVec 4) : Laws.F.Statement (.smov ty sd sa ccw) := Laws.F.ofS rfl rfl
theorem Laws.F.smovi (ty : Ty) (sd : BitVec 5) (sa : BitVec 5) (v : BitVec 16) (ccw : BitVec 4) : Laws.F.Statement (.smovi ty sd sa v ccw) :=
  Laws.F.ofS rfl rfl
theorem Laws.F.ssel (cond : Cond) (ty : Ty) (sd : BitVec 5) (sa : BitVec 5) (b : SOp2) : Laws.F.Statement (.ssel cond ty sd sa b) :=
  Laws.F.ofS rfl rfl
theorem Laws.F.sclz (ty : Ty) (sd : BitVec 5) (sa : BitVec 5) (ccw : BitVec 4) : Laws.F.Statement (.sclz ty sd sa ccw) := Laws.F.ofS rfl rfl
theorem Laws.F.spopc (ty : Ty) (sd : BitVec 5) (sa : BitVec 5) (ccw : BitVec 4) : Laws.F.Statement (.spopc ty sd sa ccw) := Laws.F.ofS rfl rfl
theorem Laws.F.sbfe (x : SArgs) : Laws.F.Statement (.sbfe x) := Laws.F.ofS rfl rfl
theorem Laws.F.sld (ty : Ty) (sd : BitVec 5) (sa : BitVec 5) (off : BitVec 16) : Laws.F.Statement (.sld ty sd sa off) := Laws.F.ofS rfl rfl
theorem Laws.F.sst (ty : Ty) (sd : BitVec 5) (sa : BitVec 5) (off : BitVec 16) : Laws.F.Statement (.sst ty sd sa off) := Laws.F.ofS rfl rfl
theorem Laws.F.iadd (h : VHead) (sat : Bool) (a : Src) (b : Src) : Laws.F.Statement (.iadd h sat a b) := Laws.F.ofHead rfl rfl
theorem Laws.F.isub (h : VHead) (sat : Bool) (a : Src) (b : Src) : Laws.F.Statement (.isub h sat a b) := Laws.F.ofHead rfl rfl
theorem Laws.F.imul (h : VHead) (sat : Bool) (a : Src) (b : Src) : Laws.F.Statement (.imul h sat a b) := Laws.F.ofHead rfl rfl
theorem Laws.F.imulh (h : VHead) (a : Src) (b : Src) : Laws.F.Statement (.imulh h a b) := Laws.F.ofHead rfl rfl
theorem Laws.F.imad (h : VHead) (sat : Bool) (a : Src) (b : Src) (c : Src) : Laws.F.Statement (.imad h sat a b c) := Laws.F.ofHead rfl rfl
theorem Laws.F.ineg (h : VHead) (sat : Bool) (a : Src) : Laws.F.Statement (.ineg h sat a) := Laws.F.ofHead rfl rfl
theorem Laws.F.iabs (h : VHead) (sat : Bool) (a : Src) : Laws.F.Statement (.iabs h sat a) := Laws.F.ofHead rfl rfl
theorem Laws.F.imin (h : VHead) (a : Src) (b : Src) : Laws.F.Statement (.imin h a b) := Laws.F.ofHead rfl rfl
theorem Laws.F.imax (h : VHead) (a : Src) (b : Src) : Laws.F.Statement (.imax h a b) := Laws.F.ofHead rfl rfl
theorem Laws.F.and (h : VHead) (a : Src) (b : Src) : Laws.F.Statement (.and h a b) := Laws.F.ofHead rfl rfl
theorem Laws.F.or (h : VHead) (a : Src) (b : Src) : Laws.F.Statement (.or h a b) := Laws.F.ofHead rfl rfl
theorem Laws.F.xor (h : VHead) (a : Src) (b : Src) : Laws.F.Statement (.xor h a b) := Laws.F.ofHead rfl rfl
theorem Laws.F.not (h : VHead) (a : Src) : Laws.F.Statement (.not h a) := Laws.F.ofHead rfl rfl
theorem Laws.F.shl (h : VHead) (sat : Bool) (a : Src) (b : Src) : Laws.F.Statement (.shl h sat a b) := Laws.F.ofHead rfl rfl
theorem Laws.F.shr (h : VHead) (a : Src) (b : Src) : Laws.F.Statement (.shr h a b) := Laws.F.ofHead rfl rfl
theorem Laws.F.sar (h : VHead) (a : Src) (b : Src) : Laws.F.Statement (.sar h a b) := Laws.F.ofHead rfl rfl
theorem Laws.F.rotl (h : VHead) (a : Src) (b : Src) : Laws.F.Statement (.rotl h a b) := Laws.F.ofHead rfl rfl
theorem Laws.F.bfe (h : VHead) (a : Src) (b : Src) : Laws.F.Statement (.bfe h a b) := Laws.F.ofHead rfl rfl
theorem Laws.F.bfi (h : VHead) (a : Src) (b : Src) (c : Src) : Laws.F.Statement (.bfi h a b c) := Laws.F.ofHead rfl rfl
theorem Laws.F.popc (h : VHead) (a : Src) : Laws.F.Statement (.popc h a) := Laws.F.ofHead rfl rfl
theorem Laws.F.clz (h : VHead) (a : Src) : Laws.F.Statement (.clz h a) := Laws.F.ofHead rfl rfl
theorem Laws.F.brev (h : VHead) (a : Src) : Laws.F.Statement (.brev h a) := Laws.F.ofHead rfl rfl
theorem Laws.F.icmp (h : VHead) (cc : Cmp) (a : Src) (b : Src) : Laws.F.Statement (.icmp h cc a b) := Laws.F.ofHead rfl rfl
theorem Laws.F.sel (h : VHead) (a : Src) (b : Src) (c : Src) : Laws.F.Statement (.sel h a b c) := Laws.F.ofHead rfl rfl
theorem Laws.F.lea (ms : BitVec 3) (mz : Bool) (a : Src) (b : Src) (c : Src) : Laws.F.Statement (.lea ms mz a b c) := Laws.F.ofHead rfl rfl
theorem Laws.F.fadd (h : VHead) (rm : Rm) (na : Bool) (nb : Bool) (a : Src) (b : Src) : Laws.F.Statement (.fadd h rm na nb a b) :=
  Laws.F.ofHead rfl rfl
theorem Laws.F.fsub (h : VHead) (rm : Rm) (na : Bool) (nb : Bool) (a : Src) (b : Src) : Laws.F.Statement (.fsub h rm na nb a b) :=
  Laws.F.ofHead rfl rfl
theorem Laws.F.fmul (h : VHead) (rm : Rm) (na : Bool) (nb : Bool) (a : Src) (b : Src) : Laws.F.Statement (.fmul h rm na nb a b) :=
  Laws.F.ofHead rfl rfl
theorem Laws.F.ffma (h : VHead) (rm : Rm) (na : Bool) (nb : Bool) (nc : Bool) (a : Src) (b : Src) (c : Src) : Laws.F.Statement (.ffma h rm na nb nc a b c) :=
  Laws.F.ofHead rfl rfl
theorem Laws.F.fmin (h : VHead) (na : Bool) (nb : Bool) (a : Src) (b : Src) : Laws.F.Statement (.fmin h na nb a b) := Laws.F.ofHead rfl rfl
theorem Laws.F.fmax (h : VHead) (na : Bool) (nb : Bool) (a : Src) (b : Src) : Laws.F.Statement (.fmax h na nb a b) := Laws.F.ofHead rfl rfl
theorem Laws.F.fabs (h : VHead) (a : Src) : Laws.F.Statement (.fabs h a) := Laws.F.ofHead rfl rfl
theorem Laws.F.fcmp (h : VHead) (cc : Cmp) (a : Src) (b : Src) : Laws.F.Statement (.fcmp h cc a b) := Laws.F.ofHead rfl rfl
theorem Laws.F.fclass (h : VHead) (a : Src) : Laws.F.Statement (.fclass h a) := Laws.F.ofHead rfl rfl
theorem Laws.F.frnd (h : VHead) (rm : Rm) (na : Bool) (a : Src) : Laws.F.Statement (.frnd h rm na a) := Laws.F.ofHead rfl rfl
theorem Laws.F.fscale (h : VHead) (rm : Rm) (na : Bool) (a : Src) (b : Src) : Laws.F.Statement (.fscale h rm na a b) := Laws.F.ofHead rfl rfl
theorem Laws.F.fdiv (la : BitVec 4) (h : VHead) (rm : Rm) (na : Bool) (nb : Bool) (a : Src) (b : Src) : Laws.F.Statement (.fdiv la h rm na nb a b) :=
  Laws.F.ofHead rfl rfl
theorem Laws.F.fsqrt (la : BitVec 4) (h : VHead) (rm : Rm) (na : Bool) (a : Src) : Laws.F.Statement (.fsqrt la h rm na a) := Laws.F.ofHead rfl rfl
theorem Laws.F.cvt (h : VHead) (rm : Rm) (dty : Ty) (a : Src) : Laws.F.Statement (.cvt h rm dty a) := Laws.F.ofHead rfl rfl
theorem Laws.F.cvtsr (h : VHead) (dty : Ty) (a : Src) (b : Src) : Laws.F.Statement (.cvtsr h dty a b) := Laws.F.ofHead rfl rfl
theorem Laws.F.frcp (la : BitVec 4) (h : VHead) (a : Src) : Laws.F.Statement (.frcp la h a) := Laws.F.ofHead rfl rfl
theorem Laws.F.frsq (la : BitVec 4) (h : VHead) (a : Src) : Laws.F.Statement (.frsq la h a) := Laws.F.ofHead rfl rfl
theorem Laws.F.fexp2 (la : BitVec 4) (h : VHead) (a : Src) : Laws.F.Statement (.fexp2 la h a) := Laws.F.ofHead rfl rfl
theorem Laws.F.flog2 (la : BitVec 4) (h : VHead) (a : Src) : Laws.F.Statement (.flog2 la h a) := Laws.F.ofHead rfl rfl
theorem Laws.F.fsin (la : BitVec 4) (h : VHead) (a : Src) : Laws.F.Statement (.fsin la h a) := Laws.F.ofHead rfl rfl
theorem Laws.F.fcos (la : BitVec 4) (h : VHead) (a : Src) : Laws.F.Statement (.fcos la h a) := Laws.F.ofHead rfl rfl
theorem Laws.F.ftanh (la : BitVec 4) (h : VHead) (a : Src) : Laws.F.Statement (.ftanh la h a) := Laws.F.ofHead rfl rfl
theorem Laws.F.rng (h : VHead) (k : BitVec 5) : Laws.F.Statement (.rng h k) := Laws.F.ofHead rfl rfl
theorem Laws.F.bsinit (ms : BitVec 3) (a : Src) (b : Src) (n : BitVec 5) : Laws.F.Statement (.bsinit ms a b n) := Laws.F.ofHead rfl rfl
theorem Laws.F.bsrd (ms : BitVec 3) (mz : Bool) (n : BitVec 5) (b : Src) (c : Src) : Laws.F.Statement (.bsrd ms mz n b c) := Laws.F.ofHead rfl rfl
theorem Laws.F.shfl (la : BitVec 4) (h : VHead) (op : ShflOp) (a : Src) (b : Src) : Laws.F.Statement (.shfl la h op a b) := Laws.F.ofHead rfl rfl
theorem Laws.F.vote (ms : BitVec 3) (op : VoteOp) (a : Src) (c : BitVec 3) : Laws.F.Statement (.vote ms op a c) := Laws.F.ofHead rfl rfl
theorem Laws.F.redux (la : BitVec 4) (h : VHead) (op : RedOp) (rm : Rm) (a : Src) : Laws.F.Statement (.redux la h op rm a) := Laws.F.ofHead rfl rfl
theorem Laws.F.scan (la : BitVec 4) (h : VHead) (excl : Bool) (op : RedOp) (rm : Rm) (a : Src) : Laws.F.Statement (.scan la h excl op rm a) :=
  Laws.F.ofHead rfl rfl
theorem Laws.F.matchLanes (ms : BitVec 3) (ty : Ty) (op : MatchOp) (a : Src) (c : BitVec 3) : Laws.F.Statement (.matchLanes ms ty op a c) :=
  Laws.F.ofHead rfl rfl
theorem Laws.F.mset (ms : BitVec 3) (a : Src) (c : BitVec 3) : Laws.F.Statement (.mset ms a c) := Laws.F.ofHead rfl rfl
theorem Laws.F.mand (a : BitVec 3) (b : BitVec 3) (c : BitVec 3) : Laws.F.Statement (.mand a b c) := Laws.F.ofHead rfl rfl
theorem Laws.F.mor (a : BitVec 3) (b : BitVec 3) (c : BitVec 3) : Laws.F.Statement (.mor a b c) := Laws.F.ofHead rfl rfl
theorem Laws.F.mxor (a : BitVec 3) (b : BitVec 3) (c : BitVec 3) : Laws.F.Statement (.mxor a b c) := Laws.F.ofHead rfl rfl
theorem Laws.F.mnot (a : BitVec 3) (c : BitVec 3) : Laws.F.Statement (.mnot a c) := Laws.F.ofHead rfl rfl
theorem Laws.F.mpopc (a : BitVec 3) (k : BitVec 5) : Laws.F.Statement (.mpopc a k) := Laws.F.ofHead rfl rfl
theorem Laws.F.mfirst (a : BitVec 3) (k : BitVec 5) : Laws.F.Statement (.mfirst a k) := Laws.F.ofHead rfl rfl
theorem Laws.F.mfroms (k : BitVec 5) (c : BitVec 3) : Laws.F.Statement (.mfroms k c) := Laws.F.ofHead rfl rfl
theorem Laws.F.mtos (a : BitVec 3) (k : BitVec 5) : Laws.F.Statement (.mtos a k) := Laws.F.ofHead rfl rfl
theorem Laws.F.ld (m : MArgs) (cp : Cp) : Laws.F.Statement (.ld m cp) := Laws.F.ofHead rfl rfl
theorem Laws.F.ld2 (m : MArgs) (cp : Cp) : Laws.F.Statement (.ld2 m cp) := Laws.F.ofHead rfl rfl
theorem Laws.F.st (m : MArgs) (data : Src) (cp : Cp) : Laws.F.Statement (.st m data cp) := Laws.F.ofHead rfl rfl
theorem Laws.F.st2 (m : MArgs) (data : Src) (cp : Cp) : Laws.F.Statement (.st2 m data cp) := Laws.F.ofHead rfl rfl
theorem Laws.F.lds (m : MArgs) (cp : Cp) : Laws.F.Statement (.lds m cp) := Laws.F.ofHead rfl rfl
theorem Laws.F.sts (m : MArgs) (data : Src) (cp : Cp) : Laws.F.Statement (.sts m data cp) := Laws.F.ofHead rfl rfl
theorem Laws.F.ldb (m : MArgs) (k : BitVec 5) (stale : Bool) : Laws.F.Statement (.ldb m k stale) := Laws.F.ofHead rfl rfl
theorem Laws.F.lda (m : MArgs) (scope : Scope) (cp : Cp) : Laws.F.Statement (.lda m scope cp) := Laws.F.ofHead rfl rfl
theorem Laws.F.stl (m : MArgs) (data : Src) (scope : Scope) (cp : Cp) : Laws.F.Statement (.stl m data scope cp) := Laws.F.ofHead rfl rfl
theorem Laws.F.pref (m : MArgs) (cp : Cp) : Laws.F.Statement (.pref m cp) := Laws.F.ofHead rfl rfl
theorem Laws.F.cctl (m : MArgs) (op : CctlOp) : Laws.F.Statement (.cctl m op) := Laws.F.ofHead rfl rfl
theorem Laws.F.atom (m : MArgs) (data : Src) (scope : Scope) (ord : Ord) (op : AtomOp) : Laws.F.Statement (.atom m data scope ord op) :=
  Laws.F.ofHead rfl rfl
theorem Laws.F.atomc (m : MArgs) (data : Src) (scope : Scope) (ord : Ord) (cmp : BitVec 5) : Laws.F.Statement (.atomc m data scope ord cmp) :=
  Laws.F.ofHead rfl rfl
theorem Laws.F.atomf (m : MArgs) (data : Src) (scope : Scope) (ord : Ord) (op : AtomOp) : Laws.F.Statement (.atomf m data scope ord op) :=
  Laws.F.ofHead rfl rfl
theorem Laws.F.red (m : MArgs) (data : Src) (scope : Scope) (ord : Ord) (op : AtomOp) : Laws.F.Statement (.red m data scope ord op) :=
  Laws.F.ofHead rfl rfl
theorem Laws.F.atoms (m : MArgs) (data : Src) (scope : Scope) (ord : Ord) (op : AtomOp) : Laws.F.Statement (.atoms m data scope ord op) :=
  Laws.F.ofHead rfl rfl
theorem Laws.F.atomsc (m : MArgs) (data : Src) (scope : Scope) (ord : Ord) (cmp : BitVec 5) : Laws.F.Statement (.atomsc m data scope ord cmp) :=
  Laws.F.ofHead rfl rfl
theorem Laws.F.radv (m : MArgs) (scope : Scope) : Laws.F.Statement (.radv m scope) := Laws.F.ofHead rfl rfl
theorem Laws.F.rdround (m : MArgs) : Laws.F.Statement (.rdround m) := Laws.F.ofHead rfl rfl
theorem Laws.F.fence (kind : FenceKind) (scope : Scope) (ms : BitVec 3) : Laws.F.Statement (.fence kind scope ms) := Laws.F.ofHead rfl rfl
theorem Laws.F.barinit (id : BitVec 5) (sx : BitVec 5) (sy : BitVec 5) : Laws.F.Statement (.barinit id sx sy) := Laws.F.ofHead rfl rfl
theorem Laws.F.bararv (id : BitVec 5) (n : BitVec 8) : Laws.F.Statement (.bararv id n) := Laws.F.ofHead rfl rfl
theorem Laws.F.barwt (id : BitVec 5) (sx : BitVec 5) : Laws.F.Statement (.barwt id sx) := Laws.F.ofHead rfl rfl
theorem Laws.F.barexp (id : BitVec 5) (sy : BitVec 5) : Laws.F.Statement (.barexp id sy) := Laws.F.ofHead rfl rfl
theorem Laws.F.fqput (ms : BitVec 3) (ty : Ty) (a : Src) (k : BitVec 3) : Laws.F.Statement (.fqput ms ty a k) := Laws.F.ofHead rfl rfl
theorem Laws.F.fqget (h : VHead) (k : BitVec 3) : Laws.F.Statement (.fqget h k) := Laws.F.ofHead rfl rfl
theorem Laws.F.bankcfg (bank : BitVec 8) (mode : BankMode) : Laws.F.Statement (.bankcfg bank mode) := Laws.F.ofHead rfl rfl
theorem Laws.F.scopy (j : SluiceArgs) (src : SluiceSpace) (dst : SluiceSpace) : Laws.F.Statement (.scopy j src dst) := Laws.F.ofHead rfl rfl
theorem Laws.F.scopy2 (j : SluiceArgs) (src : SluiceSpace) (dst : SluiceSpace) : Laws.F.Statement (.scopy2 j src dst) := Laws.F.ofHead rfl rfl
theorem Laws.F.stcopy (j : SluiceArgs) (toDesc : Bool) (other : SluiceSpace) (desc : BitVec 6) : Laws.F.Statement (.stcopy j toDesc other desc) :=
  by cases toDesc <;> exact Laws.F.ofHead rfl rfl
theorem Laws.F.sgath (j : SluiceArgs) (src : SluiceSpace) (dst : SluiceSpace) (esz : BitVec 2) (idxScratch : Bool) : Laws.F.Statement (.sgath j src dst esz idxScratch) :=
  Laws.F.ofHead rfl rfl
theorem Laws.F.sscat (j : SluiceArgs) (src : SluiceSpace) (dst : SluiceSpace) (esz : BitVec 2) (idxScratch : Bool) : Laws.F.Statement (.sscat j src dst esz idxScratch) :=
  Laws.F.ofHead rfl rfl
theorem Laws.F.sfill (j : SluiceArgs) (dst : SluiceSpace) (esz : BitVec 2) : Laws.F.Statement (.sfill j dst esz) := Laws.F.ofHead rfl rfl
theorem Laws.F.swait (wp : BitVec 4) (sx : BitVec 5) : Laws.F.Statement (.swait wp sx) := Laws.F.ofHead rfl rfl
theorem Laws.F.squery (sy : BitVec 5) (sx : BitVec 5) : Laws.F.Statement (.squery sy sx) := Laws.F.ofHead rfl rfl
theorem Laws.F.tdset (desc : BitVec 6) (w : BitVec 4) (sx : BitVec 5) : Laws.F.Statement (.tdset desc w sx) := Laws.F.ofHead rfl rfl
theorem Laws.F.tdget (sy : BitVec 5) (desc : BitVec 6) (w : BitVec 4) : Laws.F.Statement (.tdget sy desc w) := Laws.F.ofHead rfl rfl
theorem Laws.F.tdinv (desc : BitVec 6) : Laws.F.Statement (.tdinv desc) := Laws.F.ofHead rfl rfl
theorem Laws.F.invpg (ms : BitVec 3) (addr : Src) (off : BitVec 16) : Laws.F.Statement (.invpg ms addr off) := Laws.F.ofHead rfl rfl
theorem Laws.F.invall (ms : BitVec 3) : Laws.F.Statement (.invall ms) := Laws.F.ofHead rfl rfl
theorem Laws.F.pmrd (sd : BitVec 5) (n : SOp2) : Laws.F.Statement (.pmrd sd n) := by cases n <;> exact Laws.F.ofS rfl rfl
theorem Laws.F.pmcfg (sa : BitVec 5) (n : BitVec 16) : Laws.F.Statement (.pmcfg sa n) := Laws.F.ofS rfl rfl
theorem Laws.F.trace (sa : BitVec 5) (t : BitVec 16) : Laws.F.Statement (.trace sa t) := Laws.F.ofS rfl rfl
theorem Laws.F.mma (x : MmaArgs) : Laws.F.Statement (.mma x) := Laws.F.ofHead rfl rfl
theorem Laws.F.mmaq (x : MmaArgs) : Laws.F.Statement (.mmaq x) := Laws.F.ofHead rfl rfl
theorem Laws.F.accz (acc : BitVec 2) : Laws.F.Statement (.accz acc) := Laws.F.ofHead rfl rfl
theorem Laws.F.accld (x : RegionArgs) : Laws.F.Statement (.accld x) := Laws.F.ofHead rfl rfl
theorem Laws.F.accst (x : RegionArgs) (flag : Bool) : Laws.F.Statement (.accst x flag) := Laws.F.ofHead rfl rfl
theorem Laws.F.qstore (x : RegionArgs) (adapt : Bool) : Laws.F.Statement (.qstore x adapt) := Laws.F.ofHead rfl rfl
theorem Laws.F.mdrain (shape : BitVec 5) (acc : BitVec 2) (row : BitVec 2) (col : BitVec 2) : Laws.F.Statement (.mdrain shape acc row col) :=
  Laws.F.ofHead rfl rfl
theorem Laws.F.mbararv (id : BitVec 5) : Laws.F.Statement (.mbararv id) := Laws.F.ofHead rfl rfl
theorem Laws.F.mbarwt (id : BitVec 5) : Laws.F.Statement (.mbarwt id) := Laws.F.ofHead rfl rfl
theorem Laws.F.mloop (count : BitVec 12) (off : BitVec 24) : Laws.F.Statement (.mloop count off) := Laws.F.ofHead rfl rfl
theorem Laws.F.mjmp (off : BitVec 24) : Laws.F.Statement (.mjmp off) := Laws.F.ofHead rfl rfl
theorem Laws.F.mend : Laws.F.Statement .mend := Laws.F.ofHead rfl rfl
theorem Laws.F.apop (la : BitVec 4) (ms : BitVec 3) (ty : Ty) : Laws.F.Statement (.apop la ms ty) := Laws.F.ofHead rfl rfl
theorem Laws.F.ori2 (p : PredArgs) : Laws.F.Statement (.ori2 p) := Laws.F.ofHead rfl rfl
theorem Laws.F.ori3 (p : PredArgs) : Laws.F.Statement (.ori3 p) := Laws.F.ofHead rfl rfl
theorem Laws.F.incir (p : PredArgs) : Laws.F.Statement (.incir p) := Laws.F.ofHead rfl rfl
theorem Laws.F.insph (p : PredArgs) : Laws.F.Statement (.insph p) := Laws.F.ofHead rfl rfl
theorem Laws.F.segx (p : PredArgs) : Laws.F.Statement (.segx p) := Laws.F.ofHead rfl rfl
theorem Laws.F.gpclr (ms : BitVec 3) : Laws.F.Statement (.gpclr ms) := Laws.F.ofHead rfl rfl
theorem Laws.F.illegalOpcode (w : Word) : Laws.F.Statement (.illegalOpcode w) := .inr ⟨w, rfl, .inr rfl⟩
theorem Laws.F.accessPerformed (id : Nat) : Laws.F.Statement (.accessPerformed id) := .inl rfl
theorem Laws.F.resultArrival (warp : Nat) (rid : Nat) : Laws.F.Statement (.resultArrival warp rid) := .inl rfl
theorem Laws.F.slotAged (warp : Nat) (slot : PcSlot) : Laws.F.Statement (.slotAged warp slot) := .inl rfl
theorem Laws.F.yieldExpiry (warp : Nat) (slot : PcSlot) : Laws.F.Statement (.yieldExpiry warp slot) := .inl rfl
theorem Laws.F.barwtWake (warp : Nat) (slot : PcSlot) : Laws.F.Statement (.barwtWake warp slot) := .inl rfl
theorem Laws.F.mbarwtWake (block : Nat) : Laws.F.Statement (.mbarwtWake block) := .inl rfl
theorem Laws.F.fqputLand (warp : Nat) (slot : PcSlot) : Laws.F.Statement (.fqputLand warp slot) := .inl rfl
theorem Laws.F.fqgetWake (warp : Nat) (slot : PcSlot) : Laws.F.Statement (.fqgetWake warp slot) := .inl rfl
theorem Laws.F.swaitWake (warp : Nat) (slot : PcSlot) : Laws.F.Statement (.swaitWake warp slot) := .inl rfl
theorem Laws.F.apopWake (warp : Nat) (slot : PcSlot) : Laws.F.Statement (.apopWake warp slot) := .inl rfl
theorem Laws.F.waitdepRelease (warp : Nat) (slot : PcSlot) : Laws.F.Statement (.waitdepRelease warp slot) := .inl rfl
theorem Laws.F.bankcfgDrainEnd (warp : Nat) (slot : PcSlot) : Laws.F.Statement (.bankcfgDrainEnd warp slot) := .inl rfl
theorem Laws.F.faultRecordWrite (vf : Nat) : Laws.F.Statement (.faultRecordWrite vf) := .inl rfl
theorem Laws.F.theodoliteStageEnd (warp : Nat) (rid : Nat) (lane : BitVec 5) : Laws.F.Statement (.theodoliteStageEnd warp rid lane) := .inl rfl
theorem Laws.F.matrixStep (block : Nat) : Laws.F.Statement (.matrixStep block) := .inl rfl
theorem Laws.F.sluiceChunkStart (block : Nat) (job : Nat) : Laws.F.Statement (.sluiceChunkStart block job) := .inl rfl
theorem Laws.F.sluiceChunkLand (block : Nat) (job : Nat) (chunk : Nat) : Laws.F.Statement (.sluiceChunkLand block job chunk) := .inl rfl
theorem Laws.F.sluiceJobFault (block : Nat) (job : Nat) (chunk : Nat) (failure : BitVec 3) : Laws.F.Statement (.sluiceJobFault block job chunk failure) :=
  .inl rfl
theorem Laws.F.footprintEntryGrant (die : Nat) (cluster : Nat) : Laws.F.Statement (.footprintEntryGrant die cluster) := .inl rfl
theorem Laws.F.launchCompletion (vf : Nat) (launch : Nat) : Laws.F.Statement (.launchCompletion vf launch) := .inl rfl
theorem Laws.F.gangPlace (part : Nat) : Laws.F.Statement (.gangPlace part) := .inl rfl
theorem Laws.F.coopWaitExpiry (part : Nat) : Laws.F.Statement (.coopWaitExpiry part) := .inl rfl
theorem Laws.F.uncorrectableError (detail : BitVec 4) (owner : ErrOwner) (aux : Word) : Laws.F.Statement (.uncorrectableError detail owner aux) :=
  .inl rfl
theorem Laws.F.switchTick (part : Nat) : Laws.F.Statement (.switchTick part) := .inl rfl
theorem Laws.F.dieSavedReport (part : Nat) (die : Nat) : Laws.F.Statement (.dieSavedReport part die) := .inl rfl
theorem Laws.F.saveDeadline (part : Nat) : Laws.F.Statement (.saveDeadline part) := .inl rfl
theorem Laws.F.graceExpiry (part : Nat) : Laws.F.Statement (.graceExpiry part) := .inl rfl
theorem Laws.F.forceSaveComplete (part : Nat) (die : Nat) : Laws.F.Statement (.forceSaveComplete part die) := .inl rfl
theorem Laws.F.firmwareUpdate : Laws.F.Statement .firmwareUpdate := .inl rfl
theorem Laws.F.cacheLineExpiry (block : Nat) (line : Word) : Laws.F.Statement (.cacheLineExpiry block line) := .inl rfl
theorem Laws.F.tokenRefill (n : Nat) : Laws.F.Statement (.tokenRefill n) := .inl rfl
theorem Laws.F.sample (part : Nat) : Laws.F.Statement (.sample part) := .inl rfl
theorem Laws.F.counterRefresh (part : Nat) : Laws.F.Statement (.counterRefresh part) := .inl rfl
theorem Laws.F.logDrain : Laws.F.Statement .logDrain := .inl rfl
theorem Laws.F.rd (die : Nat) (line : Nat) : Laws.F.Statement (.rd die line) := .inl rfl
theorem Laws.F.data (die : Nat) (line : Nat) (bytes : List Byte) (f : BitVec 32) : Laws.F.Statement (.data die line bytes f) := .inl rfl
theorem Laws.F.wreq (die : Nat) (page : Nat) (sub : Nat) : Laws.F.Statement (.wreq die page sub) := .inl rfl
theorem Laws.F.grant (die : Nat) (page : Nat) (mask : BitVec 16) : Laws.F.Statement (.grant die page mask) := .inl rfl
theorem Laws.F.inv (die : Nat) (page : Nat) (mask : BitVec 16) : Laws.F.Statement (.inv die page mask) := .inl rfl
theorem Laws.F.revoke (die : Nat) (page : Nat) (mask : BitVec 16) : Laws.F.Statement (.revoke die page mask) := .inl rfl
theorem Laws.F.notice (die : Nat) (line : Nat) (remain : Nat) (dirty : Option (List Byte)) : Laws.F.Statement (.notice die line remain dirty) :=
  .inl rfl
theorem Laws.F.wb (die : Nat) (line : Nat) (bytes : List Byte) : Laws.F.Statement (.wb die line bytes) := .inl rfl
theorem Laws.F.radvreq (die : Nat) (page : Nat) (warp : Nat) (rid : Nat) : Laws.F.Statement (.radvreq die page warp rid) := .inl rfl
theorem Laws.F.flush (die : Nat) (page : Nat) : Laws.F.Statement (.flush die page) := .inl rfl
theorem Laws.F.advance (die : Nat) (page : Nat) (round : BitVec 32) (map : BitVec 512) (pushed : List LineData) : Laws.F.Statement (.advance die page round map pushed) :=
  .inl rfl
theorem Laws.F.iack (die : Nat) (page : Nat) : Laws.F.Statement (.iack die page) := .inl rfl
theorem Laws.F.rvack (die : Nat) (page : Nat) (lines : List LineData) : Laws.F.Statement (.rvack die page lines) := .inl rfl
theorem Laws.F.wback (die : Nat) (line : Nat) : Laws.F.Statement (.wback die line) := .inl rfl
theorem Laws.F.fack (die : Nat) (page : Nat) (lines : List LineData) : Laws.F.Statement (.fack die page lines) := .inl rfl
theorem Laws.F.advack (die : Nat) (page : Nat) : Laws.F.Statement (.advack die page) := .inl rfl
theorem Laws.F.gone (die : Nat) (page : Nat) : Laws.F.Statement (.gone die page) := .inl rfl
theorem Laws.F.radvdone (page : Nat) (warp : Nat) (rid : Nat) (round : BitVec 32) : Laws.F.Statement (.radvdone page warp rid round) := .inl rfl
theorem Laws.F.linkFailover (link : Nat) : Laws.F.Statement (.linkFailover link) := .inl rfl
theorem Laws.F.packetDelivery (src : Nat) (dst : Nat) (seq : Nat) : Laws.F.Statement (.packetDelivery src dst seq) := .inl rfl
theorem Laws.F.pieceAck (link : Nat) (seq : Nat) (piece : Nat) : Laws.F.Statement (.pieceAck link seq piece) := .inl rfl
theorem Laws.F.inboundRead (vf : Nat) (path : HostPath) (offset : Nat) (len : Nat) : Laws.F.Statement (.inboundRead vf path offset len) :=
  .inl rfl
theorem Laws.F.inboundWrite (vf : Nat) (path : HostPath) (offset : Nat) (bytes : List Byte) (relaxed : Bool) :
    Laws.F.Statement (.inboundWrite vf path offset bytes relaxed) :=
  .inl rfl
theorem Laws.F.hifSqDb (vf : Nat) (val : Word) : Laws.F.Statement (.hifSqDb vf val) := .inl rfl
theorem Laws.F.trnPresent (vf : Nat) (val : Word) : Laws.F.Statement (.trnPresent vf val) := .inl rfl
theorem Laws.F.submitNoop (vf : Nat) : Laws.F.Statement (.submitNoop vf) := .inl rfl
theorem Laws.F.submitLaunch (vf : Nat) : Laws.F.Statement (.submitLaunch vf) := .inl rfl
theorem Laws.F.submitRegistration (vf : Nat) : Laws.F.Statement (.submitRegistration vf) := .inl rfl
theorem Laws.F.completionWrite (vf : Nat) : Laws.F.Statement (.completionWrite vf) := .inl rfl
theorem Laws.F.vfPause (c : DtmCmd) : Laws.F.Statement (.vfPause c) := .inl rfl
theorem Laws.F.checkpoint : Laws.F.Statement .checkpoint := .inl rfl
theorem Laws.F.vfMigrateStop (c : DtmCmd) : Laws.F.Statement (.vfMigrateStop c) := .inl rfl
theorem Laws.F.vfDestroy (c : DtmCmd) : Laws.F.Statement (.vfDestroy c) := .inl rfl
theorem Laws.F.flitCrcError (link : Nat) : Laws.F.Statement (.flitCrcError link) := .inl rfl
theorem Laws.F.retrainEnd (link : Nat) (flits : Nat) : Laws.F.Statement (.retrainEnd link flits) := .inl rfl
theorem Laws.F.hifCqHead (vf : Nat) (val : Word) : Laws.F.Statement (.hifCqHead vf val) := .inl rfl
theorem Laws.F.hifRingCfg (vf : Nat) (val : Word) : Laws.F.Statement (.hifRingCfg vf val) := .inl rfl
theorem Laws.F.inbErrClear (vf : Nat) (val : Word) : Laws.F.Statement (.inbErrClear vf val) := .inl rfl
theorem Laws.F.trnFqCfg (vf : Nat) (val : Word) : Laws.F.Statement (.trnFqCfg vf val) := .inl rfl
theorem Laws.F.trnFqHead (vf : Nat) (val : Word) : Laws.F.Statement (.trnFqHead vf val) := .inl rfl
theorem Laws.F.ringCfg (vf : Nat) (trc : Bool) (val : Word) : Laws.F.Statement (.ringCfg vf trc val) := .inl rfl
theorem Laws.F.ringDropClear (vf : Nat) (trc : Bool) (val : Word) : Laws.F.Statement (.ringDropClear vf trc val) := .inl rfl
theorem Laws.F.getVersion (pf : Fin 2) : Laws.F.Statement (.getVersion pf) := .inl rfl
theorem Laws.F.getCapabilities (pf : Fin 2) : Laws.F.Statement (.getCapabilities pf) := .inl rfl
theorem Laws.F.negotiateAlgorithms (pf : Fin 2) : Laws.F.Statement (.negotiateAlgorithms pf) := .inl rfl
theorem Laws.F.getDigests (pf : Fin 2) : Laws.F.Statement (.getDigests pf) := .inl rfl
theorem Laws.F.getCertificate (pf : Fin 2) (certSlot : Nat) : Laws.F.Statement (.getCertificate pf certSlot) := .inl rfl
theorem Laws.F.challenge (pf : Fin 2) (nonce : List Byte) : Laws.F.Statement (.challenge pf nonce) := .inl rfl
theorem Laws.F.getMeasurements (pf : Fin 2) (nonce : List Byte) : Laws.F.Statement (.getMeasurements pf nonce) := .inl rfl
theorem Laws.F.keyExchange (pf : Fin 2) (session : Nat) : Laws.F.Statement (.keyExchange pf session) := .inl rfl
theorem Laws.F.finish (pf : Fin 2) (session : Nat) : Laws.F.Statement (.finish pf session) := .inl rfl
theorem Laws.F.heartbeat (pf : Fin 2) (session : Nat) : Laws.F.Statement (.heartbeat pf session) := .inl rfl
theorem Laws.F.keyUpdate (pf : Fin 2) (session : Nat) : Laws.F.Statement (.keyUpdate pf session) := .inl rfl
theorem Laws.F.endSession (pf : Fin 2) (session : Nat) : Laws.F.Statement (.endSession pf session) := .inl rfl
theorem Laws.F.ideKm (pf : Fin 2) (session : Nat) (handle : Word) : Laws.F.Statement (.ideKm pf session handle) := .inl rfl
theorem Laws.F.lockInterface (pf : Fin 2) (session : Nat) (handle : Word) : Laws.F.Statement (.lockInterface pf session handle) := .inl rfl
theorem Laws.F.startInterface (pf : Fin 2) (session : Nat) (handle : Word) : Laws.F.Statement (.startInterface pf session handle) := .inl rfl
theorem Laws.F.vfCreate (c : DtmCmd) : Laws.F.Statement (.vfCreate c) := .inl rfl
theorem Laws.F.vfPolicy (c : DtmCmd) : Laws.F.Statement (.vfPolicy c) := .inl rfl
theorem Laws.F.vfSegment (c : DtmCmd) : Laws.F.Statement (.vfSegment c) := .inl rfl
theorem Laws.F.vfSlice (c : DtmCmd) : Laws.F.Statement (.vfSlice c) := .inl rfl
theorem Laws.F.vfResume (c : DtmCmd) : Laws.F.Statement (.vfResume c) := .inl rfl
theorem Laws.F.vfEvict (c : DtmCmd) : Laws.F.Statement (.vfEvict c) := .inl rfl
theorem Laws.F.vfRestore (c : DtmCmd) : Laws.F.Statement (.vfRestore c) := .inl rfl
theorem Laws.F.vfMigrateBegin (c : DtmCmd) : Laws.F.Statement (.vfMigrateBegin c) := .inl rfl
theorem Laws.F.vfMigrateRound (c : DtmCmd) : Laws.F.Statement (.vfMigrateRound c) := .inl rfl
theorem Laws.F.vfMigrateFinish (c : DtmCmd) : Laws.F.Statement (.vfMigrateFinish c) := .inl rfl
theorem Laws.F.partSet (c : DtmCmd) : Laws.F.Statement (.partSet c) := .inl rfl
theorem Laws.F.attest (c : DtmCmd) : Laws.F.Statement (.attest c) := .inl rfl
theorem Laws.F.coreRemove (die : Nat) (core : Nat) : Laws.F.Statement (.coreRemove die core) := .inl rfl
theorem Laws.F.coreReturn (die : Nat) (core : Nat) : Laws.F.Statement (.coreReturn die core) := .inl rfl
theorem Laws.F.schLateClear (part : Nat) (val : Word) : Laws.F.Statement (.schLateClear part val) := .inl rfl
theorem Laws.F.qosBucket (n : Nat) (val : Word) : Laws.F.Statement (.qosBucket n val) := .inl rfl
theorem Laws.F.fwlDropClear (val : Word) : Laws.F.Statement (.fwlDropClear val) := .inl rfl
theorem Laws.F.cdsStatClear (die : Nat) (val : Word) : Laws.F.Statement (.cdsStatClear die val) := .inl rfl
theorem Laws.F.lnkStatClear (link : Nat) (val : Word) : Laws.F.Statement (.lnkStatClear link val) := .inl rfl
theorem Laws.F.ptpMessage (domain : BitVec 8) (source : PtpSource) (time : PtpTime) : Laws.F.Statement (.ptpMessage domain source time) :=
  .inl rfl
theorem Laws.F.holdover : Laws.F.Statement .holdover := .inl rfl
theorem Laws.F.hbmTransferRetry (die : Nat) (stack : Nat) (channel : Nat) (lane : Nat) (good : Bool) : Laws.F.Statement (.hbmTransferRetry die stack channel lane good) :=
  .inl rfl
theorem Laws.F.laneSwap (die : Nat) (stack : Nat) (channel : Nat) (lane : Nat) : Laws.F.Statement (.laneSwap die stack channel lane) := .inl rfl
theorem Laws.F.sensorPoll (index : Nat) (value : BitVec 32) : Laws.F.Statement (.sensorPoll index value) := .inl rfl
theorem Laws.F.hostCompletionTimeout (warp : Nat) (rid : Nat) : Laws.F.Statement (.hostCompletionTimeout warp rid) := .inl rfl
theorem Laws.F.firmwareRecovery : Laws.F.Statement .firmwareRecovery := .inl rfl
theorem Laws.F.powerOn : Laws.F.Statement .powerOn := .inl rfl
theorem Laws.F.registerWrite (target : RegTarget) (offset : Nat) (val : Word) : Laws.F.Statement (.registerWrite target offset val) := .inl rfl
theorem Laws.F.pfBar2Write (pf : Fin 2) (addr : Nat) (bytes : List Byte) : Laws.F.Statement (.pfBar2Write pf addr bytes) := .inl rfl
theorem Laws.F.powerLoss : Laws.F.Statement .powerLoss := .inl rfl
theorem Laws.F.moduleReset : Laws.F.Statement .moduleReset := .inl rfl

end Sys2Proof
end

