-- ==== Sys2Proof/Tests/Slice0.lean ====
section
/-! SUPPORT. Tests: an ill-formed term for each check of WellFormed, words of the spec for every family of instructions, results on
small states worked out from the spec's rules, and for each obligation with hypotheses a state and operands that meet them, clause by
clause at the values where clauses meet. -/

namespace Sys2Proof.Tests

set_option Elab.async false

open Sys2Proof Sys2Proof.Machine

/-! ## Helpers -/

theorem isOk_some {ε α : Type} {r : Except ε α} (h : r.isOk = true) : ∃ x, r = .ok x := by
  cases r with
  | ok x => exact ⟨x, rfl⟩
  | error e => cases h

theorem isSome_some {α : Type} {r : Option α} (h : r.isSome = true) : ∃ x, r = some x := by
  cases r with
  | some x => exact ⟨x, rfl⟩
  | none => cases h

theorem chain_of {ε α β : Type} {f : Except ε α} {g : α → Except ε β} {P : α → β → Bool}
    (h : (match f with
      | .ok a => (match g a with | .ok b => P a b | .error _ => false)
      | .error _ => false) = true) : ∃ a b, f = .ok a ∧ g a = .ok b ∧ P a b = true := by
  split at h
  · next a =>
    split at h
    · next b hb => exact ⟨a, b, rfl, hb, h⟩
    · cases h
  · cases h

theorem ok_of {ε α : Type} {f : Except ε α} {P : α → Bool} (h : (match f with | .ok a => P a | .error _ => false) = true) :
    ∃ a, f = .ok a ∧ P a = true := by
  split at h
  · next a => exact ⟨a, rfl, h⟩
  · cases h

/-- Whether an evaluation ends in a trap. -/
def trapped {α : Type} : Except Halt α → Bool
  | .error (.trap _ _) => true
  | _ => false

theorem trapped_some {α : Type} {r : Except Halt α} (h : trapped r = true) : ∃ c x, r = .error (.trap c x) := by
  cases r with
  | ok x => cases h
  | error e => cases e with
    | trap c x => exact ⟨c, x, rfl⟩
    | stall r => cases h
    | home x => cases h

/-- A running warp at VA 0x2000 with nothing in its queue; all 32 lanes are members. -/
def base : State := place State.reset false 0
def ofW (f : Warp → Warp) : State := { base with w := f base.w }
def ofB (f : Block → Block) : State := { base with b := f base.b }
def ofSlot (f : Slot → Slot) : State := ofW fun w => { w with slotA := f w.slotA }

/-- As base with a value in every queue entry and frame slot, and a kernel with a handler and a call stack. -/
def rich : State :=
  { base with
      w := { base.w with
        lanes := List.replicate 32 { queue := List.replicate 8 (valued (3, .n32)), frame := List.replicate 4 (valued (5, .n32)), rngctr := 0 }
        masks := [0, 0, 1, 0xFFFFFFFE, 0, 0, 0, 0] }
      b := { base.b with kernel := { base.b.kernel with frame := 4, handler := some 64, callstk := 65536 } } }

/-- As base at a word of its matrix stream. -/
def streamBase : State := place State.reset true 0

/-! ## WellFormed -/

theorem test_wf_refuses_tile : wf (.tile 6) = false := by decide
theorem test_wf_refuses_setmode : wf (.setmode 1 0) = false ∧ wf (.setmode 3 3) = false := by decide
theorem test_wf_refuses_types : wf (.pushi ⟨0, false, .bool⟩ 0) = false ∧ wf (.settag ⟨0, false, .poison⟩ .zero) = false ∧
    wf (.iadd ⟨0, false, .f32⟩ false .zero .zero) = false ∧ wf (.and ⟨0, false, .f32⟩ .zero .zero) = false ∧
    wf (.fadd ⟨0, false, .i32⟩ .rne false false .zero .zero) = false ∧ wf (.fmin ⟨0, false, .raw⟩ false false .zero .zero) = false ∧
    wf (.frcp 0 ⟨0, false, .f64⟩ .zero) = false ∧ wf (.rng ⟨0, false, .f32⟩ 0) = false ∧ wf (.sel ⟨0, false, .poison⟩ .zero .zero .zero) = false ∧
    wf (.sadd ⟨.f32, 0, 0, .reg 0, 0⟩) = false ∧ wf (.smov .bool 0 0 0) = false ∧ wf (.apop 0 0 .f64) = false ∧
    wf (.matchLanes 0 .poison .dup .zero 1) = false ∧ wf (.shfl 0 ⟨0, false, .poison⟩ .idx .zero .zero) = false ∧
    wf (.fqput 0 .poison .zero 0) = false ∧ wf (.fqget ⟨0, false, .poison⟩ 0) = false ∧
    wf (.cvt ⟨0, false, .raw⟩ .rne .f32 .zero) = false ∧ wf (.cvtsr ⟨0, false, .f32⟩ .f64 .zero .zero) = false ∧
    wf (.ori2 ⟨0, 0, false, .i32, false, false, .zero, .zero⟩) = false := by decide
theorem test_wf_refuses_roundings : wf (.fadd ⟨0, false, .f32⟩ .sr false false .zero .zero) = false ∧
    wf (.cvt ⟨0, false, .f32⟩ .sr .f64 .zero) = false ∧ wf (.redux 0 ⟨0, false, .f32⟩ .min .rup .zero) = false ∧
    wf (.redux 0 ⟨0, false, .f32⟩ .and .rne .zero) = false := by decide
theorem test_wf_refuses_comparisons : wf (.icmp ⟨0, false, .i32⟩ .un .zero .zero) = false := by decide
theorem test_wf_refuses_mask0 : wf (.mnot 1 0) = false ∧ wf (.vote 0 .conj .zero 0) = false ∧ wf (.eretM 0) = false := by decide
theorem test_wf_refuses_scalars : wf (.rng ⟨0, false, .n32⟩ 31) = false ∧ wf (.smovi .i32 0 1 0 0) = false ∧
    wf (.sbfe ⟨.i32, 0, 0, .imm 0x2000, 0⟩) = false := by decide
theorem test_wf_refuses_memory : wf (.ld ⟨0, 0, false, .f32, .imm 0, 0⟩ .dflt) = false ∧ wf (.ld2 ⟨0, 0, false, .bool, .age 0, 0⟩ .dflt) = false ∧
    wf (.st ⟨0, 0, true, .f32, .age 0, 0⟩ (.age 1) .dflt) = false ∧ wf (.st ⟨0, 0, false, .f32, .age 0, 0⟩ (.imm 1) .dflt) = false ∧
    wf (.st2 ⟨0, 0, false, .f32, .age 0, 0⟩ (.age 31) .dflt) = false ∧ wf (.pref ⟨0, 0, false, .f32, .age 0, 0⟩ .dflt) = false ∧
    wf (.cctl ⟨0, 0, false, .raw, .age 0, 8⟩ .invall) = false ∧ wf (.atom ⟨0, 0, false, .f32, .age 0, 0⟩ (.age 1) .gg .plain .add) = false ∧
    wf (.atomf ⟨0, 0, false, .f32, .age 0, 0⟩ (.age 1) .gg .plain .and) = false ∧
    wf (.red ⟨0, 0, false, .i32, .age 0, 0⟩ (.age 1) .gg .acq .add) = false ∧ wf (.radv ⟨0, 0, false, .f32, .age 0, 0⟩ .pkg) = false := by decide
theorem test_wf_refuses_barriers_and_sluice : wf (.bararv 0 0) = false ∧ wf (.scopy ⟨0, 31, 0, none, none, 0⟩ .global .scratch) = false ∧
    wf (.scopy ⟨0, 0, 0, none, none, 1⟩ .global .scratch) = false ∧ wf (.sfill ⟨0, 0, 0, none, none, 0⟩ .remote 0) = false ∧
    wf (.stcopy ⟨0, 0, 0, none, none, 0⟩ true .bplane 0) = false ∧ wf (.tdset 0 10 0) = false := by decide
theorem test_wf_refuses_system : wf (.pmrd 0 (.imm 64)) = false ∧ wf (.invpg 0 (.imm 0) 0) = false ∧ wf (.mloop 1 0) = false := by decide
theorem test_wf_refuses_events : wf (.rd 10 0) = false ∧ wf (.coreRemove 8 0) = false ∧ wf (.tokenRefill 1024) = false ∧
    wf (.illegalOpcode 0) = false := by decide
theorem test_wf_refuses_immediates : wf (.iadd ⟨0, false, .i32⟩ false (.imm 1) (.imm 2)) = false ∧
    wf (.sel ⟨0, false, .i32⟩ .zero .zero (.imm 2)) = false := by decide

/-- R151, R170: a warp's word of the stream's cells is not an instruction of it, and an unassigned cell is ILLEGAL_OPCODE. -/
theorem test_decode_refuses : decode false 0x8200000000000000 = .ok (.illegalOpcode 0x8200000000000000) ∧
    decode false 1 = .error (0x001, 1) := ⟨rfl, rfl⟩

/-! ## Decoding: a word of every instruction, its fields written from Tables 07-4 to 07-8, 07-14, 09-1, 10-2 and 10-3 -/

theorem test_decode_control :
  decode false 0x0000000000000000 = .ok .nop ∧
  decode false 0x0040000000FFFFFE = .ok (.bra 0xFFFFFE) ∧
  decode false 0x0080024000000005 = .ok (.brc .ule 5) ∧
  decode false 0x00C1000000000005 = .ok (.brz 2 5) ∧
  decode false 0x0101800000000006 = .ok (.brnz 3 6) ∧
  decode false 0x0141000500000006 = .ok (.brd 2 5 6) ∧
  decode false 0x01800030BEB1A040 = .ok (.join 3 2 0xFAC681) ∧
  decode false 0x01C0004100FFFFEC = .ok (.call 2 1 0xFFFFEC) ∧
  decode false 0x0200006428000000 = .ok (.calli 3 4 5) ∧
  decode false 0x0240000000000000 = .ok .ret ∧
  decode false 0x0280000E00000009 = .ok (.loop 7 9) ∧
  decode false 0x02C0000000000000 = .ok .exit ∧
  decode false 0x030002AF00000000 = .ok (.stake 0xABC) ∧
  decode false 0x03400000000FFC00 = .ok (.yield 0x3FF) ∧
  decode false 0x0380000000007C00 = .ok (.svc 31) ∧
  decode false 0x03C0000000001C00 = .ok (.bkpt 7) ∧
  decode false 0x0400008500000000 = .ok (.launch 5 4) ∧
  decode false 0x0440000000000000 = .ok .waitdep ∧
  decode false 0x0480000000000000 = .ok .trig ∧
  decode false 0x04C0000000000000 = .ok .eret ∧
  decode false 0x04C2800000000000 = .ok (.eretM 5) ∧
  decode false 0x0500000000000000 = .ok .abort :=
  ⟨rfl, rfl, rfl, rfl, rfl, rfl, rfl, rfl, rfl, rfl, rfl, rfl, rfl, rfl, rfl, rfl, rfl, rfl, rfl, rfl, rfl, rfl⟩

theorem test_decode_queue :
  decode false 0x1001800804400000 = .ok (.save 3 (.age 1) 2) ∧
  decode false 0x1041851800000000 = .ok (.dup 3 true (.frame 3)) ∧
  decode false 0x1081BCFF00000000 = .ok (.pushi ⟨3, true, .f32⟩ 0x3FC00000) ∧
  decode false 0x10C000003EB1A200 = .ok (.qperm 0xFAC688) ∧
  decode false 0x1101EC1000000000 = .ok (.settag ⟨3, true, .addr⟩ (.age 2)) ∧
  decode false 0x1140000000001000 = .ok (.tile 4) ∧
  decode false 0x118000007C004800 = .ok (.setmode 0x12 0x1F) ∧
  decode false 0x11C1800828600000 = .ok (.lane2s 3 (.age 1) (.age 2) 3) ∧
  decode false 0x12018401A0000000 = .ok (.rdsr 3 true (.wp 10)) ∧
  decode false 0x1241800890000000 = .ok (.wrsr 3 (.age 1) .rngctr) :=
  ⟨rfl, rfl, rfl, rfl, rfl, rfl, rfl, rfl, rfl, rfl⟩

theorem test_decode_scalar :
  decode false 0x2000082218000140 = .ok (.sadd ⟨.i32, 1, 2, .reg 3, 5⟩) ∧
  decode false 0x2040102218000140 = .ok (.ssub ⟨.n32, 1, 2, .reg 3, 5⟩) ∧
  decode false 0x2080182218000140 = .ok (.smul ⟨.i64, 1, 2, .reg 3, 5⟩) ∧
  decode false 0x20C0202218000140 = .ok (.smulh ⟨.n64, 1, 2, .reg 3, 5⟩) ∧
  decode false 0x2100082218000140 = .ok (.sand ⟨.i32, 1, 2, .reg 3, 5⟩) ∧
  decode false 0x2140102218000140 = .ok (.sor ⟨.n32, 1, 2, .reg 3, 5⟩) ∧
  decode false 0x2180182218000140 = .ok (.sxor ⟨.i64, 1, 2, .reg 3, 5⟩) ∧
  decode false 0x21C0202218000140 = .ok (.sshl ⟨.n64, 1, 2, .reg 3, 5⟩) ∧
  decode false 0x2200082218000140 = .ok (.sshr ⟨.i32, 1, 2, .reg 3, 5⟩) ∧
  decode false 0x2240102218000140 = .ok (.ssar ⟨.n32, 1, 2, .reg 3, 5⟩) ∧
  decode false 0x2280182218000140 = .ok (.smin ⟨.i64, 1, 2, .reg 3, 5⟩) ∧
  decode false 0x22C0202218000140 = .ok (.smax ⟨.n64, 1, 2, .reg 3, 5⟩) ∧
  decode false 0x23000802180003C0 = .ok (.scmp .i32 2 (.reg 3) 0xF) ∧
  decode false 0x2340182200000200 = .ok (.smov .i64 1 2 8) ∧
  decode false 0x2380002206FBBD00 = .ok (.smovi .raw 1 2 0xBEEF 4) ∧
  decode false 0x23C02022180000C0 = .ok (.ssel .lt .n64 1 2 (.reg 3)) ∧
  decode false 0x2400082200000080 = .ok (.sclz .i32 1 2 2) ∧
  decode false 0x2440102200000040 = .ok (.spopc .n32 1 2 1) ∧
  decode false 0x24801822047FFC40 = .ok (.sbfe ⟨.i64, 1, 2, .imm 0x1FFF, 1⟩) ∧
  decode false 0x24C0212807FFE000 = .ok (.sld .n64 9 8 0xFFF8) ∧
  decode false 0x2500092804002000 = .ok (.sst .i32 9 8 8) :=
  ⟨rfl, rfl, rfl, rfl, rfl, rfl, rfl, rfl, rfl, rfl, rfl, rfl, rfl, rfl, rfl, rfl, rfl, rfl, rfl, rfl, rfl⟩

theorem test_decode_integer :
  decode false 0x30018C0A20020000 = .ok (.iadd ⟨3, true, .i32⟩ true (.age 1) (.frame 2)) ∧
  decode false 0x30418C0A20020000 = .ok (.isub ⟨3, true, .i32⟩ true (.age 1) (.frame 2)) ∧
  decode false 0x30818C0A20020000 = .ok (.imul ⟨3, true, .i32⟩ true (.age 1) (.frame 2)) ∧
  decode false 0x33418C0A20020000 = .ok (.shl ⟨3, true, .i32⟩ true (.age 1) (.frame 2)) ∧
  decode false 0x30C18C0A20000000 = .ok (.imulh ⟨3, true, .i32⟩ (.age 1) (.frame 2)) ∧
  decode false 0x31C18C0A20000000 = .ok (.imin ⟨3, true, .i32⟩ (.age 1) (.frame 2)) ∧
  decode false 0x32018C0A20000000 = .ok (.imax ⟨3, true, .i32⟩ (.age 1) (.frame 2)) ∧
  decode false 0x32418C0A20000000 = .ok (.and ⟨3, true, .i32⟩ (.age 1) (.frame 2)) ∧
  decode false 0x32818C0A20000000 = .ok (.or ⟨3, true, .i32⟩ (.age 1) (.frame 2)) ∧
  decode false 0x32C18C0A20000000 = .ok (.xor ⟨3, true, .i32⟩ (.age 1) (.frame 2)) ∧
  decode false 0x33818C0A20000000 = .ok (.shr ⟨3, true, .i32⟩ (.age 1) (.frame 2)) ∧
  decode false 0x33C18C0A20000000 = .ok (.sar ⟨3, true, .i32⟩ (.age 1) (.frame 2)) ∧
  decode false 0x34018C0A20000000 = .ok (.rotl ⟨3, true, .i32⟩ (.age 1) (.frame 2)) ∧
  decode false 0x34418C0A20000000 = .ok (.bfe ⟨3, true, .i32⟩ (.age 1) (.frame 2)) ∧
  decode false 0x31018C0A28620000 = .ok (.imad ⟨3, true, .i32⟩ true (.age 1) (.frame 2) (.scalar 3)) ∧
  decode false 0x34818C0A28600000 = .ok (.bfi ⟨3, true, .i32⟩ (.age 1) (.frame 2) (.scalar 3)) ∧
  decode false 0x31418C0800020000 = .ok (.ineg ⟨3, true, .i32⟩ true (.age 1)) ∧
  decode false 0x31818C0800020000 = .ok (.iabs ⟨3, true, .i32⟩ true (.age 1)) ∧
  decode false 0x33018C0800000000 = .ok (.not ⟨3, true, .i32⟩ (.age 1)) ∧
  decode false 0x34C18C0800000000 = .ok (.popc ⟨3, true, .i32⟩ (.age 1)) ∧
  decode false 0x35018C0800000000 = .ok (.clz ⟨3, true, .i32⟩ (.age 1)) ∧
  decode false 0x35418C0800000000 = .ok (.brev ⟨3, true, .i32⟩ (.age 1)) ∧
  decode false 0x35818C0F00013FFF = .ok (.icmp ⟨3, true, .i32⟩ .gt (.age 1) (.imm 0x3FFF)) ∧
  decode false 0x35C1840A2C200000 = .ok (.sel ⟨3, true, .raw⟩ (.age 1) (.frame 2) .one) ∧
  decode false 0x3601EC082C000000 = .ok (.lea 3 true (.age 1) (.age 2) .zero) :=
  ⟨rfl, rfl, rfl, rfl, rfl, rfl, rfl, rfl, rfl, rfl, rfl, rfl, rfl, rfl, rfl, rfl, rfl, rfl, rfl, rfl, rfl, rfl, rfl, rfl, rfl⟩

theorem test_decode_float :
  decode false 0x4001C40820098000 = .ok (.fadd ⟨3, true, .f64⟩ .rdn true true (.age 1) (.age 2)) ∧
  decode false 0x4041C40820098000 = .ok (.fsub ⟨3, true, .f64⟩ .rdn true true (.age 1) (.age 2)) ∧
  decode false 0x4081C40820098000 = .ok (.fmul ⟨3, true, .f64⟩ .rdn true true (.age 1) (.age 2)) ∧
  decode false 0x40C1C4082C2D4000 = .ok (.ffma ⟨3, true, .f64⟩ .rup true false true (.age 1) (.age 2) .one) ∧
  decode false 0x4101C40820008000 = .ok (.fmin ⟨3, true, .f64⟩ false true (.age 1) (.age 2)) ∧
  decode false 0x4141C40820008000 = .ok (.fmax ⟨3, true, .f64⟩ false true (.age 1) (.age 2)) ∧
  decode false 0x4181C40800000000 = .ok (.fabs ⟨3, true, .f64⟩ (.age 1)) ∧
  decode false 0x41C1C4082001C000 = .ok (.fcmp ⟨3, true, .f64⟩ .ord (.age 1) (.age 2)) ∧
  decode false 0x4201C40800000000 = .ok (.fclass ⟨3, true, .f64⟩ (.age 1)) ∧
  decode false 0x4241C40800050000 = .ok (.frnd ⟨3, true, .f64⟩ .rtz true (.age 1)) ∧
  decode false 0x4281C40820050000 = .ok (.fscale ⟨3, true, .f64⟩ .rtz true (.age 1) (.age 2)) ∧
  decode false 0x42DDC40820048000 = .ok (.fdiv 7 ⟨3, true, .f64⟩ .rtz false true (.age 1) (.age 2)) ∧
  decode false 0x431DC40800050000 = .ok (.fsqrt 7 ⟨3, true, .f64⟩ .rtz true (.age 1)) :=
  ⟨rfl, rfl, rfl, rfl, rfl, rfl, rfl, rfl, rfl, rfl, rfl, rfl, rfl⟩

theorem test_decode_convert :
  decode false 0x5001BC0800114000 = .ok (.cvt ⟨3, true, .f32⟩ .sr .f16 (.age 1)) ∧
  decode false 0x5041BC0820124000 = .ok (.cvtsr ⟨3, true, .f32⟩ .e4m3 (.age 1) (.age 2)) ∧
  decode false 0x50A5BC0800000000 = .ok (.frcp 9 ⟨3, true, .f32⟩ (.age 1)) ∧
  decode false 0x50E5BC0800000000 = .ok (.frsq 9 ⟨3, true, .f32⟩ (.age 1)) ∧
  decode false 0x5125BC0800000000 = .ok (.fexp2 9 ⟨3, true, .f32⟩ (.age 1)) ∧
  decode false 0x5165BC0800000000 = .ok (.flog2 9 ⟨3, true, .f32⟩ (.age 1)) ∧
  decode false 0x51A5BC0800000000 = .ok (.fsin 9 ⟨3, true, .f32⟩ (.age 1)) ∧
  decode false 0x51E5BC0800000000 = .ok (.fcos 9 ⟨3, true, .f32⟩ (.age 1)) ∧
  decode false 0x5225BC0800000000 = .ok (.ftanh 9 ⟨3, true, .f32⟩ (.age 1)) ∧
  decode false 0x524196F000000000 = .ok (.rng ⟨3, true, .n32⟩ 30) ∧
  decode false 0x5281800824600000 = .ok (.bsinit 3 (.age 1) (.age 2) 3) ∧
  decode false 0x52C1951820200000 = .ok (.bsrd 3 true 3 (.age 2) (.age 1)) :=
  ⟨rfl, rfl, rfl, rfl, rfl, rfl, rfl, rfl, rfl, rfl, rfl, rfl⟩

theorem test_decode_lanes :
  decode false 0x6015BC0E1000C000 = .ok (.shfl 5 ⟨3, true, .f32⟩ .xor (.age 1) .one) ∧
  decode false 0x6041F00840E00000 = .ok (.vote 3 .odd (.age 1) 7) ∧
  decode false 0x6095BC08000C0000 = .ok (.redux 5 ⟨3, true, .f32⟩ .add .rup (.age 1)) ∧
  decode false 0x60D5BC0800028000 = .ok (.scan 5 ⟨3, true, .f32⟩ true .max .rne (.age 1)) ∧
  decode false 0x6101D80820C00000 = .ok (.matchLanes 3 .q4n .lead (.age 1) 6) ∧
  decode false 0x6141800800C00000 = .ok (.mset 3 (.age 1) 6) ∧
  decode false 0x6180000820600000 = .ok (.mand 1 2 3) ∧
  decode false 0x61C0000820600000 = .ok (.mor 1 2 3) ∧
  decode false 0x6200000820600000 = .ok (.mxor 1 2 3) ∧
  decode false 0x6240000800600000 = .ok (.mnot 1 3) ∧
  decode false 0x6280000808800000 = .ok (.mpopc 1 4) ∧
  decode false 0x62C0000808800000 = .ok (.mfirst 1 4) ∧
  decode false 0x6300022000600000 = .ok (.mfroms 4 3) ∧
  decode false 0x6340000808800000 = .ok (.mtos 1 4) :=
  ⟨rfl, rfl, rfl, rfl, rfl, rfl, rfl, rfl, rfl, rfl, rfl, rfl, rfl, rfl⟩

theorem test_decode_memory :
  decode false 0x7015BC080040FFF8 = .ok (.ld ⟨5, 3, true, .f32, .age 1, 0xFFF8⟩ .nc) ∧
  decode false 0x7055BC080020FFF8 = .ok (.ld2 ⟨5, 3, true, .f32, .age 1, 0xFFF8⟩ .str) ∧
  decode false 0x7095B80A2040FFF8 = .ok (.st ⟨5, 3, false, .f32, .age 1, 0xFFF8⟩ (.frame 2) .nc) ∧
  decode false 0x70D5B80A2020FFF8 = .ok (.st2 ⟨5, 3, false, .f32, .age 1, 0xFFF8⟩ (.frame 2) .str) ∧
  decode false 0x7115BC080000FFF8 = .ok (.lds ⟨5, 3, true, .f32, .age 1, 0xFFF8⟩ .dflt) ∧
  decode false 0x7155B8082000FFF8 = .ok (.sts ⟨5, 3, false, .f32, .age 1, 0xFFF8⟩ (.age 2) .dflt) ∧
  decode false 0x7195BC08003FFFF8 = .ok (.ldb ⟨5, 3, true, .f32, .age 1, 0xFFF8⟩ 31 true) ∧
  decode false 0x71D5BC0804A0FFF8 = .ok (.lda ⟨5, 3, true, .f32, .age 1, 0xFFF8⟩ .gg .str) ∧
  decode false 0x7215B8082940FFF8 = .ok (.stl ⟨5, 3, false, .f32, .age 1, 0xFFF8⟩ (.age 2) .pkg .nc) ∧
  decode false 0x725580080040FFF8 = .ok (.pref ⟨5, 3, false, .raw, .age 1, 0xFFF8⟩ .nc) ∧
  decode false 0x729580080002FFF8 = .ok (.cctl ⟨5, 3, false, .raw, .age 1, 0xFFF8⟩ .clean) :=
  ⟨rfl, rfl, rfl, rfl, rfl, rfl, rfl, rfl, rfl, rfl, rfl⟩

theorem test_decode_atomic :
  decode false 0x80159C082786FFF8 = .ok (.atom ⟨5, 3, true, .i64, .age 1, 0xFFF8⟩ (.age 2) .die .acqrel .exch) ∧
  decode false 0x80559C082884FFF8 = .ok (.atomc ⟨5, 3, true, .i64, .age 1, 0xFFF8⟩ (.age 2) .pkg .acq 4) ∧
  decode false 0x8095BC082B02FFF8 = .ok (.atomf ⟨5, 3, true, .f32, .age 1, 0xFFF8⟩ (.age 2) .sys .rel .max) ∧
  decode false 0x80D590082505FFF8 = .ok (.red ⟨5, 3, false, .n32, .age 1, 0xFFF8⟩ (.age 2) .gg .rel .xor) ∧
  decode false 0x81159C082284FFF8 = .ok (.atoms ⟨5, 3, true, .i64, .age 1, 0xFFF8⟩ (.age 2) .bk .acq .or) ∧
  decode false 0x81559C082587FFF8 = .ok (.atomsc ⟨5, 3, true, .i64, .age 1, 0xFFF8⟩ (.age 2) .gg .acqrel 7) ∧
  decode false 0x819594080800FFF8 = .ok (.radv ⟨5, 3, true, .n32, .age 1, 0xFFF8⟩ .pkg) ∧
  decode false 0x81D594080000FFF8 = .ok (.rdround ⟨5, 3, true, .n32, .age 1, 0xFFF8⟩) :=
  ⟨rfl, rfl, rfl, rfl, rfl, rfl, rfl, rfl⟩

theorem test_decode_sync :
  decode false 0x9001800009800000 = .ok (.fence .full .pkg 3) ∧
  decode false 0x9040002230008000 = .ok (.barinit 19 1 2) ∧
  decode false 0x90800000300000FF = .ok (.bararv 3 0xFF) ∧
  decode false 0x90C000C010008000 = .ok (.barwt 17 6) ∧
  decode false 0x9100000620000000 = .ok (.barexp 2 6) ∧
  decode false 0x9141C80800E00000 = .ok (.fqput 3 .e4m3 (.age 1) 7) ∧
  decode false 0x9181CC0000E00000 = .ok (.fqget ⟨3, true, .e4m3⟩ 7) ∧
  decode false 0x91C00000000003FE = .ok (.bankcfg 0xFE .fifo) :=
  ⟨rfl, rfl, rfl, rfl, rfl, rfl, rfl, rfl⟩

theorem test_decode_sluice :
  decode false 0xA010010A23100000 = .ok (.scopy ⟨4, 8, 10, some 2, some 3, 0⟩ .global .scratch) ∧
  decode false 0xA040010A20348028 = .ok (.scopy2 ⟨0, 8, 10, some 18, none, 5⟩ .global .remote) ∧
  decode false 0xA080010A03181F80 = .ok (.stcopy ⟨0, 8, 10, none, some 3, 0⟩ false .scratch 63) ∧
  decode false 0xA080010A23403F80 = .ok (.stcopy ⟨0, 8, 10, some 2, some 3, 0⟩ true .scratch 63) ∧
  decode false 0xA0C0010A23134000 = .ok (.sgath ⟨0, 8, 10, some 2, some 3, 0⟩ .global .scratch 3 true) ∧
  decode false 0xA100010A23420000 = .ok (.sscat ⟨0, 8, 10, some 2, some 3, 0⟩ .scratch .global 2 false) ∧
  decode false 0xA140010A23210000 = .ok (.sfill ⟨0, 8, 10, some 2, some 3, 0⟩ .bplane 1) ∧
  decode false 0xA18000800F000000 = .ok (.swait 15 4) ∧
  decode false 0xA1C0008500000000 = .ok (.squery 5 4) ∧
  decode false 0xA20000800000027F = .ok (.tdset 63 9 4) ∧
  decode false 0xA24000050000023E = .ok (.tdget 5 62 8) ∧
  decode false 0xA28000000000003D = .ok (.tdinv 61) :=
  ⟨rfl, rfl, rfl, rfl, rfl, rfl, rfl, rfl, rfl, rfl, rfl, rfl⟩

theorem test_decode_system :
  decode false 0xD00180080000FFF8 = .ok (.invpg 3 (.age 1) 0xFFF8) ∧
  decode false 0xD041800000000000 = .ok (.invall 3) ∧
  decode false 0xD08000200400FC00 = .ok (.pmrd 1 (.imm 63)) ∧
  decode false 0xD080002200000000 = .ok (.pmrd 1 (.reg 2)) ∧
  decode false 0xD0C000020400FC00 = .ok (.pmcfg 2 63) ∧
  decode false 0xD100000206FBBC00 = .ok (.trace 2 0xBEEF) :=
  ⟨rfl, rfl, rfl, rfl, rfl, rfl⟩

theorem test_decode_matrix :
  decode true 0xB00001C085B96000 = .ok (.mma ⟨0x0E, 1, 2, 3, true, 0xC, 0xB⟩) ∧
  decode true 0xB04003A085996000 = .ok (.mmaq ⟨0x1D, 1, 2, 3, false, 0xC, 0xB⟩) ∧
  decode true 0xB080000001800000 = .ok (.accz 3) ∧
  decode true 0xB0C00384810A0006 = .ok (.accld ⟨0x1C, 9, 2, 5, 1, 2⟩) ∧
  decode true 0xB1000384810E0016 = .ok (.accst ⟨0x1C, 9, 2, 7, 1, 2⟩ true) ∧
  decode true 0xB140038481180019 = .ok (.qstore ⟨0x1C, 9, 2, 0xC, 2, 1⟩ true) ∧
  decode true 0xB180038001000006 = .ok (.mdrain 0x1C 2 1 2) ∧
  decode true 0xB1C0026000000000 = .ok (.mbararv 19) ∧
  decode true 0xB200004000000000 = .ok (.mbarwt 2) ∧
  decode true 0xB24003FFC0FFFFFE = .ok (.mloop 0xFFF 0xFFFFFE) ∧
  decode true 0xB2800000007FFFFF = .ok (.mjmp 0x7FFFFF) ∧
  decode true 0xB2C0000000000000 = .ok .mend ∧
  decode false 0xB315880000000000 = .ok (.apop 5 3 .i32) :=
  ⟨rfl, rfl, rfl, rfl, rfl, rfl, rfl, rfl, rfl, rfl, rfl, rfl, rfl⟩

theorem test_decode_predicate :
  decode false 0xC019BC0C50010000 = .ok (.ori2 ⟨6, 3, true, .f32, false, true, .age 1, .scalar 5⟩) ∧
  decode false 0xC059C40C50020000 = .ok (.ori3 ⟨6, 3, true, .f64, true, false, .age 1, .scalar 5⟩) ∧
  decode false 0xC099BC0C50010000 = .ok (.incir ⟨6, 3, true, .f32, false, true, .age 1, .scalar 5⟩) ∧
  decode false 0xC0D9C40C50020000 = .ok (.insph ⟨6, 3, true, .f64, true, false, .age 1, .scalar 5⟩) ∧
  decode false 0xC119BC0C50010000 = .ok (.segx ⟨6, 3, true, .f32, false, true, .age 1, .scalar 5⟩) ∧
  decode false 0xC141800000000000 = .ok (.gpclr 3) :=
  ⟨rfl, rfl, rfl, rfl, rfl, rfl⟩

/-! ## Witnesses: a state and operands that meet the hypotheses of each obligation -/

/-- The slot waits for nothing: its turn begins in s itself and it has no pending entry. -/
def ready (s : State) : Prop := InTurn s s ∧ drain s = .ok s

def withHandler : State := ofSlot fun x => { x with handler := some { queues := [], cnt := 7, cause := 0x3C0, aux := 9, pc := 0x2040 } }
/-- As base with a pending entry at age 1 of every lane. -/
def withPending : State := ofW fun w => { w with
  lanes := List.replicate 32 { queue := [{ val := 0, tag := .raw, pend := some (0, 0) }], frame := [], rngctr := 0 }
  pend := [{ PendRes.of [] .other with mask := BitVec.allOnes 32 }], ridNext := 1 }

theorem witness_NopOnlyAdvances : InTurn base base ∧ (fld (1 : Word) 54 10 : BitVec 10) = 0 ∧ (1 : Word) ≠ 0 := ⟨rfl, by decide⟩

/-- The first and the last word of the code and the words beside them; LOOP's counter at 1 and at 0. -/
theorem witness_BranchesMoveTheSlot : InTurn base base ∧
    (∀ off : BitVec 24, off = 0 ∨ off = 4095 → inCode base.b.kernel ((cur base).pc + 8 * off.signExtend 64) = true) ∧
    (∀ off : BitVec 24, off = -1 ∨ off = 4096 → inCode base.b.kernel ((cur base).pc + 8 * off.signExtend 64) = false) ∧
    condHolds base.w .al = true ∧ condHolds base.w .eq = false ∧ active base 0 ≠ 0 ∧ active base 1 = 0 ∧ scal base 0 - 1 ≠ 0 ∧
    scal (ofW fun w => { w with scalars := [1] }) 0 - 1 = 0 := by
  refine ⟨rfl, ?_, ?_, by decide +kernel⟩ <;> (rintro _ (rfl | rfl) <;> decide +kernel)

def withRecipe : State := ofB fun b => { b with kernel := { b.kernel with recipes := [(0, 1)] } }
def twoSlots : State := ofW fun w => { w with
  slotA := { w.slotA with mask := 0xFFFF }, slotB := { w.slotA with pc := 0x2010, mask := 0xFFFF0000 } }

theorem witness_StakeYieldTileSetmode : ready base ∧ ready withRecipe ∧ ready twoSlots ∧
    base.b.kernel.recipes.length ≤ (0 : BitVec 12).toNat ∧ (0 : BitVec 12).toNat < withRecipe.b.kernel.recipes.length ∧
    (slotOf withRecipe.w (otherSlot withRecipe.slot)).mask = 0 ∧ (slotOf twoSlots.w (otherSlot twoSlots.slot)).mask ≠ 0 ∧
    (1 : BitVec 10) ≠ 0 ∧ (fld ((fld base.w.mode 0 8 &&& ~~~(3 : BitVec 8)) ||| (2 &&& 3)) 0 2 : BitVec 2) ≠ 3 ∧
    (fld ((fld (0x001 : BitVec 9) 0 8 &&& ~~~(2 : BitVec 8)) ||| (2 &&& 2)) 0 2 : BitVec 2) = 3 :=
  ⟨⟨rfl, rfl⟩, ⟨rfl, rfl⟩, ⟨rfl, rfl⟩, by decide +kernel⟩

theorem witness_HandlersAreEnteredAndLeft : ready base ∧ debugGranted base = true ∧
    debugGranted { base with vfs := base.vfs.map fun v => { v with policy := { v.policy with debug := false } } } = false ∧
    (cur base).handler = none ∧ ready withHandler ∧ (cur withHandler).handler.isSome = true :=
  ⟨⟨rfl, rfl⟩, by decide +kernel, by decide +kernel, rfl, ⟨rfl, rfl⟩, rfl⟩

theorem witness_TrapsAreTaken : pendingIn base (members base) = false ∧ pendingIn withPending (members withPending) = true ∧
    isNotPresent 0x180 = true ∧ isNotPresent 0x181 = false ∧ isNotPresent 0x040 = false ∧
    ((getVf { base with vfs := base.vfs.map fun v => { v with trn := { v.trn with fqEnable := true } } } base.b.vf).map
      fun v => v.trn.fqEnable) = some true ∧
    (cur rich).handler = none ∧ rich.w.recipe = none ∧ rich.b.kernel.handler = some 64 ∧ (cur withHandler).handler.isSome = true ∧
    (cur base).handler = none ∧ base.b.kernel.handler = none ∧ (some (⟨0, 0⟩ : RecipeRun)).isSome = true := by
  decide +kernel

/-- No lane taken, every lane, lane 0 alone; the target at the last word of the code and beyond it; two records, and room for none. -/
theorem witness_BrdSplitsTheSlot : InTurn rich rich ∧ InTurn twoSlots twoSlots ∧
    active rich 1 = 0 ∧ active rich 0 ≠ 0 ∧ members rich &&& ~~~active rich 0 = 0 ∧ active rich 2 ≠ 0 ∧ members rich &&& ~~~active rich 2 ≠ 0 ∧
    inCode rich.b.kernel ((cur rich).pc + 8 * (4095 : BitVec 24).signExtend 64) = true ∧
    inCode rich.b.kernel ((cur rich).pc + 8 * (4096 : BitVec 24).signExtend 64) = false ∧
    (slotOf rich.w .b).mask = 0 ∧ (slotOf twoSlots.w .b).mask ≠ 0 ∧ rich.w.div.length < rich.b.kernel.ndiv ∧
    ({ rich.b.kernel with ndiv := 0 } : Kernel).ndiv ≤ rich.w.div.length ∧
    (pushDiv rich { pc := 0, jid := 0, st := .both, tslot := .b, ptaken := false, mask := 0, base := 0, count := 0, owner := .a, windows := [] }).isOk = true :=
  ⟨rfl, rfl, by decide +kernel⟩

/-- A state whose slot A meets JOIN 3 with the record given. -/
def atJoin (st : DivState) (count : BitVec 16) : State := ofW fun w => { w with
  slotA := { w.slotA with mask := 0xFFFF, cnt := 5 }
  div := [{ pc := 0x2040, jid := 3, st := st, tslot := .b, ptaken := true, mask := 0xFFFF0000, base := 3, count := count, owner := .a, windows := [] }] }
def otherAtJoin : State := { atJoin .both 0 with w := { (atJoin .both 0).w with
  slotB := { (atJoin .both 0).w.slotA with mask := 0xFFFF0000, st := .joinwait 3 2 0 } } }

theorem witness_JoinMergesThePaths : ready (atJoin .parked 0) ∧ ready (atJoin .arrived 2) ∧ ready (atJoin .arrived 1) ∧ ready (atJoin .both 0) ∧
    ready (atJoin .exited 0) ∧ ready otherAtJoin ∧
    findJoin base 3 = none ∧ (findJoin (atJoin .parked 0) 3).isSome = true ∧
    ((findJoin (atJoin .arrived 2) 3).map fun x => (x.2.st, x.2.count, (cur (atJoin .arrived 2)).cnt - x.2.base)) = some (.arrived, 2, 2) ∧
    ((findJoin (atJoin .arrived 1) 3).map fun x => (x.2.st, x.2.count)) = some (.arrived, 1) ∧
    ((findJoin (atJoin .both 0) 3).map fun x => x.2.st) = some .both ∧ (slotOf (atJoin .both 0).w .b).st = .free ∧
    ((findJoin otherAtJoin 3).map fun x => (slotOf otherAtJoin.w .b).cnt - x.2.base) = some 2 ∧
    (slotOf otherAtJoin.w .b).st = .joinwait 3 2 0 ∧ ((findJoin (atJoin .exited 0) 3).map fun x => x.2.st) = some .exited :=
  ⟨⟨rfl, rfl⟩, ⟨rfl, rfl⟩, ⟨rfl, rfl⟩, ⟨rfl, rfl⟩, ⟨rfl, rfl⟩, ⟨rfl, rfl⟩, by decide +kernel⟩

def inCall (base' : Nat) : State := { rich with w := { rich.w with acts := [{
  rpc := 0x2008, nres := 1, callerF := 4, mask := BitVec.allOnes 32, cnt := 2, dbase := 0, base := base', queues := [], frames := [], spilled := false }] } }
def inCallOpen : State := { inCall 0 with w := { (inCall 0).w with div := (atJoin .parked 0).w.div } }

/-- nargs at the depth and one above it; a call stack of no bytes; a target scalar off by one byte; a return, one with a record still
open, and one with no call. -/
theorem witness_CallsAndReturns : ready rich ∧ pendingIn rich (members rich) = false ∧
    inCode rich.b.kernel ((cur rich).pc + 8 * (2 : BitVec 24).signExtend 64) = true ∧
    inCode rich.b.kernel ((cur rich).pc + 8 * (-1 : BitVec 24).signExtend 64) = false ∧
    (8 : BitVec 5).toNat ≤ rich.w.depth ∧ rich.w.depth < (9 : BitVec 5).toNat ∧
    actsBytes rich.w.depth rich.w.acts + actBytes rich.w.depth (frameSize rich) ≤ rich.b.kernel.callstk ∧
    base.b.kernel.callstk < actsBytes base.w.depth base.w.acts + actBytes base.w.depth (frameSize base) ∧ ready base ∧
    (spillOldest (rich.w.acts.length + 1) (withCall rich 0)).isOk = true ∧ (fld (1 : Word) 0 3 : BitVec 3) ≠ 0 ∧
    (fld (scal rich 0) 0 3 : BitVec 3) = 0 ∧
    (rich.w.acts.zipIdx.find? fun p => p.1.mask &&& members rich != 0) = none ∧ ready (inCall 0) ∧ ready inCallOpen ∧
    (((inCall 0).w.acts.zipIdx.find? fun p => p.1.mask &&& members (inCall 0) != 0).map (·.2)) = some 0 ∧
    (inCall 0).w.div.take ((inCall 0).w.div.length - 0) = [] ∧ inCallOpen.w.div.take (inCallOpen.w.div.length - 0) ≠ [] :=
  ⟨⟨rfl, rfl⟩, by decide +kernel, by decide +kernel, by decide +kernel, by decide, by decide, by decide +kernel, by decide +kernel, ⟨rfl, rfl⟩,
    by decide +kernel, by decide, by decide, by decide +kernel, ⟨rfl, rfl⟩, ⟨rfl, rfl⟩, by decide +kernel, by decide, by decide⟩

theorem witness_ExitRemovesTheLanes : ready base ∧ recordOf base.slot base.w.div = none ∧ (slotOf base.w (otherSlot base.slot)).mask = 0 ∧
    (base.w.div.all fun r => r.st == .both || r.st == .exited) = true ∧ ready twoSlots ∧ recordOf twoSlots.slot twoSlots.w.div = none ∧
    (slotOf twoSlots.w (otherSlot twoSlots.slot)).mask ≠ 0 ∧ ready (atJoin .parked 0) ∧ ready (atJoin .arrived 2) ∧
    ((recordOf .a (atJoin .parked 0).w.div).map fun x => (x.2.st, x.2.mask)) = some (.parked, 0xFFFF0000) ∧
    ((recordOf .a (atJoin .arrived 2).w.div).map fun x => (x.2.st, x.2.mask)) = some (.arrived, 0xFFFF0000) :=
  ⟨⟨rfl, rfl⟩, by decide +kernel, by decide, by decide, ⟨rfl, rfl⟩, by decide +kernel, by decide, ⟨rfl, rfl⟩, ⟨rfl, rfl⟩, by decide +kernel,
    by decide +kernel⟩

theorem witness_PushAgesTheQueue : base.w.depth ≤ (8 : BitVec 5).toNat ∧ (7 : BitVec 5).toNat < base.w.depth ∧
    (lane base 31).queue.length = base.w.depth := by decide +kernel

def withMode (m : BitVec 9) : State := { rich with w := { rich.w with mode := m } }
def withWindow : State := { rich with w := { rich.w with slotA := { rich.w.slotA with windows := [{ rid := 0, age := 1, width := 1, left := 1 }] } } }

theorem witness_OperandsAreChecked : (frameSize rich ≤ (4 : BitVec 5).toNat ∧ (3 : BitVec 5).toNat < frameSize rich) ∧
    (withWindow.w.slotA.windows.any fun w => decide (w.age ≤ (0 : BitVec 5).toNat + 1 ∧ (0 : BitVec 5).toNat + 1 < w.age + w.width)) = true ∧
    (withWindow.w.slotA.windows.all fun w => !decide (w.age ≤ (1 : BitVec 5).toNat + 1 ∧ (1 : BitVec 5).toNat + 1 < w.age + w.width)) = true ∧
    ((lane withPending 0).queue.getD 0 .poison).pend ≠ none ∧ srcRange rich (.age 7) = .ok () ∧ srcPending rich (.age 7) = false ∧
    srcValue rich 0 .n32 (.age 7) = (3, .n32) ∧ (srcValue base 0 .n32 (.age 0)).2 = .poison ∧ isNumeric .n32 = true ∧ isNumeric .addr = false ∧
    ((fld (withMode 0).w.mode 0 2 : BitVec 2).toNat = 0) ∧ ((fld (withMode 1).w.mode 0 2 : BitVec 2).toNat = 1) ∧
    2 ≤ (fld (withMode 2).w.mode 0 2 : BitVec 2).toNat :=
  ⟨by decide +kernel, by decide +kernel, by decide +kernel, by decide +kernel, rfl, by decide +kernel, by decide +kernel, by decide +kernel, by decide⟩

theorem witness_QueueMovesAndPermutes : InTurn rich rich ∧ (∃ x, readB rich (active rich 0) (.age 0) .raw .raw true = .ok x) ∧
    (∃ x, readA rich (.age 7) .raw .raw true = .ok x) ∧ (∃ x, readA rich (.age 0) .raw .f32 true = .ok x) ∧
    frameSize rich ≤ (4 : BitVec 5).toNat ∧ (3 : BitVec 5).toNat < frameSize rich ∧ 8 ≤ rich.w.depth ∧ (cur rich).windows = [] ∧
    (rich.w.lanes.all fun l => (l.queue.take 8).all fun e => e.pend.isNone) = true :=
  ⟨rfl, isOk_some (by decide +kernel), isOk_some (by decide +kernel), isOk_some (by decide +kernel), by decide +kernel⟩

/-- LANE2S of lane 0, a member, and of lane 3 where only half of the lanes are members; every register class of RDSR and WRSR. -/
theorem witness_SpecialRegistersAndLane2s : InTurn rich rich ∧ InTurn twoSlots twoSlots ∧
    (∃ x, readB rich (active rich 0) (.age 0) .raw .raw true = .ok x) ∧ (∃ y, readB rich (active rich 0) (.age 0) .n32 .raw = .ok y ∧ inMask (members rich)
      ((at_ y (lowLane (active rich 0))).1.toNat % 32) = true) ∧ (∃ z, readB rich (BitVec.ofNat 32 (2 ^ 3)) (.age 0) .raw .raw true = .ok z) ∧
    active rich 0 ≠ 0 ∧ active rich 1 = 0 ∧ inMask (members twoSlots) (31 % 32) = false ∧
    (∃ x, readB twoSlots (active twoSlots 0) .zero .raw .raw true = .ok x) ∧ (∃ y, readB twoSlots (active twoSlots 0) .tileId .n32 .raw = .ok y) ∧
    changesLater rich .mode = false ∧ changesLater { withPending with w := { withPending.w with pend := [{ PendRes.of [] .theodolite with mask := 1 }] } } .gpstat = true ∧ (∃ x, readB rich (active rich 0) .zero .n64 .raw = .ok x) ∧
    (fld (2 : Word) 0 2 : BitVec 2) ≠ 3 ∧ (fld (0x1FF : Word) 9 55 : BitVec 55) = 0 ∧ (fld (0x200 : Word) 9 55 : BitVec 55) ≠ 0 :=
  ⟨rfl, rfl, isOk_some (by decide +kernel), ⟨_, rfl, by decide +kernel⟩, isOk_some (by decide +kernel), by decide +kernel, by decide +kernel,
    by decide +kernel, isOk_some (by decide +kernel), isOk_some (by decide +kernel), by decide +kernel, by decide +kernel,
    isOk_some (by decide +kernel), by decide⟩

theorem witness_ScalarArithmetic : InTurn base base ∧ tyScalar .i32 = true ∧ tyScalar .n64 = true ∧ tyScalar .raw = true := ⟨rfl, by decide⟩

theorem witness_ScalarLogicShiftsAndMoves : InTurn base base ∧ tyScalar .n32 = true ∧ tyScalar .i64 = true ∧ tyScalar .raw = true :=
  ⟨rfl, by decide⟩

/-- An operand that reads: the constant 0 carries every expected tag. -/
def reads (s : State) (exp ty : Ty) : Prop := (∃ x, readA s .zero exp ty = .ok x) ∧ ∃ y, readB s (active s 0) .one exp ty = .ok y

theorem witness_VectorIntegerArithmetic : InTurn rich rich ∧ tyScalar .i32 = true ∧ isInt .i32 = true ∧ reads rich .i32 .i32 ∧
    tyScalar .raw = true ∧ isInt .raw = false ∧ reads rich .raw .raw ∧ (∃ x, readA rich (.age 0) .n32 .n32 = .ok x) ∧
    ∃ y, readB rich (active rich 2) (.frame 3) .n32 .n32 = .ok y :=
  ⟨rfl, by decide, by decide, ⟨isOk_some (by decide +kernel), isOk_some (by decide +kernel)⟩, by decide, by decide,
    ⟨isOk_some (by decide +kernel), isOk_some (by decide +kernel)⟩, isOk_some (by decide +kernel), isOk_some (by decide +kernel)⟩

theorem witness_VectorShiftsFieldsAndCompares : InTurn base base ∧ tyScalar .n32 = true ∧ reads base .n32 .n32 ∧ reads base .n32 .i64 ∧
    reads base .bool .n32 ∧ (∃ x, readA base .zero .raw .raw true = .ok x) ∧ reads base .addr .addr ∧ reads base .i64 .addr ∧ reads base .n32 .addr :=
  ⟨rfl, by decide, ⟨isOk_some (by decide +kernel), isOk_some (by decide +kernel)⟩, ⟨isOk_some (by decide +kernel), isOk_some (by decide +kernel)⟩,
    ⟨isOk_some (by decide +kernel), isOk_some (by decide +kernel)⟩, isOk_some (by decide +kernel),
    ⟨isOk_some (by decide +kernel), isOk_some (by decide +kernel)⟩, ⟨isOk_some (by decide +kernel), isOk_some (by decide +kernel)⟩,
    isOk_some (by decide +kernel), isOk_some (by decide +kernel)⟩

/-- Operands 0 and 1 with no exception, and an exception with its bit enabled. -/
theorem witness_FloatArithmeticAndCompares : InTurn base base ∧ reads base .f32 .f32 ∧ reads base .i32 .f32 ∧
    fpTrap base (active base 0) (lanes32.map fun _ => 0) = none ∧
    (fpTrap { base with w := { base.w with mode := 0x008 } } (active base 0) (lanes32.map fun _ => fIV)).isSome = true :=
  ⟨rfl, ⟨isOk_some (by decide +kernel), isOk_some (by decide +kernel)⟩, ⟨isOk_some (by decide +kernel), isOk_some (by decide +kernel)⟩,
    by decide +kernel, by decide +kernel⟩

theorem witness_ListedFloatValues : (1 : Nat) ≠ 0 ∧ (∀ s f, FVal.fin false 1 0 ≠ .nan s false f) ∧ (∀ s f, FVal.nan true true 1 ≠ .nan s false f) ∧
    isFloat .f16 = true ∧ isFloat .f64 = true ∧ tySpecial .f16 = true ∧ tySpecial .bf16 = true ∧ tySpecial .f32 = true ∧ tySpecial .f64 = false := by
  refine ⟨by decide, fun s f => ?_, fun s f => ?_, by decide⟩ <;> (intro h; cases h)

theorem witness_LongFloatsAndConversions : InTurn base base ∧ reads base .f32 .f32 ∧ reads base .n32 .f32 ∧ Rm.rne ≠ .sr ∧
    fpTrap base (active base 0) (lanes32.map fun _ => 0) = none :=
  ⟨rfl, ⟨isOk_some (by decide +kernel), isOk_some (by decide +kernel)⟩, ⟨isOk_some (by decide +kernel), isOk_some (by decide +kernel)⟩, by decide,
    by decide +kernel⟩

/-- A frame of four slots: f2 and f3 are the last pair that BSINIT may name, f3 and f4 no pair. -/
theorem witness_RandomAndBitStreams : InTurn rich rich ∧ reads rich .raw .raw ∧ reads rich .n32 .raw ∧ frameSize rich ≤ (3 : BitVec 5).toNat + 1 ∧
    (2 : BitVec 5).toNat + 1 < frameSize rich ∧
    (∃ win, readA { rich with w := { rich.w with lanes := rich.w.lanes.map fun x => { x with
      frame := setAt x.frame 2 (valued (5, .raw)) } } } (.frame 2) .raw .n32 = .ok win) ∧
    (∃ u, readB rich (active rich 0) (.frame 3) .n32 .n32 = .ok u ∧ (lanes32.all fun l => decide ((at_ u l).1.toNat % 2 ^ 32 ≤ 64)) = true) ∧
    (∃ y, readB rich (active rich 0) (.age 0) .n32 .n32 = .ok y) ∧ ∃ z, readB rich (active rich 0) .one .raw .n32 = .ok z :=
  ⟨rfl, ⟨isOk_some (by decide +kernel), isOk_some (by decide +kernel)⟩, ⟨isOk_some (by decide +kernel), isOk_some (by decide +kernel)⟩,
    by decide +kernel, by decide +kernel, isOk_some (by decide +kernel), ⟨_, rfl, by decide +kernel⟩, isOk_some (by decide +kernel),
    isOk_some (by decide +kernel)⟩

theorem witness_LaneExchangePends : InTurn rich rich ∧ reads rich .f32 .f32 ∧ reads rich .n32 .f32 ∧ (∃ x, readA rich .zero .raw .raw true = .ok x) ∧
    reads rich .i32 .i32 :=
  ⟨rfl, ⟨isOk_some (by decide +kernel), isOk_some (by decide +kernel)⟩, ⟨isOk_some (by decide +kernel), isOk_some (by decide +kernel)⟩,
    isOk_some (by decide +kernel), isOk_some (by decide +kernel), isOk_some (by decide +kernel)⟩

theorem witness_MaskInstructions : InTurn rich rich ∧ (1 : BitVec 3) ≠ 0 ∧ (7 : BitVec 3).toNat < rich.w.masks.length ∧ active rich 1 = 0 ∧
    active rich 2 ≠ 0 ∧ (∃ x, readB rich (active rich 2) .one .bool .bool = .ok x) ∧ (∃ x, readB rich (active rich 2) (.age 0) .n32 .n32 = .ok x) ∧
    ∃ x, readB rich (active rich 2) (.age 0) .raw .raw true = .ok x :=
  ⟨rfl, by decide, by decide, by decide +kernel, by decide +kernel, isOk_some (by decide +kernel), isOk_some (by decide +kernel),
    isOk_some (by decide +kernel)⟩

/-! Memory. In `held` die 0 holds line 0 modified and owns its page; `rounds` has page 0 rounded. -/

def heldLine : L2Line := { line := 0, bytes := List.replicate 128 7, modified := true, f := 0, pending := false }
def heldEntry : DirEntry := { newDir 0 false false with own := 0xFFFF :: List.replicate 7 0, sharers := 1 }
def held : State := { base with dies := { Die.reset with l2 := [heldLine] } :: List.replicate 9 .reset, dirs := [heldEntry] }
def rounds : State := { base with dirs := [newDir 0 true false] }

theorem held_l2 (d : Nat) : (getDie held d).l2 = if d = 0 then [heldLine] else [] := by
  cases d with
  | zero => rfl
  | succ n =>
    show ((List.replicate 9 Die.reset).getD n .reset).l2 = _
    simp only [List.getD_eq_getElem?_getD, List.getElem?_replicate]
    split <;> rfl

theorem held_owns (d sub : Nat) (h : owns heldEntry d sub = true) : d = 0 := by
  cases d with
  | zero => rfl
  | succ n =>
    have : ownMask heldEntry (n + 1) = 0 := by
      show ((List.replicate 7 (0 : BitVec 16)).getD n 0) = 0
      simp only [List.getD_eq_getElem?_getD, List.getElem?_replicate]
      split <;> rfl
    simp [owns, this] at h

theorem held_linesOk : LinesOk held where
  memory := by show Memory.wf held.mem = true; decide +kernel
  unique d l l' h h' _ := by
    rw [held_l2] at h h'
    split at h <;> simp_all
  length d l h := by
    rw [held_l2] at h
    split at h <;> simp_all [heldLine]
  owned d l _ h hm := by
    rw [held_l2] at h
    split at h
    · next h0 => subst h0; simp at h; subst h; exact ⟨heldEntry, by decide +kernel, by decide +kernel⟩
    · simp at h
  rounded e h hr := by
    have : e = heldEntry := by simpa [held] using h
    subst this; exact absurd hr (by decide)
  exclusive e d d' sub h hd hd' := by
    have : e = heldEntry := by simpa [held] using h
    subst this; rw [held_owns d sub hd, held_owns d' sub hd']
  ownLength e h := by
    have : e = heldEntry := by simpa [held] using h
    subst this; rfl

theorem held_current (k : Nat) (h : lineOf k = 0) : HoldsCurrent held 0 k := by
  intro l hl i hi
  rw [h] at hl ⊢
  have : l = heldLine := by
    have e : findL2 held 0 0 = some heldLine := by decide +kernel
    rw [e] at hl; exact (Option.some.inj hl).symm
  subst this
  have : ∀ i : Fin 128, heldLine.bytes.getD i.val 0 = coherentByte held (0 * 128 + i.val) := by decide +kernel
  exact this ⟨i, hi⟩

/-- Addresses of all lanes 0, which is mapped and writable; an offset of 1 misaligns them. -/
def addrs (s : State) (ty : Ty) (n kind : Nat) : Prop := ∃ a xs, readA s .zero .addr ty = .ok a ∧ readB s (active s 0) .zero .addr ty = .ok a ∧
  checkLanes s (active s 0) a 0 n kind false = .ok xs ∧ xs.length = 32 ∧ ∃ c x, checkLanes s (active s 0) a 1 n kind false = .error (.trap c x)

theorem addrs_of {s : State} {ty : Ty} {n kind : Nat} (h : (match readA s .zero .addr ty, readB s (active s 0) .zero .addr ty with
    | .ok a, .ok b => decide (a = b) && (match checkLanes s (active s 0) a 0 n kind false with | .ok xs => xs.length == 32 | .error _ => false) &&
        trapped (checkLanes s (active s 0) a 1 n kind false)
    | _, _ => false) = true) : addrs s ty n kind := by
  split at h
  · next a b ha hb =>
    simp only [Bool.and_eq_true, decide_eq_true_eq] at h
    obtain ⟨⟨rfl, h2⟩, h3⟩ := h
    split at h2
    · next xs hx => exact ⟨a, xs, ha, hb, hx, by simpa using h2, trapped_some h3⟩
    · cases h2
  · cases h

theorem witness_LoadsPendTheirValues : InTurn base base ∧ addrs base .f32 4 0 ∧ addrs base .i64 16 0 ∧ active base 1 = 0 ∧
    invalidates base .pkg = true ∧ invalidates base .wp = false :=
  ⟨rfl, addrs_of (by decide +kernel), addrs_of (by decide +kernel), by decide +kernel⟩

/-- The last address of the package and the first of the host's; a line of the block's L1; a line that the die holds modified. -/
theorem witness_LoadsReadCoherentMemory : isHost (2 ^ 64) = true ∧ isHost (2 ^ 64 - 1) = false ∧ roundedPage base 0 (rndAttr 0) = false ∧
    (findL1 { base.b with l1 := [{ line := 0, bytes := [] }] } ((0 : Word).toNat / 128)).isSome = true ∧ LinesOk held ∧ held.b.die < 8 ∧
    held.b.die < held.dies.length ∧ roundedPage held 124 (rndAttr 0) = false ∧ findL1 held.b ((124 : Word).toNat / 128) = none ∧
    HoldsCurrent held held.b.die 124 ∧ 124 % 128 + 4 ≤ 128 ∧ Ty.f32 ≠ .sign ∧ Ty.f32 ≠ .bool :=
  ⟨by decide, by decide, by decide +kernel, by decide +kernel, held_linesOk, by decide, by decide, by decide +kernel, by decide +kernel,
    held_current 124 (by decide), by decide⟩

theorem witness_StoresGoInFlight : InTurn base base ∧ addrs base .f32 4 1 ∧ addrs base .f32 8 1 ∧
    (∃ v, readB base (active base 0) (.scalar 1) (dataTag .f32) .f32 = .ok v) ∧ (∃ u, readB base (active base 0) (nextSrc (.scalar 1)) (dataTag .f32) .f32 = .ok u) ∧
    active base 1 = 0 ∧ ∃ x, checkGlobal base (lowLane (members base)) (addOff (scal base 0) 0) 4 1 true = .ok x :=
  ⟨rfl, addrs_of (by decide +kernel), addrs_of (by decide +kernel), isOk_some (by decide +kernel), isOk_some (by decide +kernel), by decide +kernel,
    isOk_some (by decide +kernel)⟩

/-- A store in flight of a lane's bytes from die 0; it with an older one of another lane to its line. -/
def storeAt (id' lane' k : Nat) (bytes : List Byte) : Access :=
  { id := id', warp := 2, vf := 1, die := 0, sync := false, cell := ⟨lane', BitVec.ofNat 64 k, k, 0, bytes⟩ }
def storing (s : State) (xs : List Access) : State := { s with inflight := xs }
def twoStores : State := storing held [storeAt 8 1 0 [2, 3], storeAt 9 0 127 [1]]

theorem released_of {s : State} (h : (!membersWait s && s.inflight.all fun a => !ofMembers s a) = true) : Released s := by
  simp only [Bool.and_eq_true, Bool.not_eq_true', List.all_eq_true] at h; exact h

theorem not_released_of {s : State} (h : (!membersWait s && s.inflight.all fun a => !ofMembers s a) = false) : ¬ Released s := fun r => by
  obtain ⟨h1, h2⟩ := r
  have : (!membersWait s && s.inflight.all fun a => !ofMembers s a) = true := by
    simp only [Bool.and_eq_true, Bool.not_eq_true', List.all_eq_true]; exact ⟨h1, h2⟩
  rw [h] at this; cases this

theorem synced_of {s : State} (h : (s.inflight.all fun a => !(a.sync && ofMembers s a)) = true) : Synced s := fun a ha hs => by
  have := List.all_eq_true.mp h a ha
  simpa [hs] using this

theorem not_synced_of {s : State} (h : (s.inflight.all fun a => !(a.sync && ofMembers s a)) = false) : ¬ Synced s := fun r => by
  have : (s.inflight.all fun a => !(a.sync && ofMembers s a)) = true := List.all_eq_true.mpr fun a ha => by
    cases hs : a.sync with
    | false => rfl
    | true => simp [r a ha hs]
  rw [h] at this; cases this

theorem storing_mayStore (xs : List Access) (k : Nat) (h : lineOf k = 0) (ho : canStore (storing held xs) 0 k = true) :
    MayStore (storing held xs) 0 k where
  lines := { held_linesOk with }
  die := by decide
  present := by show 0 < held.dies.length; decide
  owner := ho
  current := held_current k h
  settled := by rw [h]; show onWayHome held 0 = none; decide +kernel

/-- The first and the last byte of a line that the die holds and owns, with an older store of another lane, and of one it lacks; a byte of
a host window. -/
theorem witness_StoresPerform : MayStore (storing held []) 0 127 ∧ MayStore (storing held []) 0 0 ∧ MayStore twoStores 0 127 ∧
    127 % 128 + [(1 : Byte)].length ≤ 128 ∧ isHost (2 ^ 64) = true ∧ isHost (2 ^ 64 - 1) = false ∧
    (base.inflight.find? fun a => a.id == 9) = none ∧ (twoStores.inflight.find? fun a => a.id == 9) = some (storeAt 9 0 127 [1]) ∧
    (twoStores.inflight.filter (performsWith (storeAt 9 0 127 [1]))).length = 2 ∧ canStore twoStores 0 127 = true ∧
    (twoStores.inflight.all fun x => x.die == 0 && decide (x.cell.addr % 128 + x.cell.bytes.length ≤ 128) && x.cell.bytes != []) = true ∧
    (let s := storing base [storeAt 9 0 127 [1]]
     canStore s 0 127 = false ∧ homeOf 127 = 0 ∧ homeOfPage (pageOf 127) = 0 ∧ holdsFresh s 0 127 = false ∧ mayWrite s 0 127 = false) :=
  ⟨storing_mayStore [] 127 (by decide) (by decide +kernel), storing_mayStore [] 0 (by decide) (by decide +kernel),
    storing_mayStore _ 127 (by decide) (by decide +kernel), by decide +kernel⟩

/-- Two banks of scratch: bytes 0 to 8191. `guardedScratch` has a job that has yet to read its first bytes. -/
def withScratch : State := ofB fun b => { b with bankModes := [.scratch, .scratch], scratchOrder := [0, 1] }
def guardedScratch : State := { withScratch with footprints := [{
  id := 9, die := 0, cluster := 0, block := 1, job := none, reads := [.scratch 1 0 64], writes := [], waiting := false }] }

theorem witness_ScratchAccesses : InTurn withScratch withScratch ∧ active withScratch 0 ≠ 0 ∧
    (∃ a xs, readA withScratch .zero .addr .i64 = .ok a ∧ checkScratchLanes withScratch (active withScratch 0) a 8184 8 2 = .ok xs ∧
      (xs.length == 32 && !(xs.any fun x => guarded withScratch x.block x.byte 8)) = true) ∧
    (∃ a xs, readB guardedScratch (active guardedScratch 0) .zero .addr .i64 = .ok a ∧
      checkScratchLanes guardedScratch (active guardedScratch 0) a 0 8 1 = .ok xs ∧ (xs.any fun x => guarded guardedScratch x.block x.byte 8) = true) ∧
    (∃ d, readB withScratch (active withScratch 0) .one .i64 .i64 = .ok d) ∧
    ∃ c, readB rich (active rich 0) (.age 7) .n32 .n32 = .ok c :=
  ⟨rfl, by decide +kernel, chain_of (P := fun _ (xs : List LaneByte) => xs.length == 32 && !(xs.any fun x => guarded withScratch x.block x.byte 8)) (by decide +kernel),
    chain_of (P := fun _ (xs : List LaneByte) => xs.any fun x => guarded guardedScratch x.block x.byte 8) (by decide +kernel), isOk_some (by decide +kernel),
    isOk_some (by decide +kernel)⟩

theorem witness_AtomicsReadModifyWrite : InTurn rich rich ∧ active rich 0 ≠ 0 ∧ (∃ d, readB rich (active rich 0) .one .n32 .n32 = .ok d) ∧
    addrs rich .n32 4 2 ∧ (∃ c, readB rich (active rich 0) (.age 7) .n32 .n32 = .ok c) ∧
    ((0 : Nat) < 8 ∧ 120 % 128 + 8 ≤ 128 ∧ isHost 120 = false ∧ LinesOk held ∧ held.b.die < 8 ∧ held.b.die < held.dies.length ∧
      HoldsCurrent held held.b.die 120 ∧ held.inflight = [] ∧ held.poisoned = []) ∧ isInt .n32 = true :=
  ⟨rfl, by decide +kernel, isOk_some (by decide +kernel), addrs_of (by decide +kernel), isOk_some (by decide +kernel),
    ⟨by decide, by decide, by decide, held_linesOk, by decide, by decide, held_current 120 (by decide), rfl, rfl⟩, rfl⟩

/-- A token bucket of VF 1's path 0 with no tokens. -/
def dryBucket : Bucket := { num := 0, rate := 0, burst := 0, en := true, tokens := 0, heldCount := 0, held := [] }
def dry : State := { base with buckets := [dryBucket] }

/-- A load of a path whose token bucket is empty is held; PREF and CCTL pass lane 0 alone; RADV's address is not rounded, is, and
differs between lanes. -/
theorem witness_ScalarLoadsCacheControlAndRounds : InTurn base base ∧ tyScalar .i32 = true ∧
    (∃ x, checkGlobal base 0 (addOff (scal base 0) 0) 4 0 true = .ok x ∧ (holdSlot base (.ok x) == base &&
      blocking (cacheXlat base 1 x.va) 1 (slotReq base) (pathsOf 0 x.addr) == [] && (stepWindows (holdSlot dry (.ok x))).isOk &&
      blocking (cacheXlat (holdSlot dry (.ok x)) 1 x.va) 1 (slotReq dry) (pathsOf 0 x.addr) != []) = true) ∧
    InTurn rich rich ∧
    (∃ a xs, readB rich (active rich 2) .zero .addr .raw = .ok a ∧ checkLanes rich (active rich 2) a 0 1 0 true = .ok xs ∧
      (decide (passing rich (active rich 2) a 0 = xs ∧ passing rich (active rich 1) a 0 = []) && xs.length == 1 && xs.all fun x =>
        !isHost x.addr && !(pathsOf 0 x.addr).any (heldOn rich 1 none) && (pathsOf 0 x.addr).any (heldOn dry 1 none) && findL2 rich 0 (lineOf x.addr) == none && homeOf x.addr == rich.b.die &&
        (findL2 held 0 (lineOf x.addr)).any (·.modified)) = true) ∧
    (∃ a x, readA rich .zero .addr .n32 = .ok a ∧ checkGlobal rich (lowLane (active rich 0)) (addOff (at_ a (lowLane (active rich 0))).1 0) 4 2 false = .ok x ∧
      ((lanes32.all fun l => addOff (at_ a l).1 0 == addOff (at_ a (lowLane (active rich 0))).1 0) && (roundedEntry rich x).isNone &&
        (roundedEntry rounds x).isSome && homeOf x.addr == rich.b.die) = true) ∧
    Scope.gg ≠ .pkg ∧ active rich 1 = 0 ∧
    ∃ a, readA { rich with w := { rich.w with lanes := (List.range 32).map fun l => { lane rich l with queue := [valued (BitVec.ofNat 64 (4 * l), .addr)] } } }
      (.age 0) .addr .n32 = .ok a ∧ (addOff (at_ a 1).1 0 != addOff (at_ a 0).1 0) = true :=
  ⟨rfl, rfl, ok_of (by decide +kernel), rfl, chain_of (by decide +kernel), chain_of (by decide +kernel), by decide, by decide +kernel,
    ok_of (by decide +kernel)⟩

/-! Barriers, FIFOs, bank modes, the Sluice, system instructions. `bars` declares barriers 2 and 18 at bytes 64 and 128 of its scratch,
expecting one arrival; its scalar 1 holds 1. -/

def bars : State := { withScratch with
  w := { withScratch.w with scalars := 0 :: 1 :: List.replicate 30 2 }
  b := { withScratch.b with
    kernel := { withScratch.b.kernel with barmask := 0x40004, baraddr := setAt (setAt (List.replicate 32 0) 2 64) 18 128 }
    scratch := writeBytes (writeBytes [] 64 [1]) 128 [1] } }
def report : Report := { cause := 0x282, aux := 0, st := bars }

theorem witness_FencesBarriersAndTheirWords : InTurn bars bars ∧ barAt bars bars.b 3 = none ∧ barAt bars bars.b 2 = some (1, 64) ∧
    barAt bars bars.b 18 = some (1, 128) ∧ Scope.wp ≠ .bk ∧ (readBar bars (1, 64)).arrv + (1 : BitVec 8).toNat ≤ (readBar bars (1, 64)).expa ∧
    (readBar bars (1, 64)).expa < (readBar bars (1, 64)).arrv + (2 : BitVec 8).toNat ∧
    (readBar bars (1, 64)).bytes ≤ (scal bars 0).toNat % 2 ^ 32 ∧
    (scal bars 0).toNat % 2 ^ 32 < (readBar { bars with b := { bars.b with scratch := writeBytes [] 76 [1] } } (1, 64)).bytes ∧
    (barReport bars bars.b 2).isNone = true ∧ (streamReport bars).isNone = true ∧ (readBar bars (1, 64)).phase = (scal bars 0).getLsbD 0 ∧
    (readBar bars (1, 64)).phase ≠ (scal bars 1).getLsbD 0 ∧ pendingIn bars (members bars) = false ∧
    (barReport { bars with b := { bars.b with barMarks := [2] } } { bars.b with barMarks := [2] } 2).isSome = true ∧
    (getBlock bars 1).isSome = true ∧ ((getBlock bars 1).map fun b => Memory.wf b.scratch) = some true ∧ (2 : Nat) ≠ 1 :=
  ⟨rfl, by decide +kernel⟩

/-- A FIFO of 32 elements in banks 2 and 3 that holds one; bank 0 scratch, bank 1 cache, bank 4 off. -/
def fifoState (elems : List Word) : State := ofB fun b => { b with
  bankModes := [.scratch, .cache, .fifo, .fifo, .off], scratchOrder := [0, 4], fifos := [{ id := 5, first := 2, last := 3, cap := 32, elems := elems }] }

theorem witness_FifosAndBankModes : InTurn (fifoState []) (fifoState []) ∧ InTurn (fifoState [7]) (fifoState [7]) ∧
    (∃ x, readB (fifoState [7]) (active (fifoState [7]) 0) .one .raw .raw true = .ok x) ∧ getFifo (fifoState [7]) 6 = none ∧
    (getFifo (fifoState [7]) 5).isSome = true ∧ active (fifoState [7]) 1 = 0 ∧ active (fifoState [7]) 0 ≠ 0 ∧
    0 + (lanesOf (active (fifoState []) 0)).length ≤ 32 ∧ 32 < 1 + (lanesOf (active (fifoState [7]) 0)).length ∧
    1 < (lanesOf (active (fifoState [7]) 0)).length ∧ (lanesOf (active (fifoState [7]) 1)).length ≤ 1 ∧
    (fifoState []).b.bankModes.length ≤ (5 : BitVec 8).toNat ∧ (4 : BitVec 8).toNat < (fifoState []).b.bankModes.length ∧
    bankBusy (fifoState []) 0 = false ∧ bankBusy { fifoState [] with footprints := [{
      id := 9, die := 0, cluster := 0, block := 1, job := none, reads := [.scratch 1 0 8], writes := [], waiting := false }] } 0 = true ∧
    (fifoState []).b.scratchOrder.contains 4 = true ∧ (fifoState []).b.scratchOrder.contains 1 = false ∧
    ((fifoState []).b.fifos.find? fun f => decide (f.first ≤ 3 ∧ 3 ≤ f.last)).isSome = true ∧
    ((fifoState []).b.bankModes = [.scratch, .cache, .fifo, .fifo, .off]) :=
  ⟨rfl, rfl, isOk_some (by decide +kernel), by decide +kernel⟩

def sl : SluiceArgs := ⟨0, 1, 2, none, some 3, 0⟩
def slBar : SluiceArgs := { sl with bar := some 9 }
/-- As base with s2 the length of a job, and n jobs that have not ended. -/
def copying (len : Word) (n : Nat) : State := { base with
  w := { base.w with scalars := 0 :: 0 :: len :: List.replicate 29 0 }
  b := { base.b with jobs := (List.range n).map fun i => { cardOf base sl 0 .global .global with num := i, len := 4096 } } }
def lin (len : Word) (n : Nat) : Job := { cardOf (copying len n) sl 0 .global .global with len := ((scal (copying len n) sl.sy).toNat % 2 ^ 40) }
def full : List FpEntry := (List.range 64).map fun i =>
  { id := i, die := 0, cluster := 0, block := 7, job := some i, reads := [], writes := [], waiting := false }

/-- A job of no bytes and of 8; 15 and 16 jobs counted; a table with room and a full one; a fault to report; a barrier that is not
declared. -/
theorem witness_SluiceIssues : InTurn (copying 8 15) (copying 8 15) ∧ InTurn (copying 0 16) (copying 0 16) ∧
    issueTrap (copying 8 15) (lin 8 15) = none ∧ countedJobs (copying 8 15).b < 16 ∧ (lin 8 15).len ≠ 0 ∧ (lin 0 16).len = 0 ∧
    tableFull (copying 8 15) 0 (clusterOf (copying 8 15).b) = false ∧ tableFull { copying 8 15 with footprints := full } 0 0 = true ∧
    16 ≤ countedJobs (copying 0 16).b ∧ (jobReport (copying 0 16) [(copying 0 16).b] fun _ => true).isNone = true ∧
    (jobReport base [{ base.b with jobs := [{ lin 8 0 with faulted := true, cause := 0x280 }] }] fun _ => true).isSome = true ∧
    pendingIn (copying 0 16) (members (copying 0 16)) = false ∧
    (issueTrap base { lin 8 0 with bar := slBar.bar }).isSome = true :=
  ⟨rfl, rfl, by decide +kernel⟩

theorem witness_SluiceWaitsAndDescriptors : InTurn (copying 8 1) (copying 8 1) ∧
    (jobReport (copying 8 1) [(copying 8 1).b] fun j => j.wp == some 3).isNone = true ∧
    wpValue (copying 8 1).b (3 : BitVec 4).toNat < (scal (copying 8 1) 2).toNat ∧ (scal (copying 8 1) 1).toNat ≤ wpValue (copying 8 1).b (3 : BitVec 4).toNat ∧
    (jobReport base [{ base.b with jobs := [{ lin 8 0 with faulted := true, cause := 0x280, wp := some 3 }] }] fun j => j.wp == some 3).isSome = true ∧
    pendingIn (copying 8 1) (members (copying 8 1)) = false ∧
    ((copying 8 1).b.jobs.filter fun j => j.num % 2 ^ 16 == (scal (copying 8 1) 2).toNat % 2 ^ 16) = [] ∧
    ((copying 8 1).b.jobs.filter fun j => j.num % 2 ^ 16 == (scal (copying 8 1) 1).toNat % 2 ^ 16).length = 1 ∧
    (63 : BitVec 6).toNat < base.b.desc.length ∧ (base.b.desc.all fun ws => ws.length == 10) = true ∧ (9 : BitVec 4).toNat < 10 :=
  ⟨rfl, by decide +kernel⟩

def tracing (p : Vf → Vf) : State := { base with vfs := base.vfs.map p }
def ringOn : State := tracing fun v => { v with trc := { v.trc with base := 0x4000, log2 := 4, enable := true } }

theorem witness_SystemInstructions : InTurn base base ∧
    (∃ a, readB base (active base 0) .zero .addr .raw = .ok a ∧ ((lanesOf (active base 0)).map fun l => addOff (at_ a l).1 0).all canonical = true) ∧
    canonical (2 ^ 47) = false ∧ canonical (2 ^ 47 - 1) = true ∧ (getVf base base.b.vf).isSome = true ∧ (63 : BitVec 16).toNat < 64 ∧ 64 ≤ (64 : BitVec 16).toNat ∧
    (scal base 0).toNat < 64 ∧ ((getVf base 1).map fun v => v.policy.tpmc) = some true ∧
    ((getVf (tracing fun v => { v with policy := { v.policy with tpmc := false } }) 1).map fun v => v.policy.tpmc) = some false ∧
    ((getVf base 1).map fun v => v.trc.enable) = some false ∧ ((getVf ringOn 1).map fun v => v.trc.enable) = some true ∧
    (((0 : BitVec 32) - 0).toNat < 2 ^ (4 : BitVec 5).toNat) ∧ canonical (0x4000 : Word) = true ∧ (translate ringOn 1 0x4000 1).isOk = true ∧
    (base.w.pend.any fun p => p.kind == .theodolite && p.slot == base.slot) = false ∧
    ([{ PendRes.of [] .theodolite with slot := .a }].any fun p => p.kind == .theodolite && p.slot == base.slot) = true :=
  ⟨rfl, ok_of (by decide +kernel), by decide +kernel⟩

/-- The launch of base with one dependency, on itself or on an aborted launch. -/
def waitingOn (l : Launch) : State := { base with launches := [{ placedLaunch with deps := [2] }, { l with id := 2 }] }
/-- As base with a launch record at VA 0x4000 that names kernel k, one block, die 0; the policy accepts the kernel's hash. -/
def recordOfKernel (k : Nat) : List Byte :=
  toBytes 8 k ++ toBytes 8 0 ++ toBytes 4 1 ++ toBytes 4 1 ++ toBytes 4 1 ++ toBytes 4 0x00010001 ++ List.replicate 32 0
def launching (k : Nat) (p : Policy → Policy) : State := { base with
  w := { base.w with scalars := 0 :: 0x4000 :: List.replicate 30 0 }
  mem := writeBytes base.mem 0x4000 (recordOfKernel k)
  vfs := base.vfs.map fun v => { v with policy := p { v.policy with hashes := [[]] } } }
/-- As s with die 0 holding a line as memory has it, and owning its page. -/
def lined (line : Nat) (s : State) : State := { s with
  dies := modAt s.dies 0 fun x => { x with
    l2 := { line := line, bytes := readBytes s.mem (line * 128) 128, modified := false, f := 0, pending := false } :: x.l2 }
  dirs := { newDir (line / 512) false false with own := 0xFFFF :: List.replicate 7 0, sharers := 1 } :: s.dirs }
def launchResult (s : State) (bs : List Byte) : Option LaunchRefusal :=
  match getVf s 1 with
  | some v => (match checkLaunch s v bs 0 with | .ok _ => none | .error e => some e)
  | none => some .record

/-- A record that every check passes, one of zeros, one of a kernel that is not registered, and one above the policy's limit. -/
theorem witness_LaunchWaitdepTrig : InTurn (launching 1 id) (launching 1 id) ∧
    (∃ x, checkGlobal (launching 1 id) 0 (scal (launching 1 id) 1) 64 0 true = .ok x ∧
      (blocking (launching 1 id) 1 (slotReq base) (pathsOf 0 x.addr) == [] && (stepWindows (holdSlot dry (.ok x))).isOk &&
        blocking (holdSlot dry (.ok x)) 1 (slotReq dry) (pathsOf 0 x.addr) != [] &&
        loadBytes (launching 1 id) x.addr x.attr 64 plainBound == .missing &&
        (match slotLoad x 64 (cacheXlat (lined 0x80 (launching 1 id)) 1 x.va) with
          | .ok (bs, t) => bs == recordOfKernel 1 && ((getVf t 1).any fun v => (checkLaunch t v bs 0).toOption.isSome) | .error _ => false)) = true) ∧
    Released (launching 1 id) ∧ ¬ Released (storing (launching 1 id) [storeAt 9 0 0 [1]]) ∧ Synced base ∧
    ¬ Synced (storing base [{ storeAt 9 0 0 [1] with sync := true }]) ∧
    launchResult (launching 1 id) (recordOfKernel 1) = none ∧ launchResult (launching 1 id) (List.replicate 64 0) = some .record ∧
    launchResult (launching 2 id) (recordOfKernel 2) = some .codeHash ∧
    launchResult (launching 1 fun p => { p with launchMax := 1 }) (recordOfKernel 1) = some .quota ∧
    InTurn (waitingOn placedLaunch) (waitingOn placedLaunch) ∧
    ((((getLaunch (waitingOn placedLaunch) 1 1).map (·.deps)).getD []).map (getLaunch (waitingOn placedLaunch) 1)).any
      (fun p => p.any fun l => !l.aborted && !producerDone l) = true ∧
    ((((getLaunch (waitingOn { placedLaunch with aborted := true }) 1 1).map (·.deps)).getD []).map
      (getLaunch (waitingOn { placedLaunch with aborted := true }) 1)).findIdx? (fun p => p.any (·.aborted)) = some 0 ∧
    (((getLaunch base 1 1).map (·.deps)).getD []) = [] ∧ base.b.triggered = false ∧ (getLaunch base base.b.vf base.b.launch).isSome = true :=
  ⟨rfl, ok_of (by decide +kernel), released_of (by decide +kernel), not_released_of (by decide +kernel), synced_of (by decide +kernel),
    not_synced_of (by decide +kernel), by decide +kernel, by decide +kernel, by decide +kernel, by decide +kernel, rfl, by decide +kernel⟩

/-! The Theodolite and the matrix stream. `bits` gives every byte of the scratch of `withScratch` from 0 to 63. -/

def points (bytes : Byte) : State := { withScratch with b := { withScratch.b with scratch := writeBytes [] 0 (List.replicate 64 bytes) } }

/-- Points of zeros, misaligned, outside scratch, and with a coordinate that is no number. -/
theorem witness_PredicatesPendTheirSigns : InTurn withScratch withScratch ∧ InTurn (points 0xFF) (points 0xFF) ∧
    (∃ a y, readA withScratch .zero .addr .f32 = .ok a ∧ readB withScratch (active withScratch 0) .zero .raw .f32 = .ok y ∧
      (lanes32.all fun l =>
        let qs := pointAddrs .ori2 (at_ a l).1 (at_ y l).1
        (qs.all fun q => q % 4 == 0) && (fld (at_ a l).1 32 32 : BitVec 32) == 0 &&
        (match pointsOf withScratch .ori2 .f32 qs with | some cs => cs.all fun c => c.all isFin | none => false) &&
        (match pointsOf (points 0xFF) .ori2 .f32 qs with | some cs => cs.any fun c => c.any fun x => !isFin x | none => false) &&
        (pointsOf base .ori2 .f32 qs).isNone) = true) ∧
    (∃ a, readA withScratch .one .addr .f32 = .ok a ∧ ((pointAddrs .ori2 (at_ a 0).1 0).any fun q => q % 4 != 0) = true) ∧ active withScratch 0 ≠ 0 :=
  ⟨rfl, rfl, chain_of (by decide +kernel), ok_of (by decide +kernel), by decide +kernel⟩

/-- A descriptor of a 32 × 32 matrix of f32 in a space: rows of 128 bytes from byte 0. -/
def matDesc (space : Nat) : List Word :=
  [0, 32 + 32 * 2 ^ 32, 1 + 2 ^ 32, 128, 0, 0, 0, 0, BitVec.ofNat 64 (space + 7 * 2 ^ 4 + 2 ^ 8 + 2 ^ 10), 32 + 32 * 2 ^ 16 + 2 ^ 32 + 2 ^ 48]
/-- A stream at instruction i with one bank of scratch, a B-plane window, descriptors 0 and 1, and the tile 0. -/
def atStream (i : Instr) (f : Block → Block) : State :=
  let s := place State.reset true ((encode i).getD 0).toNat
  { s with b := f { s.b with
      bankModes := [.scratch], scratchOrder := [0], desc := matDesc 1 :: matDesc 2 :: List.replicate 62 (List.replicate 10 0)
      kernel := { s.b.kernel with bplane := 4 } } }
def mma0 : MmaArgs := ⟨0, 0, 1, 0, true, 7, 7⟩
def region0 : RegionArgs := ⟨0, 0, 0, 7, 0, 0⟩

theorem witness_StreamInstructionsBegin :
    (let s := atStream (.mma mma0) id
     s.onStream = true ∧ streamLive s = true ∧ (stream s).began = false ∧
     (mmaPlan false mma0 s (descOf (matDesc 1)) (descOf (matDesc 2))).isOk = true ∧ (mdrainPlan 0 0 0 0 s (descOf []) (descOf [])).isOk = true ∧
     (regionPlan region0 false false s (descOf (matDesc 1)) (descOf [])).isOk = true ∧
     (mmaPlan true mma0 s (descOf (matDesc 1)) (descOf (matDesc 2))).isOk = false ∧
     (qstorePlan region0 s (descOf (matDesc 1)) (descOf [])).isOk = false ∧
     tableFull s 0 (clusterOf s.b) = false ∧ tableFull { s with footprints := full } 0 (clusterOf s.b) = true) ∧
    base.onStream = false ∧ InTurn base base := ⟨by decide +kernel, rfl, rfl⟩

def stepping (i : Instr) (f : Block → Block) : State := atStream i fun b => f { b with
  stream := b.stream.map fun m => { m with began := true, descA := matDesc 1, descB := matDesc 2 } }
def streamFp (id' : Nat) : FpEntry := { id := id', die := 0, cluster := 0, block := 1, job := none, reads := [.scratch 1 0 64], writes := [], waiting := false }
def steps (s : State) : Bool :=
  let t := focusStream s 1
  ((getBlock s 1).bind (·.stream)).isSome && streamLive t && (stream t).began &&
    (match fetchWord t t.b (stream t).pc with | .ok w => (decode true w).isOk | .error _ => false)

/-- Instructions of one step and of 32; a step that faults, one that waits, one that an edge holds. -/
theorem witness_MatrixStepsRun :
    steps (stepping (.mma mma0) id) = true ∧ (mmaStep false mma0 (focusStream (stepping (.mma mma0) id) 1) 0).isOk = true ∧ mmaSteps false mma0 = 1 ∧
    steps (stepping (.mdrain 0 0 0 0) id) = true ∧ (mdrainStep 0 0 0 0 (focusStream (stepping (.mdrain 0 0 0 0) id) 1) 0).isOk = true ∧
    0 + 1 < mdrainSteps 0 ∧ (mdrainStep 0 0 0 0 (stepping (.mdrain 0 0 0 0) fun b => { b with drain := List.replicate 64 [] }) 0).isOk = false ∧
    (accldStep region0 (stepping (.accld region0) fun b => { b with bankModes := [.off] }) 0).isOk = false ∧
    (let s := { stepping (.mma mma0) id with footprints := [streamFp 9] }
     ((streamEntry (focusStream s 1)).map (entryFree (focusStream s 1))) = some true) ∧
    (let s := { stepping (.mma mma0) id with footprints := [
       { streamFp 8 with job := some 0, reads := [], writes := [.scratch 1 0 8] }, streamFp 9] }
     ((streamEntry (focusStream s 1)).map (entryFree (focusStream s 1))) = some false) ∧
    kBlock false mma0.af mma0.bf = some 8 ∧ mma0.af ≠ 0 ∧ mma0.acc.toNat < (stepping (.mma mma0) id).b.tiles.length ∧
    tileSorted (tileAt (stepping (.mma mma0) id) mma0.acc.toNat).words = true ∧
    64 ≤ (List.replicate 64 ([] : List (BitVec 32))).length ∧ (List.replicate 63 ([] : List (BitVec 32))).length < 64 := by decide +kernel

/-- As bars at its stream, and the stream's loops. -/
def barStream (loops : List LoopEntry) (phases : BitVec 32) : State := { streamBase with
  b := { bars.b with stream := streamBase.b.stream.map fun m => { m with loops := loops, phases := phases } } }

theorem witness_StreamControlAndApop :
    (let s := barStream [] 4
     s.onStream = true ∧ streamLive s = true ∧ s.b.kernel.ntiles ≤ (1 : BitVec 2).toNat ∧ (0 : BitVec 2).toNat < s.b.kernel.ntiles ∧
     barAt s s.b 3 = none ∧ barAt s s.b 2 = some (1, 64) ∧ (readBar s (1, 64)).arrv + 1 ≤ (readBar s (1, 64)).expa ∧
     (let t := { s with b := { s.b with scratch := [] } }; (readBar t (1, 64)).expa < (readBar t (1, 64)).arrv + 1) ∧
     (barReport s s.b 2).isNone = true ∧ (readBar s (1, 64)).phase ≠ (stream s).phases.getLsbD 2 ∧
     (readBar s (1, 64)).phase = (stream (barStream [] 0)).phases.getLsbD 2 ∧
     (barReport s { s.b with jobs := [{ lin 8 0 with faulted := true, cause := 0x280, bar := some 2 }] } 2).isSome = true ∧
     inCode s.b.kernel ((stream s).pc + 8 * (0 : BitVec 24).signExtend 64) = true ∧
     inCode s.b.kernel ((stream s).pc + 8 * (-1 : BitVec 24).signExtend 64) = false ∧
     (stream (barStream [⟨0x2000, 0x2000, 1⟩] 0)).loops = [⟨0x2000, 0x2000, 1⟩] ∧ (stream s).pc = 0x2000 ∧ (stream s).loops = [] ∧
     4 ≤ (stream (barStream (List.replicate 4 ⟨0x2040, 0x2000, 1⟩) 0)).loops.length) ∧
    InTurn base base ∧ InTurn bars bars ∧ (base.b.stream ≠ none) ∧ active base 1 = 0 ∧ active base 0 ≠ 0 ∧ (streamReport base).isNone = true ∧
    pendingIn base (members base) = false ∧ (ofB fun b => { b with stream := none }).b.stream = none ∧
    (streamReport (ofB fun b => { b with stream := b.stream.map fun m => { m with fault := some (0x2C0, 0) } })).isSome = true ∧ base.b.drain = [] ∧
    (ofB fun b => { b with drain := [[1]] }).b.drain ≠ [] ∧ base.onStream = false :=
  ⟨by decide +kernel, rfl, rfl, by decide +kernel⟩

/-! Events of warps, jobs, homes, dies and links. -/

/-- As withPending with the result r; lanes 0 and 1 are in stages when `left` lists them. -/
def pendWith (f : PendRes → PendRes) : State := { withPending with w := { withPending.w with pend := withPending.w.pend.map f } }

theorem witness_ResultsArrive :
    ((getWarp base 2).bind fun w => w.pend.find? fun r => r.rid == 0).isNone = true ∧ ((getWarp base 7).bind fun w => w.pend.find? fun r => r.rid == 0).isNone = true ∧
    (getWarp withPending 2).isSome = true ∧ ((withPending.w.pend.find? fun r => r.rid == 0).map (·.ready)) = some true ∧
    ((withPending.w.pend.find? fun r => r.rid == 0).map (·.host)) = some 0 ∧
    (((pendWith fun r => { r with ready := false, host := 1, lanesLeft := [(0, 1), (1, 0)] }).w.pend.find? fun r => r.rid == 0).any fun r =>
      !r.ready && r.host == 1 && r.lanesLeft.find? (fun x => x.1 == (0 : BitVec 5).toNat) == some (0, 1) &&
      r.lanesLeft.find? (fun x => x.1 == (1 : BitVec 5).toNat) == some (1, 0)) = true := by decide +kernel

/-- A slot that waits at the instruction at its PC. -/
def waitingAt (i : Instr) (r : WaitReason) : State :=
  let s := place State.reset false ((encode i).getD 0).toNat
  { s with w := { s.w with slotA := { s.w.slotA with st := .wait r } } }
def streamWaiting : State :=
  let s := atStream (.mbarwt 2) fun b => { b with stream := b.stream.map fun m => { m with wait := .mbarwt } }
  s

theorem witness_WaitsEnd : heldInstr (waitingAt (.barwt 2 1) .barwt) 2 .a .barwt = some (.barwt 2 1) ∧
    heldInstr (waitingAt (.fqput 0 .i32 .one 0) .fifoFull) 2 .a .fifoFull = some (.fqput 0 .i32 .one 0) ∧
    heldInstr (waitingAt (.fqget ⟨0, false, .i32⟩ 0) .fifoEmpty) 2 .a .fifoEmpty = some (.fqget ⟨0, false, .i32⟩ 0) ∧
    heldInstr (waitingAt (.swait 2 1) .swait) 2 .a .swait = some (.swait 2 1) ∧
    heldInstr (waitingAt (.apop 0 0 .f32) .apopEmpty) 2 .a .apopEmpty = some (.apop 0 0 .f32) ∧
    heldInstr (waitingAt .waitdep .waitdep) 2 .a .waitdep = some .waitdep ∧
    heldInstr (waitingAt (.bankcfg 1 .off) .bankcfg) 2 .a .bankcfg = some (.bankcfg 1 .off) ∧ heldInstr base 2 .a .barwt = none ∧
    ((getBlock streamWaiting 1).bind fun b => b.stream.map (·.wait)) = some .mbarwt ∧ streamLive (focusStream streamWaiting 1) = true ∧
    ((match fetchWord (focusStream streamWaiting 1) (focusStream streamWaiting 1).b (stream (focusStream streamWaiting 1)).pc with
      | .ok w => (match decode true w with | .ok i => some i | .error _ => none)
      | .error _ => none) = some (.mbarwt 2)) ∧
    ((getBlock base 1).bind fun b => b.stream.map (·.wait)) ≠ some .mbarwt ∧ (getWarp base 2).isSome = true ∧ (slotOf base.w .a).passed < 32 ∧
    (32 ≤ (slotOf (ofSlot fun x => { x with passed := 32 }).w .a).passed ∧ (slotOf (ofSlot fun x => { x with passed := 32 }).w .a).aged = none) ∧
    (getBlock base 1).isSome = true := by decide +kernel

/-- Job 0 of base's block, of n bytes from VA 0 to VA 0x8000, with its footprint entry. -/
def jobState (n : Nat) (f : Job → Job) : State := { base with
  b := { base.b with jobs := [f { cardOf base sl 0 .global .global with dst := 0x8000, len := n }] }
  footprints := [{ id := 9, die := 0, cluster := 0, block := 1, job := some 0, reads := [], writes := [], waiting := false }] }
def jobOf (s : State) : Job := (getJob s.b 0).getD (lin 8 0)

/-- A job whose first chunk may start, one all of whose chunks have, one whose source does not translate, one whose bucket is empty, one
whose first chunk of two lands; an entry that waits beside 63 and beside 64. -/
theorem witness_SluiceJobsAdvance :
    (let s := jobState 1 id
     (getBlock s 1).isSome = true ∧ (s.footprints.find? fun e => e.block == 1 && e.job == some 0).isSome = true ∧ (getJob s.b 0).isSome = true ∧
     enginesRun s s.b = true ∧ (jobOf s).done = false ∧ (jobOf s).faulted = false ∧ (jobOf s).paused = false ∧
     ((s.footprints.head?).map (entryFree s)) = some true ∧ chunksRead (jobOf s) * 4096 < (jobOf s).len ∧
     (match readChunk s s.b (jobOf s) 0 with
      | .ok (_, _, ps, _) =>
        let paths := (ps.flatMap (placePaths s.b (jobOf s))).eraseDups
        blocking s 1 (.chunk 1 0) paths == [] && blocking { s with buckets := [dryBucket] } 1 (.chunk 1 0) paths != []
      | .error _ => false) = true ∧
     (readChunk s s.b { jobOf s with src := 2 ^ 40 } 0).isOk = false ∧
     ¬(chunksRead { jobOf s with begun := [{ num := 0, bytes := [1], targets := [] }] } * 4096 < (jobOf s).len)) ∧
    (let s := jobState 4097 fun j => { j with begun := [{ num := 0, bytes := List.replicate 4096 1, targets := [] }] }
     (getJob s.b 0).isSome = true ∧ (jobOf s).landed = [] ∧ (jobOf s).landedHead = 0 * 4096 ∧ (0 + 1) * 4096 < (jobOf s).len ∧ (jobOf s).kind = 0 ∧
     (dstPlaces s s.b (jobOf s) { pos := 0, len := 4096, src := 0, dst := 0x8000, zero := false, skip := false }).isOk = true) ∧
    getGang (jobState 1 id) 99 = none ∧
    (let s (es : List FpEntry) : State := { base with footprints := es }
     let e : FpEntry := { streamFp 99 with waiting := true }
     (reentering (s (e :: full)) 0 0).length = 1 ∧ 64 ≤ heldEntries (s (e :: full)) 0 0 ∧ reentering (s full) 0 0 = [] ∧
     reentering (s (e :: full.drop 1)) 0 0 = [e] ∧ heldEntries (s (e :: full.drop 1)) 0 0 < 64) := by decide +kernel

/-- An I/O die with all its entries taken, the first of them being recalled; a page of it that has none. -/
def ioPage : Nat := tierBase / 2 ^ 16
def ioFull (n : Nat) : State := { base with dirs :=
  { newDir (ioPage + 2) false false with busy := some .recall } :: List.replicate n (newDir (ioPage + 4) false false) }

theorem witness_HomesServeMessages_full (n : Nat) (hn : ioEntries ≤ n) : needsEntry (ioFull n) ioPage = true ∧
    ∃ x ∈ (ioFull n).dirs, homeOfPage x.page = homeOfPage ioPage ∧ x.busy = some .recall := by
  refine ⟨?_, { newDir (ioPage + 2) false false with busy := some .recall }, by simp [ioFull], by decide, rfl⟩
  have h1 : getDir (ioFull n) ioPage = none := by
    simp only [getDir, ioFull, newDir, List.find?_cons, List.find?_replicate]
    simp [ioPage, tierBase]
  have h2 : (entriesOf (ioFull n) (homeOfPage ioPage)).length = n + 1 := by
    have a : (homeOfPage (ioPage + 2) == homeOfPage ioPage) = true := by decide
    have b : (homeOfPage (ioPage + 4) == homeOfPage ioPage) = true := by decide
    simp only [entriesOf, ioFull, newDir, List.filter_cons, List.filter_replicate, a, b, if_true, List.length_cons, List.length_replicate]
  have h3 : decide (8 ≤ homeOfPage ioPage) = true := by decide
  simp only [needsEntry, h1, h2, h3, Option.isNone_none, Bool.and_true, Bool.true_and, decide_eq_true_eq]
  exact Nat.le_succ_of_le hn

/-- As held with the entry changed. -/
def heldWith (f : DirEntry → DirEntry) : State := { held with dirs := [f heldEntry] }

/-- An idle entry; an owner that is the requester, another, and none; sharers to tell and none; an outstanding message of each kind, to the
die and to another; one that a NOTICE has answered; a line that the die holds modified, and clean. -/
theorem witness_HomesServeMessages : homeOfPage 0 = 0 ∧ homeOfPage (2 ^ 21) = 1 ∧ needsEntry base 0 = false ∧
    (let e := entryOfPage base 0
     e.pend = [] ∧ e.busy = none ∧ e.queue = [] ∧ ownerOf e (subOf 511) = none ∧ ownerOf e (subOf 512) = none ∧ owns e 0 15 = false ∧
     (List.range 8).all (fun d => ownMask e d == 0 && !e.sharers.getLsbD d) = true ∧ e.own.all (· == 0) = true) ∧
    511 / 512 = 0 ∧ 512 / 512 = 1 ∧
    (let e := entryOfPage held 0
     e.pend = [] ∧ e.busy = none ∧ e.queue = [] ∧ e.rounded = false ∧ ownerOf e (subOf 511) = some 0 ∧ owns e 0 15 = true ∧ owns e 1 15 = false ∧
     ((List.range 8).filter fun d => ownMask e d != 0) = [0] ∧ e.own.all (· == 0) = false ∧ e.void.contains 0 = false) ∧
    (let e := entryOfPage (heldWith fun e => { e with own := List.replicate 8 0, sharers := 6 }) 0
     ((List.range 8).filter fun d => ownMask e d != 0) = [] ∧ ((List.range 8).filter fun d => e.sharers.getLsbD d) = [1, 2] ∧
     ((List.range 8).filter fun d => !e.rounded && e.sharers.getLsbD d && d != 1 && some d != ownerOf e 0) = [2]) ∧
    (entryOfPage rounds 0).rounded = true ∧ (entryOfPage (heldWith fun e => { e with void := [1] }) 0).void.contains 1 = true ∧
    (entryOfPage (heldWith fun e => { e with pend := [(1, .flush)] }) 0).pend ≠ [] ∧
    pendOf { heldEntry with pend := [(1, .inv 3)] } 1 = some (.inv 3) ∧
    pendOf { heldEntry with pend := [(1, .revoke 3)] } 1 = some (.revoke 3) ∧ pendOf { heldEntry with pend := [(1, .flush)] } 1 = some .flush ∧
    pendOf { heldEntry with pend := [(1, .advance)] } 1 = some .advance ∧ pendOf { heldEntry with pend := [(1, .grant 3)] } 1 = some (.grant 3) ∧
    isGrant (.grant 3) = true ∧ isGrant .flush = false ∧ pendOf (entryOfPage held 0) 1 = none ∧ (getDir held 0).isSome = true ∧
    findL2 held 0 0 = some heldLine ∧ heldLine.modified = true ∧ findL2 held 0 511 = none := by
  decide +kernel

/-- A state whose die 0 holds one line too many in a slice, and none that must stay. -/
def crowded (l : L2Line) : State := { base with dies := modAt base.dies 0 fun x => { x with l2 := List.replicate (sliceLines + 1) l } }

theorem sliceOf_lt (s : State) (line : Nat) : sliceOf s line < 32 := by
  show ((List.range 32).filter fun n => (sliceGroup s line).getLsbD n).getD _ 0 < 32
  rw [List.getD_eq_getElem?_getD]
  cases h : ((List.range 32).filter fun n => (sliceGroup s line).getLsbD n)[(Sys2Proof.Config.sliceHash line %
      max 1 ((List.range 32).filter fun n => (sliceGroup s line).getLsbD n).length)]? with
  | none => decide
  | some x => exact List.mem_range.mp (List.mem_filter.mp (List.mem_of_getElem? h)).1

theorem witness_DiesServeMessages_evicts (l : L2Line) (hl : l.pending = false) : (evictedLine (crowded l) 0).isSome = true := by
  have hd : (getDie (crowded l) 0).l2 = List.replicate (sliceLines + 1) l := rfl
  have hr : (getDie (crowded l) 0).reads = [] := rfl
  have hi : storeHeld (crowded l) 0 l.line = false := rfl
  rw [Option.isSome_iff_ne_none]
  intro h
  rw [evictedLine, hd] at h
  simp only [List.length_replicate, Nat.not_succ_le_self, if_false, List.findSome?_eq_none_iff] at h
  have := h _ (List.mem_range.mpr (sliceOf_lt (crowded l) l.line))
  simp [List.filter_replicate, hl, hi, hr] at this

/-- Data of a line that the die holds modified, or not, and of a sub-page that another die owns; a die that holds a line of the page and one
that holds none; a GRANT that is outstanding, one that was withdrawn, one for a store that waits; a pending line, its last. -/
theorem witness_DiesServeMessages : homeOfPage 0 = 0 ∧ 0 < held.dies.length ∧ 511 / 512 = 0 ∧ (findL2 held 0 1).any (·.modified) = false ∧
    findL2 held 0 0 = some heldLine ∧ heldLine.modified = true ∧ holdsPage base 0 0 = false ∧ holdsPage held 0 0 = true ∧ holdsPage held 1 0 = false ∧
    (let e := entryOfPage held 0
     e.rounded = false ∧ e.queue = [] ∧ e.busy = none ∧ ownerOf e (subOf 0) = some 0 ∧ e.withdrawn.contains 0 = false) ∧
    (entryOfPage (heldWith fun e => { e with withdrawn := [0] }) 0).withdrawn.contains 0 = true ∧
    (pendOf (entryOfPage (heldWith fun e => { e with pend := [(0, .grant 1)] }) 0) 0).any isGrant = true ∧
    (let s := { held with dies := modAt held.dies 0 fun x => { x with l2 := [{ heldLine with modified := false, pending := true }] } }
     hasPending s 0 0 = true ∧ hasPending (takeData s 0 0 [] 1) 0 0 = false) ∧
    (let s := { rounds with dies := modAt rounds.dies 0 fun x => { x with l2 := [{ heldLine with modified := false }], mirrors := [(0, 3)] } }
     (entryOfPage s 0).rounded = true ∧ mirrorOf s 0 0 = some 3 ∧ (heldLine.f - 3).toNat ≥ 2 ^ 31 ∧ inSubs 0 1 0 = true ∧ inSubs 0 1 32 = false) ∧
    (twoStores.inflight.find? fun a => a.die == 0 && pageOf a.cell.addr == 0).isSome = true ∧
    (getWarp withPending 2).isSome = true ∧ (withPending.w.pend.find? fun r => r.rid == 0).isSome = true ∧ (2 ^ 63 : Word).getLsbD 63 = true := by
  decide +kernel

def linkState (f : Link → Link) : State := { base with links := (List.replicate 32 Link.reset).map f }

theorem witness_LinksRetrainAndDeliver : (31 : Nat) < 32 ∧ base.links.length = 32 ∧ (getLink base 31).retraining = false ∧ (getLink base 31).failed = false ∧
    (getLink (linkState fun x => { x with retraining := true }) 31).retraining = true ∧ (linkState fun x => { x with retraining := true }).links.length = 32 ∧
    failoverPath (modLink base 1 fun x => { x with failed := true }) 1 = true ∧
    (let t := modLink (modLink base 18 fun x => { x with failed := true }) 2 fun x => { x with failed := true }
     failoverPath t 2 = false ∧ neighbour (2 / 4) (2 % 4) ≥ 8) ∧
    routeStopped base 0 1 = false ∧ routeStopped (linkState fun x => { x with retraining := true }) 0 1 = true ∧
    ([{ src := 0, dst := 1, next := 2, expect := 1, packets := [(1, .nop)] : Route }].find? fun r => r.src == 0 && r.dst == 1).isSome = true ∧
    (2 : Nat) ≠ 1 ∧ ((2 ^ 63 : Word).getLsbD 63 = true) ∧ (0 : Word).getLsbD 63 = false := by decide +kernel

def readyLaunch : Launch := { placedLaunch with nextGang := 0 }
/-- As base with its gang taken away and its launch waiting to be placed. -/
def placing (f : Launch → Launch) : State := { base with
  w := .empty, b := .empty, gangs := [], launches := [f readyLaunch] }
def switchedGang : State := { base with gangs := base.gangs.map fun g => { g with st := .switched }, b := { base.b with st := .switched } }

theorem witness_LaunchesAreScheduled :
    getLaunch base 1 2 = none ∧ ((getLaunch base 1 1).map fun l => (l.completed, l.aborted, l.retired, gangTotal l)) = some (false, false, 0, 1) ∧
    ((getLaunch (waitingOn { placedLaunch with aborted := true }) 1 2).map fun l => (l.completed, l.aborted)) = some (false, true) ∧
    ((getLaunch (waitingOn { placedLaunch with retired := 1 }) 1 2).map fun l => l.retired == gangTotal l) = some true ∧ base.inflight = [] ∧
    base.datum.coreBusy = false ∧ (base.gangs.all fun g => (awaitsCores base 0 g).isNone) = true ∧ placingVf base 1 = none ∧
    ((placingVf switchedGang 0).map (·.number)) = some 1 ∧ (pausedGangs switchedGang 1).length = 1 ∧ gangBlocks switchedGang 3 ≠ [] ∧
    (getGang switchedGang 3).isSome = true ∧ (switchedGang.gangs.all fun g => (gangPart switchedGang g).isNone) = true ∧
    (let s := placing id
     ((placingVf s 0).map fun v => (v.number, placesNew v)) = some (1, true) ∧ pausedGangs s 1 = [] ∧ (getPart s 0).coop = none ∧
     s.launches.filter (fun l => l.vf == 1) = [readyLaunch] ∧ readyLaunch.nextGang < gangTotal readyLaunch ∧ needsStack placedKernel = false ∧
     (getKernel s 1 readyLaunch.kobj).isSome = true ∧
     (((getVf s 1).bind fun v => findPlace s v placedKernel [] (dieOrder (openDies s v readyLaunch) none)).map fun x => (x.1, x.2.2.2)) = some (0, []) ∧
     (((getVf s 1).bind fun v => findPlace s v { placedKernel with warps := 65 } [] (dieOrder (openDies s v readyLaunch) none)).isNone) = true) ∧
    ((placing fun l => { l with coop := true, since := 5 }).launches.find? fun l => unplacedCoop l && (getVf base l.vf).any fun v => v.part == 0).isSome = true ∧
    base.cycle < 5 + 2700000 ∧ 0 + 2700000 ≤ 2700000 ∧ base.launches.find? (fun l => unplacedCoop l && (getVf base l.vf).any fun v => v.part == 0) = none ∧
    (3 : BitVec 4) ≠ 4 ∧ (base.gangs.filter fun g => !g.blocks.isEmpty && g.uid == 9) = [] ∧
    (base.gangs.filter fun g => !g.blocks.isEmpty && g.uid == 3) = base.gangs ∧
    (base.gangs.filter fun g => !g.blocks.isEmpty && (getVf base g.vf).any fun v => v.part == 0) = base.gangs ∧
    (base.launches.all fun l => (getLaunch base l.vf l.id) == some l) = true ∧ (base.sal.pending.filter fun x => x.source == 0) = [] ∧
    isHbm 0 = true ∧ isHbm tierBase = false ∧ isHost tierBase = false ∧
    ((getLaunch base 1 1).map fun l => (l.aborted, l.completed, l.relaunched.contains 0)) = some (false, false, false) ∧
    ((gangBlocks base 3).any fun b => b.kernel.idemp) = false := by decide +kernel

/-- Partition 0 between slices, handing over, and after the deadline; a warp of the outgoing VF that has ended, a sealed one and one
at its stake. -/
def sliceState (f : Slice → Slice) : State := { base with
  parts := setAt base.parts 0 { getPart base 0 with vfnum := 0, slice := some (f
    { outgoing := 1, incoming := 1, since := 0, saved := 0, late := 0, deadline := false, grace := false, before := [] }) } }

theorem witness_SlicesAreHandedOver : 0 < base.parts.length ∧ (getPart base 0).run = true ∧ (getPart base 1).run = false ∧
    ((allBlocks base).all fun b => b.vf != (getPart base 0).vfnum || b.jobs == []) = true ∧ (getWarp base 2).isSome = true ∧
    ((getBlock base base.w.block).map fun b => (b.vf, b.st)) = some ((getPart base 0).vfnum, .running) ∧ base.w.block ≠ 0 ∧ warpEnded base.w = false ∧
    warpEnded { base.w with slotA := .empty } = true ∧ savesPrecisely base.w = false ∧ savesPrecisely { base.w with sealed := true } = true ∧
    base.w.stake.recipe = none ∧ (getPart base 0).slice = none ∧ base.inflight = [] ∧
    (getPart (sliceState fun x => { x with outgoing := 2 }) 0).vfnum ≠ 2 ∧ 0 < 0 + 135000 ∧ 0 + 135000 ≤ 135000 ∧ 188999 < 0 + 189000 ∧ (getPart (sliceState id) 0).slice.isSome = true ∧
    unsaved { sliceState id with b := { base.b with st := .switched }, w := { base.w with saved := false } } 1 0 = true ∧ unsaved (sliceState id) 1 7 = false ∧
    (0xFF : BitVec 8) &&& dieBits base 0 = dieBits base 0 ∧ (0x7F : BitVec 8) &&& dieBits base 0 ≠ dieBits base 0 ∧
    base.datum.coreBusy = false ∧ (143 : Nat) < 144 ∧ (getDie base 0).coreOff.getLsbD 143 = false ∧ gangsOn base 0 143 = [] ∧
    ({ getDie base 0 with coreOff := 1 } : Die).coreOff.getLsbD 0 = true := by decide +kernel

def bucketState (held : List HeldReq) : State := { pendWith fun r => { r with ready := false, holds := 1 } with
  buckets := [{ num := 0, rate := 2, burst := 8, en := true, tokens := -1, heldCount := 1, held := held }] }
def sampling : State := { base with parts := setAt base.parts 0 { getPart base 0 with smpN := 10 } }

theorem witness_MetersAndClocksAdvance : (base.buckets.find? fun b => b.num == 0 && b.en).isNone = true ∧
    ((bucketState []).buckets.find? fun b => b.num == 0 && b.en).isSome = true ∧ stillHeld (jobState 1 id) (.chunk 1 0) = true ∧
    ((bucketState [.load 2 0 1]).buckets.map fun b => (b.held, decide (0 < min (b.burst.toNat : Int) (b.tokens + b.rate.toNat)))) = [([.load 2 0 1], true)] ∧
    (((bucketState [.load 2 0 1]).w.pend.find? fun r => r.rid == 0).any fun r => r.holds == 1 && r.lineWaits == [] && r.lanesLeft == []) = true ∧
    (1023 : Nat) < 1024 ∧ (1024 : Nat) ≤ 1024 ∧ (2 ^ 63 : Word).getLsbD 63 = true ∧ 0 < base.parts.length ∧ (getPart base 0).smpN = 0 ∧
    (getPart sampling 0).smpN ≠ 0 ∧ (getPart sampling 0).vfnum ≠ 0 ∧ vfSlots sampling 1 = [(sampling.w, .a)] ∧
    ((getVf sampling 1).map fun v => v.policy.tsample) = some false ∧ base.tim.src = 0 ∧ (1 : BitVec 2) ≠ 0 ∧ base.tim.heard = none ∧
    10799999999 < 0 + 10800000000 ∧ 0 + 10800000000 ≤ 10800000000 ∧
    ((1000001 : Word).toNat : Int) - (gtime base).toNat > 1000000 ∧ ((1000000 : Word).toNat : Int) - (gtime base).toNat ≤ 1000000 := by decide +kernel

/-! Host requests, Datum commands, SPDM requests, management, steps. -/

def vf1 (f : Vf → Vf) : State := { base with vfs := [f { placedVf with tdi := .run, ide := true }] }
def theVf (s : State) : Vf := (getVf s 1).getD placedVf
/-- As base with a submission ring at VA 0x4000 whose entry 0 is these bytes. -/
def ringOf (entry : List Byte) (f : Vf → Vf) : State :=
  { vf1 (fun v => f { v with hif := { v.hif with sqBase := 0x4000, cqBase := 0x8000, sqLog2 := 4, cqLog2 := 4, enable := true, sqTail := 1 }
                             trn := { v.trn with fqBase := 0xC000, fqLog2 := 4, fqEnable := true } }) with mem := writeBytes base.mem 0x4000 entry }
def entryOf (record : List Byte) (type : Byte) : List Byte := record ++ [type] ++ List.replicate 63 0
def theHead (s : State) : List Byte := match headEntry s (theVf s) with | .ok bs => bs | .error _ => []
def piece0 : Piece :=
  { seq := 5, num := 0, route := .dispatcher, addr := 0, bytes := [], vf := 1, door := none, relaxed := false, forwarded := true }
def withPiece (p : Piece) : State := { ringOf [] id with ords := [{ nextSeq := 6, pieces := [p], waits := [] }, { nextSeq := 0, pieces := [], waits := [] }] }
def yielded : State := { withPiece { piece0 with door := some (false, 6) } with
  w := { base.w with slotA := { base.w.slotA with st := .yielded, yieldRec := some { va := 0, cause := 0 } } } }

/-- Writes and reads at the first and last byte of a page, translated and not; a VF that is not in RUN; a piece of each kind; an entry
of each TYPE, a faulting one and one whose unused bytes are not zero. -/
theorem witness_HostRequestsAreServed :
    (served base 1 = false ∧ served (vf1 id) 1 = true ∧ (theVf (vf1 id)).link = 0 ∧ (getOrd (vf1 id) 0).pieces = [] ∧ 0 < (vf1 id).ords.length ∧
      (0 : Nat) % 4096 + (List.replicate 4096 (1 : Byte)).length ≤ 4096 ∧ (4095 : Nat) % 4096 + [(1 : Byte)].length ≤ 4096 ∧
      hasPoison (vf1 id) 4095 1 = false ∧
      4096 ≤ (getOrd { vf1 id with ords := [{ nextSeq := 0, pieces := List.replicate 4096 piece0, waits := [] }] } 0).pieces.length ∧
      (match translate (vf1 id) 1 4095 1 with | .ok (_, seg, _) => decide (seg < 2) | .error _ => false) = true ∧
      (translate (vf1 id) 1 (BitVec.ofNat 64 (2 ^ 39)) 1).isOk = false ∧ (translate (vf1 id) 1 (BitVec.ofNat 64 (2 ^ 39)) 0).isOk = false ∧
      (match translate (vf1 id) 1 4095 0 with | .ok (_, seg, _) => decide (seg < 2) | .error _ => false) = true) ∧
    ((getOrd (withPiece piece0) 0).pieces = [piece0] ∧ served (withPiece piece0) 1 = true ∧ (withPiece piece0).ckp.began = false ∧
      (withPiece piece0).mem.wf = true ∧ ((theVf (withPiece piece0)).hif.fault = false ∧ (theVf (withPiece piece0)).st ≠ .stopped) ∧
      2 ^ (4 : BitVec 5).toNat < ((fld (17 : Word) 0 32 : BitVec 32) - 0).toNat ∧ ¬ 2 ^ (4 : BitVec 5).toNat < ((fld (16 : Word) 0 32 : BitVec 32) - 0).toNat ∧
      fld (6 : Word) 0 3 = (6 : BitVec 3) ∧ (getWarp yielded 2).isSome = true ∧ warpVf yielded yielded.w = 1 ∧
      (slotOf yielded.w .a).st = .yielded ∧ (allWarps yielded).map (·.uid) = [2] ∧
      ((slotOf yielded.w .a).yieldRec.map fun r => decide (0 ≤ r.va.toNat ∧ r.va.toNat < 2 ^ 30)) = some true) ∧
    (ringReady (theVf base) = false ∧ ringReady (theVf (ringOf [] id)) = true ∧
      (headEntry (ringOf [] fun v => { v with hif := { v.hif with sqBase := BitVec.ofNat 64 (2 ^ 39) } })
        (theVf (ringOf [] fun v => { v with hif := { v.hif with sqBase := BitVec.ofNat 64 (2 ^ 39) } }))).isOk = false ∧
      byteField (theHead (ringOf [] id)) 64 1 = 0 ∧ entryClean (theHead (ringOf [] id)) = true ∧ entryClean (theHead (ringOf [1] id)) = false ∧
      (let s := ringOf (entryOf (recordOfKernel 1) 1) fun v => { v with policy := { v.policy with hashes := [[]] } }
       byteField (theHead s) 64 1 = 1 ∧ entryClean (theHead s) = true ∧ launchResult s ((theHead s).take 64) = none) ∧
      (let s := ringOf (entryOf (recordOfKernel 2) 1) id
       byteField (theHead s) 64 1 = 1 ∧ entryClean (theHead s) = true ∧ launchResult s ((theHead s).take 64) ≠ none) ∧
      2 < byteField (theHead (ringOf (entryOf (List.replicate 64 0) 3) id)) 64 1 ∧
      byteField (theHead (ringOf (entryOf (List.replicate 64 0) 2) id)) 64 1 = 2 ∧
      entryClean (theHead (ringOf (entryOf (List.replicate 64 0) 2) id)) = true ∧
      entryClean (theHead (ringOf (entryOf (List.replicate 32 0 ++ List.replicate 32 1) 2) id)) = false) ∧
    (let s := ringOf [] fun v => { v with hif := { v.hif with waiting := [[1]] }, trn := { v.trn with waiting := [{ (default : FaultRec) with va := 1 }] } }
     (theVf s).st = .running ∧ (theVf s).hif.waiting = [[1]] ∧ (theVf s).hif.enable = true ∧ ((theVf s).hif.cqTail - (theVf s).hif.cqHead).toNat < 2 ^ (theVf s).hif.cqLog2.toNat ∧
      (translate s 1 0x8000 1).isOk = true ∧ ([] : List (List Byte)).length ≠ 256 ∧ s.mem.wf = true ∧ (theVf s).trn.waiting.length = 1 ∧
      (translate s 1 0xC000 1).isOk = true ∧
      2 ^ (4 : BitVec 5).toNat ≤ ((16 : BitVec 32) - 0).toNat ∧ ((15 : BitVec 32) - 0).toNat < 2 ^ (4 : BitVec 5).toNat) ∧
    ((0x80001004 : Word).getLsbD 31 = true ∧ (fld (0x80001004 : Word) 0 5 : BitVec 5) = 4 ∧ (fld (0x80001004 : Word) 8 5 : BitVec 5) = 16 ∧
      (theVf (vf1 id)).hif.enable = false ∧ (theVf (vf1 id)).trn.fqEnable = false ∧ (theVf (vf1 id)).trc.enable = false ∧
      (theVf (vf1 id)).policy.tpmc = true ∧ (theVf (vf1 id)).policy.tsample = false ∧ (theVf (ringOf [] id)).hif.enable = true) :=
  ⟨by decide +kernel, by decide +kernel, by decide +kernel, by decide +kernel, by decide +kernel⟩

def cmd (body out : Nat) (p0 p1 : Word) : DtmCmd :=
  { pf := 0, dest := false, seq := 0, handle := 1, bodyAddr := 0, bodyLen := BitVec.ofNat 32 body, outLen := BitVec.ofNat 32 out, outAddr := 0
    p0 := p0, p1 := p1, p2 := 0 }
/-- A policy of no kernel and no measurement, version 2. -/
def policyBytes : List Byte :=
  toBytes 4 0x01504B4C ++ toBytes 4 184 ++ toBytes 8 2 ++ List.replicate 64 0 ++ toBytes 8 (2 ^ 31) ++ toBytes 8 0 ++ toBytes 8 65536 ++
    [0, 0, 1, 32, 0, 0x30, 0xFF, 0xFF] ++ List.replicate 72 0
def reportBytes : List Byte := toBytes 4 0x01414B4C ++ List.replicate 284 0
def hosting (bytes : List Byte) : State := { base with mem := writeBytes base.mem (hostBase 0) bytes }

/-- A policy and a report are accepted when their signatures verify, which is a constant without a body. -/
theorem policy_accepted (h : verifies (List.replicate 64 0) (List.replicate 64 0) (policyBytes.take 120) = true) :
    acceptPolicy (bodyOf (hosting policyBytes) (cmd 184 0 0 0x100)) = .ok (policyOf policyBytes) := by
  have hb : bodyOf (hosting policyBytes) (cmd 184 0 0 0x100) = policyBytes := by decide +kernel
  rw [hb]
  have hk : (policyOf policyBytes).key = List.replicate 64 0 := by decide +kernel
  have hd : policyBytes.drop (policyLen policyBytes - 64) = List.replicate 64 0 := by decide +kernel
  have ht : policyBytes.take (policyLen policyBytes - 64) = policyBytes.take 120 := by decide +kernel
  have h1 : ¬(policyBytes.length < 184 ∨ byteField policyBytes 0 4 ≠ 0x01504B4C ∨ byteField policyBytes 4 4 ≠ policyLen policyBytes ∨
      policyBytes.length ≠ policyLen policyBytes) := by decide +kernel
  have h2 : ¬((policyOf policyBytes).hbmMax % 65536 ≠ 0 ∨ (policyOf policyBytes).ctxBytes % 65536 ≠ 0 ∨ (policyOf policyBytes).ctxBytes < 65536 ∨
      (policyOf policyBytes).bankCount = 0 ∨ 256 < (policyOf policyBytes).bankBase + (policyOf policyBytes).bankCount ∨
      32 < (policyOf policyBytes).bplaneKib ∨ 128 ≤ byteField policyBytes 109 1 ∨ 256 < byteField policyBytes 116 2 ∨
      8 < byteField policyBytes 118 1 ∨ byteField policyBytes 119 1 ≠ 0) := by decide +kernel
  simp only [acceptPolicy, if_neg h1, if_neg h2, hk, hd, ht, h, Bool.not_true, Bool.false_eq_true, if_false]

theorem report_admitted (hc : deviceKey (List.replicate 64 0) = true)
    (h : verifies (List.replicate 64 0) (List.replicate 64 0) (reportBytes.take 224) = true) :
    reportAdmitted placedPolicy (bodyOf (hosting reportBytes) (cmd 288 0 0 0)) = true := by
  have hb : bodyOf (hosting reportBytes) (cmd 288 0 0 0) = reportBytes := by decide +kernel
  have hk : (reportBytes.drop 160).take 64 = List.replicate 64 0 := by decide +kernel
  have hd : (reportBytes.drop 224).take 64 = List.replicate 64 0 := by decide +kernel
  have h1 : (byteField reportBytes 0 4 == 0x01414B4C && byteField reportBytes 4 1 == 0) = true := by decide +kernel
  rw [hb, reportAdmitted, hk, hd, h, h1, hc]
  decide +kernel

/-- A VF on no core, in the life-cycle state st. -/
def alone (f : Vf → Vf) : State := { State.reset with vfs := [f placedVf], mem := [] }
def migrating (m : Migration) : Migration := { m with dest := false, first := false, dirty := [], seq := 0, segLens := [], ran := false }
def source (st : VfState) : State := alone fun v => { v with st := st, migration := some (migrating default), policy := { v.policy with migrate := true, precopy := true } }

/-- A free mailbox and a BUSY one; a map of one partition and of dies that do not join; a VF in each life-cycle state of a clause. -/
theorem witness_DatumCommandsAnswer :
    ((getBox base 0).busy = false ∧ 0 < base.datum.boxes.length ∧ base.datum.queue = [] ∧ base.ckp.busy = false ∧ base.datum.working = false ∧
      headerOkFor { handle := true, p0 := 0xFF } (cmd 0 0 0xFF 0) = true ∧ hostReachable (cmd 0 0 0xFF 0) = true ∧
      headerOkFor { handle := true } (cmd 1 0 0 0) = false ∧
      (getBox { base with datum := { base.datum with boxes := base.datum.boxes.map fun b => { b with busy := true } } } 0).busy = true) ∧
    (vfOf base 1).isSome = true ∧ vfOf base 7 = none ∧ freeKey base = some 1 ∧ partDies base 0 ≠ [] ∧ getVf base 64 = none ∧
    (exceeds (alone fun v => { v with st := .paused }) (theVf base) (policyOf policyBytes) = none ∧ placedPolicy.version < (policyOf policyBytes).version) ∧
    ((vfOf (source .stopped) 1).map (·.st)) = some .stopped ∧
    ((vfOf (alone fun v => { v with st := .paused }) 1).map fun v => (v.st, v.segs.length, v.migration.isSome)) = some (.paused, 4, false) ∧
    (getOrd base 0).pieces = [] ∧ ((theVf base).segs.getD 1 none) = none ∧ (0x200 : Word).getLsbD 9 = true ∧
    (segmentFault base (theVf base) 1 0 0 1).isSome = true ∧
    (segmentFault (alone fun v => { v with policy := { v.policy with tierMax := 65536 } })
      (theVf (alone fun v => { v with policy := { v.policy with tierMax := 65536 } })) 1 0 65536 1).isNone = true ∧
    ((0 : BitVec 8).toNat < ({ placedPolicy with minShare := 1 } : Policy).minShare ∧ placedPolicy.minShare ≤ (255 : BitVec 8).toNat ∧
      shareSum base.vfs 0 - (theVf base).share.toNat + (255 : BitVec 8).toNat ≤ 256) ∧
    ((allWarps (alone id)).all (·.uid == 0) = true ∧ (allBlocks (alone id)).all (·.uid == 0) = true ∧ (alone id).inflight = [] ∧
      (alone id).ords.all (·.pieces == []) = true ∧ quiet (alone id) 1 = true) ∧ (theVf (alone id)).hif.enable = false ∧
    contextSize (alone id) 1 ≤ placedPolicy.ctxBytes ∧ placedPolicy.ctxBytes < contextSize base 1 ∧
    ((base.gangs.map fun g => (g.vf, g.blocks)) = [(1, [1])]) ∧ peered base (theVf base) = false ∧ placedPolicy.migrate = false ∧
    2 ^ 20 ≤ (BitVec.ofNat 32 (2 ^ 20)).toNat ∧
    (dirtyPages (theVf (source .paused)) (migrating default) = [] ∧ 0 * 65600 ≤ (cmd 0 64 0 0).outLen.toNat ∧
      recordSize (source .paused) (theVf (source .paused)) = 768 ∧
      (cmd 0 767 0 0).outLen.toNat < stopBytes (source .running) (theVf (source .running)) (migrating default)) ∧
    ((alone id).mem.wf = true ∧ (theVf (alone id)).ctx.all (partIntact (alone id) (theVf (alone id))) = true ∧ State.reset.datum.retired = []) ∧
    (mapLegal (dieMap 0) = true ∧ mapLegal (dieMap 2) = false ∧ State.reset.vfs = [] ∧ State.reset.mem = [] ∧ State.reset.dirs = [] ∧
      State.reset.dies.all (·.l2 == []) = true) ∧
    ((cmd 32 288 0 0).bodyLen = 32 ∧ (cmd 32 288 0 0).outLen.toNat = 288 ∧ (cmd 32 287 0 0).outLen.toNat < 288) := by decide +kernel

def spdmAt (x : Spdm) : State := { vf1 id with datum := { base.datum with spdm := [x, .reset] } }
def negotiatedSpdm : Spdm :=
  { version := true, capabilities := true, algorithms := true, answers := []
    sessions := [{ id := 1, finished := true, generation := 0, ide := [1] }, { id := 2, finished := false, generation := 0, ide := [] }] }

theorem witness_SpdmRequestsAnswer : base.datum.spdm.length = 2 ∧ (getSpdm base 0).version = false ∧ (spdmAt negotiatedSpdm).datum.spdm.length = 2 ∧
    (getSpdm (spdmAt negotiatedSpdm) 0).algorithms = true ∧ findSession (spdmAt negotiatedSpdm) 0 3 = none ∧
    ((findSession (spdmAt negotiatedSpdm) 0 1).map (·.finished)) = some true ∧ ((findSession (spdmAt negotiatedSpdm) 0 2).map (·.finished)) = some false ∧
    vfOf (spdmAt negotiatedSpdm) 9 = none ∧ ((vfOf (spdmAt negotiatedSpdm) 1).map fun v => (v.handle, v.ide, v.tdi)) = some (1, true, .run) ∧
    ((vfOf { spdmAt negotiatedSpdm with vfs := [{ placedVf with ide := true, st := .paused }] } 1).map fun v =>
      (v.handle, v.ide, v.tdi, v.st == .paused && (v.segs.getD 0 none).isSome)) = some (1, true, .unlocked, true) := by decide +kernel

/-- Lane 0 of a channel after retries in the transfer in progress, lane 9 after others, and n swapped lanes. -/
def laneAt (caused other retries swapped : Nat) : State :=
  let lane (i c r : Nat) (x : Bool) : HbmLane := { die := 0, stack := 0, channel := 0, lane := i, retries := r, caused := c, swapped := x }
  { base with sal := { base.sal with
      hbm := lane 0 caused retries false :: lane 9 other 8 false :: (List.range swapped).map fun i => lane (i + 1) 0 8 true } }
def logging : State := { base with sal := { base.sal with pending := [laneEntry base 0 0 0 0 0] } }
/-- A module in step k of its boot, whose altered steps are the bits of a mask. -/
def bootAt (k : Nat) (altered : BitVec 9) (image : Option CkpImage) : State := { State.reset with
  sal := { State.reset.sal with bootStep := k, altered := altered, journal := (List.range 9).map fun i => if i + 1 < k then 2 else if i + 1 = k then 1 else 0 }
  ckp := { State.reset.ckp with image := image } }
/-- A checkpoint begun at cycle 0, with the cycle at which it ends. -/
def streaming (c : Option Nat) : State := { State.reset with ckp := { State.reset.ckp with busy := true, began := true, ends := c } }

theorem image_installs (h : Sys2Proof.Config.imageSigned [] = true) (hv : 1 ≤ (Sys2Proof.Config.imageVersion []).toNat) : imageStatus State.reset = 0 := by
  have h1 : offeredImage State.reset = some [] := by decide +kernel
  have h2 : State.reset.sal.fwCounter.toNat = 1 := by decide +kernel
  simp [imageStatus, h1, h, h2, Nat.not_lt.mpr hv]

/-- An image that names this firmware and carries the tags of what it restores. -/
theorem image_whole (x : CkpImage) (s : State) (h1 : x.fwDigest = fwDigest s) (h2 : x.wrapped = Sys2Proof.Config.wrapKeys (fwDigest s) x.keys)
    (h3 : x.tags = blockTags (restoreImage s x)) (h4 : s.poisoned = []) : imageWhole s x (restoreImage s x) = true := by
  rw [imageWhole, h1, h2, h3, h4]; simp

theorem image_damaged (x : CkpImage) (s t : State) (h : (s.poisoned.any inReserve) = true) : imageWhole s x t = false := by
  simp [imageWhole, h]

/-- A page that is no VF's and not the Datum's is not protected, and its lines are under no key. -/
theorem page_open (h : Sys2Proof.Config.datumPage (2 ^ 31 / 65536) = false) : lineKey base (2 ^ 24) = none ∧
    ((pageRuns 65536 (2 ^ 31) 1 3).all fun r => !protectedAddr base r.1) = true := by
  have h1 : (pageRuns 65536 (2 ^ 31) 1 3) = [(2 ^ 31, 1)] := by decide +kernel
  have h2 : (base.vfs.any fun v => (pageOfVf base v (2 ^ 31)).isSome) = false := by decide +kernel
  have h3 : (!base.ckp.nores && inReserve (2 ^ 31)) = false := by decide +kernel
  have h4 : (base.vfs.find? fun v => (pageOfVf base v (2 ^ 24 * 128)).isSome) = none := by decide +kernel
  have h5 : (2 ^ 24 * 128 / 65536 : Nat) = 2 ^ 31 / 65536 := by decide
  have h6 : base.datum.retired = [] := by decide +kernel
  constructor
  · rw [lineKey]; simp only [h4, h5, h, h6]; rfl
  · rw [h1]; simp only [List.all_cons, List.all_nil, protectedAddr, h2, h3, h]; rfl

/-- A transfer at its 7th and its 8th retry, a lane below and at count 8, with 1 and 2 spares used; sensors at, above and past their limits,
throttling and not; the stages of a checkpoint; each step of a boot, normal and altered; firmware states; a page of a VF and one of none at
the end of the BAR. -/
theorem witness_ManagementActs : (logging.sal.pending.length = 1) ∧
    (let made (s : State) := ((s.sal.hbm.filter fun y => onChannel 0 0 0 y && y.lane != 0).map (·.caused)).sum + ((findLane s 0 0 0 0).map (·.caused)).getD 0 + 1
     (made (laneAt 3 3 7 0), made (laneAt 4 3 7 0)) = (7, 8) ∧ swapDue { die := 0, stack := 0, channel := 0, lane := 0, retries := 8, caused := 5, swapped := false } = true) ∧
    ((findLane (laneAt 4 3 7 0) 0 0 0 0).map (·.retries), (findLane (laneAt 4 3 8 0) 0 0 0 0).map (·.retries)) = (some 7, some 8) ∧
    ((laneAt 0 0 8 1).sal.hbm.filter fun y => onChannel 0 0 0 y && y.swapped).length = 1 ∧
    ((laneAt 0 0 8 2).sal.hbm.filter fun y => onChannel 0 0 0 y && y.swapped).length = 2 ∧
    (base.sal.sensors.length = 32 ∧ sensorState base 0 0 95 = 0 ∧ sensorState base 0 1 95 = 1 ∧ sensorState base 0 0 96 = 1 ∧
      sensorState base 7 0 105 ≠ 2 ∧ sensorState base 7 0 106 = 2 ∧ sensorDies 0 ≠ []) ∧
    ({ base.ckp with nores := true } : Ckp).nores = true ∧ base.ckp.nores = false ∧ base.ckp.began = false ∧
    ({ base.datum with working := true } : Datum).working = true ∧
    ((streaming none).ckp.ends = none ∧ allSaved (streaming none) = true ∧ allSaved { base with ckp := (streaming none).ckp } = false ∧
      (streaming (some 5)).ckp.ends = some 5 ∧ (streaming (some 5)).cycle < 5 ∧ (streaming (some 0)).cycle ≥ 0 ∧
      (streaming none).ckp.resume = [] ∧ (streaming none).datum.queue = []) ∧
    (State.reset.sal.ready = false ∧ State.reset.sal.recovery = false ∧ State.reset.sal.bootStep = 0 ∧ State.reset.sal.journal.length = 9 ∧
      booting State.reset = false ∧ State.reset.ckp.image = none) ∧
    ((List.range 9).all fun i => booting (bootAt (i + 1) 0 none) && !stepAltered (bootAt (i + 1) 0 none) (i + 1) &&
      stepAltered (bootAt (i + 1) (-1) none) (i + 1) && (bootAt (i + 1) 0 none).sal.journal.length == 9) = true ∧
    (State.reset.sal.fwValid = true ∧ booting { bootAt 1 0 none with sal := { (bootAt 1 0 none).sal with fwValid := false } } = true) ∧
    (base.sal.updBusy = false ∧ imageStatus { base with sal := { base.sal with updLen := 0xFFFFFFFF } } = 4) ∧
    2 ^ 42 < 2 ^ 42 + [(1 : Byte)].length ∧ 2 ^ 42 - 1 + [(1 : Byte)].length ≤ 2 ^ 42 ∧
    (let s : State := { base with sal := { base.sal with ready := true } }
     (getOrd s 0).waits = [] ∧ (getOrd s 0).pieces = [] ∧ 0 < s.ords.length ∧
     ((pageRuns 65536 0 1 3).any fun r => protectedAddr s r.1) = true ∧
     4096 < (List.replicate 4097 (0 : Byte)).length) ∧
    (0x3FFFFFF : Nat) < 0x4000000 ∧ (0x3FFF : Nat) < 0x4000 ∧ (base.sal.rates.getD 0 0 = 0) ∧ ([1280, 1280] : List Nat).getD 1 0 ≠ 0 ∧
    served (vf1 id) 1 = true ∧ (theVf (vf1 id)).hif.enable = false ∧ 7 < base.parts.length ∧
    (1000 ≤ (fld (1000 : Word) 0 12 : BitVec 12).toNat ∧ 3600 < (fld (3601 : Word) 0 12 : BitVec 12).toNat) ∧
    (let s : State := { base with sal := { base.sal with power := [(0, 1001)] } }
     (1000 : Int) < powerMean s ∧ powerMean { s with sal := { s.sal with power := [] } } < 1000) := by decide +kernel

/-- NOP, a word of no instruction, a slot whose PC is not mapped, and a slot in a recipe. -/
def wordNop : State := place State.reset false ((encode .nop).getD 0).toNat
def wordNone : State := place State.reset false 1

theorem witness_StepRunsTheDecodedInstruction :
    (choose (tick wordNop)).1 = .slot 2 .a ∧ (choose (tick base)).1 = .slot 2 .a ∧ (choose (tick streamBase)).1 = .stream 1 ∧
    (choose (tick State.reset)).1 = .idle ∧
    (let s : State := { base with agenda := [.checkpoint], cycle := 1 }
     (tick s).agenda = [.checkpoint] ∧ (tick s).cycle % 2 = 0 ∧ (choose (tick s)).1 = .event .checkpoint ∧
     (choose (tick { s with cycle := 0 })).1 = .slot 2 .a) ∧
    (let s : State := { streamBase with cycle := 2 }
     (tick s).cycle % 4 = 3 ∧ (nextStream (tick s)).map (·.2) = some 1 ∧ (choose (tick s)).1 = .stream 1) ∧
    (match fetchSlot (prepare (choose (tick wordNop)).2 2 .a) with | .ok w => (decode false w).isOk | .error _ => false) = true ∧
    (match fetchSlot (prepare (choose (tick wordNone)).2 2 .a) with | .ok w => !(decode false w).isOk | .error _ => false) = true ∧
    (fetchSlot (prepare (choose (tick (ofSlot fun x => { x with pc := BitVec.ofNat 64 (2 ^ 39) }))).2 2 .a)).isOk = false ∧
    runningRecipe (prepare (choose (tick wordNop)).2 2 .a) = none ∧
    (let x := prepare (choose (tick wordNop)).2 2 .a
     fetchPoison x x.b (fetchPc x) = false ∧ fetchPoison { x with poisoned := [0x2000] } x.b (fetchPc x) = true) ∧
    (let x := focusStream (choose (tick streamBase)).2 1
     fetchPoison x x.b 0x2000 = false ∧ fetchPoison { x with poisoned := [0x2000] } x.b 0x2000 = true) ∧
    (recipeMay ((encode .nop).getD 0) = false ∧ recipeMay ((encode (.dup 0 false (.age 0))).getD 0) = true) ∧
    (match fetchWord (focusStream (choose (tick streamBase)).2 1) (focusStream (choose (tick streamBase)).2 1).b 0x2000 with
      | .ok w => !(decode true w).isOk | .error _ => false) = true := by decide +kernel

theorem witness_RegisterReadsAnswer : served base 1 = false ∧ served (vf1 id) 1 = true ∧ (getVf (vf1 id) 1).isSome = true ∧ (7 : Nat) < 8 ∧
    lineKey base 0 = some 0 ∧ (let s : State := { base with sal := { base.sal with ready := true, rates := [1280, 0] } }
      s.sal.rates.getD 0 0 ≠ 0 ∧ s.sal.rates.getD 1 0 = 0 ∧ s.sal.ready = true) ∧ base.sal.ready = false := by decide +kernel

theorem witness_DecodeOfEncode : wf .nop = true ∧ ∃ w, encode .nop = some w := ⟨by decide, isSome_some (by decide)⟩

theorem next_some {o : Host.Outcome State Fault Refusal} (h : (match o with | .next _ => true | _ => false) = true) : ∃ t, o = .next t :=
  match o, h with
  | .next t, _ => ⟨t, rfl⟩

theorem witness_StepKeepsTheInvariant : base.mem.wf = true ∧ ∃ t, step State.reset = .next t :=
  ⟨by decide +kernel, next_some (by decide +kernel)⟩

theorem witness_OnlyAccessesOutsideTheBarStop : (tick base).agenda = [] := by decide +kernel

/-! Results of one instruction on small states, worked out from the spec's rules. -/

/-- As base with the given entries as every lane's queue. -/
def queued (vs : List (Word × Ty)) : State := { base with
  w := { base.w with lanes := List.replicate 32 { queue := vs.map valued ++ List.replicate (8 - vs.length) (valued (0, .n32)), frame := [], rngctr := 0 } } }
/-- Values and tags of the two newest entries of lane 31 after an instruction. -/
def top (i : Instr) (s : State) : List (Word × Ty) := match exec i s with
  | .next t => ((t.w.lanes.getD 31 { queue := [], frame := [], rngctr := 0 }).queue.take 2).map fun e => (e.val, e.tag)
  | _ => []
def h (ty : Ty) : VHead := ⟨0, false, ty⟩

/-- 0x7FFFFFFF + 1 wraps, and saturates with SAT (R208). -/
theorem test_iadd_wraps : top (.iadd (h .i32) false (.age 0) (.age 1)) (queued [(0x7FFFFFFF, .i32), (1, .i32)]) = [(0xFFFFFFFF80000000, .i32), (0x7FFFFFFF, .i32)] ∧
    (top (.iadd (h .i32) true (.age 0) (.age 1)) (queued [(0x7FFFFFFF, .i32), (1, .i32)])).head? = some (0x7FFFFFFF, .i32) := by decide +kernel

/-- ISUB is A minus B: 3 - 5 = -2 (R208). -/
theorem test_isub_order : (top (.isub (h .i32) false (.age 0) (.age 1)) (queued [(3, .i32), (5, .i32)])).head? = some (0xFFFFFFFFFFFFFFFE, .i32) := by decide +kernel

/-- 1.5 + 2.25 = 3.75 (R211). -/
theorem test_fadd : (top (.fadd (h .f32) .rne false false (.age 0) (.age 1)) (queued [(0x3FC00000, .f32), (0x40100000, .f32)])).head? =
    some (0x40700000, .f32) := by decide +kernel

/-- The smallest normal number times 0.75 is subnormal and exact (R211). -/
theorem test_fmul_subnormal : (top (.fmul (h .f32) .rne false false (.age 0) (.age 1)) (queued [(0x00800000, .f32), (0x3F400000, .f32)])).head? =
    some (0x00600000, .f32) := by decide +kernel

/-- POPC of 0xFF00FF00 is 16; CLZ of 1 is 31; BREV of 1 is 0x80000000 (R209). -/
theorem test_bit_counts : (top (.popc (h .n32) (.age 0)) (queued [(0xFF00FF00, .n32)])).head?.map (·.1) = some 16 ∧
    (top (.clz (h .n32) (.age 0)) (queued [(1, .n32)])).head?.map (·.1) = some 31 ∧
    (top (.brev (h .n32) (.age 0)) (queued [(1, .n32)])).head?.map (·.1) = some 0x80000000 := by decide +kernel

/-- An operand of another tag in check mode traps TAG_MISMATCH; without a handler the launch is aborted (Table 04-4, R39). -/
theorem test_tag_trap : (match exec (.iadd (h .i32) false (.age 0) (.age 1)) (queued [(1, .f32), (1, .i32)]) with
    | .next t => t.launches.map Launch.aborted | _ => []) = [true] := by decide +kernel

/-- A branch of +2 words from VA 0x2000 (R178). -/
theorem test_bra : (match exec (.bra 2) base with | .next t => t.w.slotA.pc == 0x2010 | _ => false) = true := by decide +kernel

/-- A VF whose context area has room for a slot's part, and one whose area has none; causes of classes 6 and 7 and of another. -/
theorem witness_TrapsAreTaken_slots : base.poisoned = [] ∧
    ((getVf base 1).map fun v => (areaSlot v (slotBytes base), areaSlot { v with policy := { v.policy with ctxBytes := 0 } } (slotBytes base))) =
      some (some 0, none) ∧
    fld (0x181 : BitVec 10) 6 4 = (6 : BitVec 4) ∧ fld (0x1C0 : BitVec 10) 6 4 = (7 : BitVec 4) ∧ fld (0x040 : BitVec 10) 6 4 = (1 : BitVec 4) := by
  decide +kernel

/-- The record of JOIN 3 as the third of the stack, in a kernel of four records, with its stack mapped and not. -/
def deepJoin (st : DivState) (stack : Nat) : State := { atJoin st 2 with
  w := { (atJoin st 2).w with
    div := List.replicate 2 { pc := 0, jid := 9, st := .exited, tslot := .b, ptaken := true, mask := 0, base := 0, count := 0, owner := .b, windows := [] } ++
      (atJoin st 2).w.div }
  b := { (atJoin st 2).b with kernel := { (atJoin st 2).b.kernel with ndiv := 4, stkBase := BitVec.ofNat 64 stack } } }
def thirdRecord (st : DivState) : DivRec := (deepJoin st 0).w.div.getD 2 default

/-- What memory holds is read back, or its page is not mapped; records are replaced and removed. -/
theorem witness_JoinMergesThePaths_memory :
    (fillJoin (atJoin .parked 0) 3).isOk = true ∧ (fillJoin (deepJoin .arrived 0x8000) 3).isOk = true ∧
    trapped (fillJoin (deepJoin .arrived (2 ^ 39)) 3) = true ∧ trapped (putDiv (deepJoin .parked (2 ^ 39)) 2 (thirdRecord .parked)) = true ∧
    (putDiv (deepJoin .parked 0x8000) 2 (thirdRecord .parked)).isOk = true ∧ (popDiv (deepJoin .arrived 0x8000) 2).isOk = true ∧
    (popDiv (atJoin .arrived 2) 0).isOk = true ∧ (popDiv otherAtJoin 0).isOk = true ∧ (popDiv (atJoin .exited 0) 0).isOk = true := by decide +kernel

/-- An activation that is held or in memory, which is mapped or not; a core whose rows hold the activations. -/
theorem witness_CallsAndReturns_rows : heldRows (withCall rich 0) ≤ freeRows (withCall rich 0) ∧
    (let s (stack : Nat) : State := { inCall 0 with
       b := { (inCall 0).b with kernel := { (inCall 0).b.kernel with stkBase := BitVec.ofNat 64 stack, warps := 64, depth := 32, frame := 32 } } }
     trapped (spillOldest 2 (withCall (s (2 ^ 39)) 0)) = true ∧ (spillOldest 2 (withCall (s 0x8000) 0)).isOk = true ∧
     freeRows (withCall (s 0x8000) 0) < heldRows (withCall (s 0x8000) 0) ∧
     trapped (fillBytes (s (2 ^ 39)) (actAddr (s (2 ^ 39)) []) 64) = true ∧ (fillBytes (s 0x8000) (actAddr (s 0x8000) []) 64).isOk = true) := by decide +kernel

/-- The other path runs, or waits at the JOIN with the pushes it declared; a record of which one path is left. -/
theorem witness_ExitRemovesTheLanes_both : ready otherAtJoin ∧
    ((recordOf .a otherAtJoin.w.div).map fun x => (x.1, x.2.st)) = some (0, .both) ∧ (slotOf otherAtJoin.w .b).mask ≠ 0 ∧
    (slotOf otherAtJoin.w .b).st = .joinwait 3 2 0 ∧ (slotOf otherAtJoin.w .b).cnt - 3 = 2 ∧ (popDiv otherAtJoin 0).isOk = true ∧
    (putDiv otherAtJoin 0 (otherAtJoin.w.div.getD 0 default)).isOk = true ∧
    (let s : State := { otherAtJoin with w := { otherAtJoin.w with slotB := { otherAtJoin.w.slotB with st := .run } } }
     (slotOf s.w .b).st = .run ∧ (recordOf .a s.w.div).isSome = true) ∧
    (let s : State := { atJoin .exited 0 with w := { (atJoin .exited 0).w with slotB := otherAtJoin.w.slotB } }
     ((recordOf .a s.w.div).map fun x => (x.1, x.2.st)) = some (0, .exited) ∧ (slotOf s.w .b).mask ≠ 0 ∧
     (match popDiv s 0 with | .ok t => recordOf .a t.w.div == none | .error _ => false) = true) :=
  ⟨⟨rfl, rfl⟩, by decide +kernel⟩

theorem witness_MaskInstructions_mset : ∃ x, readB rich (active rich 2) .one .bool .raw = .ok x := isOk_some (by decide +kernel)

/-- Finite operands whose results do not overflow; elements all finite, one of them not, all zero; a Q4N row with its super-scale. -/
theorem witness_ListedFloatValues_rounds : Ty.bf16 ∈ [Ty.f64, .f32, .f16, .bf16] ∧ Rm.rdn ≠ .sr ∧ 2 ^ 53 - 1 < (2 : Nat) ^ 53 ∧
    (fSqrt .f32 .rne false (.fin false 2 0)).2 &&& fOF = 0 ∧ (fRnd .f32 .rne false (.fin false 3 (-1))).2 &&& fOF = 0 ∧
    (fAdd .f32 .rne false (.fin false 1 0) (.fin false 1 (-60))).2 &&& fOF = 0 ∧
    unpack .f32 (fAdd .f32 .rne false (.fin false 1 (-140)) (.fin true 1 (-149))).1 ≠ .inf false ∧
    (List.replicate 32 (FVal.fin false 1 0)).length = 32 ∧ (List.replicate 32 (FVal.fin false 1 0)).all isFin = true ∧
    isFin (.inf false) = false ∧ mantOf (.fin true 0 0) = 0 ∧ (List.replicate 64 (FVal.fin false 1 0)).length = 64 ∧
    isInt .n64 = true ∧ isFloat .f16 = true := by decide +kernel

theorem witness_ListedFloatValues_q4n : ∀ v ∈ List.replicate 64 (FVal.fin false 1 0), absRat (ratVal v) ≤ ratOf false 1 0 := by
  intro v hv
  rw [List.eq_of_mem_replicate hv]
  decide +kernel

/-- As s with a release store of the current warp in flight at address 0. -/
def releasing (s : State) : State := storing s [{ storeAt 9 0 0 [1, 1, 1, 1] with sync := true }]
/-- As base with line 0 in the die's L2, owned. -/
def near : State := lined 0 base
def load0 : MArgs := ⟨0, 0, false, .f32, .zero, 0⟩

/-- A line that the die holds and one that it lacks; lane 0 alone; a load behind a release store of its location, and one that is not. -/
theorem witness_LoadsPendTheirValues_homes :
    (∃ a xs, readA base .zero .addr .f32 = .ok a ∧ checkLanes base (active base 0) a 0 4 0 true = .ok xs ∧
      (loadAsks (cacheAll base xs) plainBound false xs != [] && loadAsks (cacheAll near xs) plainBound false xs == []) = true) ∧
    (∃ a xs, readA { rich with dies := near.dies } .zero .addr .f32 = .ok a ∧ checkLanes { rich with dies := near.dies } (active rich 2) a 0 4 0 true = .ok xs ∧
      (xs.length == 1 && xs.all fun x => match loadBytes { rich with dies := near.dies } x.addr x.attr 4 plainBound with | .bytes _ => true | _ => false) = true) ∧
    behindRelease base load0 = false ∧ behindRelease (releasing base) load0 = true :=
  ⟨chain_of (by decide +kernel), chain_of (by decide +kernel), by decide +kernel⟩

/-- A line of a rounded page that serves the load, one that is behind and waits for pushed data, and one that is behind. -/
theorem witness_LoadsReadCoherentMemory_rounds :
    (let s (f : BitVec 32) (p push : Bool) : State := { rounds with
       dirs := [{ newDir 0 true push with sharers := 1, round := 3 }]
       dies := modAt rounds.dies 0 fun x => { x with l2 := [{ heldLine with modified := false, f := f, pending := p }], mirrors := [(0, 3)] } }
     roundedPage (s 3 false false) 0 false = true ∧ (findL2 (s 3 false false) 0 0).isSome = true ∧ mirrorOf (s 3 false false) 0 0 = some 3 ∧
     readLine (s 3 false false) 0 0 plainBound 0 = .bytes heldLine.bytes ∧ readLine (s 2 true true) 0 0 { k := 0, stale := true } 0 = .waits ∧
     readLine (s 2 false true) 0 0 plainBound 0 = .missing) ∧
    findL2 base 0 0 = none ∧ modifiedAt base 0 = none ∧ onWayHome base 0 = none ∧ base.b.die < base.dies.length ∧ homeOf 0 = base.b.die ∧
    (getDie base 0).reads.contains 0 = false := by decide +kernel

theorem witness_StoresGoInFlight_releases : Released base ∧ ¬ Released (releasing base) :=
  ⟨released_of (by decide +kernel), not_released_of (by decide +kernel)⟩

/-- An atomic of scratch that its ORD keeps behind a store, and one of no lane. -/
theorem witness_ScratchAccesses_order : OrdMet withScratch .rel ∧ ¬ OrdMet (releasing withScratch) .rel ∧ ¬ OrdMet (releasing withScratch) .plain ∧
    OrdMet (releasing withScratch) .acq ∧ active withScratch 1 = 0 ∧
    (∃ a xs, readA withScratch .zero .addr .i64 = .ok a ∧ checkScratchLanes withScratch (active withScratch 1) a 0 8 2 = .ok xs ∧ xs.isEmpty = true) :=
  ⟨released_of (by decide +kernel), not_released_of (by decide +kernel), not_synced_of (by decide +kernel), trivial, by decide +kernel,
    chain_of (by decide +kernel)⟩

/-- Atomics of a line that the die holds and owns, of one that it lacks, and of bytes that an own store in flight has yet to write. -/
theorem witness_AtomicsReadModifyWrite_homes : OrdMet rich .plain ∧ ¬ OrdMet (releasing rich) .plain ∧ ¬ OrdMet (releasing rich) .acqrel ∧
    (∃ a xs, readA rich .zero .addr .n32 = .ok a ∧ checkLanes rich (active rich 2) a 0 4 2 false = .ok xs ∧
      (atomAsks (cacheAll rich xs) xs != [] && (xs.any fun x => storeOver (releasing rich) x.addr 4) && (xs.all fun x => !storeOver rich x.addr 4) &&
        atomAsks (cacheAll (lined 0 rich) xs) xs == []) = true) ∧ (0 : Nat) < 8 ∧ 120 % 128 + 8 ≤ 128 ∧ MayStore (storing held []) 0 120 :=
  ⟨synced_of (by decide +kernel), not_synced_of (by decide +kernel), not_released_of (by decide +kernel), chain_of (by decide +kernel), by decide,
    by decide, storing_mayStore [] 120 (by decide) (by decide +kernel)⟩

/-- A scalar load that finds its line and one that asks for it; RADV of a host window. -/
theorem witness_ScalarLoadsCacheControlAndRounds_homes :
    (∃ x, checkGlobal base 0 (addOff (scal base 0) 0) 4 0 true = .ok x ∧ (loadBytes (cacheXlat base 1 x.va) x.addr x.attr 4 plainBound == .missing &&
      match loadBytes (cacheXlat near 1 x.va) x.addr x.attr 4 plainBound with | .bytes _ => true | _ => false) = true) ∧
    Released rich ∧ ¬ Released (releasing rich) ∧ (passing rich 0 [] 0 = []) ∧ isHost (hostBase 0) = true :=
  ⟨ok_of (by decide +kernel), released_of (by decide +kernel), not_released_of (by decide +kernel), by decide +kernel⟩

theorem witness_FencesBarriersAndTheirWords_releases : Released bars ∧ ¬ Released (releasing bars) ∧ Synced bars ∧ ¬ Synced (releasing bars) ∧
    membersWait bars = false ∧ Synced (storing bars [storeAt 9 0 0 [1]]) ∧ ¬ Released (storing bars [storeAt 9 0 0 [1]]) ∧
    membersWait { withPending with w := { withPending.w with pend := withPending.w.pend.map fun r => { r with ready := false, lineWaits := [(0, 0, 0, .f32)] } } } = true :=
  ⟨released_of (by decide +kernel), not_released_of (by decide +kernel), synced_of (by decide +kernel), not_synced_of (by decide +kernel),
    by decide +kernel, synced_of (by decide +kernel), not_released_of (by decide +kernel), by decide +kernel⟩

/-- Room and a FIFO's elements with a store in flight, and with none; a FIFO-mode bank of no FIFO. -/
theorem witness_FifosAndBankModes_releases : Released (fifoState []) ∧ ¬ Released (releasing (fifoState [])) ∧ Synced (fifoState [7]) ∧
    ¬ Synced (releasing (fifoState [7])) ∧ ((ofB fun b => { b with bankModes := [.fifo] }).b.fifos.find? fun f => decide (f.first ≤ 0 ∧ 0 ≤ f.last)) = none :=
  ⟨released_of (by decide +kernel), not_released_of (by decide +kernel), synced_of (by decide +kernel), not_synced_of (by decide +kernel), by decide +kernel⟩

theorem witness_SystemInstructions_releases : Released base ∧ ¬ Released (releasing base) ∧ (translateClean ringOn 1 0x4000 1).isOk = true :=
  ⟨released_of (by decide +kernel), not_released_of (by decide +kernel), by decide +kernel⟩

/-- A descriptor of 32 rows of records in a space: rows of 66 bytes from byte 0, super-scales from byte 2304, counts from byte 2560. -/
def recDesc (space layout fmt cols : Nat) : List Word :=
  [0, BitVec.ofNat 64 (cols + 32 * 2 ^ 32), 1 + 2 ^ 32, 66, 0, 0, 2304, 2560, BitVec.ofNat 64 (space + layout * 2 ^ 2 + fmt * 2 ^ 4 + 2 ^ 8 + 2 ^ 10),
   32 + 32 * 2 ^ 16 + 2 ^ 32 + 2 ^ 48]
/-- A stream inside instruction i with these descriptors. -/
def inStep (i : Instr) (da db : List Word) : State := atStream i fun b => { b with
  stream := b.stream.map fun m => { m with began := true, descA := da, descB := db } }
def regionOf (af : BitVec 4) (shape : BitVec 5) : RegionArgs := { region0 with af := af, shape := shape }
def mmaOf (af bf : BitVec 4) : MmaArgs := { mma0 with af := af, bf := bf }
/-- A descriptor of a 32 × 32 matrix of i8 in a space: rows of 32 bytes from byte 0. -/
def byteDesc (space : Nat) : List Word := (matDesc space).modify 3 (fun _ => 32) |>.modify 8 (fun w => w &&& ~~~0xF0)

/-- MMAQ and QSTORE with descriptors that they accept. -/
theorem witness_StreamInstructionsBegin_records :
    (mmaPlan true (mmaOf 12 11) (inStep (.mmaq (mmaOf 12 11)) [] []) (descOf (recDesc 1 1 9 64)) (descOf (recDesc 2 2 11 64))).isOk = true ∧
    (qstorePlan (regionOf 12 0) (inStep .mend [] []) (descOf (recDesc 1 1 9 32)) (descOf [])).isOk = true ∧
    (qstorePlan (regionOf 11 4) (inStep .mend [] []) (descOf (recDesc 1 2 11 64)) (descOf [])).isOk = true := by decide +kernel

theorem blocksWf_of {s : State} (h : ((allBlocks s).all fun b => Memory.wf b.scratch && Memory.wf b.bplane) = true) : BlocksWf s := fun b hb => by
  simpa only [Bool.and_eq_true] using List.all_eq_true.mp h b hb

/-- An i8 step, the only and the first step of regions, a step that stores with the flag, record steps of both forms; an entry that
waits. -/
theorem witness_MatrixStepsRun_regions :
    (mmaStep false (mmaOf 0 0) (inStep (.mma (mmaOf 0 0)) (byteDesc 1) (byteDesc 2)) 0).isOk = true ∧ kBlock false 0 0 = some 32 ∧
    (accldStep region0 (inStep (.accld region0) (matDesc 1) []) 0).isOk = true ∧ 0 < regionSteps region0 ∧ 0 + 1 = regionSteps region0 ∧
    (accstStep region0 true (inStep (.accst region0 true) (matDesc 1) []) 0).isOk = true ∧ regionShapeBad 0 0 0 = false ∧ regionShapeBad 4 0 0 = false ∧
    (qstoreStep (regionOf 12 0) true (inStep (.qstore (regionOf 12 0) true) (recDesc 1 1 9 32) []) 0).isOk = true ∧
    (qstoreStep (regionOf 11 4) false (inStep (.qstore (regionOf 11 4) false) (recDesc 1 2 11 64) []) 0).isOk = true ∧
    0 < qstoreSteps (regionOf 12 0) ∧ 0 < qstoreSteps (regionOf 11 4) ∧
    (let s := { stepping (.mma mma0) id with footprints := [{ streamFp 9 with waiting := true }] }
     ((streamEntry (focusStream s 1)).map (·.waiting)) = some true) ∧ BlocksWf (inStep .mend [] []) := by
  refine ⟨by decide +kernel, by decide +kernel, by decide +kernel, by decide +kernel, by decide +kernel, by decide +kernel, by decide +kernel,
    by decide +kernel, by decide +kernel, by decide +kernel, by decide +kernel, by decide +kernel, by decide +kernel, blocksWf_of (by decide +kernel)⟩

theorem witness_WaitsEnd_words : fetchPoison (focusStream streamWaiting 1) (focusStream streamWaiting 1).b (stream (focusStream streamWaiting 1)).pc = false ∧
    (streamEntry (focusStream streamWaiting 1)).all (fun e => !e.waiting) = true := by decide +kernel

/-- The whole of line 0, and its last byte, as the place of a run; a byte of scratch and of the B-plane. -/
def lineSpan : Span := { pos := 0, len := 128, src := 0, dst := 0, zero := false, skip := false }
/-- A job of n bytes whose first chunk has been read and has these targets. -/
def landingJob (n : Nat) (bar : Option (BitVec 5)) (xs : List (Span × List Place)) : State :=
  jobState n fun j => { j with bar := bar, begun := [{ num := 0, bytes := List.replicate (min 4096 n) 1, targets := xs }] }

theorem witness_SluiceJobsAdvance_lands : LinesOk held ∧ BlocksWf held ∧ held.b.die < 8 ∧ held.b.die < held.dies.length ∧ getBlock held held.b.uid = some held.b ∧
    lineSpan.pos - 0 + (([Place.mem 0 128 0, .mem 127 1 0, .scratch 1 0 1, .bplane 0 1] : List Place).map placeLen).sum ≤ (List.replicate 131 (1 : Byte)).length ∧
    (getBlock held 1).isSome = true ∧ placeReady held held.b.die (.mem 0 128 0) = true ∧ placeReady held held.b.die (.mem 127 1 0) = true ∧
    HoldsCurrent held held.b.die 0 ∧ onWayHome held 0 = none ∧ linesAt 0 128 = [0] ∧ linesAt 127 1 = [0] ∧
    placeReady (landingJob 1 none []) 0 (.mem 0 1 0) = false := by
  refine ⟨held_linesOk, ?_, ?_⟩
  · exact blocksWf_of (by decide +kernel)
  refine ⟨by decide, by decide, by decide +kernel, by decide +kernel, by decide +kernel, by decide +kernel, by decide +kernel, ?_, ?_⟩
  · exact held_current 0 (by decide)
  · decide +kernel

/-- The last chunk of a job of 1 byte and the first of a job of 4097, of no barrier and of one. -/
theorem witness_SluiceJobsAdvance_ends :
    (let s := landingJob 1 none []
     (getJob s.b 0).isSome = true ∧ (jobOf s).landed = [] ∧ (jobOf s).landedHead = 0 * 4096 ∧ 0 * 4096 < (jobOf s).len ∧ (jobOf s).kind ≠ 4 ∧
     (jobOf s).faulted = false ∧ min (jobOf s).len ((0 + 1) * 4096) = (jobOf s).len ∧ s.b.st = .running ∧ (getGang s s.b.gang).all (·.blocks.contains s.b.uid)) ∧
    (let s := landingJob 4097 (some 2) []
     min (jobOf s).len ((0 + 1) * 4096) < (jobOf s).len ∧ (jobOf s).bar = some 2) ∧
    (barAt bars bars.b 2).isSome = true := by decide +kernel

/-- As base with two partitions, dies 0 to 3 in the first. -/
def divided : State := { base with datum := { base.datum with partDie := [0, 0, 0, 0, 1, 1, 1, 1] } }
/-- Message NOP and another on their way from die 0 to die 4. -/
def onRoute (s : State) : State := { s with routes := [{ src := 0, dst := 4, next := 2, expect := 0, packets := [(1, .mend), (0, .nop)] }] }

/-- A route between dies of one partition and of two; a link of it whole, failed, and failed with no failover path; its packets. -/
theorem witness_LinksRetrainAndDeliver_routes : linksClosed base 0 4 = false ∧ linksClosed divided 0 4 = true ∧ (0 : Nat) ≠ 4 ∧
    (routeLinks base 0 4).isSome = true ∧ ((List.range 32).all fun i => !(getLink base i).failed) = true ∧
    (routeLinks (linkState fun x => { x with failed := true }) 0 4) = none ∧
    routeStopped (onRoute base) 0 4 = false ∧ routeStopped (onRoute divided) 0 4 = false ∧
    ((onRoute base).routes.find? fun r => r.src == 0 && r.dst == 4).map (fun r => (r.expect, r.packets.find? fun p => p.1 == r.expect)) =
      some (0, some (0, .nop)) := by decide +kernel

/-- A clean line and a modified one, and errors that they hold; gangs with one owner; a store of a warp that is gone. -/
theorem witness_LaunchesAreScheduled_errors : (modifiedAt base ((0 : Word).toNat / 128)).isNone = true ∧ (modifiedAt held ((0 : Word).toNat / 128)).isNone = false ∧
    (8 : BitVec 4) ≠ 4 ∧ (base.launches.all fun l => !l.completed) = true ∧
    (base.gangs.filter fun g => !g.blocks.isEmpty && g.uid == 3).length = 1 ∧
    ({ base with launches := [{ placedLaunch with completed := true }] }.launches.all (·.completed)) = true ∧
    (let s := storing base [{ storeAt 9 0 0 [1] with warp := 7 }]
     (s.inflight.any fun a => a.vf == 1 && (getWarp s a.warp).isNone) = true) ∧
    (storing base [storeAt 9 0 0 [1]]).inflight.all (fun a => (getWarp base a.warp).isSome) = true ∧
    ((placing id).gangs.all fun g => g.uid < (placing id).nextId) = true := by decide +kernel

/-- A faulted job with no chunk begun; a slice whose outgoing VF is not saved on a die, and one with an earlier tick's VF. -/
theorem witness_SlicesAreHandedOver_ticks :
    ((jobState 1 fun j => { j with faulted := true }).b.jobs.all fun j => j.begun.isEmpty) = true ∧
    (let s := { sliceState (fun x => { x with outgoing := 1 }) with
        b := { base.b with st := .switched }, w := { base.w with saved := false } }
     1 ≠ (getPart s 0).vfnum ∧ (partDies s 0).any (fun d => unsaved s 1 d) = true ∧
     ([{ vf := 1, since := 0, deadline := false }] : List OldTick).any (fun o => unsaved s o.vf 0) = true ∧
     ([{ vf := 1, since := 0, deadline := false }] : List OldTick).any (fun o => unsaved s o.vf 7) = false) ∧
    ([{ vf := 1, since := 0, deadline := false }] : List OldTick).filter (fun o => !o.deadline && decide (o.since + 135000 ≤ 135000)) ≠ [] := by
  decide +kernel

/-- Doorbells and writes that wait at a link: behind others, and for a credit; a PIECE_ACK that lets one go; a VF's piece
and a PF's; a poisoned word. -/
theorem witness_HostRequestsAreServed_waits :
    (let s := { vf1 id with ords := [{ nextSeq := 0, pieces := [], waits := [.door 1 true 0] }, { nextSeq := 0, pieces := [], waits := [] }] }
     (getOrd s 0).waits ≠ [] ∧ (theVf s).link < s.ords.length) ∧
    (let s := { vf1 id with ords := [{ nextSeq := 0, pieces := List.replicate 4096 piece0, waits := [] }, { nextSeq := 0, pieces := [], waits := [] }] }
     (getOrd s 0).waits = [] ∧ 4096 ≤ (getOrd s 0).pieces.length ∧ served s 1 = true) ∧
    (let s := { withPiece piece0 with ords := [{ nextSeq := 6, pieces := [piece0], waits := [.door 1 true 0] }, { nextSeq := 0, pieces := [], waits := [] }] }
     (getOrd s 0).waits = [.door 1 true 0] ∧ (getOrd s 0).pieces = [piece0]) ∧
    (served base 1 = false ∧ (getOrd base (theVf base).link).waits = []) ∧
    (let s := { vf1 id with poisoned := [0x3000] }
     hasPoison s 0x3007 1 = true ∧ hasPoison s 0x3040 1 = false ∧
     (match translateClean s 1 0x3007 0 with | .ok (_, seg, _) => decide (seg < 2) | .error _ => false) = true) ∧
    (slotPart yielded 2 .a).isNone = true ∧ piece0.vf ≠ 0 ∧ ({ piece0 with vf := 0 } : Piece).vf = 0 := by decide +kernel

/-- A module that has booted, free, with a command queued, and with a checkpoint; no write at a link. -/
theorem witness_DatumCommandsAnswer_ready :
    (let s : State := { base with sal := { base.sal with ready := true } }
     s.sal.ready = true ∧ (getBox s 0).busy = false ∧ s.datum.queue = [] ∧ s.ckp.busy = false ∧ s.ords.all (fun o => o.pieces.isEmpty && o.waits.isEmpty) = true ∧
     (0 : Fin 2).val < s.datum.boxes.length) ∧ base.sal.ready = false ∧
    ({ base.ckp with busy := true } : Ckp).busy = true ∧
    (let s := { source .paused with poisoned := [0] }
     pagePoisoned s (theVf s) (0, 0) = true) ∧ pagePoisoned (source .paused) (theVf (source .paused)) (0, 0) = false := by decide +kernel

/-- A PF write with one before it that waits. -/
theorem witness_ManagementActs_waits :
    (let s := { base with ords := [{ nextSeq := 0, pieces := [], waits := [.pf 0 [1]] }, { nextSeq := 0, pieces := [], waits := [] }] }
     (getOrd s 0).waits ≠ [] ∧ (0 : Fin 2).val < s.ords.length ∧ 0 + [(1 : Byte)].length ≤ 2 ^ 42) := by decide +kernel

end Sys2Proof.Tests
end

/-! Reads of registers (R4, R331) and of the memory array (R356). A register is a word of fields, each below the next; what a read
returns is then one lemma per register whose fields share a word, and one per bank whose offset has an index. -/

namespace Sys2Proof.Machine

/-! ## The fields of a word -/

/-- The bits of a Nat from lo on, n of them, as fld reads them from the word of that Nat. -/
theorem toNat_fld_ofNat (x lo n : Nat) (h : lo + n ≤ 64) : (fld (BitVec.ofNat 64 x) lo n).toNat = x / 2 ^ lo % 2 ^ n := by
  rw [fld, BitVec.extractLsb'_toNat, BitVec.toNat_ofNat, Nat.shiftRight_eq_div_pow]
  apply Nat.eq_of_testBit_eq
  intro i
  simp only [Nat.testBit_mod_two_pow, Nat.testBit_div_two_pow]
  by_cases hi : i < n
  · simp [hi, show i + lo < 64 by omega]
  · simp [hi]

/-- The number that the given fields make up. -/
def fieldSum (fs : List (Nat × Nat)) : Nat := (fs.map fun f => f.2 * 2 ^ f.1).sum

theorem fields_eq_ofNat_fieldSum (fs : List (Nat × Nat)) : fields fs = BitVec.ofNat 64 (fieldSum fs) := by
  rw [fields, fieldSum, List.sum_eq_foldl, List.foldl_map]

theorem fieldSum_cons (f : Nat × Nat) (fs : List (Nat × Nat)) : fieldSum (f :: fs) = f.2 * 2 ^ f.1 + fieldSum fs := by
  rw [fieldSum, List.map_cons, List.sum_cons, ← fieldSum]

/-- Fields that all stand from bit k up make up a multiple of 2 ^ k. -/
theorem two_pow_dvd_fieldSum {k : Nat} {fs : List (Nat × Nat)} (h : ∀ f ∈ fs, k ≤ f.1) : 2 ^ k ∣ fieldSum fs := by
  induction fs with
  | nil => exact Nat.dvd_zero _
  | cons f fs ih =>
    rw [fieldSum_cons]
    have hhead : 2 ^ k ∣ 2 ^ f.1 := Nat.pow_dvd_pow 2 (h f List.mem_cons_self)
    have htail : 2 ^ k ∣ fieldSum fs := ih fun g hg => h g (List.mem_cons_of_mem f hg)
    exact Nat.dvd_add (Nat.dvd_mul_left_of_dvd hhead f.2) htail

/-- The lowest field of a word is read at its place. -/
theorem toNat_fld_fields_head {k n v : Nat} {fs : List (Nat × Nat)} (hv : v < 2 ^ n) (hk : k + n ≤ 64) (h : ∀ f ∈ fs, k + n ≤ f.1) :
    (fld (fields ((k, v) :: fs)) k n).toNat = v := by
  obtain ⟨c, hc⟩ := two_pow_dvd_fieldSum h
  have hsum : fieldSum ((k, v) :: fs) = 2 ^ k * (v + 2 ^ n * c) := by
    rw [fieldSum_cons, hc, Nat.pow_add, Nat.mul_add, Nat.mul_assoc, Nat.mul_comm v]
  rw [fields_eq_ofNat_fieldSum, toNat_fld_ofNat _ _ _ hk, hsum, Nat.mul_div_cancel_left _ (Nat.two_pow_pos k),
    Nat.add_mul_mod_self_left, Nat.mod_eq_of_lt hv]

/-- A field that ends below a place is not seen there. -/
theorem fld_fields_skip {j m u k n : Nat} {fs : List (Nat × Nat)} (hu : u < 2 ^ m) (hj : j + m ≤ k) (hk : k + n ≤ 64)
    (h : ∀ f ∈ fs, j + m ≤ f.1) : fld (fields ((j, u) :: fs)) k n = fld (fields fs) k n := by
  obtain ⟨c, hc⟩ := two_pow_dvd_fieldSum h
  have hlow : u * 2 ^ j < 2 ^ (j + m) := by
    rw [Nat.pow_add, Nat.mul_comm]; exact Nat.mul_lt_mul_of_pos_left hu (Nat.two_pow_pos j)
  apply BitVec.eq_of_toNat_eq
  rw [fields_eq_ofNat_fieldSum, fields_eq_ofNat_fieldSum, toNat_fld_ofNat _ _ _ hk, toNat_fld_ofNat _ _ _ hk, fieldSum_cons, hc,
    show k = j + m + (k - (j + m)) by omega, Nat.pow_add 2 (j + m), ← Nat.div_div_eq_div_mul, ← Nat.div_div_eq_div_mul,
    Nat.add_mul_div_left _ _ (Nat.two_pow_pos _), Nat.div_eq_of_lt hlow, Nat.zero_add, Nat.mul_div_cancel_left _ (Nat.two_pow_pos _)]

@[simp] theorem fld_fields_nil (k n : Nat) : fld (fields []) k n = 0 := by
  simp [fld, fields]

@[simp] theorem fld_fields_head {k n : Nat} {x : BitVec n} {fs : List (Nat × Nat)} (hk : k + n ≤ 64) (h : ∀ f ∈ fs, k + n ≤ f.1) :
    fld (fields ((k, x.toNat) :: fs)) k n = x :=
  BitVec.eq_of_toNat_eq (toNat_fld_fields_head x.isLt hk h)

@[simp] theorem fld_fields_skip_bitVec {j m k n : Nat} {x : BitVec m} {fs : List (Nat × Nat)} (hj : j + m ≤ k) (hk : k + n ≤ 64)
    (h : ∀ f ∈ fs, j + m ≤ f.1) : fld (fields ((j, x.toNat) :: fs)) k n = fld (fields fs) k n :=
  fld_fields_skip x.isLt hj hk h

@[simp] theorem fld_fields_skip_bool {j k n : Nat} {b : Bool} {fs : List (Nat × Nat)} (hj : j + 1 ≤ k) (hk : k + n ≤ 64)
    (h : ∀ f ∈ fs, j + 1 ≤ f.1) : fld (fields ((j, b.toNat) :: fs)) k n = fld (fields fs) k n :=
  fld_fields_skip b.toNat_lt hj hk h

/-- A flag of a register is its field of one bit. -/
@[simp] theorem getElem_fields (fs : List (Nat × Nat)) (k : Nat) (hk : k < 64) : (fields fs)[k] = (fld (fields fs) k 1)[0] := by
  simp only [fld, BitVec.getElem_extractLsb', Nat.add_zero, BitVec.getLsbD_eq_getElem hk]

@[simp] theorem fld_fields_flag {k : Nat} {b : Bool} {fs : List (Nat × Nat)} (hk : k + 1 ≤ 64) (h : ∀ f ∈ fs, k + 1 ≤ f.1) :
    fld (fields ((k, b.toNat) :: fs)) k 1 = BitVec.ofBool b := by
  rw [← BitVec.toNat_ofBool]; exact fld_fields_head hk h

/-! ## Registers whose fields share a word -/

theorem ringCfg_fields (h : Hif) : fld (readHif h 0x10) 0 5 = h.sqLog2 ∧ fld (readHif h 0x10) 8 5 = h.cqLog2 ∧
    (readHif h 0x10).getLsbD 31 = h.enable := by
  simp [readHif]

theorem ringStat_fields (h : Hif) : (readHif h 0x38).getLsbD 0 = h.fault ∧ fld (readHif h 0x38) 1 3 = h.reason ∧
    fld (readHif h 0x38) 16 10 = h.cause := by
  simp [readHif]

theorem inbErr_fields (h : Hif) : fld (readHif h 0x48) 0 16 = h.inbCount ∧ fld (readHif h 0x48) 16 10 = h.inbCause ∧
    (readHif h 0x48).getLsbD 31 = false := by
  simp [readHif]

/-- Both counts of TRN.STAT saturate at the width of their fields. -/
theorem trnStat_fields (s : State) (v : Vf) :
    (fld (trnStat s v) 0 16 : BitVec 16).toNat = min 0xFFFF (yieldedSlots s v.number fun _ => true).length ∧
    (fld (trnStat s v) 16 16 : BitVec 16).toNat = min 0xFFFF v.trn.waiting.length := by
  have hfit (n : Nat) : min 0xFFFF n < 2 ^ 16 := by omega
  constructor
  · exact toNat_fld_fields_head (hfit _) (by decide) (by simp)
  · rw [trnStat, fld_fields_skip (hfit _) (by decide) (by decide) (by simp)]
    exact toNat_fld_fields_head (hfit _) (by decide) (by simp)

theorem mailboxStat_fields (b : Mailbox) : (readMailbox b 0x48).getLsbD 0 = b.busy ∧ (readMailbox b 0x48).getLsbD 1 = b.done ∧
    fld (readMailbox b 0x48) 8 8 = b.status ∧ fld (readMailbox b 0x48) 32 32 = b.seq := by
  simp [readMailbox]

theorem sensVal_fields (s : State) : (fld (readSaltern s 0x48) 0 32, fld (readSaltern s 0x48) 32 2) =
    s.sal.sensors.getD s.sal.sensSel.toNat (0, 0) := by
  simp [readSaltern]

theorem ckpStat_fields (s : State) : (readSaltern s 0x108).getLsbD 0 = s.ckp.busy ∧ (readSaltern s 0x108).getLsbD 1 = s.ckp.done ∧
    fld (readSaltern s 0x108) 32 32 = s.ckp.ms := by
  simp [readSaltern]

theorem timStat_fields (s : State) : (readSaltern s 0x1008).getLsbD 0 = s.tim.locked ∧ (readSaltern s 0x1008).getLsbD 1 = s.tim.holdover ∧
    fld (readSaltern s 0x1008) 32 32 = s.tim.offset := by
  simp [readSaltern]

/-! ## The banks of PF BAR0 (Table 18-2) -/

theorem readPfReg_counterPage (s : State) (pf : Fin 2) {part n : Nat} (hp : part < 8) (hn : n < 256) :
    readPfReg s pf (0x10000 + 0x800 * part + 8 * n) = pageWord (getPart s part).page n := by
  rw [readPfReg, if_neg (by omega), if_neg (by omega), if_pos (by omega), readCounterPage, ← pageWord,
    show (0x10000 + 0x800 * part + 8 * n - 0x10000) / 0x800 = part by omega,
    show (0x10000 + 0x800 * part + 8 * n) % 0x800 / 8 = n by omega]

theorem readPfReg_operator (s : State) (pf : Fin 2) {offset : Nat} (h8 : offset % 8 = 0) (h : offset < 0x1000000) :
    readPfReg s pf (0x1000000 + offset) = readOperator s offset := by
  rw [readPfReg, if_neg (by omega), if_neg (by omega), if_neg (by omega), if_pos (by omega), Nat.add_sub_cancel_left]

theorem readPfReg_sched (s : State) (pf : Fin 2) {part r : Nat} (hp : part < 8) (hr : r < 0x40) (h8 : r % 8 = 0) :
    readPfReg s pf (0x1000100 + r + 0x40 * part) = readSched (getPart s part) r := by
  rw [show 0x1000100 + r + 0x40 * part = 0x1000000 + (0x100 + r + 0x40 * part) by omega, readPfReg_operator s pf (by omega) (by omega),
    readOperator, if_neg (by omega), if_neg (by omega), if_neg (by omega), if_neg (by omega), if_pos (by omega),
    show (0x100 + r + 0x40 * part - 0x100) / 0x40 = part by omega, show (0x100 + r + 0x40 * part - 0x100) % 0x40 = r by omega]

theorem readPfReg_smpCfg (s : State) (pf : Fin 2) {part : Nat} (hp : part < 8) :
    readPfReg s pf (0x1006000 + 8 * part) = zx64 (getPart s part).smpN := by
  rw [show 0x1006000 + 8 * part = 0x1000000 + (0x6000 + 8 * part) by omega, readPfReg_operator s pf (by omega) (by omega)]
  simp (disch := omega) only [readOperator, if_neg, if_pos]
  rw [show (0x6000 + 8 * part - 0x6000) / 8 = part by omega]

theorem readPfReg_cdsStat (s : State) (pf : Fin 2) {die : Nat} (hd : die < 10) :
    readPfReg s pf (0x1008000 + 8 * die) = fields [(0, (getDie s die).handoffs.toNat), (32, (getDie s die).recalls.toNat)] := by
  rw [show 0x1008000 + 8 * die = 0x1000000 + (0x8000 + 8 * die) by omega, readPfReg_operator s pf (by omega) (by omega)]
  simp (disch := omega) only [readOperator, if_neg, if_pos]
  rw [show (0x8000 + 8 * die - 0x8000) / 8 = die by omega]

theorem cdsStat_fields (s : State) (pf : Fin 2) {die : Nat} (hd : die < 10) :
    fld (readPfReg s pf (0x1008000 + 8 * die)) 0 32 = (getDie s die).handoffs ∧
    fld (readPfReg s pf (0x1008000 + 8 * die)) 32 24 = (getDie s die).recalls := by
  simp [readPfReg_cdsStat s pf hd]

/-! ## Which reads are answered -/

/-- A read of a register is answered, with a word that satisfies p. -/
def ReadsAs (s : State) (target : RegTarget) (offset : Nat) (p : Word → Prop) : Prop :=
  ∃ w, readRegister s target offset = some w ∧ p w

theorem readRegister_vf (s : State) (vf : Nat) (bound : Bool) (offset : Nat) :
    readRegister s (.vf vf bound) offset = (getVf s vf).bind fun v => if bound && served s vf then some (readVfReg s v offset) else none := by
  rw [readRegister]; cases getVf s vf <;> rfl

theorem readRegister_vf_unserved {s : State} {vf : Nat} {bound : Bool} (h : (bound && served s vf) = false) (offset : Nat) :
    readRegister s (.vf vf bound) offset = none := by
  rw [readRegister_vf, h]; cases getVf s vf <;> rfl

theorem readsAs_vf {s : State} {vf : Nat} {v : Vf} (hs : served s vf = true) (hv : getVf s vf = some v) {offset : Nat} {p : Word → Prop}
    (h : p (readVfReg s v offset)) : ReadsAs s (.vf vf true) offset p :=
  ⟨_, by rw [readRegister_vf, hs, hv]; rfl, h⟩

theorem getVf_number {s : State} {vf : Nat} {v : Vf} (h : getVf s vf = some v) : v.number = vf := by
  simpa using List.find?_some h

theorem readRegister_pf_unreached {s : State} {pf : Fin 2} {offset : Nat} (h : pfReached s pf offset = false) :
    readRegister s (.pf pf) offset = none := by
  rw [readRegister, h]; rfl

theorem readRegister_pf_reached {s : State} {pf : Fin 2} {offset : Nat} (h : pfReached s pf offset = true) :
    readRegister s (.pf pf) offset = some (readPfReg s pf offset) := by
  rw [readRegister, h]; rfl

theorem readsAs_pf {s : State} {pf : Fin 2} {offset : Nat} {p : Word → Prop} (hr : pfReached s pf offset = true)
    (h : p (readPfReg s pf offset)) : ReadsAs s (.pf pf) offset p :=
  ⟨_, readRegister_pf_reached hr, h⟩

/-- No read comes over a link that is not trained, and before the boot ends only Saltern's registers are read (R431). -/
theorem pfReached_eq_false {s : State} {pf : Fin 2} {offset : Nat}
    (h : s.sal.rates.getD pf.val 0 = 0 ∨ s.sal.ready = false ∧ offset < 0x2000000) : pfReached s pf offset = false := by
  rw [pfReached]
  rcases h with h | ⟨h, ho⟩
  · simp only [h, bne_self_eq_false, Bool.false_and]
  · simp only [h, decide_eq_false (Nat.not_le.mpr ho), Bool.or_self, Bool.and_false]

theorem pfReached_of_ready {s : State} {pf : Fin 2} (hl : s.sal.rates.getD pf.val 0 ≠ 0) (hr : s.sal.ready = true) (offset : Nat) :
    pfReached s pf offset = true := by
  rw [pfReached, hr, Bool.true_or, Bool.and_true]; exact bne_iff_ne.mpr hl

theorem exec_registerWrite (target : RegTarget) (offset : Nat) (val : Word) (s : State) :
    exec (.registerWrite target offset val) s = execRegisterWrite target offset val s := rfl

theorem exec_registerWrite_pf {s : State} {pf : Fin 2} {offset : Nat} (hr : pfReached s pf offset = true) (ho : offset < 0x4000000)
    (val : Word) : exec (.registerWrite (.pf pf) offset val) s = writePfReg pf offset val s := by
  rw [exec_registerWrite, execRegisterWrite, if_neg (by omega), if_pos hr]

/-- UPD.ADDR is read back as it was written. -/
theorem updAddr_readBack {s : State} {pf : Fin 2} (hr : ∀ offset, pfReached s pf offset = true) (val : Word) :
    ∃ t, exec (.registerWrite (.pf pf) 0x2000080 val) s = .next t ∧ readRegister t (.pf pf) 0x2000080 = some val :=
  ⟨{ s with sal := { s.sal with updAddr := val } }, exec_registerWrite_pf (hr _) (by decide) val,
    readRegister_pf_reached (hr 0x2000080)⟩

/-! ## PF BAR2 (R356) -/

theorem linesTouched_line (line : Nat) : linesTouched (line * 128) 128 = [line] := by
  rw [linesTouched, if_neg (by decide), show (line * 128 + 128 - 1) / 128 + 1 - line * 128 / 128 = 1 by omega]
  simp

theorem length_readBytes (m : Memory) (a n : Nat) : (readBytes m a n).length = n := by
  induction n generalizing a with
  | zero => rfl
  | succ n ih => rw [readBytes, List.length_cons, ih]

theorem length_fit (n : Nat) (bs : List Byte) : (fit n bs).length = n := by
  simp only [fit, List.length_take, List.length_append, List.length_replicate]; omega

theorem length_storedLine (s : State) (line : Nat) : (storedLine s line).length = 128 := by
  rw [storedLine]
  cases lineKey s line with
  | none => exact length_readBytes ..
  | some key => exact length_fit ..

/-- A read of one whole line gives what the memory array holds of it. -/
theorem readPfBar2_line (s : State) (line : Nat) : readPfBar2 s (line * 128) 128 = storedLine s line := by
  rw [readPfBar2, linesTouched_line, List.flatMap_singleton, Nat.mul_mod_left, List.drop_zero,
    List.take_of_length_le (Nat.le_of_eq (length_storedLine s line))]

/-! ## The statement -/

/-- Settles O60: each clause is the lemma about its register, with the read answered over the link or stream that brings it. -/
theorem registerReadsAnswer : Obligations.RegisterReadsAnswer := by
  intro s
  refine ⟨fun vf offset => ⟨fun h => readRegister_vf_unserved (by rw [h]; rfl) offset, readRegister_vf_unserved rfl offset⟩, ?vf,
    fun pf offset h => readRegister_pf_unreached (pfReached_eq_false h), ?pf, ?bar2⟩
  case vf =>
    intro vf v hs hv
    have read {offset : Nat} {p : Word → Prop} (h : p (readVfReg s v offset)) : ReadsAs s (.vf vf true) offset p := readsAs_vf hs hv h
    exact ⟨read rfl, read rfl,
      read (ringCfg_fields v.hif),
      read rfl, read rfl, read rfl, read rfl,
      read (ringStat_fields v.hif),
      read rfl,
      read (inbErr_fields v.hif),
      read rfl, read rfl,
      read (getVf_number hv ▸ trnStat_fields s v),
      read rfl, read rfl⟩
  case pf =>
    intro pf part hp hl hr
    have reached := pfReached_of_ready hl hr
    have read {offset : Nat} {p : Word → Prop} (h : p (readPfReg s pf offset)) : ReadsAs s (.pf pf) offset p :=
      readsAs_pf (reached offset) h
    exact ⟨read rfl,
      read (mailboxStat_fields _),
      fun n hn => read (readPfReg_counterPage s pf hp hn),
      read (readPfReg_sched s pf (r := 0x00) hp (by decide) rfl), read (readPfReg_sched s pf (r := 0x18) hp (by decide) rfl),
      read (readPfReg_smpCfg s pf hp),
      read (cdsStat_fields s pf (by omega)),
      read rfl, read rfl, read rfl, read rfl, read rfl,
      read (timStat_fields s),
      read rfl,
      read (sensVal_fields s),
      read (ckpStat_fields s),
      updAddr_readBack reached⟩
  case bar2 =>
    intro line
    refine ⟨fun h => ?_, fun key h => ?_⟩ <;> rw [readPfBar2_line, storedLine, h]

end Sys2Proof.Machine
